-- ==== Sys2Proof/Word.lean ====
section
/-! DEFINITION. The widths and index types of the DQ-416 (00_scope.md, Capacities and Fixed Values) and the
little-endian composition of fields (00_scope.md, Conventions: the lowest address holds the least significant byte). -/

namespace Sys2Proof

/-- One byte of exchange memory or of a frame. -/
abbrev Byte := BitVec 8
/-- A 16-bit field. -/
abbrev Half := BitVec 16
/-- A 32-bit field or register. -/
abbrev Word := BitVec 32
/-- A duty, target, rate or converter code, 0–4095. -/
abbrev Duty := BitVec 12

/-- Lanes 0–3. -/
abbrev LaneId := Fin 4
/-- Plan slots 0–21. -/
abbrev SlotId := Fin 22
/-- Drive channels CH0–CH15. -/
abbrev ChanId := Fin 16
/-- Fixture lines FL0–FL7. -/
abbrev LineId := Fin 8
/-- Channel groups 0–3. -/
abbrev GroupId := Fin 4
/-- Step records 0–11 of a slot. -/
abbrev StepId := Fin 12

/-- The lanes in ascending order. -/
def allLanes : List LaneId := [0, 1, 2, 3]
/-- The slots in ascending order. -/
def allSlots : List SlotId :=
  [0, 1, 2, 3, 4, 5, 6, 7, 8, 9, 10, 11, 12, 13, 14, 15, 16, 17, 18, 19, 20, 21]
/-- The channels in ascending order. -/
def allChans : List ChanId := [0, 1, 2, 3, 4, 5, 6, 7, 8, 9, 10, 11, 12, 13, 14, 15]
/-- The lines in ascending order. -/
def allLines : List LineId := [0, 1, 2, 3, 4, 5, 6, 7]
/-- The groups in ascending order. -/
def allGroups : List GroupId := [0, 1, 2, 3]
/-- The step indices in ascending order. -/
def allSteps : List StepId := [0, 1, 2, 3, 4, 5, 6, 7, 8, 9, 10, 11]

/-- Two bytes, low byte first. -/
def half (lo hi : Byte) : Half := hi ++ lo

/-- Four bytes, low byte first. -/
def word (b0 b1 b2 b3 : Byte) : Word := b3 ++ b2 ++ b1 ++ b0

/-- The bytes of a 16-bit field, low byte first. -/
def halfBytes (h : Half) : List Byte := [h.extractLsb' 0 8, h.extractLsb' 8 8]

/-- The bytes of a 32-bit field, low byte first. -/
def wordBytes (w : Word) : List Byte :=
  [w.extractLsb' 0 8, w.extractLsb' 8 8, w.extractLsb' 16 8, w.extractLsb' 24 8]

/-- A table of four, eight or sixteen entries. -/
def vec4 {α : Type} (f : Fin 4 → α) : Vector α 4 := #v[f 0, f 1, f 2, f 3]
def vec8 {α : Type} (f : Fin 8 → α) : Vector α 8 := #v[f 0, f 1, f 2, f 3, f 4, f 5, f 6, f 7]
def vec16 {α : Type} (f : Fin 16 → α) : Vector α 16 :=
  #v[f 0, f 1, f 2, f 3, f 4, f 5, f 6, f 7, f 8, f 9, f 10, f 11, f 12, f 13, f 14, f 15]

end Sys2Proof
end

