-- ==== Sys2Proof/Syntax.lean ====
section
/-! DEFINITION. The commands of the DQ-416: one constructor per row of spec/opcode_table.json, with the operands the
row's rule gives it. -/

namespace Sys2Proof

/-- The commands the part takes, each one indivisible act (95_what_each_step_holds.md). -/
inductive Instr where
  /-- POST (R8): the slot number, bits 15–8 of the command word (R183). -/
  | post (slot : Byte)
  /-- ABORT (R23): the slot number, bits 15–8 of the command word (R183). -/
  | abort (slot : Byte)
  /-- GO (R41): the lane mask, bits 11–8, and the APPLY flag, bit 16 of the command word (R183). -/
  | go (lanes : BitVec 4) (apply : Bool)
  /-- RENEW (R159). -/
  | renew
  /-- LOAD_CONFIG (R177). -/
  | loadConfig
  /-- ENGINE_RESET (R178). -/
  | engineReset
  /-- MONITOR_ON (R157). -/
  | monitorOn
  /-- RESUME (R164). -/
  | resume
  /-- CLEAR_FLAGS (R179). -/
  | clearFlags
  /-- UNKNOWN_COMMAND (R176): a code byte that names no command. -/
  | unknownCommand (code : Byte)
  /-- FINISHED_WRITE (R19): the word written to FINISHED. -/
  | finishedWrite (mask : Word)
  /-- READ_ONLY_REGISTER_WRITE (R171): a WRITE with a good CRC to the register block that names a read-only register. -/
  | readOnlyRegisterWrite (addr : Half) (data : List Byte)
  /-- WRITE_FRAME (R168): address, data bytes (the length byte is their number less one) and the two CRC bytes. -/
  | writeFrame (addr : Half) (data : List Byte) (crc : Half)
  /-- READ_FRAME (R169): address, length byte (length less one) and the header CRC. -/
  | readFrame (addr : Half) (lengthLess1 : Byte) (crc : Half)
  /-- BAD_OPERATION_BYTE (R171): the operation byte. -/
  | badOperationByte (op : Byte)
  /-- EARLY_NCS_RISE (R171): the number of bits received since nCS fell (0: not a frame, R166). -/
  | earlyNcsRise (bits : Nat)
  /-- DEVICE_RESET (R181). -/
  | deviceReset
  /-- DEVICE_RESET_END (R181): SAFESTRAP's level (R156) and each line's first sample (R132). -/
  | deviceResetEnd (strap : Bool) (levels : BitVec 8)
  /-- TICK (R28). -/
  | tick
  /-- RAMP_MOVE (R72). -/
  | rampMove
  /-- STEP_TIMEOUT (R42) of a lane. -/
  | stepTimeout (lane : LaneId)
  /-- PLAN_TIMEOUT (R43) of a lane. -/
  | planTimeout (lane : LaneId)
  /-- DELAY_EXPIRY (R39) of a lane. -/
  | delayExpiry (lane : LaneId)
  /-- TRIGGER_DELAY_EXPIRY (R96) of a lane. -/
  | triggerDelayExpiry (lane : LaneId)
  /-- CONFIRMATION_EXPIRY (R98) of a lane. -/
  | confirmationExpiry (lane : LaneId)
  /-- SAMPLE_WAIT_EXPIRY (R102). -/
  | sampleWaitExpiry
  /-- CONVERSION_END (R101): the code the converter produces. -/
  | conversionEnd (code : Duty)
  /-- LEVEL_CHANGE (R132) of a line: its sampled level becomes the opposite one. -/
  | levelChange (line : LineId)
  /-- GROUP_PERIOD_START (R67) of a group. -/
  | groupPeriodStart (group : GroupId)
  /-- CHANNEL_PERIOD_START (R68) of a channel, with the time its pin was high and low in the period that ends (R122). -/
  | channelPeriodStart (chan : ChanId) (high low : Nat)
  /-- MEASUREMENT_END (R122). -/
  | measurementEnd
  /-- LINK_START_DONE (R144). -/
  | linkStartDone
  /-- LINK_BYTE_SENT (R147): whether LDA read low in the ninth clock. -/
  | linkByteSent (ack : Bool)
  /-- LINK_BYTE_READ (R148): the byte read. -/
  | linkByteRead (byte : Byte)
  /-- LINK_RESTART_DONE (R146). -/
  | linkRestartDone
  /-- RECOVERY_COMPLETE (R145). -/
  | recoveryComplete
  /-- LINK_STOP_COMPLETE (R149). -/
  | linkStopComplete
  /-- BUS_STUCK (R150). -/
  | busStuck
  /-- POLL_INTERVAL_EXPIRY (R151) of a lane. -/
  | pollIntervalExpiry (lane : LaneId)
  /-- MONITOR_EXPIRY (R160). -/
  | monitorExpiry
  /-- LINK_READ_ACK_BIT_END (R148). -/
  | linkReadAckBitEnd
  deriving DecidableEq, Repr

end Sys2Proof
end

