-- ==== Sys2Proof/Decode.lean ====
section
/-! DEFINITION. The decoder from table words. spec/opcode_table.json gives no row any bits, so no word spells a
command. (The bytes of frames and the word of the COMMAND register are decoded in Machine/PortFrames.lean, by R183.) -/

namespace Sys2Proof

/-- The command a word spells by the table's bits: none, since no row of the table gives bits. -/
def decodeTableWord (_nbits _w : Nat) : Option Instr := none

end Sys2Proof
end

