-- ==== Sys2Proof/Config.lean ====
section
/-! DEFINITION. What the part fixes (00_scope.md, Capacities and Fixed Values) and the free values: the values the
spec leaves open, opaque constants no proof can see. -/

namespace Sys2Proof

/-- What a tick boundary finds of a wire that the link has released and that must read high before it goes on (R142). -/
inductive WireWait where
  /-- the link waits for no wire -/
  | none
  /-- it waits, by a release since the boundary before -/
  | begun
  /-- it waits by the release by which it waited at the boundary before -/
  | goesOn
  deriving DecidableEq, Repr, Inhabited

namespace Config

/-- ID register (R173): family DFh, part 16h, revision 01h. -/
def idValue : Word := 0x00DF1601#32

/-- Address of the exchange memory's areas and of the register block (R1). -/
def configPageBase : Nat := 0x0000
def configPageSize : Nat := 0x200
def slotAreaBase : Nat := 0x0200
def slotSize : Nat := 0x200
def slotAreaEnd : Nat := 0x2E00
def statusPageBase : Nat := 0x2E00
def statusPageSize : Nat := 0x200
def captureBase : Nat := 0x3000
def windowSize : Nat := 0x400
def captureEnd : Nat := 0x4000
def registerBase : Nat := 0x7F00
def registerEnd : Nat := 0x7F1C

/-- Slots a lane queue holds (R12, R15). -/
def queueCapacity : Nat := 8
/-- Steps a plan slot holds (R10). -/
def maxSteps : Nat := 12
/-- Data bytes of a WRITE that the port holds (R168), the longest length of the frame format (section 10.1). -/
def maxFrameData : Nat := 64
/-- Bytes the host sends before a READ's answer: header and header CRC (section 11.1). -/
def headerBytes : Nat := 6
/-- The longest length that a frame's length byte can spell. -/
def maxLengthByte : Nat := 256
/-- Ticks of one millisecond of a step timeout (R29). -/
def ticksPerMillisecond : Nat := 100
/-- Where the count field of a step and the probe attempts stop (R35, R151). -/
def countCap : Nat := 65535

/-- FREE VALUE (log 8): whether a link in phase START, ordered to wind down, is already driving the START condition
(true) or still waits for a free bus (false). R152 gives an effect for each and the table of commands has no event
between the two. Applied to State.freeIndex. -/
opaque startBeingDriven : Nat → Bool

/-- FREE VALUE (log 9): the measured duty when the measured time is 0, for which R122's division gives no result.
Applied to the high time. -/
opaque dutyOfNoTime : Nat → Duty

/-- FREE VALUE (log 10): the byte that a WRITE of more than 64 data bytes, with a good CRC and no fault of R171, leaves
at each place of its range: R168 stores every byte of a frame, and holds 64 of them. Applied to State.freeIndex and the
place. -/
opaque longFrameByte : Nat → Nat → Byte

/-- FREE VALUE (log 10): whether such a WRITE latches PORT_FAULT. Applied to State.freeIndex. -/
opaque longFrameFaults : Nat → Bool

/-- FREE VALUE (log 13): what a tick boundary finds of the wire the link waits for, which the devices on the bus may hold
low (R142): the table of commands has no event of a wire. Applied to State.freeIndex. -/
opaque wireWait : Nat → WireWait

end Config

end Sys2Proof
end

