-- ==== Sys2Proof/Machine/State.lean ====
section
/-! DEFINITION. The state of the DQ-416 as plain data, and the state right after device reset. Each block's record
names the rule that gives its state; INVENTORY.md lists the same items with their reset values. -/

namespace Sys2Proof.Machine

/-! ### Names that the code tables of section 11.7 number -/

/-- Slot states (R5). -/
inductive SlotState where
  | empty | queued | parked | running | complete | completeWithFaults | failed | aborted | rejected
  deriving DecidableEq, Repr

/-- End reasons (R17) and the absence of one. -/
inductive EndReason where
  | noReason | normal | stepFailed | planTimeout | chainMissing | chainClaims | hostAbort | safeAbort
  deriving DecidableEq, Repr

/-- Result codes of COMMAND_RESULT (R176). -/
inductive ResultCode where
  | none | accepted | acceptedPending
  | badFormat | badLane | badStepCount | badContinuation | channelDisabled | stepInvalid | stepOutsideClaim | queueFull
  | safeActive | noSlot | slotHeld | notAcknowledged | notHeld | busy | configInvalid | notSafe | unknownCommand
  deriving DecidableEq, Repr

/-- Step outcomes (R36) and PENDING. -/
inductive StepOutcome where
  | pending | pass | fail | timeout | error | aborted | skipped
  deriving DecidableEq, Repr

/-- Step detail codes (section 11.7). -/
inductive StepDetail where
  | none | limitLow | limitHigh | judgeLow | judgeHigh | triggerLineMode | dutyMismatch | disturbed
  | noDevice | refused | stuck | busy | step | plan | host | safe
  deriving DecidableEq, Repr

/-- Lane states (R30). -/
inductive LaneState where
  | idle | claiming | gated | stepping | winding
  deriving DecidableEq, Repr

/-- Wait reasons (R31). -/
inductive WaitReason where
  | none | ramp | delay | trigger | converter | converting | monitor | measuring | link | linking | pollInterval | go
  deriving DecidableEq, Repr

/-- Channel states (R71). -/
inductive ChanState where
  | off | ramping | holding
  deriving DecidableEq, Repr

/-- Line modes (R131). -/
inductive LineMode where
  | input | inputPullup | inputEdge | outputOpenDrain | outputPushPull
  deriving DecidableEq, Repr

/-- Trigger modes (R93). -/
inductive TriggerMode where
  | immediate | timed | edgeRise | edgeFall
  deriving DecidableEq, Repr

/-- Judge statistics (R93). -/
inductive JudgeStat where
  | none | min | max | avg | last
  deriving DecidableEq, Repr

/-- CAPTURE packing modes 0–3 (R107). -/
inductive Packing where
  | wordLow | wordHigh | pairLow | pairHigh
  deriving DecidableEq, Repr

/-- Link modes (R143). -/
inductive LinkMode where
  | store | point | fetchHere | fetchAt | probe | probeUntil
  deriving DecidableEq, Repr

/-- Link phases (R140). -/
inductive LinkPhase where
  | idle | recovery | start | address | register | write | restart | read | stop
  deriving DecidableEq, Repr

/-! ### The command part of a step record, decoded (sections 11.4 and 11.5) -/

/-- Where and how a CAPTURE stores its samples (R93). -/
structure CaptureParams where
  offset : Nat
  packing : Packing
  deriving DecidableEq, Repr

/-- Parameters of MEASURE and CAPTURE (R93); `samples` is N = samples − 1 + 1. -/
structure CycleParams where
  input : Fin 10
  samples : Nat
  mode : TriggerMode
  line : LineId
  delay : Nat
  wait : Nat
  holdoff : Bool
  abortLo : Duty
  abortHi : Duty
  stat : JudgeStat
  judgeLo : Duty
  judgeHi : Duty
  capture : Option CaptureParams
  deriving DecidableEq, Repr

/-- Parameters of LINK (R143). -/
structure LinkParams where
  mode : LinkMode
  target : BitVec 7
  width : Nat
  register : Half
  length : Nat
  offset : Nat
  deriving DecidableEq, Repr

/-- The kind of a step with its parameters. -/
inductive StepCmd where
  | set (mask : BitVec 16) (target rate : Duty) (staged settle : Bool)
  | apply (mask : BitVec 16)
  | off (mask : BitVec 16) (rate : Duty)
  | delay (ticks : Nat)
  | cycle (p : CycleParams)
  | verify (mask : BitVec 16) (periods : Nat)
  | link (p : LinkParams)
  | lines (mask : BitVec 8) (mode : LineMode) (levels : BitVec 8)
  | awaitGo
  deriving DecidableEq, Repr

/-- The command part of a step record: CONTINUE flag, step timeout in milliseconds, kind and parameters. -/
structure StepRecord where
  cont : Bool
  timeout : Nat
  cmd : StepCmd
  deriving DecidableEq, Repr

/-! ### Lanes -/

/-- What ends a step from outside its serving block (R42, R43, R47, R49). `safeRace` is the safe order on a lane that has
gone on with its slot in the same tick boundary as the expiry (R162). -/
inductive EndCause where
  | stepTimeout | planTimeout | hostAbort | safeOrder | safeRace
  deriving DecidableEq, Repr

/-- Where the step in progress stands. The wait reason is its report (R31). -/
inductive Phase where
  /-- between acts of a step that waits for nothing, or no step -/
  | none
  /-- SET with SETTLE waiting for HOLDING (R79) -/
  | settle
  /-- DELAY counting (R39) -/
  | delay
  /-- TIMED trigger delay (R96) -/
  | timedDelay
  /-- EDGE wait (R97) -/
  | edgeWait
  /-- EDGE confirmation delay (R98) -/
  | confirm
  /-- in the converter's queue (R100) -/
  | converterQueue
  /-- holding the converter -/
  | converting
  /-- VERIFY waiting for HOLDING or OFF (R120) -/
  | verifySettle
  /-- in the duty monitor's queue (R121) -/
  | monitorQueue
  /-- holding the duty monitor -/
  | measuring
  /-- in the fixture link's queue (R144) -/
  | linkQueue
  /-- holding the fixture link -/
  | linking
  /-- between probe attempts (R151) -/
  | pollInterval
  /-- AWAIT_GO waiting (R40) -/
  | awaitGo
  deriving DecidableEq, Repr

/-- A lane (R30). A timer is the ticks it has left, none when it is stopped; some 0 is a timer that has run out and
whose expiry has not been taken (R29). `entered`: since the last tick boundary the lane has gone on with its running slot,
by a take, a grant or a continuation switch (R162; log 35). -/
structure Lane where
  state : LaneState
  running : Option SlotId
  step : Option StepId
  record : Option StepRecord
  phase : Phase
  stepTimer : Option Nat
  planTimer : Option Nat
  interval : Option Nat
  ticks : Nat
  attempts : Nat
  halfPair : Option Duty
  cause : Option EndCause
  entered : Bool
  deriving DecidableEq, Repr

/-- An entry of the claim wait list (R57). -/
structure Waiting where
  lane : LaneId
  chans : BitVec 16
  lines : BitVec 8
  deriving DecidableEq, Repr

/-! ### Drive channels -/

/-- A pending target with its pending rate (R70). -/
structure Pending where
  target : Duty
  rate : Duty
  deriving DecidableEq, Repr

/-- A drive channel (R70). `latched` is the duty latched for the period in progress (R68), 0 also for an output cut low
(R69, R88, R89). `started`: the channel's period start in the group period in progress has been taken (R68). -/
structure Channel where
  state : ChanState
  duty : Duty
  target : Duty
  rate : Duty
  offOnArrival : Bool
  pending : Option Pending
  latched : Duty
  started : Bool
  deriving DecidableEq, Repr

/-- A group's timing: its period in µs and the phase quarters of its four channels (R69). -/
structure Timing where
  period : Half
  quarters : Vector (BitVec 2) 4
  deriving DecidableEq, Repr

/-- A group: running timing and pending timing (R69). -/
structure Group where
  running : Timing
  pending : Option Timing
  deriving DecidableEq, Repr

/-! ### Shared units -/

/-- The converter's sampling phase (R90); a conversion is in flight exactly in `converting`. -/
inductive SamplingPhase where
  | none | converting | sampleWait | holdoffWait
  deriving DecidableEq, Repr

/-- The converter (R90) with its arithmetic unit (R92). -/
structure Converter where
  grantee : Option LaneId
  queue : List LaneId
  input : Fin 10
  phase : SamplingPhase
  waitLeft : Option Nat
  count : Nat
  sum : Nat
  min : Duty
  max : Duty
  last : Duty
  deriving DecidableEq, Repr

/-- The duty monitor's measurement phase (R118). -/
inductive MeasurePhase where
  | none | align | counting
  deriving DecidableEq, Repr

/-- One channel's measurement in a watch (R122, R123); `failed` as judged at its end, a disturbed channel included. -/
structure Measured where
  chan : ChanId
  duty : Duty
  deviation : Duty
  failed : Bool
  deriving DecidableEq, Repr

/-- The watch over a VERIFY step (R118, R121): disturbed marks, and the channels measured so far in their order. -/
structure Watch where
  disturbed : BitVec 16
  measured : List Measured
  deriving DecidableEq, Repr

/-- The duty monitor (R118). `instant` is the channel whose period start the act in progress falls at, none between
acts (R122: a selection at a period start begins there). -/
structure DutyMonitor where
  grantee : Option LaneId
  queue : List LaneId
  selected : Option ChanId
  phase : MeasurePhase
  periods : Nat
  high : Nat
  time : Nat
  instant : Option ChanId
  deriving DecidableEq, Repr

/-- How a transfer ends when its STOP completes (R149–R151). -/
inductive LinkEnding where
  | normal | busy | noDevice | refused
  deriving DecidableEq, Repr

/-- The fixture link controller (R140) and what the element in progress carries: the byte being sent (R147), whether
an address byte carries the read bit, the register address bytes still to come (R146), whether the byte being read is
in its ninth clock (R148) and whether it is the extra byte of a wind-down (R152). `waited` counts the tick boundaries since
the release of the wire that the link waits for to read high, 0 when it waits for none (R142; log 13). -/
structure Link where
  grantee : Option LaneId
  queue : List LaneId
  phase : LinkPhase
  busUncertain : Bool
  bytes : Nat
  attempts : Nat
  windDown : Bool
  sending : Byte
  readBit : Bool
  regLeft : Nat
  ninth : Bool
  extra : Bool
  ending : LinkEnding
  waited : Nat
  deriving DecidableEq, Repr

/-! ### Lines, monitor, port -/

/-- A fixture line (R130); `detector` is the edge detector's reference level while it runs. -/
structure Line where
  mode : LineMode
  latch : Bool
  level : Bool
  detector : Option Bool
  deriving DecidableEq, Repr

/-- States of the hold-safe monitor (R156). -/
inductive HoldState where
  | disabled | watching | safe
  deriving DecidableEq, Repr

/-- The hold-safe monitor (R156); `expiryDue`: the last tick boundary found the count at the window (R158; log 19). -/
structure HoldSafe where
  state : HoldState
  count : Nat
  expiryDue : Bool
  deriving DecidableEq, Repr

/-- The configuration set (R177, section 11.3). -/
structure ConfigSet where
  periods : Vector Half 4
  enable : BitVec 16
  safeDuty : Vector Duty 16
  safeRate : Vector Duty 16
  quarters : Vector (BitVec 2) 16
  safeMode : Vector LineMode 8
  safeLevel : BitVec 8
  tolerance : Byte
  window : Nat
  linkRate : Half
  stretch : Half
  poll : Nat
  deriving DecidableEq, Repr

/-- COMMAND_RESULT (R176). -/
structure CommandResult where
  code : ResultCode
  echo : Byte
  detail : Byte
  deriving DecidableEq, Repr

/-- The frame the port judged last (R166): the bits received when it was judged, and what the part sends in it after
the host's bytes (R169), nothing but in a READ. -/
structure PortFrame where
  bits : Nat
  reply : List Byte
  deriving DecidableEq, Repr

/-! ### The state -/

/-- The state of the part, and the queue of the commands that wait. -/
structure State where
  /-- the commands that wait, first in, first out -/
  pending : List Instr
  /-- index of the next free value (logs 8, 10 and 13) -/
  freeIndex : Nat
  /-- exchange memory: (address, byte), addresses strictly rising, no byte 0 (R1) -/
  mem : List Host.Cell
  ready : Bool
  configDefault : Bool
  crcFlag : Bool
  portFault : Bool
  crcCount : Byte
  result : CommandResult
  frame : PortFrame
  tick : Word
  config : ConfigSet
  queues : Vector (List SlotId) 4
  parked : List SlotId
  finished : BitVec 22
  lanes : Vector Lane 4
  chanOwner : Vector (Option LaneId) 16
  lineOwner : Vector (Option LaneId) 8
  waitList : List Waiting
  channels : Vector Channel 16
  groups : Vector Group 4
  rampMovesDue : Nat
  converter : Converter
  monitor : DutyMonitor
  watches : Vector Watch 4
  lastVerified : Vector (Option Duty) 16
  lines : Vector Line 8
  link : Link
  holdSafe : HoldSafe
  deriving DecidableEq, Repr

/-- The stops of the model: none is raised, every error the spec describes is an effect on State. -/
inductive Fault where
  /-- Raised by no arm of exec: kept because the host's interface takes a type of faults. Safe. -/
  | unreachable
  deriving DecidableEq, Repr

/-- The refusals of the model. -/
inductive Refusal where
  /-- Raised by no arm of exec in this model: kept for a command without a meaning, named as the table spells it. Safe. -/
  | notModelled (mnemonic : String)
  deriving DecidableEq, Repr

/-! ### After device reset -/

/-- The configuration set's defaults (section 11.3). -/
def ConfigSet.default : ConfigSet where
  periods := vec4 fun _ => 1000#16
  enable := 0xFFFF#16
  safeDuty := vec16 fun _ => 0#12
  safeRate := vec16 fun _ => 0#12
  quarters := vec16 fun _ => 0#2
  safeMode := vec8 fun _ => .inputPullup
  safeLevel := 0#8
  tolerance := 16#8
  window := 100000
  linkRate := 100#16
  stretch := 100#16
  poll := 50

/-- No frame has been judged since the reset (R166, R181). -/
def PortFrame.none : PortFrame where
  bits := 0
  reply := []

/-- A lane after either reset (R30, R53). -/
def Lane.idle : Lane where
  state := .idle
  running := none
  step := none
  record := none
  phase := .none
  stepTimer := none
  planTimer := none
  interval := none
  ticks := 0
  attempts := 0
  halfPair := none
  cause := none
  entered := false

/-- A channel after device reset (R88). -/
def Channel.reset : Channel where
  state := .off
  duty := 0
  target := 0
  rate := 0
  offOnArrival := false
  pending := none
  latched := 0
  started := false

/-- The default timing of a group (R67, R88). -/
def Timing.default : Timing where
  period := 1000#16
  quarters := vec4 fun _ => 0#2

/-- The converter after either reset (R90). -/
def Converter.reset : Converter where
  grantee := none
  queue := []
  input := 0
  phase := .none
  waitLeft := none
  count := 0
  sum := 0
  min := 0
  max := 0
  last := 0

/-- The duty monitor after either reset (R118, R129). -/
def DutyMonitor.reset : DutyMonitor where
  grantee := none
  queue := []
  selected := none
  phase := .none
  periods := 0
  high := 0
  time := 0
  instant := none

/-- A watch that has recorded nothing (R118). -/
def Watch.empty : Watch where
  disturbed := 0
  measured := []

/-- The link after either reset (R140, R154): the bus-uncertain flag is set. -/
def Link.reset : Link where
  grantee := none
  queue := []
  phase := .idle
  busUncertain := true
  bytes := 0
  attempts := 0
  windDown := false
  sending := 0
  readBit := false
  regLeft := 0
  ninth := false
  extra := false
  ending := .normal
  waited := 0

/-- A line after device reset with its first sample (R132, R139). -/
def Line.reset (level : Bool) : Line where
  mode := .inputPullup
  latch := false
  level := level
  detector := none

/-- The monitor when a device reset ends (R156): FORCED (strap high) leaves it WATCHING, SOFTWARE DISABLED. -/
def HoldSafe.reset (strap : Bool) : HoldSafe where
  state := if strap then .watching else .disabled
  count := 0
  expiryDue := false

/-- The part when a device reset ends (R181), with SAFESTRAP's level and the lines' first samples; no command waits. -/
def State.afterReset (strap : Bool) (levels : BitVec 8) : State where
  pending := []
  freeIndex := 0
  mem := []
  ready := true
  configDefault := true
  crcFlag := false
  portFault := false
  crcCount := 0
  result := { code := .none, echo := 0, detail := 0 }
  frame := PortFrame.none
  tick := 0
  config := ConfigSet.default
  queues := vec4 fun _ => []
  parked := []
  finished := 0
  lanes := vec4 fun _ => Lane.idle
  chanOwner := vec16 fun _ => none
  lineOwner := vec8 fun _ => none
  waitList := []
  channels := vec16 fun _ => Channel.reset
  groups := vec4 fun _ => { running := Timing.default, pending := none }
  rampMovesDue := 0
  converter := Converter.reset
  monitor := DutyMonitor.reset
  watches := vec4 fun _ => Watch.empty
  lastVerified := vec16 fun _ => none
  lines := vec8 fun l => Line.reset (levels.getLsbD l.val)
  link := Link.reset
  holdSafe := HoldSafe.reset strap

/-- The part right after reset. DESIGN CHOICE (log 3, unsafe): SAFESTRAP low (SOFTWARE mode) and every line sampled
high, its pull-up holding it; DEVICE_RESET_END takes both as operands. -/
def State.reset : State := State.afterReset false 0xFF#8

end Sys2Proof.Machine
end

