-- ==== Sys2Proof/Machine/Ops.lean ====
section
/-! DEFINITION. The named operations over memory and registers: exchange memory in its canonical form, the one access
path to each table of State, the places of slot fields and capture windows (sections 11.4, R3), the codes of section
11.7, and the port's CRC (R167). -/

namespace Sys2Proof.Machine

/-! ### Exchange memory -/

/-- Exchange memory as State holds it. -/
abbrev Memory := List Host.Cell

/-- The canonical form: addresses strictly rising, and no listed byte equal to what an unlisted address reads as. -/
abbrev Memory.wf (m : Memory) : Prop :=
  m.Pairwise (fun x y => x.1 < y.1) ∧ ∀ c ∈ m, c.2 ≠ 0#8

/-- The byte at an address; an unlisted byte reads 00h, its value at device reset (R1). -/
def Memory.read : Memory → Nat → Byte
  | [], _ => 0
  | (b, v) :: m, a => if b = a then v else Memory.read m a

/-- The memory with one byte stored. -/
def Memory.write : Memory → Nat → Byte → Memory
  | [], a, v => if v = 0 then [] else [(a, v)]
  | (b, w) :: m, a, v =>
    if a < b then (if v = 0 then (b, w) :: m else (a, v) :: (b, w) :: m)
    else if a = b then (if v = 0 then m else (a, v) :: m)
    else (b, w) :: Memory.write m a v

/-- The memory with bytes stored from an address upward. -/
def Memory.writeBytes : Memory → Nat → List Byte → Memory
  | m, _, [] => m
  | m, a, v :: vs => Memory.writeBytes (Memory.write m a v) (a + 1) vs

/-- A 16-bit field, low byte first. -/
def Memory.read16 (m : Memory) (a : Nat) : Half := half (m.read a) (m.read (a + 1))

/-- A 32-bit field, low byte first. -/
def Memory.read32 (m : Memory) (a : Nat) : Word :=
  word (m.read a) (m.read (a + 1)) (m.read (a + 2)) (m.read (a + 3))

/-- The state with bytes of exchange memory stored from an address upward. -/
def State.store (s : State) (a : Nat) (bytes : List Byte) : State :=
  { s with mem := Memory.writeBytes s.mem a bytes }

/-! ### Access to the tables of State -/

def State.lane (s : State) (k : LaneId) : Lane := s.lanes[k]
def State.setLane (s : State) (k : LaneId) (l : Lane) : State :=
  { s with lanes := s.lanes.set k.val l k.isLt }
def State.queue (s : State) (k : LaneId) : List SlotId := s.queues[k]
def State.setQueue (s : State) (k : LaneId) (q : List SlotId) : State :=
  { s with queues := s.queues.set k.val q k.isLt }
def State.chan (s : State) (c : ChanId) : Channel := s.channels[c]
def State.putChan (s : State) (c : ChanId) (x : Channel) : State :=
  { s with channels := s.channels.set c.val x c.isLt }
def State.line (s : State) (l : LineId) : Line := s.lines[l]
def State.putLine (s : State) (l : LineId) (x : Line) : State :=
  { s with lines := s.lines.set l.val x l.isLt }
def State.group (s : State) (g : GroupId) : Group := s.groups[g]
def State.putGroup (s : State) (g : GroupId) (x : Group) : State :=
  { s with groups := s.groups.set g.val x g.isLt }
def State.ownerOf (s : State) (c : ChanId) : Option LaneId := s.chanOwner[c]
def State.putOwner (s : State) (c : ChanId) (o : Option LaneId) : State :=
  { s with chanOwner := s.chanOwner.set c.val o c.isLt }
def State.lineOwnerOf (s : State) (l : LineId) : Option LaneId := s.lineOwner[l]
def State.putLineOwner (s : State) (l : LineId) (o : Option LaneId) : State :=
  { s with lineOwner := s.lineOwner.set l.val o l.isLt }
def State.watch (s : State) (k : LaneId) : Watch := s.watches[k]
def State.putWatch (s : State) (k : LaneId) (w : Watch) : State :=
  { s with watches := s.watches.set k.val w k.isLt }
def State.verified (s : State) (c : ChanId) : Option Duty := s.lastVerified[c]
def State.putVerified (s : State) (c : ChanId) (d : Option Duty) : State :=
  { s with lastVerified := s.lastVerified.set c.val d c.isLt }

/-- The state with a lane's phase changed. -/
def State.setPhase (s : State) (k : LaneId) (p : Phase) : State :=
  s.setLane k { s.lane k with phase := p }

/-- Bit n of a mask stands for channel n (chapter 11). -/
def inChans (m : BitVec 16) (c : ChanId) : Bool := m.getLsbD c.val
/-- Bit n of a mask stands for line n. -/
def inLines (m : BitVec 8) (l : LineId) : Bool := m.getLsbD l.val

/-- An act on every channel of a mask, in ascending order (R77). -/
def onChans (m : BitVec 16) (f : State → ChanId → State) (s : State) : State :=
  (allChans.filter (inChans m)).foldl f s
/-- An act on every line of a mask, in ascending order (R134). -/
def onLines (m : BitVec 8) (f : State → LineId → State) (s : State) : State :=
  (allLines.filter (inLines m)).foldl f s

/-- The lowest channel of a mask, if it names any. -/
def lowestChan (m : BitVec 16) : Option ChanId := allChans.find? (inChans m)

/-- The group of a channel: group g is CH4g–CH4g+3. -/
def groupOf (c : ChanId) : GroupId := ⟨c.val / 4, by omega⟩
/-- The place of a channel in its group. -/
def placeInGroup (c : ChanId) : Fin 4 := ⟨c.val % 4, by omega⟩

/-! ### Places in exchange memory -/

/-- Address of slot n: 0200h + n × 200h (section 11.4). -/
def slotBase (n : SlotId) : Nat := Config.slotAreaBase + n.val * Config.slotSize

/-- Address of step record i of slot n: slot offset 020h + i × 28h. -/
def stepBase (n : SlotId) (i : StepId) : Nat := slotBase n + 0x20 + i.val * 0x28

/-- Address of byte `off` of lane k's capture window (R3). A window has 1,024 bytes and every offset the part computes
lies in it (R94, R143), so taking the offset in ten bits changes nothing there (log 15). -/
def windowAddr (k : LaneId) (off : Nat) : Nat :=
  Config.captureBase + k.val * Config.windowSize + off % Config.windowSize

/-- A lane's write of bytes into its own capture window from an offset upward. -/
def State.storeWindow (s : State) (k : LaneId) : Nat → List Byte → State
  | _, [] => s
  | off, b :: bs => State.storeWindow (s.store (windowAddr k off) [b]) k (off + 1) bs

/-- A lane's read of a byte of its own capture window. -/
def State.windowByte (s : State) (k : LaneId) (off : Nat) : Byte := Memory.read s.mem (windowAddr k off)

/-- A header byte of a slot. -/
def State.hdr (s : State) (n : SlotId) (off : Nat) : Byte := Memory.read s.mem (slotBase n + off)

/-- The header's fields (section 11.4). -/
def State.hdrFlags (s : State) (n : SlotId) : Byte := s.hdr n 0x05
def State.awaitGoStart (s : State) (n : SlotId) : Bool := (s.hdrFlags n).getLsbD 0
def State.offAtEnd (s : State) (n : SlotId) : Bool := (s.hdrFlags n).getLsbD 1
def State.parkFlag (s : State) (n : SlotId) : Bool := (s.hdrFlags n).getLsbD 2
def State.stepCount (s : State) (n : SlotId) : Nat := (s.hdr n 0x06).toNat
def State.continuation (s : State) (n : SlotId) : Byte := s.hdr n 0x07
def State.chanClaim (s : State) (n : SlotId) : BitVec 16 := Memory.read16 s.mem (slotBase n + 0x08)
def State.lineClaim (s : State) (n : SlotId) : BitVec 8 := s.hdr n 0x0A
def State.stepsDone (s : State) (n : SlotId) : Byte := s.hdr n 0x0B
def State.faultCount (s : State) (n : SlotId) : Byte := s.hdr n 0x0C
def State.planTimeoutOf (s : State) (n : SlotId) : Nat := (Memory.read32 s.mem (slotBase n + 0x14)).toNat

/-- The slot a byte names, 0–21. -/
def slotOfByte (b : Byte) : Option SlotId := if h : b.toNat < 22 then some ⟨b.toNat, h⟩ else none

/-- The step after step i of a slot of `count` steps, if there is one. -/
def nextStep (i : StepId) (count : Nat) : Option StepId :=
  if h : i.val + 1 < 12 then (if i.val + 1 < count then some ⟨i.val + 1, h⟩ else none) else none

/-! ### Codes (section 11.7) -/

def SlotState.code : SlotState → Byte
  | .empty => 0 | .queued => 1 | .parked => 2 | .running => 3 | .complete => 4 | .completeWithFaults => 5
  | .failed => 6 | .aborted => 7 | .rejected => 8

def EndReason.code : EndReason → Byte
  | .noReason => 0x00 | .normal => 0x30 | .stepFailed => 0x31 | .planTimeout => 0x32 | .chainMissing => 0x33
  | .chainClaims => 0x34 | .hostAbort => 0x35 | .safeAbort => 0x36

def ResultCode.code : ResultCode → Byte
  | .none => 0x00 | .accepted => 0x01 | .acceptedPending => 0x02
  | .badFormat => 0x10 | .badLane => 0x11 | .badStepCount => 0x12 | .badContinuation => 0x13
  | .channelDisabled => 0x14 | .stepInvalid => 0x15 | .stepOutsideClaim => 0x16 | .queueFull => 0x17
  | .safeActive => 0x20 | .noSlot => 0x21 | .slotHeld => 0x22 | .notAcknowledged => 0x23 | .notHeld => 0x24
  | .busy => 0x25 | .configInvalid => 0x26 | .notSafe => 0x27 | .unknownCommand => 0x28

def StepOutcome.code : StepOutcome → Byte
  | .pending => 0 | .pass => 1 | .fail => 2 | .timeout => 3 | .error => 4 | .aborted => 5 | .skipped => 6

def StepDetail.code : StepDetail → Byte
  | .none => 0 | .limitLow => 1 | .limitHigh => 2 | .judgeLow => 3 | .judgeHigh => 4 | .triggerLineMode => 5
  | .dutyMismatch => 6 | .disturbed => 7 | .noDevice => 8 | .refused => 9 | .stuck => 10 | .busy => 11
  | .step => 12 | .plan => 13 | .host => 14 | .safe => 15

def LaneState.code : LaneState → Byte
  | .idle => 0 | .claiming => 1 | .gated => 2 | .stepping => 3 | .winding => 4

def WaitReason.code : WaitReason → Byte
  | .none => 0 | .ramp => 1 | .delay => 2 | .trigger => 3 | .converter => 4 | .converting => 5 | .monitor => 6
  | .measuring => 7 | .link => 8 | .linking => 9 | .pollInterval => 10 | .go => 11

def ChanState.code : ChanState → Byte
  | .off => 0 | .ramping => 1 | .holding => 2

def LineMode.code : LineMode → Byte
  | .input => 0 | .inputPullup => 1 | .inputEdge => 2 | .outputOpenDrain => 3 | .outputPushPull => 4

def LinkPhase.code : LinkPhase → Byte
  | .idle => 0 | .recovery => 1 | .start => 2 | .address => 3 | .register => 4 | .write => 5 | .restart => 6
  | .read => 7 | .stop => 8

def LineMode.ofByte (b : Byte) : Option LineMode :=
  match b.toNat with
  | 0 => some .input | 1 => some .inputPullup | 2 => some .inputEdge | 3 => some .outputOpenDrain
  | 4 => some .outputPushPull | _ => none

def TriggerMode.ofByte (b : Byte) : Option TriggerMode :=
  match b.toNat with
  | 0 => some .immediate | 1 => some .timed | 2 => some .edgeRise | 3 => some .edgeFall | _ => none

def JudgeStat.ofByte (b : Byte) : Option JudgeStat :=
  match b.toNat with
  | 0 => some .none | 1 => some .min | 2 => some .max | 3 => some .avg | 4 => some .last | _ => Option.none

def Packing.ofByte (b : Byte) : Option Packing :=
  match b.toNat with
  | 0 => some .wordLow | 1 => some .wordHigh | 2 => some .pairLow | 3 => some .pairHigh | _ => none

def LinkMode.ofByte (b : Byte) : Option LinkMode :=
  match b.toNat with
  | 0 => some .store | 1 => some .point | 2 => some .fetchHere | 3 => some .fetchAt | 4 => some .probe
  | 5 => some .probeUntil | _ => none

/-- The wait reason a phase reports (R31). -/
def Phase.waitReason : Phase → WaitReason
  | .none => .none | .settle => .ramp | .delay => .delay | .timedDelay => .trigger | .edgeWait => .trigger
  | .confirm => .trigger | .converterQueue => .converter | .converting => .converting | .verifySettle => .ramp
  | .monitorQueue => .monitor | .measuring => .measuring | .linkQueue => .link | .linking => .linking
  | .pollInterval => .pollInterval | .awaitGo => .go

/-! ### CRC (R167) -/

/-- One bit: the register's top bit and the bit combined, the register shifted left, 1021h combined if they differ. -/
def crcBit (r : Half) (b : Bool) : Half :=
  if r.msb != b then (r <<< 1) ^^^ 0x1021#16 else r <<< 1

/-- One byte, most significant bit first. -/
def crcByte (r : Half) (b : Byte) : Half :=
  [7, 6, 5, 4, 3, 2, 1, 0].foldl (fun r i => crcBit r (b.getLsbD i)) r

/-- The CRC of bytes in frame order, from FFFFh, with no final inversion. -/
def crc16 (bytes : List Byte) : Half := bytes.foldl crcByte 0xFFFF#16

/-! ### Timers (R29) -/

/-- A timer at a tick boundary: one tick fewer is left; a stopped timer stays stopped, one that has run out stays so. -/
def tickTimer : Option Nat → Option Nat
  | none => none
  | some n => some (n - 1)

/-- A timer of n ticks; n = 0 leaves it stopped (a step or plan timeout of 0 starts no timer). -/
def startTimer (n : Nat) : Option Nat := if n = 0 then none else some n

end Sys2Proof.Machine
end

