-- ==== Sys2Proof/Machine/Flags.lean ====
section
/-! DEFINITION. What the host sees of State: the held set as a view of the intake's sets (R6), the STATUS flags and the
ATTN line (R174, R175), the register block (R173, R183), the status page (R180, section 11.6), the pins (R131, R166), and the
byte at an address of the control port space (R1). -/

namespace Sys2Proof.Machine

/-! ### The held set (R6) -/

/-- Where a held slot is. -/
inductive Place where
  | queued (k : LaneId)
  | parked
  | running (k : LaneId)
  deriving DecidableEq, Repr

/-- The slot's place in the intake's sets, none when it is not held. -/
def State.place (s : State) (n : SlotId) : Option Place :=
  match allLanes.find? (fun k => (s.lane k).running == some n) with
  | some k => some (.running k)
  | none =>
    if s.parked.contains n then some .parked
    else match allLanes.find? (fun k => (s.queue k).contains n) with
      | some k => some (.queued k)
      | none => none

/-- The slot is held. -/
def State.held (s : State) (n : SlotId) : Bool := (s.place n).isSome

/-- The slot state a place stands for, 1–3 (R9, R23). -/
def Place.slotState : Place → SlotState
  | .queued _ => .queued
  | .parked => .parked
  | .running _ => .running

/-- The slot is in FINISHED (R19). -/
def State.isFinished (s : State) (n : SlotId) : Bool := s.finished.getLsbD n.val

/-! ### STATUS and ATTN -/

/-- STATUS.SAFE (R156). -/
def State.safe (s : State) : Bool := s.holdSafe.state == .safe
/-- STATUS.MONITOR_ON (R156). -/
def State.monitorOn (s : State) : Bool := s.holdSafe.state != .disabled
/-- The ATTN line (R175): low during device reset, else high while FINISHED is non-empty or SAFE is set. -/
def State.attn (s : State) : Bool := s.ready && (s.finished != 0 || s.safe)

/-- A flag at its bit of a register. -/
def flagBit (b : Bool) (n : Nat) : Word := if b then 1#32 <<< n else 0

/-- STATUS (section 11.2): bits 0–6, the rest 0. -/
def State.statusReg (s : State) : Word :=
  flagBit s.ready 0 ||| flagBit s.safe 1 ||| flagBit s.monitorOn 2 ||| flagBit s.configDefault 3 |||
  flagBit s.crcFlag 4 ||| flagBit s.portFault 5 ||| flagBit s.attn 6

/-- COMMAND_RESULT (R183): code, echo, detail, 0. -/
def State.resultReg (s : State) : Word := word s.result.code.code s.result.echo s.result.detail 0

/-- FINISHED (R19): bit n for slot n, bits 22–31 read 0. -/
def State.finishedReg (s : State) : Word := s.finished.zeroExtend 32

/-- CRC_COUNT (R173). -/
def State.crcCountReg (s : State) : Word := s.crcCount.zeroExtend 32

/-- The register block's bytes, 7F00h first (R173). A READ of COMMAND returns 0. -/
def State.registerBytes (s : State) : List Byte :=
  wordBytes Config.idValue ++ wordBytes s.statusReg ++ wordBytes 0#32 ++ wordBytes s.resultReg ++
  wordBytes s.finishedReg ++ wordBytes s.tick ++ wordBytes s.crcCountReg

/-! ### The status page -/

/-- A lane number, or FFh for none. -/
def laneByte : Option LaneId → Byte
  | some k => BitVec.ofNat 8 k.val
  | none => 0xFF#8

/-- A slot number, or FFh for none. -/
def slotByte : Option SlotId → Byte
  | some n => BitVec.ofNat 8 n.val
  | none => 0xFF#8

/-- A step index, or FFh for none. -/
def stepByte : Option StepId → Byte
  | some i => BitVec.ofNat 8 i.val
  | none => 0xFF#8

/-- A duty as a 16-bit item, bits 15–12 at 0 (R184). -/
def dutyBytes (d : Duty) : List Byte := halfBytes (d.zeroExtend 16)

/-- A duty or FFFFh when absent (R184). -/
def optDutyBytes : Option Duty → List Byte
  | some d => dutyBytes d
  | none => halfBytes 0xFFFF#16

def boolByte (b : Bool) : Byte := if b then 1 else 0

/-- The first `n` places of a queue, FFh in unused places (R184). -/
def places (n : Nat) (bytes : List Byte) : List Byte := (bytes ++ List.replicate n 0xFF#8).take n

/-- Channel record, 16 bytes. -/
def State.channelRecord (s : State) (c : ChanId) : List Byte :=
  let x := s.chan c
  [x.state.code, laneByte (s.ownerOf c), boolByte x.offOnArrival, 0] ++ dutyBytes x.target ++ dutyBytes x.duty ++
  dutyBytes x.rate ++ optDutyBytes (x.pending.map Pending.target) ++ optDutyBytes (s.verified c) ++ [0, 0]

/-- Line record, 8 bytes. -/
def State.lineRecord (s : State) (l : LineId) : List Byte :=
  let x := s.line l
  [x.mode.code, boolByte x.latch, boolByte x.level, laneByte (s.lineOwnerOf l), 0, 0, 0, 0]

/-- The wait reason a lane shows (R31): LINKING while WINDING, NONE unless it is stepping. -/
def Lane.waitReason (l : Lane) : WaitReason :=
  match l.state with
  | .winding => .linking
  | .stepping => l.phase.waitReason
  | .idle => .none
  | .claiming => .none
  | .gated => .none

/-- The current step a lane shows (R30): FFh in IDLE, CLAIMING and GATED. -/
def Lane.shownStep (l : Lane) : Option StepId :=
  match l.state with
  | .winding => l.step
  | .stepping => l.step
  | .idle => none
  | .claiming => none
  | .gated => none

/-- Lane record, 32 bytes. -/
def State.laneRecord (s : State) (k : LaneId) : List Byte :=
  let l := s.lane k
  let q := s.queue k
  [l.state.code, slotByte l.running, stepByte l.shownStep, l.waitReason.code, BitVec.ofNat 8 q.length] ++
  places 8 (q.map fun n => slotByte (some n)) ++ List.replicate 19 0

/-- A shared unit's grantee and queue, 5 bytes. -/
def unitBytes (grantee : Option LaneId) (queue : List LaneId) : List Byte :=
  laneByte grantee :: places 4 (queue.map fun k => laneByte (some k))

/-- Shared-unit region, 64 bytes. -/
def State.unitRegion (s : State) : List Byte :=
  unitBytes s.converter.grantee s.converter.queue ++ unitBytes s.monitor.grantee s.monitor.queue ++
  unitBytes s.link.grantee s.link.queue ++ [s.link.phase.code, boolByte s.link.busUncertain] ++
  places 4 (s.waitList.map fun w => laneByte (some w.lane)) ++ List.replicate 43 0

/-- The status page, 512 bytes at 2E00h (R180). -/
def State.statusPage (s : State) : List Byte :=
  allChans.flatMap s.channelRecord ++ allLines.flatMap s.lineRecord ++ allLanes.flatMap s.laneRecord ++ s.unitRegion

/-! ### Pins -/

/-- How the part drives a line's pin (R131). -/
inductive PinDrive where
  | notDriven | released | low | high
  deriving DecidableEq, Repr

/-- The drive a mode and a latch give the pin (R131). -/
def Line.drive (x : Line) : PinDrive :=
  match x.mode with
  | .input => .notDriven
  | .inputPullup => .notDriven
  | .inputEdge => .notDriven
  | .outputOpenDrain => if x.latch then .released else .low
  | .outputPushPull => if x.latch then .high else .low

/-- The internal pull-up is on (R131). -/
def Line.pullUp (x : Line) : Bool :=
  match x.mode with
  | .inputPullup => true
  | .inputEdge => true
  | .input => false
  | .outputOpenDrain => false
  | .outputPushPull => false

/-- What SDO carries during byte `i` of the frame the port judged last (R166, section 11.1), `selected` while nCS is low:
released while nCS is high and during device reset (R181), else 00h but in the places of a READ's data and data CRC. -/
def State.sdo (s : State) (selected : Bool) (i : Nat) : Option Byte :=
  if s.ready && selected then some (if i < Config.headerBytes then 0 else s.frame.reply.getD (i - Config.headerBytes) 0)
  else none

/-! ### The control port space (R1) -/

/-- The five mapped areas. -/
inductive Area where
  | config | slots | status | capture | registers
  deriving DecidableEq, Repr

/-- The area an address lies in, none where it is unmapped. -/
def areaOf (a : Nat) : Option Area :=
  if a < Config.slotAreaBase then some .config
  else if a < Config.statusPageBase then some .slots
  else if a < Config.captureBase then some .status
  else if a < Config.captureEnd then some .capture
  else if Config.registerBase ≤ a ∧ a < Config.registerEnd then some .registers
  else none

/-- The area a range of n ≥ 1 bytes lies in whole; none where it starts unmapped, runs past its area's end or spans
two areas (R171). A range past FFFFh leaves its area. -/
def areaOfRange (a n : Nat) : Option Area :=
  if areaOf a = areaOf (a + (n - 1)) then areaOf a else none

/-- The byte an address of the control port space reads as at this moment (R169). -/
def State.portByte (s : State) (a : Nat) : Byte :=
  match areaOf a with
  | some .config => Memory.read s.mem a
  | some .slots => Memory.read s.mem a
  | some .capture => Memory.read s.mem a
  | some .status => s.statusPage.getD (a - Config.statusPageBase) 0
  | some .registers => s.registerBytes.getD (a - Config.registerBase) 0
  | none => 0

/-- The snapshot of a range (R169). -/
def State.snapshot (s : State) (a n : Nat) : List Byte := (List.range n).map fun i => s.portByte (a + i)

end Sys2Proof.Machine
end

