-- ==== Sys2Proof/Machine/Operands.lean ====
section
/-! DEFINITION. Reading what the host wrote: the command part of a step record with every validity condition of POST
check 10 (R11, R76, R94, R119, R133, R143, R185), the claim conditions (R11), and the configuration page (R177). -/

namespace Sys2Proof.Machine

/-! ### Step records -/

/-- The kind flags STAGED, SETTLE and HOLDOFF, bits 1–3 of the step flags. -/
def flagStaged : Byte := 0x02#8
def flagSettle : Byte := 0x04#8
def flagHoldoff : Byte := 0x08#8

/-- No flag bit other than CONTINUE and the allowed kind flags is set (R11). -/
def flagsWithin (flags allowed : Byte) : Bool := flags &&& ~~~(allowed ||| 0x01#8) == 0#8

/-- A 16-bit field that must hold 0–4095 (R185). -/
def dutyField (h : Half) : Option Duty := if h.toNat ≤ 4095 then some (h.setWidth 12) else none

/-- Bytes a packing mode needs for N samples (R107). -/
def bytesNeeded (p : Packing) (n : Nat) : Nat :=
  match p with
  | .wordLow => 2 * n
  | .wordHigh => 2 * n
  | .pairLow => 3 * ((n + 1) / 2)
  | .pairHigh => 3 * ((n + 1) / 2)

/-- An EDGE trigger mode. -/
def TriggerMode.isEdge : TriggerMode → Bool
  | .immediate => false | .timed => false | .edgeRise => true | .edgeFall => true

/-- SET (R76): parameters at p. -/
def decodeSet (m : Memory) (p : Nat) (flags : Byte) : Option StepCmd :=
  let mask := m.read16 p
  match dutyField (m.read16 (p + 2)), dutyField (m.read16 (p + 4)) with
  | some t, some r =>
    if flagsWithin flags (flagStaged ||| flagSettle) && mask != 0#16 then
      some (.set mask t r (flags.getLsbD 1) (flags.getLsbD 2))
    else none
  | _, _ => none

/-- APPLY (R76). -/
def decodeApply (m : Memory) (p : Nat) (flags : Byte) : Option StepCmd :=
  if flagsWithin flags 0#8 then some (.apply (m.read16 p)) else none

/-- OFF (R76). -/
def decodeOff (m : Memory) (p : Nat) (flags : Byte) : Option StepCmd :=
  let mask := m.read16 p
  match dutyField (m.read16 (p + 2)) with
  | some r => if flagsWithin flags 0#8 && mask != 0#16 then some (.off mask r) else none
  | none => none

/-- DELAY (R39). -/
def decodeDelay (m : Memory) (p : Nat) (flags : Byte) : Option StepCmd :=
  if flagsWithin flags 0#8 then some (.delay (m.read32 p).toNat) else none

/-- The judge's parameters (R94): judge lo and hi are checked only when the statistic is not NONE. -/
def decodeJudge (m : Memory) (p : Nat) : Option (JudgeStat × Duty × Duty) :=
  let lo := m.read16 (p + 0x12)
  let hi := m.read16 (p + 0x14)
  match JudgeStat.ofByte (m.read (p + 0x10)) with
  | none => none
  | some .none => some (.none, lo.setWidth 12, hi.setWidth 12)
  | some st =>
    match dutyField lo, dutyField hi with
    | some l, some h => if l ≤ h then some (st, l, h) else none
    | _, _ => none

/-- A CAPTURE's storage parameters for N samples (R94). -/
def decodeStorage (m : Memory) (p n : Nat) : Option CaptureParams :=
  let off := (m.read16 (p + 0x16)).toNat
  match Packing.ofByte (m.read (p + 0x11)) with
  | some pk => if off ≤ 1023 && off + bytesNeeded pk n ≤ 1024 then some { offset := off, packing := pk } else none
  | none => none

/-- MEASURE and CAPTURE (R94). The trigger line is read and checked only with an EDGE mode; HOLDOFF only goes with one. -/
def decodeCycle (m : Memory) (p : Nat) (flags : Byte) (isCapture : Bool) : Option StepCmd :=
  let input := (m.read p).toNat
  let n := (m.read (p + 1)).toNat + 1
  let lineByte := (m.read (p + 3)).toNat
  let holdoff := flags.getLsbD 3
  match TriggerMode.ofByte (m.read (p + 2)), dutyField (m.read16 (p + 0x0C)), dutyField (m.read16 (p + 0x0E)),
      decodeJudge m p with
  | some mode, some lo, some hi, some (st, jlo, jhi) =>
    if flagsWithin flags flagHoldoff && input ≤ 9 && (!mode.isEdge || lineByte ≤ 7) && (!holdoff || mode.isEdge) &&
        lo ≤ hi then
      let base : CycleParams :=
        { input := Fin.ofNat 10 input, samples := n, mode := mode, line := Fin.ofNat 8 lineByte,
          delay := (m.read32 (p + 0x04)).toNat, wait := (m.read32 (p + 0x08)).toNat, holdoff := holdoff,
          abortLo := lo, abortHi := hi, stat := st, judgeLo := jlo, judgeHi := jhi, capture := none }
      if isCapture then
        match decodeStorage m p n with
        | some cp => some (.cycle { base with capture := some cp })
        | none => none
      else some (.cycle base)
    else none
  | _, _, _, _ => none

/-- VERIFY (R119). -/
def decodeVerify (m : Memory) (p : Nat) (flags : Byte) : Option StepCmd :=
  let mask := m.read16 p
  let periods := (m.read (p + 2)).toNat
  if flagsWithin flags 0#8 && mask != 0#16 && 1 ≤ periods && periods ≤ 64 then some (.verify mask periods) else none

/-- Modes that read the address width and register address. -/
def LinkMode.usesRegister : LinkMode → Bool
  | .store => true | .point => true | .fetchAt => true | .fetchHere => false | .probe => false | .probeUntil => false

/-- Modes that move data bytes. -/
def LinkMode.movesData : LinkMode → Bool
  | .store => true | .fetchHere => true | .fetchAt => true | .point => false | .probe => false | .probeUntil => false

/-- LINK (R143). A parameter the mode does not read is not checked. -/
def decodeLink (m : Memory) (p : Nat) (flags : Byte) : Option StepCmd :=
  let target := m.read (p + 1)
  let width := (m.read (p + 2)).toNat
  let length := (m.read (p + 3)).toNat
  let reg := m.read16 (p + 4)
  let off := (m.read16 (p + 6)).toNat
  match LinkMode.ofByte (m.read p) with
  | some mode =>
    if flagsWithin flags 0#8 && target.toNat ≤ 127 &&
        (!mode.usesRegister || ((width == 1 && reg.toNat ≤ 255) || width == 2)) &&
        (!mode.movesData || (1 ≤ length && length ≤ 16 && off ≤ 1023 && off + length ≤ 1024)) then
      some (.link { mode := mode, target := target.setWidth 7, width := width, register := reg, length := length,
                    offset := off })
    else none
  | none => none

/-- LINES (R133). -/
def decodeLines (m : Memory) (p : Nat) (flags : Byte) : Option StepCmd :=
  let mask := m.read p
  match LineMode.ofByte (m.read (p + 1)) with
  | some mode => if flagsWithin flags 0#8 && mask != 0#8 then some (.lines mask mode (m.read (p + 2))) else none
  | none => none

/-- AWAIT_GO (R40). -/
def decodeAwaitGo (flags : Byte) : Option StepCmd := if flagsWithin flags 0#8 then some .awaitGo else none

/-- The kind and parameters of a step record whose parameters stand at p; none where check 10 answers STEP_INVALID. -/
def decodeCmd (m : Memory) (kind flags : Byte) (p : Nat) : Option StepCmd :=
  match kind.toNat with
  | 1 => decodeSet m p flags
  | 2 => decodeApply m p flags
  | 3 => decodeOff m p flags
  | 4 => decodeDelay m p flags
  | 5 => decodeCycle m p flags false
  | 6 => decodeCycle m p flags true
  | 7 => decodeVerify m p flags
  | 8 => decodeLink m p flags
  | 9 => decodeLines m p flags
  | 10 => decodeAwaitGo flags
  | _ => none

/-- The command part of step record i of slot n (section 11.4): kind, flags, timeout, parameters at 04h. -/
def decodeStep (m : Memory) (n : SlotId) (i : StepId) : Option StepRecord :=
  let a := stepBase n i
  let flags := m.read (a + 1)
  match decodeCmd m (m.read a) flags (a + 4) with
  | some cmd => some { cont := flags.getLsbD 0, timeout := (m.read16 (a + 2)).toNat, cmd := cmd }
  | none => none

/-- The channels a step names (R11): APPLY with mask 0 names none and always passes. -/
def StepCmd.chans : StepCmd → BitVec 16
  | .set mask _ _ _ _ => mask
  | .apply mask => mask
  | .off mask _ => mask
  | .delay _ => 0
  | .cycle _ => 0
  | .verify mask _ => mask
  | .link _ => 0
  | .lines _ _ _ => 0
  | .awaitGo => 0

/-- The lines a step names (R11): a LINES mask, and the trigger line of an EDGE mode. -/
def StepCmd.lineMask : StepCmd → BitVec 8
  | .lines mask _ _ => mask
  | .cycle p => if p.mode.isEdge then 1#8 <<< p.line.val else 0
  | .set _ _ _ _ _ => 0
  | .apply _ => 0
  | .off _ _ => 0
  | .delay _ => 0
  | .verify _ _ => 0
  | .link _ => 0
  | .awaitGo => 0

/-- One mask lies within another. -/
def within16 (m claim : BitVec 16) : Bool := m &&& ~~~claim == 0#16
def within8 (m claim : BitVec 8) : Bool := m &&& ~~~claim == 0#8

/-- Check 10 for one step: the refusal code if the step fails, validity first, then the claims (R11). -/
def stepFault (m : Memory) (n : SlotId) (chans : BitVec 16) (lines : BitVec 8) (i : StepId) : Option ResultCode :=
  match decodeStep m n i with
  | none => some .stepInvalid
  | some r => if within16 r.cmd.chans chans && within8 r.cmd.lineMask lines then none else some .stepOutsideClaim

/-! ### Parameters of the step in progress -/

/-- The cycle parameters of the lane's step, if it is a MEASURE or CAPTURE. -/
def Lane.cycleParams (l : Lane) : Option CycleParams :=
  match l.record with
  | some { cmd := .cycle p, .. } => some p
  | _ => none

/-- The channel mask and period count of the lane's step, if it is a VERIFY. -/
def Lane.verifyParams (l : Lane) : Option (BitVec 16 × Nat) :=
  match l.record with
  | some { cmd := .verify mask p, .. } => some (mask, p)
  | _ => none

/-- The link parameters of the lane's step, if it is a LINK. -/
def Lane.linkParams (l : Lane) : Option LinkParams :=
  match l.record with
  | some { cmd := .link p, .. } => some p
  | _ => none

/-- The active level of a trigger line: high for EDGE_RISE, low for EDGE_FALL (R93). -/
def CycleParams.activeLevel (p : CycleParams) : Bool :=
  match p.mode with
  | .edgeFall => false
  | .edgeRise => true
  | .immediate => true
  | .timed => true

/-! ### The configuration page -/

/-- A field of the page: offset, size in bytes, least and greatest value (section 11.3). -/
structure PageField where
  offset : Nat
  size : Nat
  lo : Nat
  hi : Nat
  deriving DecidableEq, Repr

/-- A run of `count` entries of one field. -/
def pageFields (offset size lo hi : Nat) (count : Nat) : List PageField :=
  (List.range count).map fun i => { offset := offset + i * size, size := size, lo := lo, hi := hi }

/-- The fields that a check can refuse, in ascending order of offset (R177). -/
def checkedFields : List PageField :=
  pageFields 0x000 1 1 1 1 ++ pageFields 0x004 2 50 10000 4 ++ pageFields 0x010 2 0 4095 16 ++
  pageFields 0x030 2 0 4095 16 ++ pageFields 0x050 1 0 3 16 ++ pageFields 0x060 1 0 4 8 ++
  pageFields 0x068 1 0 1 8 ++ pageFields 0x074 4 1000 100000000 1 ++ pageFields 0x078 2 10 400 1 ++
  pageFields 0x07A 2 1 1000 1 ++ pageFields 0x07C 2 1 1000 1

/-- A field's value, little-endian. -/
def PageField.value (f : PageField) (m : Memory) : Nat :=
  match f.size with
  | 1 => (m.read f.offset).toNat
  | 2 => (m.read16 f.offset).toNat
  | _ => (m.read32 f.offset).toNat

/-- The offset of the first field out of range, if there is one (R177). -/
def firstBadField (m : Memory) : Option Nat :=
  (checkedFields.find? fun f => f.value m < f.lo || f.hi < f.value m).map PageField.offset

/-- The configuration set a page holds (section 11.3). -/
def configOfPage (m : Memory) : ConfigSet where
  periods := vec4 fun g => m.read16 (0x004 + 2 * g.val)
  enable := m.read16 0x00C
  safeDuty := vec16 fun c => (m.read16 (0x010 + 2 * c.val)).setWidth 12
  safeRate := vec16 fun c => (m.read16 (0x030 + 2 * c.val)).setWidth 12
  quarters := vec16 fun c => (m.read (0x050 + c.val)).setWidth 2
  safeMode := vec8 fun l => (LineMode.ofByte (m.read (0x060 + l.val))).getD .inputPullup
  safeLevel := allLines.foldl
    (fun acc l => if (m.read (0x068 + l.val)).getLsbD 0 then acc ||| (1#8 <<< l.val) else acc) 0#8
  tolerance := m.read 0x070
  window := (m.read32 0x074).toNat
  linkRate := m.read16 0x078
  stretch := m.read16 0x07A
  poll := (m.read16 0x07C).toNat

end Sys2Proof.Machine
end

