-- ==== Sys2Proof/Machine/Lines.lean ====
section
/-! DEFINITION. The fixture line block (chapter 7): setting a line's latch and mode, and its edge detector. -/

namespace Sys2Proof.Machine

/-- The edge detector after a change of mode (R136): started on entry to INPUT_EDGE with the sampled level as its
reference, kept while the line stays in INPUT_EDGE, stopped otherwise. -/
def Line.detectorAfter (x : Line) (mode : LineMode) : Option Bool :=
  if mode = .inputEdge then (if x.mode = .inputEdge then x.detector else some x.level) else none

/-- A line takes a latch level and then a mode (R134, R138). -/
def Line.setTo (x : Line) (latch : Bool) (mode : LineMode) : Line :=
  { x with latch := latch, mode := mode, detector := x.detectorAfter mode }

/-- A LINES step on one line (R134). -/
def lineSetOn (mode : LineMode) (levels : BitVec 8) (s : State) (l : LineId) : State :=
  s.putLine l ((s.line l).setTo (inLines levels l) mode)

/-- The safe order on one line (R138). -/
def safeLineOn (s : State) (l : LineId) : State :=
  s.putLine l ((s.line l).setTo (inLines s.config.safeLevel l) s.config.safeMode[l])

/-- Either reset on one line (R139): INPUT_PULLUP, latch 0, detector stopped; the sampled level is kept. -/
def resetLineOn (s : State) (l : LineId) : State := s.putLine l ((s.line l).setTo false .inputPullup)

/-- A change of a line's sampled level (R132): the level becomes the opposite one, and a running detector takes it as
its reference (R136). -/
def Line.levelChanged (x : Line) : Line :=
  { x with level := !x.level, detector := x.detector.map fun _ => !x.level }

end Sys2Proof.Machine
end

