-- ==== Sys2Proof/Machine/Channels.lean ====
section
/-! DEFINITION. The drive channel block (chapter 4): taking a target, ramps, turning off, pending targets, group
timing; with the report of a change to the watch of a VERIFY step (R73, R121). -/

namespace Sys2Proof.Machine

/-! ### One channel -/

/-- A channel arrives at its active target (R73): OFF with duty, target and rate 0 and the marker cleared if the marker
is set, else HOLDING. -/
def Channel.arrive (x : Channel) : Channel :=
  if x.offOnArrival then { x with state := .off, duty := 0, target := 0, rate := 0, offOnArrival := false }
  else { x with state := .holding }

/-- A channel takes active target t at rate r (R75). -/
def Channel.takeTarget (x : Channel) (t r : Duty) : Channel :=
  let from_ : Duty := if x.state = .off then 0 else x.duty
  let y := { x with target := t, rate := r, duty := from_ }
  if t = from_ ∨ r = 0 then { y with duty := t }.arrive else { y with state := .ramping }

/-- One ramp move (R72): by the rate toward the target, or to the target when it is no farther than the rate. -/
def Channel.rampMove (x : Channel) : Channel :=
  if x.state = .ramping then
    if x.duty ≤ x.target then
      if x.rate < x.target - x.duty then { x with duty := x.duty + x.rate } else { x with duty := x.target }.arrive
    else
      if x.rate < x.duty - x.target then { x with duty := x.duty - x.rate } else { x with duty := x.target }.arrive
  else x

/-- A channel is turned off at once (R82); the period in progress keeps its latched duty. -/
def Channel.turnOff (x : Channel) : Channel :=
  { x with state := .off, duty := 0, target := 0, rate := 0, offOnArrival := false, pending := none }

/-- A channel at either reset (R88, R89): turned off, and its output cut low at once. -/
def Channel.cutOff (x : Channel) : Channel := { x.turnOff with latched := 0 }

/-- A non-staged SET on one channel (R77). -/
def Channel.setTarget (x : Channel) (t r : Duty) : Channel :=
  { x with pending := none, offOnArrival := false }.takeTarget t r

/-- A staged SET on one channel (R78). -/
def Channel.stage (x : Channel) (t r : Duty) : Channel := { x with pending := some { target := t, rate := r } }

/-- An OFF step on one channel (R83). -/
def Channel.offStep (x : Channel) (r : Duty) : Channel :=
  if r = 0 then x.turnOff else { x with pending := none, offOnArrival := true }.takeTarget 0 r

/-- An APPLY on one channel with a pending target (R80). -/
def Channel.applyPending (x : Channel) (p : Pending) : Channel :=
  { { x with offOnArrival := false }.takeTarget p.target p.rate with pending := none }

/-- The safe order on one enabled channel (R85). -/
def Channel.safeTarget (x : Channel) (duty rate : Duty) : Channel :=
  if duty = 0 ∧ rate = 0 then x.turnOff
  else { x with pending := none, offOnArrival := decide (duty = 0) }.takeTarget duty rate

/-! ### Reports to a watch -/

/-- Lane k's VERIFY watches channel c: its settle phase has ended, its mask names c, and c's own measurement has not
ended (R121). -/
def State.watches? (s : State) (k : LaneId) (c : ChanId) : Bool :=
  ((s.lane k).phase == .monitorQueue || (s.lane k).phase == .measuring) &&
  (match (s.lane k).verifyParams with
   | some (mask, _) => inChans mask c
   | none => false) &&
  !((s.watch k).measured.any fun r => r.chan == c)

/-- The disturbed mark of a channel in the watch of the lane that claims it, if one runs (R121). -/
def State.disturb (s : State) (c : ChanId) : State :=
  match s.ownerOf c with
  | none => s
  | some k =>
    if s.watches? k c then
      s.putWatch k { s.watch k with disturbed := (s.watch k).disturbed ||| (1#16 <<< c.val) }
    else s

/-- A channel takes a new value; a change of its state is reported (R73). -/
def State.changeChan (s : State) (c : ChanId) (x : Channel) : State :=
  if (s.chan c).state = x.state then s.putChan c x else (s.putChan c x).disturb c

/-- SET, staged SET and OFF on one channel of State. -/
def setOn (t r : Duty) (s : State) (c : ChanId) : State := s.changeChan c ((s.chan c).setTarget t r)
def stageOn (t r : Duty) (s : State) (c : ChanId) : State := s.changeChan c ((s.chan c).stage t r)
def offOn (r : Duty) (s : State) (c : ChanId) : State := s.changeChan c ((s.chan c).offStep r)

/-- Turning a channel off at once (R82). -/
def turnOffOn (s : State) (c : ChanId) : State := s.changeChan c (s.chan c).turnOff

/-- An apply of a channel's pending target, if it has one (R80); an apply disturbs a watched channel (R121). -/
def applyOn (s : State) (c : ChanId) : State :=
  match (s.chan c).pending with
  | none => s
  | some p => (s.changeChan c ((s.chan c).applyPending p)).disturb c

/-- The pending target of a channel is removed, not applied (R84). -/
def clearPending (s : State) (c : ChanId) : State := s.putChan c { s.chan c with pending := none }

/-- The safe order's part on one channel (R85): disabled channels are not reached. -/
def safeOn (s : State) (c : ChanId) : State :=
  if inChans s.config.enable c then s.changeChan c ((s.chan c).safeTarget s.config.safeDuty[c] s.config.safeRate[c])
  else s

/-- One channel's part of a ramp move (R72). -/
def rampOn (s : State) (c : ChanId) : State := s.changeChan c (s.chan c).rampMove

/-- Every channel of a mask is HOLDING (R79). -/
def State.allHolding (s : State) (mask : BitVec 16) : Bool :=
  allChans.all fun c => !inChans mask c || (s.chan c).state == .holding

/-- Every channel of a mask is HOLDING or OFF (R120). -/
def State.allSteady (s : State) (mask : BitVec 16) : Bool :=
  allChans.all fun c => !inChans mask c || (s.chan c).state != .ramping

/-! ### Group timing -/

/-- The timing a configuration set gives a group. -/
def ConfigSet.timing (cfg : ConfigSet) (g : GroupId) : Timing where
  period := cfg.periods[g]
  quarters := vec4 fun j => cfg.quarters[4 * g.val + j.val]

/-- LOAD_CONFIG on one group (R69): the loaded values become its pending timing when they differ from its running
timing, and it drops any pending timing when they do not. -/
def retime (cfg : ConfigSet) (s : State) (g : GroupId) : State :=
  let x := s.group g
  if cfg.timing g = x.running then s.putGroup g { x with pending := none }
  else s.putGroup g { x with pending := some (cfg.timing g) }

/-- The phase quarter a channel runs with. -/
def State.quarterOf (s : State) (c : ChanId) : BitVec 2 := (s.group (groupOf c)).running.quarters[placeInGroup c]

/-- The channels of a group. -/
def chansOfGroup (g : GroupId) : List ChanId := allChans.filter fun c => groupOf c = g

/-- A group period start on one channel: its period start in the new group period is still to come (R68). -/
def awaitStart (s : State) (c : ChanId) : State := s.putChan c { s.chan c with started := false }

/-- The cut at a change of timing (R69): the period in progress is ended and the output goes low. -/
def cutPeriod (s : State) (c : ChanId) : State := s.putChan c { s.chan c with latched := 0 }

/-- A channel's own period start (R68): it latches its current duty, an OFF channel 0. -/
def latchOn (s : State) (c : ChanId) : State :=
  let x := s.chan c
  s.putChan c { x with latched := if x.state = .off then 0 else x.duty, started := true }

end Sys2Proof.Machine
end

