-- ==== Sys2Proof/Machine/Claims.lean ====
section
/-! DEFINITION. The claim table (chapter 3): judging a claim set, the grant walk, and the releases. -/

namespace Sys2Proof.Machine

/-- Two claim sets overlap when some channel or some line is named in both (R55). -/
def overlaps (c₁ : BitVec 16) (l₁ : BitVec 8) (c₂ : BitVec 16) (l₂ : BitVec 8) : Bool :=
  c₁ &&& c₂ != 0#16 || l₁ &&& l₂ != 0#8

/-- Every entry a set names is empty. -/
def State.entriesEmpty (s : State) (chans : BitVec 16) (lines : BitVec 8) : Bool :=
  (allChans.all fun c => !inChans chans c || (s.ownerOf c).isNone) &&
  (allLines.all fun l => !inLines lines l || (s.lineOwnerOf l).isNone)

/-- The set may be granted ahead of the lanes that wait (R56, R58). -/
def State.grantable (s : State) (chans : BitVec 16) (lines : BitVec 8) (older : List Waiting) : Bool :=
  s.entriesEmpty chans lines && older.all fun w => !overlaps chans lines w.chans w.lines

/-- Every entry a set names is given to a lane in one act (R56). -/
def State.giveClaims (s : State) (k : LaneId) (chans : BitVec 16) (lines : BitVec 8) : State :=
  onLines lines (fun s l => s.putLineOwner l (some k)) (onChans chans (fun s c => s.putOwner c (some k)) s)

/-- The channels and the lines a lane holds. -/
def State.chansHeld (s : State) (k : LaneId) : BitVec 16 :=
  allChans.foldl (fun m c => if s.ownerOf c = some k then m ||| (1#16 <<< c.val) else m) 0
def State.linesHeld (s : State) (k : LaneId) : BitVec 8 :=
  allLines.foldl (fun m l => if s.lineOwnerOf l = some k then m ||| (1#8 <<< l.val) else m) 0

/-- The walk over the wait list (R58), oldest first: `kept` are the older lanes still waiting. Answers the state, the
lanes still waiting and the lanes granted, each in list order. -/
def walkList : List Waiting → List Waiting → State → State × List Waiting × List LaneId
  | [], kept, s => (s, kept, [])
  | w :: ws, kept, s =>
    if s.grantable w.chans w.lines kept then
      let r := walkList ws kept (s.giveClaims w.lane w.chans w.lines)
      (r.1, r.2.1, w.lane :: r.2.2)
    else walkList ws (kept ++ [w]) s

/-- A walk (R58): one act of the claim table, with the lanes it grants. -/
def walk (s : State) : State × List LaneId :=
  let r := walkList s.waitList [] s
  ({ r.1 with waitList := r.2.1 }, r.2.2)

/-- An entry that names the lane and is not kept is made empty; a released channel's pending target is cleared
(R60, R62). -/
def releaseChan (k : LaneId) (keep : BitVec 16) (s : State) (c : ChanId) : State :=
  if s.ownerOf c = some k ∧ !inChans keep c then clearPending (s.putOwner c none) c else s
def releaseLine (k : LaneId) (keep : BitVec 8) (s : State) (l : LineId) : State :=
  if s.lineOwnerOf l = some k ∧ !inLines keep l then s.putLineOwner l none else s

/-- A lane's claims outside the masks are released (R60): all of them at chain end (masks 0), the trim at a
continuation switch. -/
def State.releaseClaims (s : State) (k : LaneId) (keepChans : BitVec 16) (keepLines : BitVec 8) : State :=
  allLines.foldl (releaseLine k keepLines) (allChans.foldl (releaseChan k keepChans) s)

/-- One entry is cleared, a claimed channel's pending target with it (R61, R84). -/
def clearOwner (s : State) (c : ChanId) : State :=
  if (s.ownerOf c).isSome then clearPending (s.putOwner c none) c else s
def clearLineOwner (s : State) (l : LineId) : State := s.putLineOwner l none

/-- The claim table is cleared (R61): every entry, the wait list, and the pending target of every claimed channel. -/
def State.clearClaims (s : State) : State :=
  { allLines.foldl clearLineOwner (allChans.foldl clearOwner s) with waitList := [] }

end Sys2Proof.Machine
end

