-- ==== Sys2Proof/Machine/Units.lean ====
section
/-! DEFINITION. The three shared units (section 3.5): request, grant, release and withdrawal of the converter (R100),
the duty monitor (R121) and the fixture link (R144). A grant starts the unit's work in the same act (R64). -/

namespace Sys2Proof.Machine

/-! ### Converter -/

/-- The converter's grant (R100, R92): the input of the lane's step, a cleared arithmetic unit, the first conversion. -/
def grantConverter (s : State) (k : LaneId) : State :=
  let input := match (s.lane k).cycleParams with
    | some p => p.input
    | none => s.converter.input
  State.setPhase
    { s with converter := { s.converter with grantee := some k, input := input, phase := .converting, waitLeft := none,
                                             count := 0, sum := 0, min := 0, max := 0, last := 0 } } k .converting

/-- A lane requests the converter (R64). -/
def requestConverter (s : State) (k : LaneId) : State :=
  match s.converter.grantee with
  | none => grantConverter s k
  | some _ =>
    State.setPhase { s with converter := { s.converter with queue := s.converter.queue ++ [k] } } k .converterQueue

/-- The grantee releases the converter (R65): a conversion in flight is abandoned, a sample wait is stopped. -/
def releaseConverter (s : State) : State :=
  match s.converter.queue with
  | [] => { s with converter := { s.converter with grantee := none, phase := .none, waitLeft := none } }
  | k :: q => grantConverter { s with converter := { s.converter with queue := q } } k

/-- A lane withdraws its request from the converter's queue (R65). -/
def withdrawConverter (s : State) (k : LaneId) : State :=
  { s with converter := { s.converter with queue := s.converter.queue.erase k } }

/-- The average the arithmetic unit gives (R92). -/
def Converter.average (c : Converter) : Nat := if c.count = 0 then 0 else c.sum / c.count

/-- The arithmetic unit records a code (R92). -/
def Converter.record (c : Converter) (code : Duty) : Converter :=
  { c with count := c.count + 1, sum := c.sum + code.toNat, last := code,
           min := if c.count = 0 ∨ code < c.min then code else c.min,
           max := if c.count = 0 ∨ c.max < code then code else c.max }

/-! ### Duty monitor -/

/-- The act in progress falls at a period start of channel c (R122): at the period start of a channel of the same group
and phase quarter, once c's own start has been taken (log 20). -/
def State.atPeriodStartOf (s : State) (c : ChanId) : Bool :=
  match s.monitor.instant with
  | some d => groupOf d == groupOf c && s.quarterOf d == s.quarterOf c && (s.chan c).started
  | none => false

/-- The monitor selects a channel (R122): ALIGN, or COUNTING at once at a period start of the channel. -/
def selectChannel (s : State) (c : ChanId) : State :=
  { s with monitor := { s.monitor with selected := some c, periods := 0, high := 0, time := 0,
                                       phase := if s.atPeriodStartOf c then .counting else .align } }

/-- The monitor selects none (R125, R127). That its period count and accumulators are then 0 is the model's choice
(log 36). -/
def selectNone (s : State) : State :=
  { s with monitor := { s.monitor with selected := none, phase := .none, periods := 0, high := 0, time := 0 } }

/-- The lowest channel the lane's VERIFY masks. -/
def Lane.lowestMasked (l : Lane) : Option ChanId :=
  match l.verifyParams with
  | some (mask, _) => lowestChan mask
  | none => none

/-- The monitor's grant (R121): the lowest masked channel is selected. -/
def grantMonitor (s : State) (k : LaneId) : State :=
  let s₁ := State.setPhase { s with monitor := { s.monitor with grantee := some k } } k .measuring
  match (s.lane k).lowestMasked with
  | some c => selectChannel s₁ c
  | none => selectNone s₁

/-- A lane requests the duty monitor (R64). -/
def requestMonitor (s : State) (k : LaneId) : State :=
  match s.monitor.grantee with
  | none => grantMonitor s k
  | some _ => State.setPhase { s with monitor := { s.monitor with queue := s.monitor.queue ++ [k] } } k .monitorQueue

/-- The grantee releases the monitor (R65): a measurement in flight is abandoned, its counts discarded. -/
def releaseMonitor (s : State) : State :=
  match s.monitor.queue with
  | [] => selectNone { s with monitor := { s.monitor with grantee := none } }
  | k :: q => grantMonitor { s with monitor := { s.monitor with queue := q } } k

/-- A lane withdraws its request from the monitor's queue (R65). -/
def withdrawMonitor (s : State) (k : LaneId) : State :=
  { s with monitor := { s.monitor with queue := s.monitor.queue.erase k } }

/-! ### Fixture link -/

/-- The link at the beginning of a transfer for a lane (R144): counts cleared, RECOVERY if the bus is uncertain. -/
def Link.granted (x : Link) (k : LaneId) (attempts : Nat) : Link where
  grantee := some k
  queue := x.queue
  phase := if x.busUncertain then .recovery else .start
  busUncertain := x.busUncertain
  bytes := 0
  attempts := attempts
  windDown := false
  sending := 0
  readBit := false
  regLeft := 0
  ninth := false
  extra := false
  ending := .normal
  waited := 0

/-- The link without a grantee (R140, R149): IDLE, both wires released. That its counts are 0 and its wind-down mark is
clear before the next grant is the model's choice (log 32). -/
def Link.idle (x : Link) : Link where
  grantee := none
  queue := x.queue
  phase := .idle
  busUncertain := x.busUncertain
  bytes := 0
  attempts := 0
  windDown := false
  sending := 0
  readBit := false
  regLeft := 0
  ninth := false
  extra := false
  ending := .normal
  waited := 0

/-- The link's wait for a high wire has run out: the bus is stuck, and BUS_STUCK alone ends the transfer (R142, R153;
log 13). -/
def State.linkWaitOver (s : State) : Bool := decide (s.config.stretch.toNat ≤ s.link.waited)

/-- The link's grant (R144): a further attempt of a PROBE_UNTIL keeps the attempts already made. -/
def grantLink (s : State) (k : LaneId) : State :=
  State.setPhase { s with link := s.link.granted k (s.lane k).attempts } k .linking

/-- A lane requests the link (R64). -/
def requestLink (s : State) (k : LaneId) : State :=
  match s.link.grantee with
  | none => grantLink s k
  | some _ => State.setPhase { s with link := { s.link with queue := s.link.queue ++ [k] } } k .linkQueue

/-- The link releases itself (R65, R149): the new grantee's first phase, or IDLE. -/
def releaseLink (s : State) : State :=
  match s.link.queue with
  | [] => { s with link := s.link.idle }
  | k :: q => grantLink { s with link := { s.link with queue := q } } k

/-- A lane withdraws its request from the link's queue (R65). -/
def withdrawLink (s : State) (k : LaneId) : State :=
  { s with link := { s.link with queue := s.link.queue.erase k } }

end Sys2Proof.Machine
end

