-- ==== Sys2Proof/Machine/Slots.lean ====
section
/-! DEFINITION. What the part writes into a held slot: result parts, counts, endings (R7, R17, R18, R35), and a CAPTURE's
bytes in the capture window (R107-R110, section 11.5). -/

namespace Sys2Proof.Machine

/-! ### Result parts -/

/-- The result part of a step record (section 11.4). -/
structure StepResult where
  outcome : StepOutcome
  detail : StepDetail
  count : Nat
  v0 : Half
  v1 : Half
  v2 : Half
  v3 : Half
  deriving DecidableEq, Repr

/-- A result with v0–v3 0. -/
def plainResult (outcome : StepOutcome) (detail : StepDetail) (count : Nat) : StepResult :=
  { outcome := outcome, detail := detail, count := count, v0 := 0, v1 := 0, v2 := 0, v3 := 0 }

/-- The result part's twelve bytes, step offset 1Ch. -/
def StepResult.bytes (r : StepResult) : List Byte :=
  [r.outcome.code, r.detail.code] ++ halfBytes (BitVec.ofNat 16 r.count) ++ halfBytes r.v0 ++ halfBytes r.v1 ++
  halfBytes r.v2 ++ halfBytes r.v3

/-- The outcome is counted in steps done (R36). -/
def StepOutcome.counted : StepOutcome → Bool
  | .pass => true | .fail => true | .timeout => true | .error => true
  | .pending => false | .aborted => false | .skipped => false

/-- The outcome is counted in fault count (R36). -/
def StepOutcome.isFault (o : StepOutcome) : Bool := o.counted && o != .pass

/-- The result part of a step is written (R35). -/
def writeResult (s : State) (n : SlotId) (i : StepId) (r : StepResult) : State := s.store (stepBase n i + 0x1C) r.bytes

/-- Steps `first` to step count − 1 are given a result (R17: SKIPPED; R14: PENDING). -/
def writeResults (s : State) (n : SlotId) (first : Nat) (r : StepResult) : State :=
  (allSteps.filter fun i => first ≤ i.val && i.val < s.stepCount n).foldl (fun t i => writeResult t n i r) s

/-- Steps `first` to step count − 1 are written SKIPPED (R17). -/
def skipFrom (s : State) (n : SlotId) (first : Nat) : State := writeResults s n first (plainResult .skipped .none 0)

/-- Steps done and fault count after a step's outcome (R35). -/
def countStep (s : State) (n : SlotId) (o : StepOutcome) : State :=
  s.store (slotBase n + 0x0B)
    [if o.counted then s.stepsDone n + 1 else s.stepsDone n, if o.isFault then s.faultCount n + 1 else s.faultCount n]

/-! ### Endings -/

/-- Slot state, reason and detail of a header. -/
def writeVerdict (s : State) (n : SlotId) (st : SlotState) (reason detail : Byte) : State :=
  s.store (slotBase n + 0x01) [st.code, reason, detail]

/-- A slot's final state is written with the end tick and the slot joins FINISHED (R17, R18). -/
def finishSlot (s : State) (n : SlotId) (st : SlotState) (reason : EndReason) (detail : Byte) : State :=
  let t := (writeVerdict s n st reason.code detail).store (slotBase n + 0x1C) (wordBytes s.tick)
  { t with finished := t.finished ||| (1#22 <<< n.val) }

/-- A slot becomes RUNNING with its start tick (R32, R51). -/
def startSlot (s : State) (n : SlotId) : State :=
  (s.store (slotBase n + 0x01) [SlotState.running.code]).store (slotBase n + 0x18) (wordBytes s.tick)

/-- The state a judged slot ends in (R38). -/
def State.completedState (s : State) (n : SlotId) : SlotState :=
  if s.faultCount n = 0 then .complete else .completeWithFaults

/-- A queued or parked slot ends without having run (R24, R25, R161): ABORTED, detail FFh, every step SKIPPED. -/
def endUnrun (reason : EndReason) (s : State) (n : SlotId) : State :=
  finishSlot (skipFrom s n 0) n .aborted reason 0xFF#8

/-! ### CAPTURE storage -/

/-- The two bytes of a sample in packing modes 0 and 1 (section 11.5). -/
def sampleBytes (high : Bool) (c : Duty) : List Byte :=
  let lo : Byte := c.extractLsb' 0 8
  let hi : Byte := (c.extractLsb' 8 4).zeroExtend 8
  if high then [hi, lo] else [lo, hi]

/-- The three bytes of a pair A, B in packing modes 2 and 3 (section 11.5). -/
def pairBytes (high : Bool) (a b : Duty) : List Byte :=
  if high then
    [a.extractLsb' 4 8, (a.extractLsb' 0 4 ++ b.extractLsb' 8 4 : BitVec 8), b.extractLsb' 0 8]
  else
    [a.extractLsb' 0 8, (b.extractLsb' 0 4 ++ a.extractLsb' 8 4 : BitVec 8), b.extractLsb' 4 8]

/-- A CAPTURE stores sample number k, the lane's step being a CAPTURE (R108, R109): a sample in modes 0 and 1; in modes
2 and 3 sample 2j is kept as the half pair and sample 2j + 1 completes pair j. -/
def storeSample (s : State) (k : LaneId) (n : Nat) (code : Duty) : State :=
  match (s.lane k).cycleParams with
  | some { capture := some cp, .. } =>
    let put (high : Bool) : State := s.storeWindow k (cp.offset + 2 * n) (sampleBytes high code)
    let pair (high : Bool) : State :=
      match (s.lane k).halfPair with
      | none => s.setLane k { s.lane k with halfPair := some code }
      | some a =>
        let t := s.storeWindow k (cp.offset + 3 * (n / 2)) (pairBytes high a code)
        t.setLane k { t.lane k with halfPair := none }
    match cp.packing with
    | .wordLow => put false
    | .wordHigh => put true
    | .pairLow => pair false
    | .pairHigh => pair true
  | _ => s

/-- A half pair still held is completed with B = 0 and written (R110); `count` samples have been recorded. -/
def completeHalfPair (s : State) (k : LaneId) (count : Nat) : State :=
  match (s.lane k).halfPair with
  | none => s
  | some _ => storeSample s k count 0

end Sys2Proof.Machine
end

