-- ==== Sys2Proof/Machine/Lanes.lean ====
section
/-! DEFINITION. The lanes (chapter 2): starting and ending steps, judging slots, chains, takes. One act can set several
lanes in motion; what each of them still has to do is a task, and `finishAct` carries the tasks of an act out (R59). -/

namespace Sys2Proof.Machine

/-- What is still to be done within the act in progress. -/
inductive Task where
  /-- start step i of the lane's running slot (R34) -/
  | startStep (k : LaneId) (i : StepId)
  /-- go on with a granted claim set, or with a continuation: GATED, or step 0 (R33, R51) -/
  | enter (k : LaneId)
  /-- take the head of the queue if R32 allows -/
  | take (k : LaneId)
  /-- the release part of GO on a lane (R41) -/
  | release (k : LaneId)
  /-- a SET with SETTLE whose wait has ended ends PASS (R79) -/
  | settled (k : LaneId)
  deriving DecidableEq, Repr

/-- A state in the middle of an act, with the tasks that are left, the first to be done first. -/
abbrev Act := State × List Task

/-! ### Results -/

/-- The statistics of a conversion cycle as a result (R105). -/
def Converter.toResult (c : Converter) (outcome : StepOutcome) (detail : StepDetail) : StepResult :=
  { outcome := outcome, detail := detail, count := c.count, v0 := c.min.zeroExtend 16, v1 := c.max.zeroExtend 16,
    v2 := BitVec.ofNat 16 c.average, v3 := c.last.zeroExtend 16 }

/-- The failing channel with the largest deviation, the lowest-numbered among equals (R125); `measured` is in
ascending channel order. -/
def worstOf (measured : List Measured) : Option Measured :=
  (measured.filter fun m => m.failed).foldl
    (fun best m => match best with
      | none => some m
      | some b => if b.deviation < m.deviation then some m else some b) none

/-- The mask of the failing channels (R125). -/
def failMask (measured : List Measured) : BitVec 16 :=
  (measured.filter fun m => m.failed).foldl (fun acc m => acc ||| (1#16 <<< m.chan.val)) 0

/-- The values of a VERIFY result over the channels measured (R125, R127). -/
def Watch.toResult (w : Watch) (outcome : StepOutcome) (detail : StepDetail) (ticks : Nat) : StepResult :=
  { outcome := outcome, detail := detail, count := ticks, v0 := failMask w.measured,
    v1 := match worstOf w.measured with
      | some m => BitVec.ofNat 16 m.chan.val
      | none => 0xFFFF#16,
    v2 := match worstOf w.measured with
      | some m => m.duty.zeroExtend 16
      | none => 0,
    v3 := match worstOf w.measured with
      | some m => m.deviation.zeroExtend 16
      | none => 0 }

/-- The values of a LINK result (R149). -/
def linkResult (outcome : StepOutcome) (detail : StepDetail) (ticks bytes attempts : Nat) : StepResult :=
  { outcome := outcome, detail := detail, count := ticks, v0 := BitVec.ofNat 16 bytes,
    v1 := BitVec.ofNat 16 attempts, v2 := 0, v3 := 0 }

/-- The result of the lane's step with what it has reached so far (R36): R105 for MEASURE and CAPTURE, R127 for VERIFY,
R149 for LINK, zeros for the rest. -/
def State.partialResult (s : State) (k : LaneId) (outcome : StepOutcome) (detail : StepDetail) : StepResult :=
  let l := s.lane k
  match l.record.map StepRecord.cmd with
  | some (.cycle _) =>
    if l.phase = .converting then s.converter.toResult outcome detail else plainResult outcome detail 0
  | some (.verify _ _) => (s.watch k).toResult outcome detail l.ticks
  | some (.link _) =>
    if l.phase = .linking then linkResult outcome detail l.ticks s.link.bytes s.link.attempts
    else linkResult outcome detail l.ticks 0 l.attempts
  | _ => plainResult outcome detail l.ticks

/-! ### Ending slots and chains -/

/-- Chain end (R52): OFF_AT_END, release and walk, IDLE, take. The lanes granted go on in list order (R59), then the
lane's own take. -/
def chainEnd (s : State) (k : LaneId) (n : SlotId) : Act :=
  let s₁ := if s.offAtEnd n then onChans (s.chansHeld k) turnOffOn s else s
  let r := walk (s₁.releaseClaims k 0 0)
  (r.1.setLane k Lane.idle, r.2.map Task.enter ++ [Task.take k])

/-- The slot ends and with it the chain. -/
def endSlot (s : State) (k : LaneId) (n : SlotId) (st : SlotState) (reason : EndReason) (detail : Byte) : Act :=
  chainEnd (finishSlot s n st reason detail) k n

/-- The lane with a slot just become its running slot: the plan timer runs for the slot's plan timeout (R29, R32). -/
def State.startedLane (s : State) (n : SlotId) (st : LaneState) : Lane :=
  { Lane.idle with state := st, running := some n, planTimer := startTimer (s.planTimeoutOf n) }

/-- The lane holds a claim that the masks do not name. -/
def State.trims (s : State) (k : LaneId) (chans : BitVec 16) (lines : BitVec 8) : Bool :=
  !(within16 (s.chansHeld k) chans && within8 (s.linesHeld k) lines)

/-- The lane's running slot n ends and its continuation c runs in its place (R51). -/
def continued (s : State) (k : LaneId) (n c : SlotId) : State :=
  let s₁ := finishSlot s n (s.completedState n) .normal 0xFF#8
  let s₂ := startSlot { s₁ with parked := s₁.parked.erase c } c
  s₂.setLane k (s₂.startedLane c .stepping)

/-- The lane's claims are trimmed to those of slot c, with a walk when that releases something (R60); then the lane goes
on. That the lanes the walk grants go on before it is the model's choice (log 34). -/
def trimThenEnter (s : State) (k : LaneId) (c : SlotId) : Act :=
  let t := s.releaseClaims k (s.chanClaim c) (s.lineClaim c)
  if s.trims k (s.chanClaim c) (s.lineClaim c) then ((walk t).1, (walk t).2.map Task.enter ++ [Task.enter k])
  else (t, [Task.enter k])

/-- The continuation switch (R51) from slot n to slot c. -/
def switchTo (s : State) (k : LaneId) (n c : SlotId) : Act := trimThenEnter (continued s k n c) k c

/-- The continuation check (R50), then the switch. -/
def continueWith (s : State) (k : LaneId) (n c : SlotId) : Act :=
  if s.parked.contains c then
    if within16 (s.chanClaim c) (s.chansHeld k) && within8 (s.lineClaim c) (s.linesHeld k) then switchTo s k n c
    else endSlot s k n .failed .chainClaims (slotByte (some c))
  else endSlot s k n .failed .chainMissing (slotByte (some c))

/-- Slot judgement (R38). A continuation byte that names no slot cannot stand in a held slot (R10); it is answered
as a missing one (log 27). -/
def judgeSlot (s : State) (k : LaneId) (n : SlotId) : Act :=
  if s.continuation n = 0xFF#8 then endSlot s k n (s.completedState n) .normal 0xFF#8
  else match slotOfByte (s.continuation n) with
    | some c => continueWith s k n c
    | none => endSlot s k n .failed .chainMissing (s.continuation n)

/-! ### Ending steps -/

/-- The lane with its step over and its timer stopped (R29, R35). -/
def Lane.stepOver (l : Lane) : Lane :=
  { l with state := .stepping, record := none, phase := .none, stepTimer := none, interval := none, ticks := 0,
           attempts := 0, halfPair := none, cause := none }

/-- The result of step i of slot n is recorded (R35): result part, steps done and fault count, step timer stopped,
watch over. -/
def recordResult (s : State) (k : LaneId) (n : SlotId) (i : StepId) (r : StepResult) : State :=
  let s₁ := countStep (writeResult s n i r) n r.outcome
  (s₁.setLane k (s₁.lane k).stepOver).putWatch k Watch.empty

/-- What follows a step's result (R37): `cont` is the step's CONTINUE flag. -/
def afterStep (s : State) (k : LaneId) (n : SlotId) (i : StepId) (cont : Bool) (o : StepOutcome) : Act :=
  if o = .pass ∨ cont = true then
    match nextStep i (s.stepCount n) with
    | some j => (s, [Task.startStep k j])
    | none => judgeSlot s k n
  else endSlot (skipFrom s n (i.val + 1)) k n .failed .stepFailed (stepByte (some i))

/-- The CONTINUE flag of the lane's step. -/
def Lane.continues (l : Lane) : Bool :=
  match l.record with
  | some r => r.cont
  | none => false

/-- A step ends with a result judged under CONTINUE (R35, R37). -/
def stepEnd (s : State) (k : LaneId) (r : StepResult) : Act :=
  match (s.lane k).running, (s.lane k).step with
  | some n, some i => afterStep (recordResult s k n i r) k n i (s.lane k).continues r.outcome
  | _, _ => (s, [])

/-- A step ends and the slot with it, whatever CONTINUE says (R43, R47, R49, R162): later steps SKIPPED, detail the
index. -/
def stepEndsSlot (s : State) (k : LaneId) (r : StepResult) (st : SlotState) (reason : EndReason) : Act :=
  match (s.lane k).running, (s.lane k).step with
  | some n, some i => endSlot (skipFrom (recordResult s k n i r) n (i.val + 1)) k n st reason (stepByte (some i))
  | _, _ => (s, [])

/-- A step ends PASS in the act that starts it, or at the end of a wait: v0–v3 0. -/
def stepPass (s : State) (k : LaneId) : Act := stepEnd s k (plainResult .pass .none (s.lane k).ticks)

/-! ### Starting steps -/

/-- The trigger is accepted (R100). -/
def acceptTrigger (s : State) (k : LaneId) : State := requestConverter s k

/-- The trigger phase begins (R95–R97). -/
def beginTrigger (s : State) (k : LaneId) (p : CycleParams) : Act :=
  match p.mode with
  | .immediate => (acceptTrigger s k, [])
  | .timed =>
    if p.delay = 0 then (acceptTrigger s k, [])
    else (s.setLane k { s.lane k with phase := .timedDelay, interval := some p.delay }, [])
  | .edgeRise =>
    if (s.line p.line).mode = .inputEdge then (s.setPhase k .edgeWait, [])
    else stepEnd s k (plainResult .error .triggerLineMode 0)
  | .edgeFall =>
    if (s.line p.line).mode = .inputEdge then (s.setPhase k .edgeWait, [])
    else stepEnd s k (plainResult .error .triggerLineMode 0)

/-- The settle phase of a VERIFY ends: its watch begins and the lane requests the monitor (R121). -/
def endSettle (s : State) (k : LaneId) : State := requestMonitor (s.putWatch k Watch.empty) k

/-- The step is passed to the block that serves it (R34). -/
def serveStep (s : State) (k : LaneId) : StepCmd → Act
  | .set mask t r staged settle =>
    if staged then stepPass (onChans mask (stageOn t r) s) k
    else
      let s₁ := onChans mask (setOn t r) s
      if settle && !s₁.allHolding mask then (s₁.setPhase k .settle, []) else stepPass s₁ k
  | .apply mask => stepPass (onChans (if mask = 0 then s.chansHeld k else mask) applyOn s) k
  | .off mask r => stepPass (onChans mask (offOn r) s) k
  | .delay n =>
    if n = 0 then stepPass s k else (s.setLane k { s.lane k with phase := .delay, interval := some n }, [])
  | .cycle p => beginTrigger s k p
  | .verify mask _ => if s.allSteady mask then (endSettle s k, []) else (s.setPhase k .verifySettle, [])
  | .link _ => (requestLink s k, [])
  | .lines mask mode levels => stepPass (onLines mask (lineSetOn mode levels) s) k
  | .awaitGo => (s.setPhase k .awaitGo, [])

/-- The lane at the start of step i (R34): the step timer runs for 100 ticks per millisecond of the step timeout. -/
def Lane.atStep (l : Lane) (i : StepId) (record : Option StepRecord) : Lane :=
  { l.stepOver with step := some i, record := record,
                    stepTimer := match record with
                      | some r => startTimer (r.timeout * Config.ticksPerMillisecond)
                      | none => none }

/-- The start of step i of the lane's running slot (R34). A record that does not decode cannot stand in a held slot
(R11, R21); the lane then waits for nothing (log 27). -/
def startStep (s : State) (k : LaneId) (i : StepId) : Act :=
  match (s.lane k).running with
  | none => (s, [])
  | some n =>
    let s₁ := s.store (slotBase n + 0x0D) [stepByte (some i)]
    let record := decodeStep s₁.mem n i
    let s₂ := s₁.setLane k ((s₁.lane k).atStep i record)
    match record with
    | some r => serveStep s₂ k r.cmd
    | none => (s₂, [])

/-! ### Takes and grants -/

/-- A lane goes on with its running slot, its claims held: GATED, or step 0 (R33, R51). An expiry of this tick boundary
that comes after it finds it so (R162; log 35). -/
def enterSlot (s : State) (k : LaneId) : Act :=
  match (s.lane k).running with
  | none => (s, [])
  | some n =>
    let t := s.setLane k { s.lane k with entered := true }
    if s.awaitGoStart n then (t.setLane k { t.lane k with state := .gated }, [])
    else (t, [Task.startStep k 0])

/-- The claim request of a lane that has taken slot n (R56): granted, or the tail of the wait list. -/
def requestClaims (s : State) (k : LaneId) (n : SlotId) : Act :=
  let chans := s.chanClaim n
  let lines := s.lineClaim n
  if s.grantable chans lines s.waitList then (s.giveClaims k chans lines, [Task.enter k])
  else ({ s with waitList := s.waitList ++ [{ lane := k, chans := chans, lines := lines }] }, [])

/-- The take (R32): an IDLE lane takes the head of its queue while SAFE is clear. -/
def takeHead (s : State) (k : LaneId) : Act :=
  if (s.lane k).state = .idle ∧ s.safe = false then
    match s.queue k with
    | [] => (s, [])
    | n :: q =>
      let s₁ := startSlot (s.setQueue k q) n
      requestClaims (s₁.setLane k (s₁.startedLane n .claiming)) k n
  else (s, [])

/-- The release part of GO reaches the lane (R41): GATED, or STEPPING with an AWAIT_GO step waiting. -/
def Lane.awaitsGo (l : Lane) : Bool := l.state == .gated || (l.state == .stepping && l.phase == .awaitGo)

/-- The release part of GO on one lane (R41, R40). -/
def releaseGo (s : State) (k : LaneId) : Act :=
  if (s.lane k).state = .gated then (s, [Task.startStep k 0])
  else if (s.lane k).awaitsGo then stepPass s k
  else (s, [])

/-- A lane judges its RAMP wait at a state report (R73). The wait of a SET ends, and what follows its PASS comes after
the act of the channel block (R79; log 26); the settle phase of a VERIFY ends with its watch begun at this report
(R120, R121). -/
def judgeWait (s : State) (k : LaneId) : Act :=
  match (s.lane k).phase, (s.lane k).record.map StepRecord.cmd with
  | .settle, some (.set mask _ _ _ _) => if s.allHolding mask then (s.setPhase k .none, [Task.settled k]) else (s, [])
  | .verifySettle, some (.verify mask _) => if s.allSteady mask then (endSettle s k, []) else (s, [])
  | _, _ => (s, [])

/-- A report of channel c reaches the lane that claims it, if one does (R73). -/
def reportChan (s : State) (c : ChanId) : Act :=
  match s.ownerOf c with
  | some k => judgeWait s k
  | none => (s, [])

/-- An act of the channel block on channels one after another, each reporting before the next is acted on (R73, R81):
the state, and what the lanes whose waits ended then have to do, in the order of the reports. -/
def reported (f : State → ChanId → State) : List ChanId → State → Act
  | [], s => (s, [])
  | c :: cs, s =>
    let a := reportChan (f s c) c
    let b := reported f cs a.1
    (b.1, a.2 ++ b.2)

/-! ### Carrying an act out -/

/-- One task. -/
def runTask : Task → State → Act
  | .startStep k i, s => startStep s k i
  | .enter k, s => enterSlot s k
  | .take k, s => takeHead s k
  | .release k, s => releaseGo s k
  | .settled k, s => stepPass s k

/-- The tasks are carried out one after another, a task's own consequences before the tasks after it (log 4); `fuel`
bounds their number. -/
def drain : Nat → List Task → State → Act
  | _, [], s => (s, [])
  | 0, t :: ts, s => (s, t :: ts)
  | fuel + 1, t :: ts, s => drain fuel ((runTask t s).2 ++ ts) (runTask t s).1

/-- How much work a task can lead to on the lane's own slot. -/
def Task.weight : Task → Nat
  | .startStep _ i => 15 - i.val
  | .enter _ => 16
  | .take _ => 1
  | .release _ => 16
  | .settled _ => 16

/-- The slots and lanes that an act can still set in motion: queued slots, parked slots and waiting lanes. -/
def State.reserve (s : State) : Nat :=
  (allLanes.map fun k => (s.queue k).length).sum + s.parked.length + s.waitList.length

/-- A bound on the tasks of an act: every task lowers it (obligation EveryActRunsToItsEnd). -/
def workBound (s : State) (ts : List Task) : Nat := 17 * s.reserve + (ts.map Task.weight).sum

/-- The act carried out to its end. -/
def finishAct (a : Act) : State := (drain (workBound a.1 a.2) a.2 a.1).1

end Sys2Proof.Machine
end

