-- ==== Sys2Proof/Machine/Endings.lean ====
section
/-! DEFINITION. Ending a lane's work from outside: step timeout, plan timeout, abort and the safe order on a lane
(sections 2.6 and 2.7, R112–R114, R127), and the wind-down of the fixture link (R48, R152). -/

namespace Sys2Proof.Machine

/-- The outcome and detail a cause gives the step in progress (R36, R162). -/
def EndCause.outcome : EndCause → StepOutcome × StepDetail
  | .stepTimeout => (.timeout, .step)
  | .planTimeout => (.timeout, .plan)
  | .hostAbort => (.aborted, .host)
  | .safeOrder => (.aborted, .safe)
  | .safeRace => (.skipped, .none)

/-- The ending a cause gives the slot (R17); a step timeout ends a slot only through R37. -/
def EndCause.slotEnding : EndCause → SlotState × EndReason
  | .stepTimeout => (.failed, .stepFailed)
  | .planTimeout => (.failed, .planTimeout)
  | .hostAbort => (.aborted, .hostAbort)
  | .safeOrder => (.aborted, .safeAbort)
  | .safeRace => (.aborted, .safeAbort)

/-- The step has its result: a step timeout is judged under CONTINUE (R42), every other cause ends the slot (R43,
R47, R49). -/
def endByCause (s : State) (k : LaneId) (cause : EndCause) (r : StepResult) : Act :=
  match cause with
  | .stepTimeout => stepEnd s k r
  | .planTimeout => stepEndsSlot s k r cause.slotEnding.1 cause.slotEnding.2
  | .hostAbort => stepEndsSlot s k r cause.slotEnding.1 cause.slotEnding.2
  | .safeOrder => stepEndsSlot s k r cause.slotEnding.1 cause.slotEnding.2
  | .safeRace => stepEndsSlot s k r cause.slotEnding.1 cause.slotEnding.2

/-- The action on the wait in progress (tables of R42, R47, R112, R127): a request is withdrawn, a unit released. -/
def stopServing (s : State) (k : LaneId) : State :=
  match (s.lane k).phase with
  | .converterQueue => withdrawConverter s k
  | .converting => releaseConverter s
  | .monitorQueue => withdrawMonitor s k
  | .measuring => releaseMonitor s
  | .linkQueue => withdrawLink s k
  | .none => s
  | .settle => s
  | .delay => s
  | .timedDelay => s
  | .edgeWait => s
  | .confirm => s
  | .verifySettle => s
  | .linking => s
  | .pollInterval => s
  | .awaitGo => s

/-- A half pair at an ending: completed at a timeout, dropped at an abort (R110). -/
def settleHalfPair (s : State) (k : LaneId) (cause : EndCause) : State :=
  if cause.outcome.1 = .timeout then completeHalfPair s k s.converter.count else s

/-- The result a cause gives the lane's step: what it has reached so far, or the bare result of a SKIPPED step (R36). -/
def State.resultBy (s : State) (k : LaneId) (cause : EndCause) : StepResult :=
  if cause.outcome.1 = .skipped then plainResult .skipped .none 0
  else s.partialResult k cause.outcome.1 cause.outcome.2

/-- A step that holds no link transfer ends in the act of its cause. -/
def endStepNow (s : State) (k : LaneId) (cause : EndCause) : Act :=
  let r := s.resultBy k cause
  endByCause (stopServing (settleHalfPair s k cause) k) k cause r

/-- The wind-down has ended (R152, R48): the link is released and the lane writes the ending its cause calls for. -/
def endWindDown (s : State) (k : LaneId) (cause : EndCause) : Act :=
  let r := s.resultBy k cause
  endByCause (releaseLink s) k cause r

/-- The lane becomes WINDING (R48) and orders the link to wind down (R152). In phase START the order ends the transfer
at once when the link still waits for a free bus: whether it does is a free value (log 8). Once the wait has run out the
bus is stuck in both orders, and BUS_STUCK ends the wind-down (R153). -/
def windDown (s : State) (k : LaneId) (cause : EndCause) : Act :=
  let s₁ := s.setLane k { s.lane k with state := .winding, stepTimer := none, cause := some cause }
  let s₂ := { s₁ with link := { s₁.link with windDown := true } }
  if s₂.link.phase = .start ∧ s₂.linkWaitOver = false then
    let s₃ := { s₂ with freeIndex := s₂.freeIndex + 1 }
    if Config.startBeingDriven s₂.freeIndex then (s₃, []) else endWindDown s₃ k cause
  else (s₂, [])

/-- A CLAIMING or GATED lane ends its slot (R44, R46): it leaves the wait list, every step is SKIPPED, detail FFh. One
walk serves its departure and its chain end (log 24). -/
def endWaiting (s : State) (k : LaneId) (cause : EndCause) : Act :=
  match (s.lane k).running with
  | none => (s, [])
  | some n =>
    let s₁ := { s with waitList := s.waitList.filter fun w => w.lane != k }
    endSlot (skipFrom s₁ n 0) k n cause.slotEnding.1 cause.slotEnding.2 0xFF#8

/-- A cause reaches a WINDING lane (R48): it replaces a step timeout, and leaves any other ending as chosen. -/
def recause (s : State) (k : LaneId) (cause : EndCause) : Act :=
  if (s.lane k).cause = some .stepTimeout then (s.setLane k { s.lane k with cause := some cause }, []) else (s, [])

/-- A plan timeout, an abort or the safe order reaches a lane. -/
def cutLane (s : State) (k : LaneId) (cause : EndCause) : Act :=
  match (s.lane k).state with
  | .idle => (s, [])
  | .claiming => endWaiting s k cause
  | .gated => endWaiting s k cause
  | .stepping => if (s.lane k).phase = .linking then windDown s k cause else endStepNow s k cause
  | .winding => recause s k cause

/-- A step timeout reaches a STEPPING lane (R42). -/
def timeOutStep (s : State) (k : LaneId) : Act :=
  if (s.lane k).phase = .linking then windDown s k .stepTimeout else endStepNow s k .stepTimeout

end Sys2Proof.Machine
end

