-- ==== Sys2Proof/WellFormed.lean ====
section
/-! DEFINITION. Which commands are what their row says: a frame's data has a length a length byte can spell, an
unknown command's code names no command, and so on. Every other operand is in range by its type. -/

namespace Sys2Proof

/-- A frame with these data bytes exists: its length byte can spell their number. (The format gives 1–64, section 10.1;
log 10.) -/
def frameLengthOk (data : List Byte) : Bool := 1 ≤ data.length && data.length ≤ Config.maxLengthByte

/-- The code byte names one of the nine commands (section 11.7). -/
def namesCommand (code : Byte) : Bool := 1 ≤ code.toNat && code.toNat ≤ 9

/-- The operation byte is one of the two operations (section 10.1). -/
def isOperation (op : Byte) : Bool := op == 0xA5#8 || op == 0x5A#8

/-- A register block range that R171's alignment check lets through and that names a register other than COMMAND
(7F08h) and FINISHED (7F10h). -/
def namesReadOnly (addr : Half) (data : List Byte) : Bool :=
  let a := addr.toNat
  let n := data.length
  0 < n && Config.registerBase ≤ a && a + n ≤ Config.registerEnd && a % 4 == 0 && n % 4 == 0 &&
    !(n == 4 && (a == 0x7F08 || a == 0x7F10))

/-- The well-formedness check of a command. -/
def Instr.wellFormed : Instr → Bool
  | .unknownCommand code => !namesCommand code
  | .readOnlyRegisterWrite addr data => frameLengthOk data && namesReadOnly addr data
  | .writeFrame _ data _ => frameLengthOk data
  | .badOperationByte op => !isOperation op
  | .earlyNcsRise bits => 0 < bits
  | .channelPeriodStart _ high low => 0 < high + low
  | .post _ => true
  | .abort _ => true
  | .go _ _ => true
  | .renew => true
  | .loadConfig => true
  | .engineReset => true
  | .monitorOn => true
  | .resume => true
  | .clearFlags => true
  | .finishedWrite _ => true
  | .readFrame _ _ _ => true
  | .deviceReset => true
  | .deviceResetEnd _ _ => true
  | .tick => true
  | .rampMove => true
  | .stepTimeout _ => true
  | .planTimeout _ => true
  | .delayExpiry _ => true
  | .triggerDelayExpiry _ => true
  | .confirmationExpiry _ => true
  | .sampleWaitExpiry => true
  | .conversionEnd _ => true
  | .levelChange _ => true
  | .groupPeriodStart _ => true
  | .measurementEnd => true
  | .linkStartDone => true
  | .linkByteSent _ => true
  | .linkByteRead _ => true
  | .linkRestartDone => true
  | .recoveryComplete => true
  | .linkStopComplete => true
  | .busStuck => true
  | .pollIntervalExpiry _ => true
  | .monitorExpiry => true
  | .linkReadAckBitEnd => true

end Sys2Proof
end

