-- ==== Sys2Proof/Machine/HostCommands.lean ====
section
/-! DEFINITION. The nine host commands and an unknown one (sections 1.3, 1.7, 2.5, 9, 10.4). Each executes in one act and
writes COMMAND_RESULT in that act (R176), in the WRITE frame that carries it (R183). While a device reset is in progress
no command reaches the part (R181). -/

namespace Sys2Proof.Machine

/-- An act takes place only outside device reset (R181); during one it has no effect (log 22). -/
def whenReady (f : State → State) (s : State) : State := if s.ready then f s else s

/-- The port has judged a frame (R166): the bits received until then, and what it sends after them. -/
def State.judged (s : State) (bits : Nat) (reply : List Byte) : State := { s with frame := { bits := bits, reply := reply } }

/-- The bits of a frame with `n` data bytes between its header and its last CRC. -/
def frameBits (n : Nat) : Nat := 8 * (Config.headerBytes + n)

/-- The act of a WRITE frame of `n` data bytes: the port has judged the frame, and sends nothing after it (R166, R168). -/
def inWriteFrame (n : Nat) (f : State → State) (s : State) : State := f (s.judged (frameBits n) [])

/-- The act of a host command, which a WRITE of COMMAND's four bytes carries (R183). -/
def asCommand (f : State → State) (s : State) : State := whenReady (inWriteFrame 4 f) s

/-- Codes of the commands (section 11.7). -/
def codePost : Byte := 0x01#8
def codeAbort : Byte := 0x02#8
def codeGo : Byte := 0x03#8
def codeRenew : Byte := 0x04#8
def codeLoadConfig : Byte := 0x05#8
def codeEngineReset : Byte := 0x06#8
def codeMonitorOn : Byte := 0x07#8
def codeResume : Byte := 0x08#8
def codeClearFlags : Byte := 0x09#8

/-- COMMAND_RESULT is written whole (R176). -/
def State.answer (s : State) (echo : Byte) (code : ResultCode) (detail : Byte) : State :=
  { s with result := { code := code, echo := echo, detail := detail } }

/-! ### POST -/

/-- The lowest claimed channel that is disabled (R8, check 9). -/
def State.disabledClaim (s : State) (n : SlotId) : Option ChanId :=
  lowestChan (s.chanClaim n &&& ~~~s.config.enable)

/-- Check 10 (R11): the first step that fails, with its code. -/
def stepsFault (s : State) (n : SlotId) : Option (ResultCode × StepId) :=
  (allSteps.filter fun i => i.val < s.stepCount n).findSome? fun i =>
    (stepFault s.mem n (s.chanClaim n) (s.lineClaim n) i).map fun code => (code, i)

/-- Check 8 refuses a continuation that is neither FFh nor another slot's number. -/
def badContinuation (n : SlotId) (b : Byte) : Bool := b != 0xFF#8 && (22 ≤ b.toNat || b.toNat == n.val)

/-- Checks 5–11 (R8): the refusal code with its detail, none when all pass. -/
def headerFault (s : State) (n : SlotId) : Option (ResultCode × Byte) :=
  if s.hdr n 0x00 ≠ 1 ∨ s.hdrFlags n &&& 0xF8#8 ≠ 0 then some (.badFormat, s.hdr n 0x00)
  else if 4 ≤ (s.hdr n 0x04).toNat then some (.badLane, s.hdr n 0x04)
  else if s.stepCount n = 0 ∨ 12 < s.stepCount n then some (.badStepCount, s.hdr n 0x06)
  else if badContinuation n (s.continuation n) then some (.badContinuation, s.continuation n)
  else match s.disabledClaim n with
    | some c => some (.channelDisabled, BitVec.ofNat 8 c.val)
    | none =>
      match stepsFault s n with
      | some (code, i) => some (code, BitVec.ofNat 8 i.val)
      | none =>
        if s.parkFlag n = false ∧ Config.queueCapacity ≤ (s.queue (Fin.ofNat 4 (s.hdr n 0x04).toNat)).length then
          some (.queueFull, s.hdr n 0x04)
        else none

/-- Checks 2–4 and 1 (R8, R9), in their order: the slot, or the refusal code with its detail. -/
def takeable (s : State) (b : Byte) : Except (ResultCode × Byte) SlotId :=
  if s.safe then .error (.safeActive, 0xFF#8)
  else match slotOfByte b with
    | none => .error (.noSlot, 0xFF#8)
    | some n =>
      match s.place n with
      | some p => .error (.slotHeld, p.slotState.code)
      | none => if s.isFinished n then .error (.notAcknowledged, 0xFF#8) else .ok n

/-- A renewal (R159): a WATCHING monitor's count restarts. -/
def State.renewed (s : State) : State :=
  if s.holdSafe.state = .watching then { s with holdSafe := { s.holdSafe with count := 0, expiryDue := false } } else s

/-- The acceptance writes (R14). -/
def acceptWrites (s : State) (n : SlotId) : State :=
  let st : SlotState := if s.parkFlag n then .parked else .queued
  let t := (writeVerdict s n st 0 0xFF#8).store (slotBase n + 0x0B) [0, 0, 0xFF#8]
  writeResults (t.store (slotBase n + 0x18) [0, 0, 0, 0, 0, 0, 0, 0]) n 0 (plainResult .pending .none 0)

/-- The lane a slot's header names. -/
def State.slotLane (s : State) (n : SlotId) : LaneId := Fin.ofNat 4 (s.hdr n 0x04).toNat

/-- An accepted POST (R14): the writes, the place, the renewal, the verdict, and an IDLE lane's take. -/
def acceptPost (s : State) (n : SlotId) : Act :=
  let t := (acceptWrites s n).renewed
  if s.parkFlag n then (State.answer { t with parked := t.parked ++ [n] } codePost .accepted 0xFF#8, [])
  else
    let k := s.slotLane n
    let q := t.queue k ++ [n]
    ((t.setQueue k q).answer codePost .accepted (BitVec.ofNat 8 q.length), [Task.take k])

/-- POST (R8). -/
def post (slot : Byte) (s : State) : State :=
  match takeable s slot with
  | .error (code, detail) => s.answer codePost code detail
  | .ok n =>
    match headerFault s n with
    | some (code, detail) => (writeVerdict s n .rejected code.code detail).answer codePost code detail
    | none => finishAct (acceptPost s n)

/-! ### ABORT -/

/-- ABORT of a slot at its place (R24–R26). -/
def abortAt (s : State) (n : SlotId) : Place → Act
  | .queued k =>
    ((endUnrun .hostAbort (s.setQueue k ((s.queue k).erase n)) n).answer codeAbort .accepted SlotState.queued.code, [])
  | .parked =>
    ((endUnrun .hostAbort { s with parked := s.parked.erase n } n).answer codeAbort .accepted SlotState.parked.code, [])
  | .running k =>
    let l := s.lane k
    let winds := l.state == .winding || (l.state == .stepping && l.phase == .linking)
    cutLane (s.answer codeAbort (if winds then .acceptedPending else .accepted) SlotState.running.code) k .hostAbort

/-- ABORT (R23). -/
def abort (slot : Byte) (s : State) : State :=
  match slotOfByte slot with
  | none => s.answer codeAbort .noSlot 0xFF#8
  | some n =>
    match s.place n with
    | none => s.answer codeAbort .notHeld 0xFF#8
    | some p => finishAct (abortAt s n p)

/-! ### GO -/

/-- Bit k of a lane mask stands for lane k. -/
def inLanes (m : BitVec 4) (k : LaneId) : Bool := m.getLsbD k.val

/-- The lanes of a mask, ascending. -/
def lanesOf (m : BitVec 4) : List LaneId := allLanes.filter (inLanes m)

/-- The channels the apply part acts on (R81): lanes ascending, each lane's channels ascending. -/
def State.appliedChans (s : State) (lanes : BitVec 4) : List ChanId :=
  (lanesOf lanes).flatMap fun k => allChans.filter (inChans (s.chansHeld k))

/-- The apply part (R81), each channel reporting in its turn (R73). -/
def applyPart (s : State) (lanes : BitVec 4) : Act := reported applyOn (s.appliedChans lanes) s

/-- The named lanes that the release part reaches (R41). -/
def State.released (s : State) (lanes : BitVec 4) : List LaneId := (lanesOf lanes).filter fun k => (s.lane k).awaitsGo

/-- The mask of some lanes. -/
def laneMask (ks : List LaneId) : Byte := ks.foldl (fun m k => m ||| (1#8 <<< k.val)) 0

/-- GO (R41): the apply part, what its reports lead to (R73; log 26), then the release part. The lanes released are those
waiting when the GO is taken (R40; log 6), and they go on in ascending order, the model's choice (log 33). -/
def go (lanes : BitVec 4) (apply : Bool) (s : State) : State :=
  let ks := s.released lanes
  let a : Act := if apply then applyPart s lanes else (s, [])
  finishAct (a.1.answer codeGo .accepted (laneMask ks), a.2 ++ ks.map Task.release)

/-! ### RENEW, MONITOR_ON, RESUME, CLEAR_FLAGS -/

/-- RENEW (R159). -/
def renew (s : State) : State :=
  match s.holdSafe.state with
  | .watching => s.renewed.answer codeRenew .accepted 0
  | .disabled => s.answer codeRenew .accepted 1
  | .safe => s.answer codeRenew .safeActive 0xFF#8

/-- MONITOR_ON (R157). -/
def turnMonitorOn (s : State) : State :=
  match s.holdSafe.state with
  | .disabled =>
    State.answer { s with holdSafe := { state := .watching, count := 0, expiryDue := false } } codeMonitorOn .accepted 0
  | .watching => s.answer codeMonitorOn .accepted 1
  | .safe => s.answer codeMonitorOn .accepted 1

/-- The lanes that are WINDING. -/
def State.windingLanes (s : State) : List LaneId := allLanes.filter fun k => (s.lane k).state == .winding

/-- RESUME (R164). -/
def resume (s : State) : State :=
  if s.safe = false then s.answer codeResume .notSafe 0xFF#8
  else if s.windingLanes ≠ [] then s.answer codeResume .busy (laneMask s.windingLanes)
  else State.answer { s with holdSafe := { state := .watching, count := 0, expiryDue := false } } codeResume .accepted 0

/-- CLEAR_FLAGS (R179). -/
def clearFlags (s : State) : State :=
  State.answer { s with crcFlag := false, portFault := false } codeClearFlags .accepted 0

/-! ### LOAD_CONFIG and ENGINE_RESET -/

/-- A slot is held or a lane is not IDLE (R177). -/
def State.busy (s : State) : Bool :=
  (allSlots.any s.held) || (allLanes.any fun k => (s.lane k).state != .idle)

/-- A channel under a new enable mask (R87). -/
def disableOn (enable : BitVec 16) (s : State) (c : ChanId) : State :=
  if inChans enable c then s else turnOffOn s c

/-- LOAD_CONFIG (R177). -/
def loadConfig (s : State) : State :=
  if s.busy then s.answer codeLoadConfig .busy 0xFF#8
  else match firstBadField s.mem with
    | some off => s.answer codeLoadConfig .configInvalid (BitVec.ofNat 8 off)
    | none =>
      let cfg := configOfPage s.mem
      let s₁ := { s with config := cfg, configDefault := false }
      let s₂ := allChans.foldl (disableOn cfg.enable) s₁
      (allGroups.foldl (retime cfg) s₂).answer codeLoadConfig .accepted 0

/-- The monitor at engine reset (R165). -/
def HoldSafe.engineReset (h : HoldSafe) : HoldSafe where
  state := if h.state = .disabled then .disabled else .watching
  count := 0
  expiryDue := false

/-- The blocks that both resets clear (R27, R53, R61, R65, R89, R116, R129, R139, R154): intake sets, lanes, claims,
units, channels, lines. The samples of the lines go on, and so does the groups' timing. -/
def State.resetBlocks (s : State) : State :=
  let t := { s with queues := vec4 fun _ => [], parked := [], finished := 0, lanes := vec4 fun _ => Lane.idle,
                    chanOwner := vec16 fun _ => none, lineOwner := vec8 fun _ => none, waitList := [],
                    converter := Converter.reset, monitor := DutyMonitor.reset, watches := vec4 fun _ => Watch.empty,
                    lastVerified := vec16 fun _ => none, link := Link.reset }
  allLines.foldl resetLineOn { t with channels := vec16 fun c => (t.chan c).cutOff }

/-- ENGINE_RESET (R178). -/
def engineReset (s : State) : State :=
  let t := s.resetBlocks
  State.answer { t with holdSafe := t.holdSafe.engineReset } codeEngineReset .accepted 0

/-- A code byte that names no command (R176). -/
def refuseUnknown (code : Byte) (s : State) : State := s.answer code .unknownCommand 0xFF#8

/-! ### The meanings -/

/-- POST (R8). -/
def execPost (slot : Byte) (s : State) : Host.Outcome State Fault Refusal := .next (asCommand (post slot) s)

/-- ABORT (R23). -/
def execAbort (slot : Byte) (s : State) : Host.Outcome State Fault Refusal := .next (asCommand (abort slot) s)

/-- GO (R41). -/
def execGo (lanes : BitVec 4) (apply : Bool) (s : State) : Host.Outcome State Fault Refusal :=
  .next (asCommand (go lanes apply) s)

/-- RENEW (R159). -/
def execRenew (s : State) : Host.Outcome State Fault Refusal := .next (asCommand renew s)

/-- LOAD_CONFIG (R177). -/
def execLoadConfig (s : State) : Host.Outcome State Fault Refusal := .next (asCommand loadConfig s)

/-- ENGINE_RESET (R178). -/
def execEngineReset (s : State) : Host.Outcome State Fault Refusal := .next (asCommand engineReset s)

/-- MONITOR_ON (R157). -/
def execMonitorOn (s : State) : Host.Outcome State Fault Refusal := .next (asCommand turnMonitorOn s)

/-- RESUME (R164). -/
def execResume (s : State) : Host.Outcome State Fault Refusal := .next (asCommand resume s)

/-- CLEAR_FLAGS (R179). -/
def execClearFlags (s : State) : Host.Outcome State Fault Refusal := .next (asCommand clearFlags s)

/-- UNKNOWN_COMMAND (R176); a code that names a command is not this row's (log 25). -/
def execUnknownCommand (code : Byte) (s : State) : Host.Outcome State Fault Refusal :=
  .next (if namesCommand code then s else asCommand (refuseUnknown code) s)

end Sys2Proof.Machine
end

