-- ==== Sys2Proof/Machine/SafeOrder.lean ====
section
/-! DEFINITION. The expiry of the hold-safe monitor and the safe order (section 9.3): claim table (R61), lanes (R49),
intake (R161), channels (R85), lines (R138). -/

namespace Sys2Proof.Machine

/-- The monitor enters SAFE; its count stops (R160). -/
def enterSafe (s : State) : State := { s with holdSafe := { s.holdSafe with state := .safe, expiryDue := false } }

/-- The lanes in the order they take the safe order: those that hold no link transfer first, so that every lane queued
for the link ends at once (R155; log 5). -/
def State.safeLaneOrder (s : State) : List LaneId :=
  (allLanes.filter fun k => (s.lane k).phase != .linking) ++ (allLanes.filter fun k => (s.lane k).phase == .linking)

/-- The cause the safe order is to a lane (R49): the race of R162 when the lane has gone on with its slot at this tick
boundary (log 35). -/
def Lane.safeCause (l : Lane) : EndCause := if l.entered then .safeRace else .safeOrder

/-- The safe order on one lane (R49). -/
def safeLane (s : State) (k : LaneId) : State := finishAct (cutLane s k (s.lane k).safeCause)

/-- The lanes' part. -/
def safeLanes (s : State) : State := s.safeLaneOrder.foldl safeLane s

/-- The intake's part (R161): every queued and parked slot ends, the queues and the parked set are emptied. -/
def safeIntake (s : State) : State :=
  let slots := allLanes.flatMap s.queue ++ s.parked
  { slots.foldl (endUnrun .safeAbort) s with queues := vec4 fun _ => [], parked := [] }

/-- MONITOR_EXPIRY (R160): due once a tick boundary has found the count at the window (R158; log 19). -/
def monitorExpiry (s : State) : State :=
  if s.holdSafe.state = .watching ∧ s.holdSafe.expiryDue = true then
    allLines.foldl safeLineOn (allChans.foldl safeOn (safeIntake (safeLanes (enterSafe s).clearClaims)))
  else s

/-- MONITOR_EXPIRY (R160). -/
def execMonitorExpiry (s : State) : Host.Outcome State Fault Refusal := .next (whenReady monitorExpiry s)

end Sys2Proof.Machine
end

