-- ==== Sys2Proof/Machine/TimeEvents.lean ====
section
/-! DEFINITION. The tick and what tick boundaries bring about: ramp moves (R72) and the expiries of the lanes' timers
(R29, R39, R42, R43, R96, R98, R151). An expiry has effect once its timer has run out (log 17). -/

namespace Sys2Proof.Machine

/-! ### The tick -/

/-- A lane at a tick boundary (R29, R35); what it does after it is of this boundary (R162). -/
def Lane.atTick (l : Lane) : Lane :=
  { l with entered := false, stepTimer := tickTimer l.stepTimer, planTimer := tickTimer l.planTimer,
           interval := tickTimer l.interval,
           ticks := if (l.state = .stepping ∨ l.state = .winding) ∧ l.ticks < Config.countCap then l.ticks + 1
                    else l.ticks }

/-- The hold-safe monitor at a tick boundary (R158): a WATCHING monitor's count rises, at most to the window, and the
boundary finds it at the window or past it, or not. An expiry found before has been taken when it runs (log 19). -/
def HoldSafe.atTick (h : HoldSafe) (window : Nat) : HoldSafe :=
  if h.state = .watching then
    let n := if h.count < window then h.count + 1 else h.count
    { h with count := n, expiryDue := decide (window ≤ n) }
  else h

/-- The converter at a tick boundary (R102). -/
def Converter.atTick (c : Converter) : Converter := { c with waitLeft := tickTimer c.waitLeft }

/-- The link at a tick boundary (R142): the wait for a high wire is counted from the release as R29 counts, the boundary
after the release being the first. A wait that has reached the stretch limit has run out, and stays so (log 13). -/
def Link.atTick (x : Link) (wire : WireWait) (stretch : Nat) : Link :=
  if x.grantee = none ∨ stretch ≤ x.waited then x
  else { x with waited := match wire with
    | .none => 0
    | .begun => 1
    | .goesOn => x.waited + 1 }

/-- A tick boundary: the count advances (R28), every running timer counts, and the boundary's ramp move is due (log 18).
What the link then finds of the wires is a free value (log 13). -/
def tickBoundary (s : State) : State :=
  { s with tick := s.tick + 1, lanes := vec4 fun k => (s.lane k).atTick, converter := s.converter.atTick,
           link := s.link.atTick (Config.wireWait s.freeIndex) s.config.stretch.toNat,
           freeIndex := s.freeIndex + 1, holdSafe := s.holdSafe.atTick s.config.window, rampMovesDue := s.rampMovesDue + 1 }

/-- TICK (R28). An expiry of the monitor that an earlier boundary found comes before it, if it is still to be taken: a
renewal a boundary later than the window allows finds SAFE (R159; log 19). -/
def tick (s : State) : State := tickBoundary (monitorExpiry s)

/-- RAMP_MOVE (R72): every RAMPING channel makes one move and reports it (R73), in ascending order (log 26). -/
def rampMove (s : State) : State :=
  if s.rampMovesDue = 0 then s
  else finishAct (reported rampOn allChans { s with rampMovesDue := s.rampMovesDue - 1 })

/-! ### Expiries -/

/-- STEP_TIMEOUT (R42). -/
def stepTimeout (k : LaneId) (s : State) : State :=
  if (s.lane k).state = .stepping ∧ (s.lane k).stepTimer = some 0 then finishAct (timeOutStep s k) else s

/-- PLAN_TIMEOUT (R43, R44). -/
def planTimeout (k : LaneId) (s : State) : State :=
  if (s.lane k).planTimer = some 0 then
    finishAct (cutLane (s.setLane k { s.lane k with planTimer := none }) k .planTimeout)
  else s

/-- The lane's interval has run out in a phase. -/
def Lane.due (l : Lane) (p : Phase) : Bool := l.phase == p && l.interval == some 0

/-- A lane with its interval stopped. -/
def stopInterval (s : State) (k : LaneId) : State := s.setLane k { s.lane k with interval := none }

/-- The count of a DELAY step. -/
def Lane.delayCount (l : Lane) : Nat :=
  match l.record.map StepRecord.cmd with
  | some (.delay n) => n
  | _ => 0

/-- DELAY_EXPIRY (R39): PASS with count min(n, 65,535). -/
def delayExpiry (k : LaneId) (s : State) : State :=
  if (s.lane k).due .delay then
    finishAct (stepEnd s k (plainResult .pass .none (Nat.min (s.lane k).delayCount Config.countCap)))
  else s

/-- TRIGGER_DELAY_EXPIRY (R96). -/
def triggerDelayExpiry (k : LaneId) (s : State) : State :=
  if (s.lane k).due .timedDelay then acceptTrigger (stopInterval s k) k else s

/-- The trigger line of the lane's cycle is at the active level (R98, R103). -/
def State.triggerActive (s : State) (k : LaneId) : Bool :=
  match (s.lane k).cycleParams with
  | some p => (s.line p.line).level == p.activeLevel
  | none => false

/-- CONFIRMATION_EXPIRY (R98): accepted at the active level, else a new edge wait. -/
def confirmationExpiry (k : LaneId) (s : State) : State :=
  if (s.lane k).due .confirm then
    if s.triggerActive k then acceptTrigger (stopInterval s k) k else (stopInterval s k).setPhase k .edgeWait
  else s

/-- POLL_INTERVAL_EXPIRY (R151): the lane requests the link again. -/
def pollIntervalExpiry (k : LaneId) (s : State) : State :=
  if (s.lane k).due .pollInterval then requestLink (stopInterval s k) k else s

/-! ### The meanings -/

/-- TICK (R28). -/
def execTick (s : State) : Host.Outcome State Fault Refusal := .next (whenReady tick s)

/-- RAMP_MOVE (R72). -/
def execRampMove (s : State) : Host.Outcome State Fault Refusal := .next (whenReady rampMove s)

/-- STEP_TIMEOUT (R42). -/
def execStepTimeout (lane : LaneId) (s : State) : Host.Outcome State Fault Refusal :=
  .next (whenReady (stepTimeout lane) s)

/-- PLAN_TIMEOUT (R43). -/
def execPlanTimeout (lane : LaneId) (s : State) : Host.Outcome State Fault Refusal :=
  .next (whenReady (planTimeout lane) s)

/-- DELAY_EXPIRY (R39). -/
def execDelayExpiry (lane : LaneId) (s : State) : Host.Outcome State Fault Refusal :=
  .next (whenReady (delayExpiry lane) s)

/-- TRIGGER_DELAY_EXPIRY (R96). -/
def execTriggerDelayExpiry (lane : LaneId) (s : State) : Host.Outcome State Fault Refusal :=
  .next (whenReady (triggerDelayExpiry lane) s)

/-- CONFIRMATION_EXPIRY (R98). -/
def execConfirmationExpiry (lane : LaneId) (s : State) : Host.Outcome State Fault Refusal :=
  .next (whenReady (confirmationExpiry lane) s)

/-- POLL_INTERVAL_EXPIRY (R151). -/
def execPollIntervalExpiry (lane : LaneId) (s : State) : Host.Outcome State Fault Refusal :=
  .next (whenReady (pollIntervalExpiry lane) s)

end Sys2Proof.Machine
end

