-- ==== Sys2Proof/Machine/CycleEvents.lean ====
section
/-! DEFINITION. The events of a conversion cycle (chapter 5) and of the fixture lines (R132, R136). -/

namespace Sys2Proof.Machine

/-! ### Conversions -/

/-- The next conversion of the grantee's cycle starts, or waits for the trigger line under HOLDOFF (R102, R103). -/
def nextConversion (s : State) (k : LaneId) (p : CycleParams) : State :=
  let ready := !p.holdoff || s.triggerActive k
  { s with converter := { s.converter with phase := if ready then .converting else .holdoffWait, waitLeft := none } }

/-- The sample wait after a conversion end (R102). -/
def beginSampleWait (s : State) (k : LaneId) (p : CycleParams) : State :=
  if p.wait = 0 then nextConversion s k p
  else { s with converter := { s.converter with phase := .sampleWait, waitLeft := some p.wait } }

/-- The statistic a judge takes (R104), none for NONE. -/
def Converter.statistic (c : Converter) : JudgeStat → Option Nat
  | .none => none
  | .min => some c.min.toNat
  | .max => some c.max.toNat
  | .avg => some c.average
  | .last => some c.last.toNat

/-- The judge (R104). -/
def judgeCycle (c : Converter) (p : CycleParams) : StepOutcome × StepDetail :=
  match c.statistic p.stat with
  | none => (.pass, .none)
  | some v =>
    if v < p.judgeLo.toNat then (.fail, .judgeLow)
    else if p.judgeHi.toNat < v then (.fail, .judgeHigh)
    else (.pass, .none)

/-- A cycle ends normally or early (R101, R104): half pair completed, converter released, result written. -/
def endCycle (s : State) (k : LaneId) (v : StepOutcome × StepDetail) : Act :=
  let r := s.converter.toResult v.1 v.2
  stepEnd (releaseConverter (completeHalfPair s k s.converter.count)) k r

/-- The grantee's cycle at a conversion end (R101): recorded, stored, checked against the abort window. -/
def recordConversion (s : State) (k : LaneId) (p : CycleParams) (code : Duty) : Act :=
  let s₁ := { s with converter := s.converter.record code }
  let s₂ := storeSample s₁ k s.converter.count code
  if code < p.abortLo then endCycle s₂ k (.fail, .limitLow)
  else if p.abortHi < code then endCycle s₂ k (.fail, .limitHigh)
  else if p.samples ≤ s₂.converter.count then endCycle s₂ k (judgeCycle s₂.converter p)
  else (beginSampleWait s₂ k p, [])

/-- The lane that holds the converter, with its cycle. -/
def State.cycleHolder (s : State) : Option (LaneId × CycleParams) :=
  match s.converter.grantee with
  | none => none
  | some k => (s.lane k).cycleParams.map fun p => (k, p)

/-- CONVERSION_END (R101): only a conversion in flight ends. -/
def conversionEnd (code : Duty) (s : State) : State :=
  match s.converter.phase, s.cycleHolder with
  | .converting, some (k, p) => finishAct (recordConversion s k p code)
  | _, _ => s

/-- SAMPLE_WAIT_EXPIRY (R102). -/
def sampleWaitExpiry (s : State) : State :=
  match s.converter.phase, s.converter.waitLeft, s.cycleHolder with
  | .sampleWait, some 0, some (k, p) => nextConversion s k p
  | _, _, _ => s

/-! ### Lines -/

/-- A matching edge (R97) begins the confirmation (R98): accepted at once with delay 0. -/
def confirmTrigger (s : State) (k : LaneId) (p : CycleParams) : State :=
  if p.delay = 0 then acceptTrigger s k
  else s.setLane k { s.lane k with phase := .confirm, interval := some p.delay }

/-- The owning lane is handed a change of its line's sampled level (R136): an edge wait confirms a matching edge, a
HOLDOFF wait starts the next conversion at the active level, every other phase ignores it. -/
def handLevel (s : State) (l : LineId) (k : LaneId) : State :=
  match (s.lane k).cycleParams with
  | none => s
  | some p =>
    if p.line = l ∧ (s.line l).level = p.activeLevel then
      match (s.lane k).phase with
      | .edgeWait => confirmTrigger s k p
      | .converting =>
        if s.converter.phase = .holdoffWait then { s with converter := { s.converter with phase := .converting } } else s
      | _ => s
    else s

/-- LEVEL_CHANGE (R132, R136): an edge is handed on in INPUT_EDGE mode. -/
def levelChange (l : LineId) (s : State) : State :=
  let t := s.putLine l (s.line l).levelChanged
  match (s.line l).mode, s.lineOwnerOf l with
  | .inputEdge, some k => handLevel t l k
  | _, _ => t

/-! ### The meanings -/

/-- CONVERSION_END (R101). -/
def execConversionEnd (code : Duty) (s : State) : Host.Outcome State Fault Refusal :=
  .next (whenReady (conversionEnd code) s)

/-- SAMPLE_WAIT_EXPIRY (R102). -/
def execSampleWaitExpiry (s : State) : Host.Outcome State Fault Refusal := .next (whenReady sampleWaitExpiry s)

/-- LEVEL_CHANGE (R132). -/
def execLevelChange (line : LineId) (s : State) : Host.Outcome State Fault Refusal :=
  .next (whenReady (levelChange line) s)

end Sys2Proof.Machine
end

