-- ==== Sys2Proof/Machine/DeviceReset.lean ====
section
/-! DEFINITION. Device reset (R181): its beginning, when outputs are cut, work is lost and READY goes, and its end, when
memory is clear and every block takes its device-reset state. -/

namespace Sys2Proof.Machine

/-- The beginning of a device reset (R181, R53, R88, R117, R129, R139, R154): every block is cleared at once, the port
takes no frame and SDO is released. What only the reset's end gives (memory, registers, configuration, monitor) waits
for it (log 22). -/
def beginReset (s : State) : State :=
  { s.resetBlocks with
    ready := false, frame := PortFrame.none, tick := 0, rampMovesDue := 0, channels := vec16 fun _ => Channel.reset,
    groups := vec4 fun _ => { running := Timing.default, pending := none } }

/-- The end of a device reset (R181): only the queue of commands and the index of the free values are the model's and
go on. -/
def endReset (strap : Bool) (levels : BitVec 8) (s : State) : State :=
  { State.afterReset strap levels with pending := s.pending, freeIndex := s.freeIndex }

/-- DEVICE_RESET (R181). -/
def execDeviceReset (s : State) : Host.Outcome State Fault Refusal := .next (beginReset s)

/-- DEVICE_RESET_END (R181): a reset that is not in progress does not end. -/
def execDeviceResetEnd (strap : Bool) (levels : BitVec 8) (s : State) : Host.Outcome State Fault Refusal :=
  .next (if s.ready then s else endReset strap levels s)

end Sys2Proof.Machine
end

