-- ==== Sys2Proof/Machine/LinkEvents.lean ====
section
/-! DEFINITION. The events of the fixture link (chapter 8): the elements of a transfer as they end (R146–R148), the
endings of a transfer (R149–R151), the recovery (R145), and what a wind-down makes of each (R152). -/

namespace Sys2Proof.Machine

/-! ### Elements -/

/-- The address byte (R147): seven address bits, then 0 for write, 1 for read. -/
def addressByte (target : BitVec 7) (read : Bool) : Byte := target ++ BitVec.ofBool read

/-- The link begins to send an address byte. -/
def Link.beginAddress (x : Link) (p : LinkParams) (read : Bool) : Link :=
  { x with phase := .address, readBit := read, sending := addressByte p.target read, waited := 0 }

/-- The register address byte sent when `left` more follow it (R147): the more significant byte first. -/
def registerByte (p : LinkParams) (left : Nat) : Byte :=
  if left = 0 then p.register.extractLsb' 0 8 else p.register.extractLsb' 8 8

/-- The link begins to send a register address byte, `left` more following it. -/
def Link.beginRegister (x : Link) (p : LinkParams) (left : Nat) : Link :=
  { x with phase := .register, regLeft := left, sending := registerByte p left, waited := 0 }

/-- The link begins to read a data byte (R148). -/
def Link.beginRead (x : Link) (extra : Bool) : Link :=
  { x with phase := .read, ninth := false, extra := extra, waited := 0 }

/-- The link begins the STOP that closes the transfer, which then ends as given (R149–R151). -/
def Link.beginStop (x : Link) (ending : LinkEnding) : Link := { x with phase := .stop, ending := ending, waited := 0 }

/-- The link takes a new value. -/
def State.setLink (s : State) (x : Link) : State := { s with link := x }

/-- The link begins to send the next data byte of a STORE, taken from the window at that moment (R147). -/
def beginWrite (s : State) (k : LaneId) (p : LinkParams) : State :=
  s.setLink { s.link with phase := .write, sending := s.windowByte k (p.offset + s.link.bytes), waited := 0 }

/-- The lane that holds the link, with its transfer. -/
def State.linkHolder (s : State) : Option (LaneId × LinkParams) :=
  match s.link.grantee with
  | none => none
  | some k => (s.lane k).linkParams.map fun p => (k, p)

/-- The lane whose transfer can go on to its next element or end in its STOP: none once the wait for a wire has run out, the
bus being stuck (R142, R153; log 13). -/
def State.linkServed (s : State) : Option (LaneId × LinkParams) := if s.linkWaitOver then none else s.linkHolder

/-- The transfer is a probe attempt (R151). -/
def LinkMode.probes : LinkMode → Bool
  | .probe => true | .probeUntil => true
  | .store => false | .point => false | .fetchHere => false | .fetchAt => false

/-- A probe attempt is counted, up to 65,535 (R151). -/
def Link.countAttempt (x : Link) : Link :=
  { x with attempts := if x.attempts < Config.countCap then x.attempts + 1 else x.attempts }

/-! ### A byte sent -/

/-- An address byte's acknowledge bit ends (R147, R151). -/
def addressSent (s : State) (p : LinkParams) (ack : Bool) : State :=
  let x := s.link
  if p.mode.probes then s.setLink (x.countAttempt.beginStop (if ack then .normal else .busy))
  else if ack = false then s.setLink (x.beginStop .noDevice)
  else if x.readBit then s.setLink (x.beginRead false)
  else s.setLink (x.beginRegister p (p.width - 1))

/-- The element after the last register address byte (R146). -/
def registersSent (s : State) (k : LaneId) (p : LinkParams) : State :=
  match p.mode with
  | .store => beginWrite s k p
  | .fetchAt => s.setLink { s.link with phase := .restart, waited := 0 }
  | .point => s.setLink (s.link.beginStop .normal)
  | .fetchHere => s.setLink (s.link.beginStop .normal)
  | .probe => s.setLink (s.link.beginStop .normal)
  | .probeUntil => s.setLink (s.link.beginStop .normal)

/-- A register address byte's acknowledge bit ends (R147). -/
def registerSent (s : State) (k : LaneId) (p : LinkParams) (ack : Bool) : State :=
  if ack = false then s.setLink (s.link.beginStop .refused)
  else if 0 < s.link.regLeft then s.setLink (s.link.beginRegister p (s.link.regLeft - 1))
  else registersSent s k p

/-- A data byte's acknowledge bit ends (R147). -/
def dataSent (s : State) (k : LaneId) (p : LinkParams) (ack : Bool) : State :=
  if ack = false then s.setLink (s.link.beginStop .refused)
  else
    let t := s.setLink { s.link with bytes := s.link.bytes + 1 }
    if t.link.bytes < p.length then beginWrite t k p else t.setLink (t.link.beginStop .normal)

/-- A byte sent ends while the link winds down (R152): counted as ever, then STOP; an acknowledged address byte with the
read bit is followed by one more byte read. -/
def windingSent (x : Link) (p : LinkParams) (ack : Bool) : Link :=
  match x.phase with
  | .address =>
    if p.mode.probes then x.countAttempt.beginStop .normal
    else if ack && x.readBit then x.beginRead true
    else x.beginStop .normal
  | .write => { x with bytes := if ack then x.bytes + 1 else x.bytes }.beginStop .normal
  | _ => x.beginStop .normal

/-- LINK_BYTE_SENT (R147). -/
def linkByteSent (ack : Bool) (s : State) : State :=
  match s.linkServed with
  | none => s
  | some (k, p) =>
    match s.link.phase with
    | .address => if s.link.windDown then s.setLink (windingSent s.link p ack) else addressSent s p ack
    | .register => if s.link.windDown then s.setLink (windingSent s.link p ack) else registerSent s k p ack
    | .write => if s.link.windDown then s.setLink (windingSent s.link p ack) else dataSent s k p ack
    | _ => s

/-! ### A byte read -/

/-- LINK_BYTE_READ (R148): the eighth bit has been read; the extra byte of a wind-down is neither written nor counted
(R152). -/
def linkByteRead (b : Byte) (s : State) : State :=
  match s.linkServed with
  | none => s
  | some (k, p) =>
    if s.link.phase = .read ∧ s.link.ninth = false then
      if s.link.extra then s.setLink { s.link with ninth := true, waited := 0 }
      else (s.storeWindow k (p.offset + s.link.bytes) [b]).setLink
        { s.link with ninth := true, bytes := s.link.bytes + 1, waited := 0 }
    else s

/-- LINK_READ_ACK_BIT_END (R148): the next byte, or STOP after the last one or under a wind-down (log 28). -/
def linkReadAckBitEnd (s : State) : State :=
  match s.linkServed with
  | none => s
  | some (_, p) =>
    if s.link.phase = .read ∧ s.link.ninth = true then
      if s.link.windDown || s.link.extra || decide (p.length ≤ s.link.bytes) then s.setLink (s.link.beginStop .normal)
      else s.setLink (s.link.beginRead false)
    else s

/-! ### START, repeated START, recovery -/

/-- LINK_START_DONE (R144, R146): the first address byte, or STOP under a wind-down (R152). -/
def linkStartDone (s : State) : State :=
  match s.linkServed with
  | none => s
  | some (_, p) =>
    if s.link.phase = .start then
      if s.link.windDown then s.setLink (s.link.beginStop .normal)
      else s.setLink (s.link.beginAddress p (p.mode == .fetchHere))
    else s

/-- LINK_RESTART_DONE (R146): the address byte with the read bit, or STOP under a wind-down (R152). -/
def linkRestartDone (s : State) : State :=
  match s.linkServed with
  | none => s
  | some (_, p) =>
    if s.link.phase = .restart then
      if s.link.windDown then s.setLink (s.link.beginStop .normal) else s.setLink (s.link.beginAddress p true)
    else s

/-- The link's wind-down is over: the ending the lane's cause calls for (R48, R152). -/
def reportWindDown (s : State) (k : LaneId) : Act :=
  match (s.lane k).cause with
  | some cause => endWindDown s k cause
  | none => (s, [])

/-- RECOVERY_COMPLETE (R145): the flag is cleared and the transfer proper begins; under a wind-down the recovery's STOP
was the closing STOP (R152). -/
def recoveryComplete (s : State) : State :=
  match s.linkServed with
  | none => s
  | some (k, _) =>
    if s.link.phase = .recovery then
      let t := s.setLink { s.link with busUncertain := false }
      if t.link.windDown then finishAct (reportWindDown t k) else t.setLink { t.link with phase := .start, waited := 0 }
    else s

/-! ### Endings -/

/-- A transfer ends with an outcome of its own (R149–R151): the link is released, the result written. -/
def endTransfer (s : State) (k : LaneId) (outcome : StepOutcome) (detail : StepDetail) : Act :=
  stepEnd (releaseLink s) k (s.partialResult k outcome detail)

/-- A PROBE_UNTIL attempt that was not acknowledged (R151): the link is released, the poll interval starts. -/
def beginPollInterval (s : State) (k : LaneId) : State :=
  let t := releaseLink s
  t.setLane k { t.lane k with phase := .pollInterval, interval := some s.config.poll, attempts := s.link.attempts }

/-- The closing STOP has completed (R149–R151). -/
def closeTransfer (s : State) (k : LaneId) (p : LinkParams) : Act :=
  match s.link.ending with
  | .normal => endTransfer s k .pass .none
  | .noDevice => endTransfer s k .error .noDevice
  | .refused => endTransfer s k .error .refused
  | .busy => if p.mode = .probeUntil then (beginPollInterval s k, []) else endTransfer s k .fail .busy

/-- LINK_STOP_COMPLETE (R149). -/
def linkStopComplete (s : State) : State :=
  match s.linkServed with
  | none => s
  | some (k, p) =>
    if s.link.phase = .stop then
      finishAct (if s.link.windDown then reportWindDown s k else closeTransfer s k p)
    else s

/-- BUS_STUCK (R142, R150): both wires released without STOP, the bus-uncertain flag set, in any phase, once the link has
waited for a wire up to the stretch limit (log 13). -/
def busStuck (s : State) : State :=
  match s.linkHolder with
  | none => s
  | some (k, _) =>
    if s.linkWaitOver then
      let t := s.setLink { s.link with busUncertain := true }
      finishAct (if t.link.windDown then reportWindDown t k else endTransfer t k .error .stuck)
    else s

/-! ### The meanings -/

/-- LINK_START_DONE (R144). -/
def execLinkStartDone (s : State) : Host.Outcome State Fault Refusal := .next (whenReady linkStartDone s)

/-- LINK_BYTE_SENT (R147). -/
def execLinkByteSent (ack : Bool) (s : State) : Host.Outcome State Fault Refusal := .next (whenReady (linkByteSent ack) s)

/-- LINK_BYTE_READ (R148). -/
def execLinkByteRead (byte : Byte) (s : State) : Host.Outcome State Fault Refusal :=
  .next (whenReady (linkByteRead byte) s)

/-- LINK_RESTART_DONE (R146). -/
def execLinkRestartDone (s : State) : Host.Outcome State Fault Refusal := .next (whenReady linkRestartDone s)

/-- RECOVERY_COMPLETE (R145). -/
def execRecoveryComplete (s : State) : Host.Outcome State Fault Refusal := .next (whenReady recoveryComplete s)

/-- LINK_STOP_COMPLETE (R149). -/
def execLinkStopComplete (s : State) : Host.Outcome State Fault Refusal := .next (whenReady linkStopComplete s)

/-- BUS_STUCK (R150). -/
def execBusStuck (s : State) : Host.Outcome State Fault Refusal := .next (whenReady busStuck s)

/-- LINK_READ_ACK_BIT_END (R148). -/
def execLinkReadAckBitEnd (s : State) : Host.Outcome State Fault Refusal := .next (whenReady linkReadAckBitEnd s)

end Sys2Proof.Machine
end

