-- ==== Sys2Proof/Machine/PeriodEvents.lean ====
section
/-! DEFINITION. Period starts of groups and channels (R67-R69) and the duty monitor's measurements (R122–R126). -/

namespace Sys2Proof.Machine

/-! ### Period starts -/

/-- A group period start (R67): a pending timing takes effect, with its cut (R69), and each channel's own period start
is still to come. -/
def groupPeriodStart (g : GroupId) (s : State) : State :=
  let cs := chansOfGroup g
  match (s.group g).pending with
  | none => cs.foldl awaitStart s
  | some t => cs.foldl awaitStart (cs.foldl cutPeriod (s.putGroup g { running := t, pending := none }))

/-- The monitor at a period start of its selected channel (R122): ALIGN ends, or one more period is counted with the
time the pin was high and the time elapsed in it; `periods` is P. -/
def DutyMonitor.atPeriodStart (m : DutyMonitor) (periods high low : Nat) : DutyMonitor :=
  match m.phase with
  | .none => m
  | .align => { m with phase := .counting, periods := 0, high := 0, time := 0 }
  | .counting =>
    if m.periods < periods then
      { m with periods := m.periods + 1, high := m.high + high, time := m.time + (high + low) }
    else m

/-- The period count P of the grantee's VERIFY. -/
def State.verifyPeriods (s : State) : Nat :=
  match s.monitor.grantee with
  | none => 0
  | some k =>
    match (s.lane k).verifyParams with
    | some (_, p) => p
    | none => 0

/-- CHANNEL_PERIOD_START (R68, R122): once in each group period (log 20). -/
def channelPeriodStart (c : ChanId) (high low : Nat) (s : State) : State :=
  if (s.chan c).started then s
  else
    let t := latchOn s c
    if s.monitor.selected = some c then { t with monitor := t.monitor.atPeriodStart s.verifyPeriods high low } else t

/-! ### Measurements -/

/-- The measured duty (R122): high × 4096 ÷ time, rounded down, at most 4095; a free value when the time is 0 (log 9). -/
def DutyMonitor.measuredDuty (m : DutyMonitor) : Duty :=
  if m.time = 0 then Config.dutyOfNoTime m.high else BitVec.ofNat 12 (Nat.min 4095 (m.high * 4096 / m.time))

/-- The absolute difference of two duties (R123). -/
def dutyDistance (a b : Duty) : Duty := if a ≤ b then b - a else a - b

/-- What the end of channel c's measurement records (R123, R124). -/
def State.measure (s : State) (k : LaneId) (c : ChanId) : Measured :=
  let d := s.monitor.measuredDuty
  let dev := dutyDistance d (s.chan c).duty
  { chan := c, duty := d, deviation := dev,
    failed := decide (s.config.tolerance.toNat < dev.toNat) || inChans (s.watch k).disturbed c }

/-- The next masked channel above c. -/
def nextMasked (mask : BitVec 16) (c : ChanId) : Option ChanId :=
  (allChans.filter (inChans mask)).find? fun d => decide (c < d)

/-- The outcome of a VERIFY whose every channel has been measured (R125). -/
def Watch.verdict (w : Watch) : StepOutcome × StepDetail :=
  if w.disturbed ≠ 0 then (.error, .disturbed)
  else if failMask w.measured ≠ 0 then (.fail, .dutyMismatch)
  else (.pass, .none)

/-- The measurement of channel c ends (R122): watch and last verified duty, then the next channel, or the result and
the release (R125). -/
def endMeasurement (s : State) (k : LaneId) (c : ChanId) (mask : BitVec 16) : Act :=
  let m := s.measure k c
  let w := { s.watch k with measured := (s.watch k).measured ++ [m] }
  let s₁ := (s.putVerified c (some m.duty)).putWatch k w
  let s₂ := { s₁ with monitor := { s₁.monitor with instant := some c } }
  match nextMasked mask c with
  | some d => (selectChannel s₂ d, [])
  | none =>
    let v := w.verdict
    stepEnd (releaseMonitor s₂) k (w.toResult v.1 v.2 (s.lane k).ticks)

/-- The act is over, and with it the instant it fell at. -/
def State.instantOver (s : State) : State := { s with monitor := { s.monitor with instant := none } }

/-- MEASUREMENT_END (R122): only when the period count has reached P. -/
def measurementEnd (s : State) : State :=
  match s.monitor.phase, s.monitor.grantee, s.monitor.selected with
  | .counting, some k, some c =>
    match (s.lane k).verifyParams with
    | none => s
    | some (mask, p) => if s.monitor.periods = p then (finishAct (endMeasurement s k c mask)).instantOver else s
  | _, _, _ => s

/-! ### The meanings -/

/-- GROUP_PERIOD_START (R67). -/
def execGroupPeriodStart (group : GroupId) (s : State) : Host.Outcome State Fault Refusal :=
  .next (whenReady (groupPeriodStart group) s)

/-- CHANNEL_PERIOD_START (R68). -/
def execChannelPeriodStart (chan : ChanId) (high low : Nat) (s : State) : Host.Outcome State Fault Refusal :=
  .next (whenReady (channelPeriodStart chan high low) s)

/-- MEASUREMENT_END (R122). -/
def execMeasurementEnd (s : State) : Host.Outcome State Fault Refusal := .next (whenReady measurementEnd s)

end Sys2Proof.Machine
end

