-- ==== Sys2Proof/Machine/PortFrames.lean ====
section
/-! DEFINITION. The control port's frames (sections 10.1 and 10.2): a WRITE applied whole or discarded whole, the
dispatcher of the COMMAND word (R183), a READ's answer, and the frames that latch PORT_FAULT. -/

namespace Sys2Proof.Machine

/-! ### Errors -/

/-- PORT_FAULT is latched and nothing else happens (R171). -/
def State.fault (s : State) : State := { s with portFault := true }

/-- A frame discarded for its CRC (R170): the count rises to at most 255, CRC_FLAG is latched. -/
def State.crcError (s : State) : State :=
  { s with crcCount := if s.crcCount = 0xFF#8 then s.crcCount else s.crcCount + 1, crcFlag := true }

/-! ### Writes -/

/-- A write of the FINISHED register (R19): each slot whose bit is 1 is acknowledged, bits 22–31 are ignored. -/
def acknowledge (mask : Word) (s : State) : State := { s with finished := s.finished &&& ~~~(mask.extractLsb' 0 22) }

/-- The dispatcher (R183, R176): bits 7–0 the code, bits 15–8 the slot, bits 11–8 the lane mask, bit 16 APPLY. -/
def dispatchWord (w : Word) (s : State) : State :=
  let code : Byte := w.extractLsb' 0 8
  let slot : Byte := w.extractLsb' 8 8
  match code.toNat with
  | 1 => post slot s
  | 2 => abort slot s
  | 3 => go (w.extractLsb' 8 4) (w.getLsbD 16) s
  | 4 => renew s
  | 5 => loadConfig s
  | 6 => engineReset s
  | 7 => turnMonitorOn s
  | 8 => resume s
  | 9 => clearFlags s
  | _ => refuseUnknown code s

/-- The range touches a byte of a held slot (R21). -/
def State.touchesHeld (s : State) (a n : Nat) : Bool :=
  allSlots.any fun m => s.held m && decide (a < slotBase m + Config.slotSize ∧ slotBase m < a + n)

/-- The word of a four-byte list, low byte first. -/
def wordOf (data : List Byte) : Word := word (data.getD 0 0) (data.getD 1 0) (data.getD 2 0) (data.getD 3 0)

/-- A WRITE to the register block (R171, R173): COMMAND, FINISHED, or PORT_FAULT. -/
def writeRegisters (a : Nat) (data : List Byte) (s : State) : State :=
  if a = 0x7F08 ∧ data.length = 4 then dispatchWord (wordOf data) s
  else if a = 0x7F10 ∧ data.length = 4 then acknowledge (wordOf data) s
  else s.fault

/-- The bytes of a WRITE that passes every check are stored (R168). Of more than 64, which the port does not hold, what
they leave in their range and in PORT_FAULT is open: free values (log 10). -/
def State.storeFrame (s : State) (a : Nat) (data : List Byte) : State :=
  if data.length ≤ Config.maxFrameData then s.store a data
  else
    { s with mem := Memory.writeBytes s.mem a ((List.range data.length).map (Config.longFrameByte s.freeIndex)),
             portFault := s.portFault || Config.longFrameFaults s.freeIndex, freeIndex := s.freeIndex + 1 }

/-- A WRITE whose CRC is good (R168, R171, R21). -/
def applyWrite (addr : Half) (data : List Byte) (s : State) : State :=
  let a := addr.toNat
  match areaOfRange a data.length with
  | some .config => s.storeFrame a data
  | some .capture => s.storeFrame a data
  | some .slots => if s.touchesHeld a data.length then s.fault else s.storeFrame a data
  | some .status => s.fault
  | some .registers => writeRegisters a data s
  | none => s.fault

/-- The bytes a frame's CRC covers: operation, address low byte first, length − 1, data. -/
def frameBytes (op : Byte) (addr : Half) (lengthLess1 : Byte) (data : List Byte) : List Byte :=
  op :: halfBytes addr ++ lengthLess1 :: data

/-- The operation bytes (section 10.1). -/
def opWrite : Byte := 0xA5#8
def opRead : Byte := 0x5A#8

/-- The CRC a WRITE must carry (R167). -/
def writeCrc (addr : Half) (data : List Byte) : Half :=
  crc16 (frameBytes opWrite addr (BitVec.ofNat 8 (data.length - 1)) data)

/-- A complete WRITE frame (R168): the CRC first (R170), then the header checks. -/
def receiveWrite (addr : Half) (data : List Byte) (crc : Half) (s : State) : State :=
  inWriteFrame data.length (if writeCrc addr data = crc then applyWrite addr data else State.crcError) s

/-! ### Reads -/

/-- The header CRC a READ must carry (R167). -/
def readCrc (addr : Half) (lengthLess1 : Byte) : Half := crc16 (frameBytes opRead addr lengthLess1 [])

/-- The data and the data CRC of an answered READ (R169). -/
def answerBytes (data : List Byte) : List Byte := data ++ halfBytes (crc16 data)

/-- Refused data (R169): zeros, and their CRC with every bit inverted. -/
def refusedBytes (n : Nat) : List Byte :=
  List.replicate n 0 ++ halfBytes (~~~(crc16 (List.replicate n 0)))

/-- The header of a READ of n bytes passes the checks of R171. -/
def readable (a n : Nat) : Bool :=
  match areaOfRange a n with
  | some .registers => a % 4 == 0 && n % 4 == 0
  | some .config => true
  | some .slots => true
  | some .status => true
  | some .capture => true
  | none => false

/-- A READ frame at the end of its header CRC (R169). -/
def receiveRead (addr : Half) (lengthLess1 : Byte) (crc : Half) (s : State) : State :=
  let n := lengthLess1.toNat + 1
  let refused := s.judged (frameBits 0) (refusedBytes n)
  if readCrc addr lengthLess1 = crc then
    if readable addr.toNat n then s.judged (frameBits 0) (answerBytes (s.snapshot addr.toNat n)) else refused.fault
  else refused.crcError

/-! ### The meanings -/

/-- FINISHED_WRITE (R19). -/
def execFinishedWrite (mask : Word) (s : State) : Host.Outcome State Fault Refusal :=
  .next (whenReady (inWriteFrame 4 (acknowledge mask)) s)

/-- READ_ONLY_REGISTER_WRITE (R171); a range that names no read-only register is not this row's (log 25). -/
def execReadOnlyRegisterWrite (addr : Half) (data : List Byte) (s : State) : Host.Outcome State Fault Refusal :=
  .next (whenReady (fun s => if namesReadOnly addr data then inWriteFrame data.length State.fault s else s) s)

/-- WRITE_FRAME (R168); a data list whose length no length byte spells is no frame (log 25). -/
def execWriteFrame (addr : Half) (data : List Byte) (crc : Half) (s : State) : Host.Outcome State Fault Refusal :=
  .next (whenReady (fun s => if frameLengthOk data then receiveWrite addr data crc s else s) s)

/-- READ_FRAME (R169). -/
def execReadFrame (addr : Half) (lengthLess1 : Byte) (crc : Half) (s : State) : Host.Outcome State Fault Refusal :=
  .next (whenReady (receiveRead addr lengthLess1 crc) s)

/-- BAD_OPERATION_BYTE (R171), judged at the end of byte 0; A5h and 5Ah begin a frame instead (log 25). -/
def execBadOperationByte (op : Byte) (s : State) : Host.Outcome State Fault Refusal :=
  .next (whenReady (fun s => if isOperation op then s else (s.judged 8 []).fault) s)

/-- EARLY_NCS_RISE (R171); without a rising edge of SCLK there was no frame (R166). -/
def execEarlyNcsRise (bits : Nat) (s : State) : Host.Outcome State Fault Refusal :=
  .next (whenReady (fun s => if bits = 0 then s else (s.judged bits []).fault) s)

end Sys2Proof.Machine
end

