-- ==== Sys2Proof/Machine/Dispatch.lean ====
section
/-! DEFINITION. One arm per command: the command's meaning. -/

namespace Sys2Proof.Machine

/-- The effect of a command on everything but the queue of commands. -/
def exec (i : Instr) (s : State) : Host.Outcome State Fault Refusal :=
  match i with
  | .post slot => Sys2Proof.Machine.execPost slot s
  | .abort slot => Sys2Proof.Machine.execAbort slot s
  | .go lanes apply => Sys2Proof.Machine.execGo lanes apply s
  | .renew => Sys2Proof.Machine.execRenew s
  | .loadConfig => Sys2Proof.Machine.execLoadConfig s
  | .engineReset => Sys2Proof.Machine.execEngineReset s
  | .monitorOn => Sys2Proof.Machine.execMonitorOn s
  | .resume => Sys2Proof.Machine.execResume s
  | .clearFlags => Sys2Proof.Machine.execClearFlags s
  | .unknownCommand code => Sys2Proof.Machine.execUnknownCommand code s
  | .finishedWrite mask => Sys2Proof.Machine.execFinishedWrite mask s
  | .readOnlyRegisterWrite addr data => Sys2Proof.Machine.execReadOnlyRegisterWrite addr data s
  | .writeFrame addr data crc => Sys2Proof.Machine.execWriteFrame addr data crc s
  | .readFrame addr lengthLess1 crc => Sys2Proof.Machine.execReadFrame addr lengthLess1 crc s
  | .badOperationByte op => Sys2Proof.Machine.execBadOperationByte op s
  | .earlyNcsRise bits => Sys2Proof.Machine.execEarlyNcsRise bits s
  | .deviceReset => Sys2Proof.Machine.execDeviceReset s
  | .deviceResetEnd strap levels => Sys2Proof.Machine.execDeviceResetEnd strap levels s
  | .tick => Sys2Proof.Machine.execTick s
  | .rampMove => Sys2Proof.Machine.execRampMove s
  | .stepTimeout lane => Sys2Proof.Machine.execStepTimeout lane s
  | .planTimeout lane => Sys2Proof.Machine.execPlanTimeout lane s
  | .delayExpiry lane => Sys2Proof.Machine.execDelayExpiry lane s
  | .triggerDelayExpiry lane => Sys2Proof.Machine.execTriggerDelayExpiry lane s
  | .confirmationExpiry lane => Sys2Proof.Machine.execConfirmationExpiry lane s
  | .sampleWaitExpiry => Sys2Proof.Machine.execSampleWaitExpiry s
  | .conversionEnd code => Sys2Proof.Machine.execConversionEnd code s
  | .levelChange line => Sys2Proof.Machine.execLevelChange line s
  | .groupPeriodStart group => Sys2Proof.Machine.execGroupPeriodStart group s
  | .channelPeriodStart chan high low => Sys2Proof.Machine.execChannelPeriodStart chan high low s
  | .measurementEnd => Sys2Proof.Machine.execMeasurementEnd s
  | .linkStartDone => Sys2Proof.Machine.execLinkStartDone s
  | .linkByteSent ack => Sys2Proof.Machine.execLinkByteSent ack s
  | .linkByteRead byte => Sys2Proof.Machine.execLinkByteRead byte s
  | .linkRestartDone => Sys2Proof.Machine.execLinkRestartDone s
  | .recoveryComplete => Sys2Proof.Machine.execRecoveryComplete s
  | .linkStopComplete => Sys2Proof.Machine.execLinkStopComplete s
  | .busStuck => Sys2Proof.Machine.execBusStuck s
  | .pollIntervalExpiry lane => Sys2Proof.Machine.execPollIntervalExpiry lane s
  | .monitorExpiry => Sys2Proof.Machine.execMonitorExpiry s
  | .linkReadAckBitEnd => Sys2Proof.Machine.execLinkReadAckBitEnd s

end Sys2Proof.Machine
end

