-- ==== Sys2Proof/Safety.lean ====
section
/-! DEFINITION. The laws that the statements are about: what a legal state is, clause by clause, and the address sets
and byte reads the statements speak of. -/

namespace Sys2Proof.Machine

/-! ### Reading memory in a statement -/

/-- `n` bytes from an address upward. -/
def Memory.bytes (m : Memory) (a n : Nat) : List Byte := (List.range n).map fun i => m.read (a + i)

/-- The address lies in the result part of a step with first ≤ index < count (section 11.4). -/
def inResults (n : SlotId) (first count a : Nat) : Prop :=
  ∃ i : StepId, first ≤ i.val ∧ i.val < count ∧ stepBase n i + 0x1C ≤ a ∧ a < stepBase n i + 0x28

/-- The address lies in `size` bytes of the header, from an offset. -/
def inHeader (n : SlotId) (off size a : Nat) : Prop := slotBase n + off ≤ a ∧ a < slotBase n + off + size

/-- The address is one the part may write in a slot (R7): slot state, reason, detail; steps done, fault count, current
step; start and end tick; the result parts. -/
def deviceAddr (n : SlotId) (a : Nat) : Prop :=
  inHeader n 0x01 3 a ∨ inHeader n 0x0B 3 a ∨ inHeader n 0x18 8 a ∨ inResults n 0 12 a

/-- The address lies in the slot. -/
def inSlot (n : SlotId) (a : Nat) : Prop := slotBase n ≤ a ∧ a < slotBase n + Config.slotSize

/-! ### Legal states -/

/-- The table of R71. -/
def Channel.legal (x : Channel) : Prop :=
  (x.state = .off → x.duty = 0 ∧ x.target = 0 ∧ x.offOnArrival = false) ∧
  (x.state = .ramping → x.target ≠ x.duty ∧ 1 ≤ x.rate.toNat ∧ (x.offOnArrival = true → x.target = 0)) ∧
  (x.state = .holding → x.duty = x.target ∧ x.offOnArrival = false)

/-- Every channel is legal. -/
def State.channelsLegal (s : State) : Prop := ∀ c : ChanId, (s.chan c).legal

/-- The third law of the part (R15): at most 8 slots in a queue, each at most once. -/
def State.queuesBounded (s : State) : Prop := ∀ k : LaneId, (s.queue k).length ≤ 8 ∧ (s.queue k).Nodup

/-- The held slots with their repetitions, if any: queues, parked set, running slots (R6). -/
def State.heldList (s : State) : List SlotId :=
  allLanes.flatMap s.queue ++ s.parked ++ allLanes.filterMap fun k => (s.lane k).running

/-- The first and the second law (R6, R18): a held slot is in one place, and not in FINISHED. -/
def State.slotsApart (s : State) : Prop := s.heldList.Nodup ∧ ∀ n ∈ s.heldList, s.isFinished n = false

/-- A line's detector runs in INPUT_EDGE mode only, and its reference is the sampled level (R130, R136). -/
def Line.detectorLegal (x : Line) : Prop :=
  (x.detector = none ↔ x.mode ≠ .inputEdge) ∧ ∀ d, x.detector = some d → d = x.level

/-- Every line's detector is legal. -/
def State.detectorsLegal (s : State) : Prop := ∀ l : LineId, (s.line l).detectorLegal

/-- A unit without a grantee has an empty queue and does nothing (R63, R64, R90, R140), and a working one has a grantee. -/
def State.unitsQuiet (s : State) : Prop :=
  (s.converter.grantee = none → s.converter.queue = [] ∧ s.converter.phase = .none ∧ s.converter.waitLeft = none) ∧
  (s.monitor.grantee = none → s.monitor.queue = [] ∧ s.monitor.phase = .none ∧ s.monitor.selected = none) ∧
  (s.link.grantee = none → s.link.queue = []) ∧ (s.link.grantee = none ↔ s.link.phase = .idle)

/-- The arithmetic unit's values belong together (R92, R105). -/
def Converter.ordered (c : Converter) : Prop :=
  (c.count = 0 → c.sum = 0) ∧
  (1 ≤ c.count → c.min.toNat ≤ c.last.toNat ∧ c.last.toNat ≤ c.max.toNat ∧
    c.min.toNat * c.count ≤ c.sum ∧ c.sum ≤ c.max.toNat * c.count)

/-- No claim is held and no lane waits for one. -/
def State.unclaimed (s : State) : Prop :=
  (∀ c, s.ownerOf c = none) ∧ (∀ l, s.lineOwnerOf l = none) ∧ s.waitList = []

/-- The lane waits for nothing and runs nothing. -/
def Lane.quiet (l : Lane) : Prop := l.state = .idle ∧ l.phase = .none

/-- The lane winds down the transfer it holds, for a cause that ends its slot (R48, R155). -/
def State.winds (s : State) (k : LaneId) : Prop :=
  (s.lane k).state = .winding ∧ (s.lane k).phase = .linking ∧ s.link.grantee = some k ∧ s.link.windDown = true ∧
  (∃ cause, (s.lane k).cause = some cause ∧ cause ≠ .stepTimeout) ∧
  (∃ n, (s.lane k).running = some n) ∧ (∃ i, (s.lane k).step = some i)

/-- The tenth law (R163), with what makes it last: while SAFE is set no queue or parked set holds a slot, no claim is
held, every lane is IDLE or WINDING, and the units serve no one but a WINDING lane (R155, R65). -/
def State.tenthLaw (s : State) : Prop :=
  s.safe = true →
    (∀ k, s.queue k = []) ∧ s.parked = [] ∧ s.unclaimed ∧ (∀ k, (s.lane k).quiet ∨ s.winds k) ∧
    s.converter.grantee = none ∧ s.monitor.grantee = none ∧ s.link.queue = [] ∧
    (∀ k, s.link.grantee = some k → s.winds k)

/-- A lane's own fields belong together (R30, R31, R48): a running slot unless IDLE, a step in progress while STEPPING or
WINDING, a wait while STEPPING only (a WINDING lane waits for its transfer), and a cause while WINDING. -/
def Lane.ordered (l : Lane) : Prop :=
  (l.state = .idle ↔ l.running = none) ∧
  (l.state = .stepping ∨ l.state = .winding → ∃ i, l.step = some i) ∧
  (l.state = .idle ∨ l.state = .claiming ∨ l.state = .gated → l.phase = .none) ∧
  (l.state = .winding → l.phase = .linking ∧ ∃ cause, l.cause = some cause)

/-- The lane may hold a claim (R30): it has a running slot, and is GATED, STEPPING or WINDING. -/
def Lane.mayHoldClaims (l : Lane) : Prop :=
  (∃ n, l.running = some n) ∧ (l.state = .gated ∨ l.state = .stepping ∨ l.state = .winding)

/-- The fourth law (R30): a lane holds a claim only while it has a running slot, and by R30's table in these states only.
That an entry names at most one lane is its form (R54). -/
def State.claimsRun (s : State) : Prop :=
  (∀ c k, s.ownerOf c = some k → (s.lane k).mayHoldClaims) ∧
  ∀ l k, s.lineOwnerOf l = some k → (s.lane k).mayHoldClaims

/-- The lanes, the shared units and the claim wait list agree on who serves and who waits (R31, R57, R63, R152): a lane is
a unit's grantee, stands in its queue or waits for its claims exactly while its phase or state says so, no lane stands
anywhere twice, the wind-down mark is set exactly while the grantee is WINDING, and the fourth law holds. -/
def State.lanesServed (s : State) : Prop :=
  (∀ k, (s.lane k).ordered) ∧
  (∀ k, (s.lane k).phase = .converting ↔ s.converter.grantee = some k) ∧
  (∀ k, (s.lane k).phase = .converterQueue ↔ k ∈ s.converter.queue) ∧ s.converter.queue.Nodup ∧
  (∀ k, (s.lane k).phase = .measuring ↔ s.monitor.grantee = some k) ∧
  (∀ k, (s.lane k).phase = .monitorQueue ↔ k ∈ s.monitor.queue) ∧ s.monitor.queue.Nodup ∧
  (∀ k, (s.lane k).phase = .linking ↔ s.link.grantee = some k) ∧
  (∀ k, (s.lane k).phase = .linkQueue ↔ k ∈ s.link.queue) ∧ s.link.queue.Nodup ∧
  (∀ k, (s.lane k).state = .winding ↔ s.link.grantee = some k ∧ s.link.windDown = true) ∧
  (∀ k, (s.lane k).state = .claiming ↔ ∃ w ∈ s.waitList, w.lane = k) ∧ (s.waitList.map Waiting.lane).Nodup ∧
  s.claimsRun

/-! ### Watches -/

/-- A VERIFY of lane k watches channel c (R121): the lane claims it, its settle phase has ended, its mask names the
channel, and the channel's own measurement has not ended. -/
def State.watching (s : State) (k : LaneId) (c : ChanId) : Prop :=
  s.ownerOf c = some k ∧ ((s.lane k).phase = .monitorQueue ∨ (s.lane k).phase = .measuring) ∧
  (∃ mask periods, (s.lane k).verifyParams = some (mask, periods) ∧ inChans mask c = true) ∧
  ∀ m ∈ (s.watch k).measured, m.chan ≠ c

/-- From s to t the watched channels whose state has changed, or that took a target by an apply, are marked disturbed
and no others (R121, R124); nothing else of a watch has changed. -/
def State.marksDisturbed (s t : State) (applied : ChanId → Prop) : Prop :=
  ∀ k, (t.watch k).measured = (s.watch k).measured ∧
    ∀ c, inChans (t.watch k).disturbed c = true ↔
      inChans (s.watch k).disturbed c = true ∨
        (s.watching k c ∧ ((t.chan c).state ≠ (s.chan c).state ∨ applied c))

/-- A lane waits with wait reason RAMP (R79, R120). -/
def State.rampWaits (s : State) (k : LaneId) : Prop := (s.lane k).phase = .settle ∨ (s.lane k).phase = .verifySettle

/-! ### Checks of POST, spelled out -/

/-- Checks 5–8 pass (R10). -/
def State.headerWellFormed (s : State) (n : SlotId) : Prop :=
  s.hdr n 0x00 = 1 ∧ s.hdrFlags n &&& 0xF8#8 = 0 ∧ (s.hdr n 0x04).toNat ≤ 3 ∧
  1 ≤ s.stepCount n ∧ s.stepCount n ≤ 12 ∧
  (s.continuation n = 0xFF#8 ∨ ((s.continuation n).toNat ≤ 21 ∧ (s.continuation n).toNat ≠ n.val))

/-- Check 9 passes (R10): no claimed channel is disabled. -/
def State.claimsEnabled (s : State) (n : SlotId) : Prop :=
  ∀ c, inChans (s.chanClaim n) c = true → inChans s.config.enable c = true

/-- The step passes check 10 (R11). -/
def State.stepPasses (s : State) (n : SlotId) (i : StepId) : Prop :=
  stepFault s.mem n (s.chanClaim n) (s.lineClaim n) i = none

/-- The slot may be taken by POST: checks 1, 3 and 4 pass (R9). -/
def State.postable (s : State) (n : SlotId) : Prop := s.safe = false ∧ s.place n = none ∧ s.isFinished n = false

/-- The byte a slot's number is written in. -/
def numberOf (n : SlotId) : Byte := BitVec.ofNat 8 n.val

/-! ### Waits -/

/-- The lane is stepping step i of slot n with record r. -/
def State.stepping (s : State) (k : LaneId) (n : SlotId) (i : StepId) (r : StepRecord) : Prop :=
  (s.lane k).state = .stepping ∧ (s.lane k).running = some n ∧ (s.lane k).step = some i ∧ (s.lane k).record = some r

/-- The link serves lane k, which runs the transfer p, in a phase. -/
def State.linkServes (s : State) (k : LaneId) (p : LinkParams) (ph : LinkPhase) : Prop :=
  s.link.grantee = some k ∧ (s.lane k).linkParams = some p ∧ s.link.phase = ph

/-- The converter serves lane k, which runs the cycle p, in a phase. -/
def State.converterServes (s : State) (k : LaneId) (p : CycleParams) (ph : SamplingPhase) : Prop :=
  s.converter.grantee = some k ∧ (s.lane k).cycleParams = some p ∧ s.converter.phase = ph

end Sys2Proof.Machine

namespace Sys2Proof

/-! ### Commands -/

/-- An event inside the part: no frame, no host command and no reset. -/
def Instr.isEvent : Instr → Bool
  | .post _ => false
  | .abort _ => false
  | .go _ _ => false
  | .renew => false
  | .loadConfig => false
  | .engineReset => false
  | .monitorOn => false
  | .resume => false
  | .clearFlags => false
  | .unknownCommand _ => false
  | .finishedWrite _ => false
  | .readOnlyRegisterWrite _ _ => false
  | .writeFrame _ _ _ => false
  | .readFrame _ _ _ => false
  | .badOperationByte _ => false
  | .earlyNcsRise _ => false
  | .deviceReset => false
  | .deviceResetEnd _ _ => false
  | _ => true

end Sys2Proof
end

