-- ==== Sys2Proof/Certificates/Slice0/Obligations.lean ====
section
/-! DEFINITION. The statements for the provers. Hypotheses are on the state and the operands alone; where a statement
lists what a state t holds, `t = { s with … }` says that every field not named in it is as before. -/

section
open Sys2Proof Sys2Proof.Machine

/-! ### The block as a whole -/

/-- One step runs the command at the front of the queue with the queue's rest; on an empty queue the block idles (the
idling is the model's choice, log 2). -/
def Obligations.StepRunsTheFrontCommand : Prop :=
  (∀ (c : Instr) (rest : List Instr) (s : State),
    step { s with pending := c :: rest } = exec c { s with pending := rest }) ∧
  ∀ s : State, s.pending = [] → step s = .next s

/-- An act is carried out to its end: no task is left over, whatever lanes it sets in motion (R59: grants, runs and new
releases follow one another until nothing is left), and each task is run in its turn, what it leads to before the tasks
after it. That this is the order, where R59 leaves it open, is the model's choice (log 4). Every command, whatever its
operands, answers a next state. -/
def Obligations.EveryActRunsToItsEnd : Prop :=
  (∀ (ts : List Task) (s : State), (drain (workBound s ts) ts s).2 = []) ∧
  (∀ s : State, finishAct (s, []) = s) ∧
  (∀ (t : Task) (ts : List Task) (s : State),
    finishAct (s, t :: ts) = finishAct ((runTask t s).1, (runTask t s).2 ++ ts)) ∧
  ∀ (c : Instr) (s : State), ∃ t : State, exec c s = .next t

/-- While a device reset is in progress no command but DEVICE_RESET and DEVICE_RESET_END changes anything (log 22). -/
def Obligations.NothingHappensDuringDeviceReset : Prop :=
  ∀ (c : Instr) (s : State), s.ready = false → c ≠ .deviceReset →
    (∀ strap levels, c ≠ .deviceResetEnd strap levels) → exec c s = .next s

/-- What no event inside the part touches: the queue of commands (no command at all touches it), the port's registers and
flags, the port's frame, the configuration, the tick count (TICK alone), the groups' timing (GROUP_PERIOD_START alone) and the
hold-safe monitor (TICK and MONITOR_EXPIRY alone). -/
def Obligations.EventsLeaveThePortAlone : Prop :=
  (∀ (c : Instr) (s t : State), exec c s = .next t → t.pending = s.pending) ∧
  ∀ (c : Instr) (s t : State), c.isEvent = true → exec c s = .next t →
    t.ready = s.ready ∧ t.configDefault = s.configDefault ∧ t.crcFlag = s.crcFlag ∧ t.portFault = s.portFault ∧
    t.crcCount = s.crcCount ∧ t.result = s.result ∧ t.frame = s.frame ∧ t.config = s.config ∧
    (c ≠ .tick → t.tick = s.tick) ∧ ((∀ g, c ≠ .groupPeriodStart g) → t.groups = s.groups) ∧
    (c ≠ .tick → c ≠ .monitorExpiry → t.holdSafe = s.holdSafe)

/-- What a command may write in exchange memory (R2, R3, R7): but for WRITE_FRAME and DEVICE_RESET_END, every byte that is
neither the part's own field of a held slot (or of the slot a POST names) nor in a capture window is as before. -/
def Obligations.CommandsWriteOnlyTheirBytes : Prop :=
  ∀ (c : Instr) (s t : State), exec c s = .next t →
    (∀ addr data crc, c ≠ .writeFrame addr data crc) → (∀ strap levels, c ≠ .deviceResetEnd strap levels) →
    ∀ a, (∀ n : SlotId, n ∈ s.heldList ∨ c = .post (numberOf n) → ¬deviceAddr n a) → a < 0x3000 ∨ 0x4000 ≤ a →
      Memory.read t.mem a = Memory.read s.mem a
/-! ### Invariants that every step keeps -/

/-- Exchange memory keeps its canonical form. -/
def Obligations.EveryStepKeepsMemoryCanonical : Prop :=
  ∀ s t : State, Memory.wf s.mem → step s = .next t → Memory.wf t.mem

/-- Every channel stays as the table of R71 has it. -/
def Obligations.EveryStepKeepsChannelsLegal : Prop :=
  ∀ s t : State, s.channelsLegal → step s = .next t → t.channelsLegal

/-- The third law: a lane queue holds at most 8 slots, each at most once. -/
def Obligations.EveryStepKeepsQueuesBounded : Prop :=
  ∀ s t : State, s.queuesBounded → step s = .next t → t.queuesBounded

/-- The first and the second law: a held slot is in one place, and no slot is held and in FINISHED. -/
def Obligations.EveryStepKeepsSlotsApart : Prop :=
  ∀ s t : State, s.slotsApart → step s = .next t → t.slotsApart

/-- An edge detector runs in INPUT_EDGE mode only, and its reference is the sampled level. The arithmetic unit's min, last,
max, sum and count stay ordered, and with them the average. -/
def Obligations.EveryStepKeepsDetectorsAndStatistics : Prop :=
  (∀ s t : State, s.detectorsLegal → step s = .next t → t.detectorsLegal) ∧
  (∀ s t : State, s.converter.ordered → step s = .next t → t.converter.ordered) ∧
  ∀ c : Converter, c.ordered → 1 ≤ c.count → c.min.toNat ≤ c.average ∧ c.average ≤ c.max.toNat

/-- A shared unit without a grantee has an empty queue and does nothing. -/
def Obligations.EveryStepKeepsIdleUnitsQuiet : Prop :=
  ∀ s t : State, s.unitsQuiet → step s = .next t → t.unitsQuiet

/-- The lanes, the shared units and the wait list agree: a lane holds a unit, stands in its queue or waits for its claims
exactly while its wait says so, it has a running slot unless it is IDLE, and it is WINDING exactly while it holds a link
that winds down. The fourth law (R30): a lane owns a channel or a line only while it has a running slot, and then it is
GATED, STEPPING or WINDING. -/
def Obligations.EveryStepKeepsLanesServed : Prop :=
  ∀ s t : State, s.lanesServed → step s = .next t → t.lanesServed

/-- The tenth law: in SAFE every step keeps the intake empty, the claims cleared and every lane IDLE or WINDING. -/
def Obligations.EveryStepInSafeKeepsTheTenthLaw : Prop :=
  ∀ s t : State, s.safe = true → s.tenthLaw → step s = .next t → t.tenthLaw

/-- The eleventh and the twelfth law: the CRC error count never falls except to 0 at the end of a device reset (it never
exceeds 255 by its width), and a monitor that has left DISABLED returns there only then. -/
def Obligations.EveryStepKeepsTheLastTwoLaws : Prop :=
  ∀ s t : State, step s = .next t →
    (s.crcCount ≤ t.crcCount ∨
      (t.crcCount = 0 ∧ ∃ strap levels rest, s.pending = .deviceResetEnd strap levels :: rest)) ∧
    (s.holdSafe.state ≠ .disabled → t.holdSafe.state = .disabled →
      ∃ strap levels rest, s.pending = .deviceResetEnd strap levels :: rest)
/-- The state after reset, with the pin levels log 3 chooses for it, meets every invariant above. -/
def Obligations.ResetMeetsEveryInvariant : Prop :=
  Memory.wf State.reset.mem ∧ State.reset.channelsLegal ∧ State.reset.queuesBounded ∧ State.reset.slotsApart ∧
  State.reset.detectorsLegal ∧ State.reset.unitsQuiet ∧ State.reset.converter.ordered ∧ State.reset.lanesServed ∧
  State.reset.tenthLaw

/-! ### POST -/

/-- A POST refused by checks 1–4 (R9) changes the verdict alone; one refused by checks 5–11 (R13) writes slot state REJECTED,
the reason and the detail as well. The port's frame is another statement's (CommandWordRunsItsCommand). -/
def Obligations.RefusedPostWritesItsVerdict : Prop :=
  ∀ (b : Byte) (s : State), s.ready = true →
    let answers (t : State) : Prop := ∃ f : PortFrame, exec (.post b) s = .next { t with frame := f }
    (s.safe = true → answers { s with result := ⟨.safeActive, 0x01#8, 0xFF#8⟩ }) ∧
    (s.safe = false → 22 ≤ b.toNat → answers { s with result := ⟨.noSlot, 0x01#8, 0xFF#8⟩ }) ∧
    (∀ (n : SlotId) (p : Place), s.safe = false → b = numberOf n → s.place n = some p →
      answers { s with result := ⟨.slotHeld, 0x01#8, p.slotState.code⟩ }) ∧
    (∀ n : SlotId, s.safe = false → b = numberOf n → s.place n = none → s.isFinished n = true →
      answers { s with result := ⟨.notAcknowledged, 0x01#8, 0xFF#8⟩ }) ∧
    (∀ (n : SlotId) (code : ResultCode) (detail : Byte), b = numberOf n → s.postable n →
      headerFault s n = some (code, detail) →
      answers { s with mem := Memory.writeBytes s.mem (slotBase n + 0x01) [0x08#8, code.code, detail],
                       result := ⟨code, 0x01#8, detail⟩ })
/-- POST checks 5–9 in their order (R10): the first that fails gives code and detail, and when all pass only checks 10
and 11 can refuse. -/
def Obligations.PostJudgesTheHeaderInOrder : Prop :=
  ∀ (s : State) (n : SlotId),
    (s.hdr n 0x00 ≠ 1 ∨ s.hdrFlags n &&& 0xF8#8 ≠ 0 → headerFault s n = some (.badFormat, s.hdr n 0x00)) ∧
    (s.hdr n 0x00 = 1 → s.hdrFlags n &&& 0xF8#8 = 0 →
      (4 ≤ (s.hdr n 0x04).toNat → headerFault s n = some (.badLane, s.hdr n 0x04)) ∧
      ((s.hdr n 0x04).toNat ≤ 3 →
        (s.stepCount n = 0 ∨ 12 < s.stepCount n → headerFault s n = some (.badStepCount, s.hdr n 0x06)) ∧
        (1 ≤ s.stepCount n → s.stepCount n ≤ 12 → s.continuation n ≠ 0xFF#8 →
          22 ≤ (s.continuation n).toNat ∨ (s.continuation n).toNat = n.val →
          headerFault s n = some (.badContinuation, s.continuation n)))) ∧
    (s.headerWellFormed n → ∀ c : ChanId,
      inChans (s.chanClaim n) c = true → inChans s.config.enable c = false →
      (∀ d : ChanId, d < c → inChans (s.chanClaim n) d = true → inChans s.config.enable d = true) →
      headerFault s n = some (.channelDisabled, BitVec.ofNat 8 c.val)) ∧
    (s.headerWellFormed n → s.claimsEnabled n → ∀ code detail, headerFault s n = some (code, detail) →
      code = .stepInvalid ∨ code = .stepOutsideClaim ∨ code = .queueFull)

/-- POST checks 10 and 11 (R11, R12): the first failing step with its code and index, then the room in the queue. -/
def Obligations.PostJudgesStepsThenQueueRoom : Prop :=
  ∀ (s : State) (n : SlotId), s.headerWellFormed n → s.claimsEnabled n →
    (∀ (i : StepId) (code : ResultCode), i.val < s.stepCount n →
      stepFault s.mem n (s.chanClaim n) (s.lineClaim n) i = some code →
      (∀ j : StepId, j < i → s.stepPasses n j) → headerFault s n = some (code, BitVec.ofNat 8 i.val)) ∧
    ((∀ i : StepId, i.val < s.stepCount n → s.stepPasses n i) →
      (s.parkFlag n = true → headerFault s n = none) ∧
      (s.parkFlag n = false → (s.queue (s.slotLane n)).length < 8 → headerFault s n = none) ∧
      (s.parkFlag n = false → 8 ≤ (s.queue (s.slotLane n)).length →
        headerFault s n = some (.queueFull, s.hdr n 0x04)))

/-- A step record is read as its kind's table gives it (sections 11.4 and 11.5), or it is STEP_INVALID (R11, R76, R94,
R119, R133, R143, R185): the conditions of every kind, the command they admit with every parameter, and for a valid
step the claim conditions, which give STEP_OUTSIDE_CLAIM (R11). -/
def Obligations.StepRecordsAreReadOrRefused : Prop :=
  ∀ (m : Memory) (n : SlotId) (i : StepId) (chans : BitVec 16) (lines : BitVec 8),
    let a := stepBase n i
    let kind := (m.read a).toNat
    let flags := m.read (a + 1)
    let only (kindFlags : Byte) : Prop := flags &&& ~~~(kindFlags ||| 0x01#8) = 0
    let byte (off : Nat) : Nat := (m.read (a + 4 + off)).toNat
    let half (off : Nat) : Half := m.read16 (a + 4 + off)
    let duty (off : Nat) : Duty := (half off).setWidth 12
    let fits (off : Nat) : Prop := (half off).toNat ≤ 4095
    let ticks (off : Nat) : Nat := (m.read32 (a + 4 + off)).toNat
    let reads (cmd : StepCmd) : Prop :=
      decodeStep m n i = some ⟨flags.getLsbD 0, (m.read16 (a + 2)).toNat, cmd⟩
    let invalid : Prop := decodeStep m n i = none
    (kind = 0 ∨ 11 ≤ kind → invalid) ∧
    (kind = 1 →
      let valid : Prop := only 0x06#8 ∧ half 0 ≠ 0 ∧ fits 2 ∧ fits 4
      (valid → reads (.set (half 0) (duty 2) (duty 4) (flags.getLsbD 1) (flags.getLsbD 2))) ∧ (¬valid → invalid)) ∧
    (kind = 2 → (only 0 → reads (.apply (half 0))) ∧ (¬only 0 → invalid)) ∧
    (kind = 3 →
      let valid : Prop := only 0 ∧ half 0 ≠ 0 ∧ fits 2
      (valid → reads (.off (half 0) (duty 2))) ∧ (¬valid → invalid)) ∧
    (kind = 4 → (only 0 → reads (.delay (ticks 0))) ∧ (¬only 0 → invalid)) ∧
    (kind = 5 ∨ kind = 6 →
      let samples := byte 1 + 1
      let edge : Prop := byte 2 = 2 ∨ byte 2 = 3
      let needed := if byte 0x11 ≤ 1 then 2 * samples else 3 * ((samples + 1) / 2)
      let valid : Prop :=
        only 0x08#8 ∧ byte 0 ≤ 9 ∧ byte 2 ≤ 3 ∧ (edge → byte 3 ≤ 7) ∧ (flags.getLsbD 3 = true → edge) ∧
        fits 0x0C ∧ fits 0x0E ∧ half 0x0C ≤ half 0x0E ∧ byte 0x10 ≤ 4 ∧
        (byte 0x10 ≠ 0 → fits 0x12 ∧ fits 0x14 ∧ half 0x12 ≤ half 0x14) ∧
        (kind = 6 → byte 0x11 ≤ 3 ∧ (half 0x16).toNat ≤ 1023 ∧ (half 0x16).toNat + needed ≤ 1024)
      (¬valid → invalid) ∧
      (valid → ∃ p : CycleParams, reads (.cycle p) ∧
        p.input.val = byte 0 ∧ p.samples = samples ∧
        [TriggerMode.immediate, .timed, .edgeRise, .edgeFall][byte 2]? = some p.mode ∧
        (edge → p.line.val = byte 3) ∧ p.delay = ticks 0x04 ∧ p.wait = ticks 0x08 ∧ p.holdoff = flags.getLsbD 3 ∧
        p.abortLo = duty 0x0C ∧ p.abortHi = duty 0x0E ∧
        [JudgeStat.none, .min, .max, .avg, .last][byte 0x10]? = some p.stat ∧
        (byte 0x10 ≠ 0 → p.judgeLo = duty 0x12 ∧ p.judgeHi = duty 0x14) ∧
        (kind = 5 → p.capture = none) ∧
        (kind = 6 → ∃ pk : Packing, p.capture = some ⟨(half 0x16).toNat, pk⟩ ∧
          [Packing.wordLow, .wordHigh, .pairLow, .pairHigh][byte 0x11]? = some pk))) ∧
    (kind = 7 →
      let valid : Prop := only 0 ∧ half 0 ≠ 0 ∧ 1 ≤ byte 2 ∧ byte 2 ≤ 64
      (valid → reads (.verify (half 0) (byte 2))) ∧ (¬valid → invalid)) ∧
    (kind = 8 →
      let register : Prop := byte 0 = 0 ∨ byte 0 = 1 ∨ byte 0 = 3
      let data : Prop := byte 0 = 0 ∨ byte 0 = 2 ∨ byte 0 = 3
      let valid : Prop :=
        only 0 ∧ byte 0 ≤ 5 ∧ byte 1 ≤ 127 ∧
        (register → (byte 2 = 1 ∧ (half 4).toNat ≤ 255) ∨ byte 2 = 2) ∧
        (data → 1 ≤ byte 3 ∧ byte 3 ≤ 16 ∧ (half 6).toNat ≤ 1023 ∧ (half 6).toNat + byte 3 ≤ 1024)
      (¬valid → invalid) ∧
      (valid → ∃ mode : LinkMode,
        [LinkMode.store, .point, .fetchHere, .fetchAt, .probe, .probeUntil][byte 0]? = some mode ∧
        reads (.link ⟨mode, BitVec.ofNat 7 (byte 1), byte 2, half 4, byte 3, (half 6).toNat⟩))) ∧
    (kind = 9 →
      let valid : Prop := only 0 ∧ byte 0 ≠ 0 ∧ byte 1 ≤ 4
      (¬valid → invalid) ∧
      (valid → ∃ mode : LineMode,
        [LineMode.input, .inputPullup, .inputEdge, .outputOpenDrain, .outputPushPull][byte 1]? = some mode ∧
        reads (.lines (m.read (a + 4)) mode (m.read (a + 6))))) ∧
    (kind = 10 → (only 0 → reads .awaitGo) ∧ (¬only 0 → invalid)) ∧
    (invalid → stepFault m n chans lines i = some .stepInvalid) ∧
    ∀ r : StepRecord, decodeStep m n i = some r →
      let names (c : ChanId) : Prop := match r.cmd with
        | .set mask _ _ _ _ => inChans mask c = true
        | .apply mask => inChans mask c = true
        | .off mask _ => inChans mask c = true
        | .verify mask _ => inChans mask c = true
        | _ => False
      let namesLine (l : LineId) : Prop := match r.cmd with
        | .lines mask _ _ => inLines mask l = true
        | .cycle p => (p.mode = .edgeRise ∨ p.mode = .edgeFall) ∧ p.line = l
        | _ => False
      let inside : Prop :=
        (∀ c, names c → inChans chans c = true) ∧ ∀ l, namesLine l → inLines lines l = true
      (inside → stepFault m n chans lines i = none) ∧
      (¬inside → stepFault m n chans lines i = some .stepOutsideClaim)

/-- An accepted POST (R14): the acceptance writes, the place in the queue or the parked set, the renewal and the verdict;
then the named lane takes the slot if it is IDLE (R32). The port's frame is another statement's
(CommandWordRunsItsCommand). -/
def Obligations.AcceptedPostIsPlaced : Prop :=
  ∀ (n : SlotId) (s : State), s.ready = true → Memory.wf s.mem → s.postable n → headerFault s n = none →
    ∃ t : State,
      t = { s with mem := t.mem, queues := t.queues, parked := t.parked, holdSafe := t.holdSafe, result := t.result,
                   frame := t.frame } ∧
      t.holdSafe = (if s.holdSafe.state = .watching then { s.holdSafe with count := 0, expiryDue := false }
                    else s.holdSafe) ∧
      Memory.bytes t.mem (slotBase n + 0x02) 2 = [0x00#8, 0xFF#8] ∧
      Memory.bytes t.mem (slotBase n + 0x0B) 3 = [0x00#8, 0x00#8, 0xFF#8] ∧
      Memory.bytes t.mem (slotBase n + 0x18) 8 = List.replicate 8 0x00#8 ∧
      (∀ i : StepId, i.val < s.stepCount n → Memory.bytes t.mem (stepBase n i + 0x1C) 12 = List.replicate 12 0x00#8) ∧
      (∀ a, ¬inHeader n 0x01 3 a → ¬inHeader n 0x0B 3 a → ¬inHeader n 0x18 8 a → ¬inResults n 0 (s.stepCount n) a →
        Memory.read t.mem a = Memory.read s.mem a) ∧
      (s.parkFlag n = true →
        exec (.post (numberOf n)) s = .next t ∧
        Memory.read t.mem (slotBase n + 0x01) = 0x02#8 ∧ t.queues = s.queues ∧ t.parked = s.parked ++ [n] ∧
        t.result = ⟨.accepted, 0x01#8, 0xFF#8⟩) ∧
      (s.parkFlag n = false →
        exec (.post (numberOf n)) s = .next (finishAct (t, [Task.take (s.slotLane n)])) ∧
        ((s.lane (s.slotLane n)).state ≠ .idle → exec (.post (numberOf n)) s = .next t) ∧
        Memory.read t.mem (slotBase n + 0x01) = 0x01#8 ∧ t.parked = s.parked ∧
        (∀ k, t.queue k = if k = s.slotLane n then s.queue k ++ [n] else s.queue k) ∧
        t.result = ⟨.accepted, 0x01#8, BitVec.ofNat 8 ((s.queue (s.slotLane n)).length + 1)⟩)

/-! ### Takes, claims, grants -/

/-- The take (R32): an IDLE lane with SAFE clear takes its queue's head, writes RUNNING and the start tick, starts the
plan timer and requests its claims; otherwise nothing happens. -/
def Obligations.TakeStartsTheHeadSlot : Prop :=
  ∀ (s : State) (k : LaneId),
    (∀ (n : SlotId) (q : List SlotId), (s.lane k).state = .idle → s.safe = false → s.queue k = n :: q →
      ∃ t : State, runTask (.take k) s = requestClaims t k n ∧
        t = { s with mem := t.mem, queues := t.queues, lanes := t.lanes } ∧
        t.mem = Memory.writeBytes (Memory.writeBytes s.mem (slotBase n + 0x01) [0x03#8]) (slotBase n + 0x18)
          (wordBytes s.tick) ∧
        (∀ j, t.queue j = if j = k then q else s.queue j) ∧
        (∀ j, t.lane j = if j = k then { Lane.idle with
            state := .claiming, running := some n,
            planTimer := if t.planTimeoutOf n = 0 then none else some (t.planTimeoutOf n) } else s.lane j)) ∧
    ((s.lane k).state ≠ .idle ∨ s.safe = true ∨ s.queue k = [] → runTask (.take k) s = (s, []))

/-- A claim request (R56): granted when every entry is empty and no waiting set overlaps it, else the tail of the wait
list; a lane with its claims goes on with its running slot (R33), GATED under AWAIT_GO_START, else at step 0. That it has
gone on since the last tick boundary is noted for R162 (log 35). -/
def Obligations.ClaimRequestIsJudgedAtOnce : Prop :=
  ∀ (s : State) (k : LaneId) (n : SlotId),
    let chans := s.chanClaim n
    let lines := s.lineClaim n
    let free := (∀ c, inChans chans c = true → s.ownerOf c = none) ∧
      (∀ l, inLines lines l = true → s.lineOwnerOf l = none) ∧
      ∀ w ∈ s.waitList, chans &&& w.chans = 0 ∧ lines &&& w.lines = 0
    (free → ∃ t : State, requestClaims s k n = (t, [Task.enter k]) ∧
      t = { s with chanOwner := t.chanOwner, lineOwner := t.lineOwner } ∧
      (∀ c, t.ownerOf c = if inChans chans c = true then some k else s.ownerOf c) ∧
      (∀ l, t.lineOwnerOf l = if inLines lines l = true then some k else s.lineOwnerOf l)) ∧
    (¬free → requestClaims s k n =
      ({ s with waitList := s.waitList ++ [{ lane := k, chans := chans, lines := lines }] }, [])) ∧
    ((s.lane k).running = some n →
      (s.awaitGoStart n = true →
        runTask (.enter k) s = (s.setLane k { s.lane k with state := .gated, entered := true }, [])) ∧
      (s.awaitGoStart n = false →
        runTask (.enter k) s = (s.setLane k { s.lane k with entered := true }, [Task.startStep k 0])))
/-- The walk's judgement of the oldest lane not yet judged (R58): granted when its entries are empty and no older lane
still waiting overlaps it; a lane not granted keeps its place. An empty list grants nothing. The walk goes through the
whole wait list from its oldest lane, and the lanes it does not grant are the wait list afterwards. -/
def Obligations.WalkJudgesOldestFirst : Prop :=
  (∀ s : State, let r := walkList s.waitList [] s
    walk s = ({ r.1 with waitList := r.2.1 }, r.2.2)) ∧
  (∀ (kept : List Waiting) (s : State), walkList [] kept s = (s, kept, [])) ∧
  ∀ (w : Waiting) (ws kept : List Waiting) (s : State),
    let free := (∀ c, inChans w.chans c = true → s.ownerOf c = none) ∧
      (∀ l, inLines w.lines l = true → s.lineOwnerOf l = none) ∧
      ∀ v ∈ kept, w.chans &&& v.chans = 0 ∧ w.lines &&& v.lines = 0
    (free → ∃ t : State, t = { s with chanOwner := t.chanOwner, lineOwner := t.lineOwner } ∧
      (∀ c, t.ownerOf c = if inChans w.chans c = true then some w.lane else s.ownerOf c) ∧
      (∀ l, t.lineOwnerOf l = if inLines w.lines l = true then some w.lane else s.lineOwnerOf l) ∧
      walkList (w :: ws) kept s =
        ((walkList ws kept t).1, (walkList ws kept t).2.1, w.lane :: (walkList ws kept t).2.2)) ∧
    (¬free → walkList (w :: ws) kept s = walkList ws (kept ++ [w]) s)

/-- A release (R60, R62): the lane's entries outside the masks become empty and those channels lose their pending target;
nothing else changes. -/
def Obligations.ReleaseEmptiesTheLanesEntries : Prop :=
  ∀ (s : State) (k : LaneId) (chans : BitVec 16) (lines : BitVec 8),
    let t := s.releaseClaims k chans lines
    t = { s with chanOwner := t.chanOwner, lineOwner := t.lineOwner, channels := t.channels } ∧
    (∀ c, s.ownerOf c = some k → inChans chans c = false →
      t.ownerOf c = none ∧ t.chan c = { s.chan c with pending := none }) ∧
    (∀ c, s.ownerOf c ≠ some k ∨ inChans chans c = true → t.ownerOf c = s.ownerOf c ∧ t.chan c = s.chan c) ∧
    (∀ l, t.lineOwnerOf l =
      if s.lineOwnerOf l = some k ∧ inLines lines l = false then none else s.lineOwnerOf l)

/-! ### Steps -/

/-- A step's result (R35): the result part is written whole, steps done and fault count rise as R36's table says, the
step timer is stopped; every other byte, lane and block is as before. -/
def Obligations.StepResultIsRecordedWhole : Prop :=
  ∀ (s : State) (k : LaneId) (n : SlotId) (i : StepId) (r : StepResult), Memory.wf s.mem →
    let t := recordResult s k n i r
    t = { s with mem := t.mem, lanes := t.lanes, watches := t.watches } ∧
    Memory.bytes t.mem (stepBase n i + 0x1C) 12 =
      [r.outcome.code, r.detail.code] ++ halfBytes (BitVec.ofNat 16 r.count) ++ halfBytes r.v0 ++ halfBytes r.v1 ++
        halfBytes r.v2 ++ halfBytes r.v3 ∧
    t.stepsDone n = (if r.outcome = .pass ∨ r.outcome = .fail ∨ r.outcome = .timeout ∨ r.outcome = .error
      then s.stepsDone n + 1 else s.stepsDone n) ∧
    t.faultCount n = (if r.outcome = .fail ∨ r.outcome = .timeout ∨ r.outcome = .error
      then s.faultCount n + 1 else s.faultCount n) ∧
    (∀ a, ¬inResults n i.val (i.val + 1) a → ¬inHeader n 0x0B 2 a → Memory.read t.mem a = Memory.read s.mem a) ∧
    (t.lane k).stepTimer = none ∧ (t.lane k).planTimer = (s.lane k).planTimer ∧
    (t.lane k).running = (s.lane k).running ∧ (∀ j, j ≠ k → t.lane j = s.lane j ∧ t.watch j = s.watch j)

/-- A step ends by its result, and what follows it (R37, R38): the next step, judgement, or the end of the slot as FAILED
with STEP_FAILED. -/
def Obligations.StepOutcomeDecidesWhatFollows : Prop :=
  ∀ (s : State) (k : LaneId) (n : SlotId) (i : StepId) (cont : Bool) (o : StepOutcome),
    (o = .pass ∨ cont = true →
      (∀ j : StepId, j.val = i.val + 1 → j.val < s.stepCount n →
        afterStep s k n i cont o = (s, [Task.startStep k j])) ∧
      (s.stepCount n ≤ i.val + 1 → s.continuation n = 0xFF#8 →
        afterStep s k n i cont o =
          endSlot s k n (if s.faultCount n = 0 then .complete else .completeWithFaults) .normal 0xFF#8) ∧
      (∀ c : SlotId, s.stepCount n ≤ i.val + 1 → s.continuation n = numberOf c →
        afterStep s k n i cont o = continueWith s k n c)) ∧
    (o ≠ .pass → cont = false →
      ∃ t : State, t = { s with mem := t.mem } ∧
        afterStep s k n i cont o = endSlot t k n .failed .stepFailed (BitVec.ofNat 8 i.val) ∧
        (Memory.wf s.mem →
          (∀ j : StepId, i < j → j.val < s.stepCount n →
            Memory.bytes t.mem (stepBase n j + 0x1C) 12 = 0x06#8 :: List.replicate 11 0x00#8) ∧
          ∀ a, ¬inResults n (i.val + 1) (s.stepCount n) a → Memory.read t.mem a = Memory.read s.mem a)) ∧
    ∀ (rec : StepRecord) (r : StepResult), s.stepping k n i rec →
      stepEnd s k r = afterStep (recordResult s k n i r) k n i rec.cont r.outcome
/-- The continuation check and the switch (R50, R51). That the lanes a trim's walk grants go on before the switching lane is
the model's choice (log 34). -/
def Obligations.ContinuationIsCheckedThenTaken : Prop :=
  ∀ (s : State) (k : LaneId) (n c : SlotId),
    let within := within16 (s.chanClaim c) (s.chansHeld k) && within8 (s.lineClaim c) (s.linesHeld k)
    (c ∉ s.parked → continueWith s k n c = endSlot s k n .failed .chainMissing (numberOf c)) ∧
    (c ∈ s.parked → within = false → continueWith s k n c = endSlot s k n .failed .chainClaims (numberOf c)) ∧
    (c ∈ s.parked → within = true →
      ∃ t : State, t = { s with mem := t.mem, finished := t.finished, parked := t.parked, lanes := t.lanes } ∧
        t.mem = Memory.writeBytes (Memory.writeBytes (Memory.writeBytes (Memory.writeBytes s.mem
          (slotBase n + 0x01) [if s.faultCount n = 0 then 0x04#8 else 0x05#8, 0x30#8, 0xFF#8])
          (slotBase n + 0x1C) (wordBytes s.tick)) (slotBase c + 0x01) [0x03#8]) (slotBase c + 0x18) (wordBytes s.tick) ∧
        t.finished = s.finished ||| (1#22 <<< n.val) ∧ t.parked = s.parked.erase c ∧
        (∀ j, t.lane j = if j = k then { Lane.idle with
          state := .stepping, running := some c,
          planTimer := if t.planTimeoutOf c = 0 then none else some (t.planTimeoutOf c) } else s.lane j) ∧
        let u := t.releaseClaims k (t.chanClaim c) (t.lineClaim c)
        continueWith s k n c =
          if within16 (t.chansHeld k) (t.chanClaim c) && within8 (t.linesHeld k) (t.lineClaim c)
          then (u, [Task.enter k])
          else ((walk u).1, (walk u).2.map Task.enter ++ [Task.enter k]))

/-- The end of a slot with its chain (R17, R18, R52): the verdict and end tick, FINISHED, then OFF_AT_END on the claimed
channels, the release and its walk, IDLE, and the grants before the lane's own take. -/
def Obligations.ChainEndRunsItsActionsInOrder : Prop :=
  ∀ (s : State) (k : LaneId) (n : SlotId) (st : SlotState) (reason : EndReason) (detail : Byte),
    ∃ t : State,
      t = { s with mem := t.mem, finished := t.finished, channels := t.channels, watches := t.watches } ∧
      t.mem = Memory.writeBytes (Memory.writeBytes s.mem (slotBase n + 0x01) [st.code, reason.code, detail])
        (slotBase n + 0x1C) (wordBytes s.tick) ∧
      t.finished = s.finished ||| (1#22 <<< n.val) ∧
      (∀ c, t.chan c = if s.offAtEnd n = true ∧ s.ownerOf c = some k
        then { s.chan c with state := .off, duty := 0, target := 0, rate := 0, offOnArrival := false, pending := none }
        else s.chan c) ∧
      s.marksDisturbed t (fun _ => False) ∧
      endSlot s k n st reason detail =
        ((walk (t.releaseClaims k 0 0)).1.setLane k Lane.idle,
          (walk (t.releaseClaims k 0 0)).2.map Task.enter ++ [Task.take k])

/-- A step's start (R34): current step written, step timer of 100 ticks per millisecond, then its serving block. -/
def Obligations.StepStartsWithItsTimer : Prop :=
  ∀ (s : State) (k : LaneId) (n : SlotId) (i : StepId) (r : StepRecord), (s.lane k).running = some n →
    decodeStep (Memory.writeBytes s.mem (slotBase n + 0x0D) [BitVec.ofNat 8 i.val]) n i = some r →
    ∃ t : State, runTask (.startStep k i) s = serveStep t k r.cmd ∧
      t = { s with mem := t.mem, lanes := t.lanes } ∧
      t.mem = Memory.writeBytes s.mem (slotBase n + 0x0D) [BitVec.ofNat 8 i.val] ∧
      ∀ j, t.lane j = if j = k then
        { Lane.idle with state := .stepping, running := some n, step := some i, record := some r,
                         stepTimer := if r.timeout = 0 then none else some (r.timeout * 100),
                         planTimer := (s.lane k).planTimer, entered := (s.lane k).entered } else s.lane j

/-- The kinds that end PASS in the act that starts them (R77, R78, R80, R83, R134), at the first instant of the step. -/
def Obligations.AtOnceStepsActThenPass : Prop :=
  ∀ (s : State) (k : LaneId), (s.lane k).ticks = 0 →
    let passes (c : StepCmd) (t : State) : Prop :=
      serveStep s k c = stepEnd t k ⟨.pass, .none, 0, 0, 0, 0, 0⟩
    (∀ (mask : BitVec 16) (x r : Duty), ∃ t : State, t = { s with channels := t.channels, watches := t.watches } ∧
      passes (.set mask x r false false) t ∧ s.marksDisturbed t (fun _ => False) ∧
      ∀ c, t.chan c = if inChans mask c = true
        then { s.chan c with pending := none, offOnArrival := false }.takeTarget x r else s.chan c) ∧
    (∀ (mask : BitVec 16) (x r : Duty) (settle : Bool), ∃ t : State, t = { s with channels := t.channels } ∧
      passes (.set mask x r true settle) t ∧
      ∀ c, t.chan c = if inChans mask c = true then { s.chan c with pending := some ⟨x, r⟩ } else s.chan c) ∧
    (∀ mask : BitVec 16, ∃ t : State, t = { s with channels := t.channels, watches := t.watches } ∧
      passes (.apply mask) t ∧
      s.marksDisturbed t (fun c => (s.chan c).pending ≠ none ∧
        ((mask = 0 ∧ s.ownerOf c = some k) ∨ (mask ≠ 0 ∧ inChans mask c = true))) ∧
      ∀ c, t.chan c = match (s.chan c).pending with
        | none => s.chan c
        | some p =>
          if (mask = 0 ∧ s.ownerOf c = some k) ∨ (mask ≠ 0 ∧ inChans mask c = true)
          then { { s.chan c with offOnArrival := false }.takeTarget p.target p.rate with pending := none }
          else s.chan c) ∧
    (∀ (mask : BitVec 16) (r : Duty), ∃ t : State, t = { s with channels := t.channels, watches := t.watches } ∧
      passes (.off mask r) t ∧ s.marksDisturbed t (fun _ => False) ∧
      ∀ c, t.chan c = if inChans mask c = true
        then (if r = 0
          then { s.chan c with state := .off, duty := 0, target := 0, rate := 0, offOnArrival := false, pending := none }
          else { s.chan c with pending := none, offOnArrival := true }.takeTarget 0 r)
        else s.chan c) ∧
    (∀ (mask : BitVec 8) (mode : LineMode) (levels : BitVec 8), ∃ t : State, t = { s with lines := t.lines } ∧
      passes (.lines mask mode levels) t ∧
      ∀ l, (inLines mask l = false → t.line l = s.line l) ∧
        (inLines mask l = true → (t.line l).latch = inLines levels l ∧ (t.line l).mode = mode ∧
          (t.line l).level = (s.line l).level ∧
          (t.line l).detector = if mode ≠ .inputEdge then none
            else if (s.line l).mode = .inputEdge then (s.line l).detector else some (s.line l).level)) ∧
    passes (.delay 0) s

/-- The kinds that wait (R39, R40, R79, R95–R97, R120): each sets its wait and leaves everything else as it is; an EDGE
trigger on a line that is not in INPUT_EDGE ends the step ERROR with TRIGGER_LINE_MODE. A RAMP wait is judged again at a
report of a channel that the lane claims (R73): it ends when every masked channel is HOLDING (for VERIFY: HOLDING or
OFF), and nothing happens otherwise. That the PASS of a SET is left as a task is the model's choice (log 26). -/
def Obligations.WaitingStepsSetTheirWait : Prop :=
  ∀ (s : State) (k : LaneId),
    (∀ n, 1 ≤ n → serveStep s k (.delay n) = (s.setLane k { s.lane k with phase := .delay, interval := some n }, [])) ∧
    serveStep s k .awaitGo = (s.setLane k { s.lane k with phase := .awaitGo }, []) ∧
    (∀ (mask : BitVec 16) (x r : Duty),
      let t := onChans mask (setOn x r) s
      ((∀ c, inChans mask c = true → (t.chan c).state = .holding) →
        serveStep s k (.set mask x r false true) = stepPass t k) ∧
      (∀ c, inChans mask c = true → (t.chan c).state ≠ .holding →
        serveStep s k (.set mask x r false true) = (t.setLane k { t.lane k with phase := .settle }, []))) ∧
    (∀ (mask : BitVec 16) (p : Nat) (c : ChanId), inChans mask c = true → (s.chan c).state = .ramping →
      serveStep s k (.verify mask p) = (s.setLane k { s.lane k with phase := .verifySettle }, [])) ∧
    (∀ (mask : BitVec 16) (p : Nat), (∀ c, inChans mask c = true → (s.chan c).state ≠ .ramping) →
      serveStep s k (.verify mask p) = (requestMonitor (s.putWatch k { disturbed := 0, measured := [] }) k, [])) ∧
    (∀ p : LinkParams, serveStep s k (.link p) = (requestLink s k, [])) ∧
    (∀ p : CycleParams,
      (p.mode = .immediate ∨ (p.mode = .timed ∧ p.delay = 0) →
        serveStep s k (.cycle p) = (requestConverter s k, [])) ∧
      (p.mode = .timed → 1 ≤ p.delay →
        serveStep s k (.cycle p) =
          (s.setLane k { s.lane k with phase := .timedDelay, interval := some p.delay }, [])) ∧
      (p.mode = .edgeRise ∨ p.mode = .edgeFall →
        ((s.line p.line).mode = .inputEdge →
          serveStep s k (.cycle p) = (s.setLane k { s.lane k with phase := .edgeWait }, [])) ∧
        ((s.line p.line).mode ≠ .inputEdge →
          serveStep s k (.cycle p) = stepEnd s k ⟨.error, .triggerLineMode, 0, 0, 0, 0, 0⟩))) ∧
    (∀ (cont : Bool) (timeout : Nat) (mask : BitVec 16) (x r : Duty) (settle : Bool),
      (s.lane k).record = some ⟨cont, timeout, .set mask x r false settle⟩ → (s.lane k).phase = .settle →
      ((∀ c, inChans mask c = true → (s.chan c).state = .holding) →
        judgeWait s k = (s.setLane k { s.lane k with phase := .none }, [Task.settled k])) ∧
      (∀ c, inChans mask c = true → (s.chan c).state ≠ .holding → judgeWait s k = (s, []))) ∧
    runTask (.settled k) s = stepEnd s k ⟨.pass, .none, (s.lane k).ticks, 0, 0, 0, 0⟩ ∧
    (∀ (cont : Bool) (timeout : Nat) (mask : BitVec 16) (p : Nat),
      (s.lane k).record = some ⟨cont, timeout, .verify mask p⟩ → (s.lane k).phase = .verifySettle →
      ((∀ c, inChans mask c = true → (s.chan c).state ≠ .ramping) →
        judgeWait s k = (requestMonitor (s.putWatch k { disturbed := 0, measured := [] }) k, [])) ∧
      (∀ c, inChans mask c = true → (s.chan c).state = .ramping → judgeWait s k = (s, []))) ∧
    ∀ c : ChanId, (s.ownerOf c = some k → reportChan s c = judgeWait s k) ∧
      (s.ownerOf c = none → reportChan s c = (s, []))
/-! ### Channels and units -/

/-- How a channel takes a target and moves (R75, R72, R73): the target and rate are stored; at once at rate 0 or at an
equal duty; a move goes by the rate toward the target and never past it. RAMP_MOVE makes one move on every channel; each
reports before the next one moves, and a watched channel whose state changes is marked disturbed (R121). That RAMP_MOVE
has effect once for each tick boundary (log 18), and that the channels report in ascending order and what follows an
ended wait comes after the last of them (log 26), is the model's choice. -/
def Obligations.ChannelsRampToTheirTargets : Prop :=
  (∀ x : Channel,
    (∀ t r : Duty,
      let start := if x.state = .off then 0 else x.duty
      let y := x.takeTarget t r
      ((t = start ∨ r = 0) → x.offOnArrival = false →
        y = { x with state := .holding, duty := t, target := t, rate := r }) ∧
      ((t = start ∨ r = 0) → x.offOnArrival = true →
        y = { x with state := .off, duty := 0, target := 0, rate := 0, offOnArrival := false }) ∧
      (t ≠ start → r ≠ 0 → y = { x with state := .ramping, duty := start, target := t, rate := r })) ∧
    (x.state ≠ .ramping → x.rampMove = x) ∧
    (x.state = .ramping → x.duty ≤ x.target →
      (x.rate.toNat < x.target.toNat - x.duty.toNat →
        x.rampMove = { x with duty := x.duty + x.rate } ∧ (x.duty + x.rate).toNat = x.duty.toNat + x.rate.toNat ∧
        x.duty.toNat + x.rate.toNat < x.target.toNat) ∧
      (x.target.toNat - x.duty.toNat ≤ x.rate.toNat → x.offOnArrival = false →
        x.rampMove = { x with state := .holding, duty := x.target }) ∧
      (x.target.toNat - x.duty.toNat ≤ x.rate.toNat → x.offOnArrival = true →
        x.rampMove = { x with state := .off, duty := 0, target := 0, rate := 0, offOnArrival := false })) ∧
    (x.state = .ramping → x.target < x.duty →
      (x.rate.toNat < x.duty.toNat - x.target.toNat →
        x.rampMove = { x with duty := x.duty - x.rate } ∧ (x.duty - x.rate).toNat = x.duty.toNat - x.rate.toNat ∧
        x.target.toNat < x.duty.toNat - x.rate.toNat) ∧
      (x.duty.toNat - x.target.toNat ≤ x.rate.toNat → x.offOnArrival = false →
        x.rampMove = { x with state := .holding, duty := x.target }) ∧
      (x.duty.toNat - x.target.toNat ≤ x.rate.toNat → x.offOnArrival = true →
        x.rampMove = { x with state := .off, duty := 0, target := 0, rate := 0, offOnArrival := false }))) ∧
  (∀ (s : State) (c : ChanId), ∃ t : State, rampOn s c = t ∧ t = { s with channels := t.channels, watches := t.watches } ∧
    (∀ d, t.chan d = if d = c then (s.chan c).rampMove else s.chan d) ∧ s.marksDisturbed t (fun _ => False)) ∧
  (∀ (f : State → ChanId → State) (s : State), reported f [] s = (s, []) ∧
    ∀ (c : ChanId) (cs : List ChanId),
      let a := reportChan (f s c) c
      reported f (c :: cs) s = ((reported f cs a.1).1, a.2 ++ (reported f cs a.1).2)) ∧
  ∀ s : State, s.ready = true →
    (s.rampMovesDue = 0 → exec .rampMove s = .next s) ∧
    (∀ d, s.rampMovesDue = d + 1 →
      ∃ (t : State) (ts : List Task), reported rampOn allChans { s with rampMovesDue := d } = (t, ts) ∧
        t = { s with channels := t.channels, lanes := t.lanes, monitor := t.monitor, watches := t.watches,
                     rampMovesDue := d } ∧
        (∀ c, t.chan c = (s.chan c).rampMove) ∧
        exec .rampMove s = .next (finishAct (t, ts)) ∧
        ((∀ k, ¬s.rampWaits k) → exec .rampMove s = .next t ∧ t.lanes = s.lanes ∧ t.monitor = s.monitor ∧
          s.marksDisturbed t (fun _ => False)))
/-- The shared units pass from lane to lane in the order of the requests (R64, R65): a free unit is granted at once, a
busy one queues the lane at the tail, a release grants the oldest, a withdrawal moves the others up. A grant, at a request
as at a release, starts the unit's work: the converter with the input of the lane's step, a cleared arithmetic unit and a
conversion (R92, R100), the duty monitor with the lowest masked channel in ALIGN (R121, R122), the link with RECOVERY or
START, no byte counted, no wind-down and the attempts of the lane (R144); nothing else changes. The fields of a unit that no
lane holds and the link's inner fields (logs 32 and 36), and when a period start is at the same instant (log 20), are the
model's choice. -/
def Obligations.UnitsPassOnInOrderOfRequest : Prop :=
  ∀ (s : State) (k : LaneId),
    let x := s.converter
    let m := s.monitor
    let y := s.link
    let waits (t : State) (p : Phase) : State := t.setLane k { s.lane k with phase := p }
    let converting (q : List LaneId) : State :=
      let input := match (s.lane k).cycleParams with
        | some p => p.input
        | none => x.input
      waits { s with converter := ⟨some k, q, input, .converting, none, 0, 0, 0, 0, 0⟩ } .converting
    let measuring (q : List LaneId) (c : ChanId) (ph : MeasurePhase) : State :=
      waits { s with monitor := ⟨some k, q, some c, ph, 0, 0, 0, m.instant⟩ } .measuring
    let linking (q : List LaneId) : State :=
      waits { s with link := ⟨some k, q, if y.busUncertain then .recovery else .start, y.busUncertain, 0,
        (s.lane k).attempts, false, 0, false, 0, false, false, .normal, 0⟩ } .linking
    (x.grantee = none → requestConverter s k = converting x.queue) ∧
    (x.grantee ≠ none →
      requestConverter s k = waits { s with converter := { x with queue := x.queue ++ [k] } } .converterQueue) ∧
    (∀ q, x.queue = k :: q → releaseConverter s = converting q) ∧
    (x.queue = [] → releaseConverter s =
      { s with converter := { x with grantee := none, phase := .none, waitLeft := none } }) ∧
    (∀ (mask : BitVec 16) (P : Nat) (c : ChanId), (s.lane k).verifyParams = some (mask, P) →
      inChans mask c = true → (∀ d : ChanId, d < c → inChans mask d = false) →
      let starts : Prop := ∃ d : ChanId, m.instant = some d ∧ d.val / 4 = c.val / 4 ∧ s.quarterOf d = s.quarterOf c ∧
        (s.chan c).started = true
      let begins (t : State) (q : List LaneId) : Prop :=
        (starts → t = measuring q c .counting) ∧ (¬starts → t = measuring q c .align)
      (m.grantee = none → begins (requestMonitor s k) m.queue) ∧
      ∀ q, m.queue = k :: q → begins (releaseMonitor s) q) ∧
    (m.grantee ≠ none →
      requestMonitor s k = waits { s with monitor := { m with queue := m.queue ++ [k] } } .monitorQueue) ∧
    (m.queue = [] → releaseMonitor s = { s with monitor := ⟨none, [], none, .none, 0, 0, 0, m.instant⟩ }) ∧
    (y.grantee = none → requestLink s k = linking y.queue) ∧
    (y.grantee ≠ none → requestLink s k = waits { s with link := { y with queue := y.queue ++ [k] } } .linkQueue) ∧
    (∀ q, y.queue = k :: q → releaseLink s = linking q) ∧
    (y.queue = [] → releaseLink s =
      { s with link := ⟨none, [], .idle, y.busUncertain, 0, 0, false, 0, false, 0, false, false, .normal, 0⟩ }) ∧
    withdrawConverter s k = { s with converter := { x with queue := x.queue.erase k } } ∧
    withdrawMonitor s k = { s with monitor := { m with queue := m.queue.erase k } } ∧
    withdrawLink s k = { s with link := { y with queue := y.queue.erase k } }

/-! ### Time -/

/-- TICK (R28, R29, R35, R102, R142, R158): the tick count advances, every running timer has one tick fewer left, a step in
progress is one tick older (up to 65,535), and a WATCHING monitor's count rises and is found at its window or not; a count
already at the window or past it stays and is found there. The link's wait for a high wire is counted from the release,
the boundary after it being the first; what each boundary finds of the wires is a free value (log 13). An expiry of the
monitor that an earlier boundary found is taken before the boundary, if it is still to be taken (R159; log 19). That the
boundary's ramp move is due as a command of its own (log 18), and that the boundary ends what R162 calls one boundary with
it (log 35), is the model's choice. -/
def Obligations.TickCountsOnce : Prop :=
  ∀ s : State, s.ready = true →
    let h := s.holdSafe
    let left (timer : Option Nat) : Option Nat := timer.map fun n => n - 1
    let due : Prop := h.state = .watching ∧ h.expiryDue = true
    (due → ∃ u : State, exec .monitorExpiry s = .next u ∧ u.safe = true ∧ exec .tick s = exec .tick u) ∧
    (¬due → ∃ t : State, exec .tick s = .next t ∧
      t = { s with tick := s.tick + 1, freeIndex := s.freeIndex + 1, rampMovesDue := s.rampMovesDue + 1, lanes := t.lanes,
                   holdSafe := t.holdSafe, link := { s.link with waited := t.link.waited },
                   converter := { s.converter with waitLeft := left s.converter.waitLeft } } ∧
      (∀ k, t.lane k = { s.lane k with
          stepTimer := left (s.lane k).stepTimer, planTimer := left (s.lane k).planTimer,
          interval := left (s.lane k).interval,
          ticks := if ((s.lane k).state = .stepping ∨ (s.lane k).state = .winding) ∧ (s.lane k).ticks < 65535
            then (s.lane k).ticks + 1 else (s.lane k).ticks,
          entered := false }) ∧
      (s.link.grantee = none ∨ s.config.stretch.toNat ≤ s.link.waited → t.link.waited = s.link.waited) ∧
      (s.link.grantee ≠ none → s.link.waited < s.config.stretch.toNat →
        (Config.wireWait s.freeIndex = .none → t.link.waited = 0) ∧
        (Config.wireWait s.freeIndex = .begun → t.link.waited = 1) ∧
        (Config.wireWait s.freeIndex = .goesOn → t.link.waited = s.link.waited + 1)) ∧
      (h.state ≠ .watching → t.holdSafe = h) ∧
      (h.state = .watching → h.count + 1 < s.config.window → t.holdSafe = ⟨.watching, h.count + 1, false⟩) ∧
      (h.state = .watching → h.count + 1 = s.config.window → t.holdSafe = ⟨.watching, s.config.window, true⟩) ∧
      (h.state = .watching → s.config.window ≤ h.count → t.holdSafe = ⟨.watching, h.count, true⟩))

/-- The expiries of a lane's timers: STEP_TIMEOUT and PLAN_TIMEOUT (R42–R44) reach the lane, DELAY_EXPIRY (R39) ends the
step PASS with count min(n, 65,535), TRIGGER_DELAY_EXPIRY (R96) accepts the trigger, CONFIRMATION_EXPIRY (R98) accepts it
when the line is at the active level and begins a new edge wait otherwise, POLL_INTERVAL_EXPIRY (R151) requests the link.
A timer that has not run out does not expire (log 17). -/
def Obligations.ExpiriesReachTheirLane : Prop :=
  ∀ (s : State) (k : LaneId), s.ready = true →
    ((s.lane k).state = .stepping → (s.lane k).stepTimer = some 0 →
      exec (.stepTimeout k) s = .next (finishAct (timeOutStep s k))) ∧
    ((s.lane k).stepTimer ≠ some 0 → exec (.stepTimeout k) s = .next s) ∧
    ((s.lane k).planTimer = some 0 →
      exec (.planTimeout k) s =
        .next (finishAct (cutLane (s.setLane k { s.lane k with planTimer := none }) k .planTimeout))) ∧
    ((s.lane k).planTimer ≠ some 0 → exec (.planTimeout k) s = .next s) ∧
    ((s.lane k).interval ≠ some 0 →
      exec (.delayExpiry k) s = .next s ∧ exec (.triggerDelayExpiry k) s = .next s ∧
      exec (.confirmationExpiry k) s = .next s ∧ exec (.pollIntervalExpiry k) s = .next s) ∧
    ((s.lane k).interval = some 0 →
      let u := s.setLane k { s.lane k with interval := none }
      (∀ (cont : Bool) (timeout n : Nat), (s.lane k).record = some ⟨cont, timeout, .delay n⟩ →
        (s.lane k).phase = .delay →
        exec (.delayExpiry k) s =
          .next (finishAct (stepEnd s k ⟨.pass, .none, if n ≤ 65535 then n else 65535, 0, 0, 0, 0⟩))) ∧
      ((s.lane k).phase = .timedDelay → exec (.triggerDelayExpiry k) s = .next (requestConverter u k)) ∧
      (∀ p, (s.lane k).cycleParams = some p → (s.lane k).phase = .confirm →
        p.mode = .edgeRise ∨ p.mode = .edgeFall →
        ((p.mode = .edgeRise ↔ (s.line p.line).level = true) →
          exec (.confirmationExpiry k) s = .next (requestConverter u k)) ∧
        (¬(p.mode = .edgeRise ↔ (s.line p.line).level = true) →
          exec (.confirmationExpiry k) s =
            .next (s.setLane k { s.lane k with phase := .edgeWait, interval := none }))) ∧
      ((s.lane k).phase = .pollInterval → exec (.pollIntervalExpiry k) s = .next (requestLink u k)))

/-! ### Conversion cycles, lines, measurements -/

/-- CONVERSION_END (R92, R101, R104, R107–R110): the code is recorded and, by a CAPTURE, stored in its packing; outside the
abort window the cycle ends FAIL with LIMIT_LOW or LIMIT_HIGH, at the last sample it is judged, and otherwise the sample
wait begins (R102) or, with wait 0, the next conversion, under HOLDOFF only at the active level (R103).
SAMPLE_WAIT_EXPIRY (R102) does the same at the end of the wait. A half pair still held is completed with B = 0 and
dropped (R110); without one nothing changes. -/
def Obligations.ConversionEndRecordsStoresJudges : Prop :=
  (∀ (s : State) (k : LaneId) (n : Nat),
    ((s.lane k).halfPair = none ∨ (s.lane k).cycleParams = none → completeHalfPair s k n = s) ∧
    ∀ (p : CycleParams) (off : Nat) (pk : Packing) (a : Duty), (s.lane k).cycleParams = some p →
      p.capture = some ⟨off, pk⟩ → (s.lane k).halfPair = some a → off + 3 * (n / 2) + 3 ≤ 1024 →
      let completed (bytes : List Byte) : State := State.setLane
        { s with mem := Memory.writeBytes s.mem (0x3000 + 0x400 * k.val + (off + 3 * (n / 2))) bytes }
        k { s.lane k with halfPair := none }
      (pk = .pairLow → completeHalfPair s k n =
        completed [a.extractLsb' 0 8, (a.extractLsb' 8 4).zeroExtend 8, 0x00#8]) ∧
      (pk = .pairHigh → completeHalfPair s k n =
        completed [a.extractLsb' 4 8, (a.extractLsb' 0 4 ++ 0x0#4 : BitVec 8), 0x00#8])) ∧
  ∀ (s : State) (k : LaneId) (p : CycleParams) (code : Duty), s.ready = true →
    let x := s.converter
    let active : Prop := p.holdoff = false ∨ ((p.mode = .edgeFall) ↔ (s.line p.line).level = false)
    (s.converterServes k p .converting →
      let y : Converter := { x with
        count := x.count + 1, sum := x.sum + code.toNat, last := code,
        min := if x.count = 0 then code else if code < x.min then code else x.min,
        max := if x.count = 0 then code else if x.max < code then code else x.max }
      let u := storeSample { s with converter := y } k x.count code
      let stored (off : Nat) (bytes : List Byte) : Memory :=
        Memory.writeBytes s.mem (0x3000 + 0x400 * k.val + off) bytes
      let low : Byte := code.extractLsb' 0 8
      let top : Byte := (code.extractLsb' 8 4).zeroExtend 8
      let pairLow (a : Duty) : List Byte :=
        [a.extractLsb' 0 8, (code.extractLsb' 0 4 ++ a.extractLsb' 8 4 : BitVec 8), code.extractLsb' 4 8]
      let pairHigh (a : Duty) : List Byte :=
        [a.extractLsb' 4 8, (a.extractLsb' 0 4 ++ code.extractLsb' 8 4 : BitVec 8), code.extractLsb' 0 8]
      let ends (o : StepOutcome) (d : StepDetail) : Prop :=
        exec (.conversionEnd code) s = .next (finishAct (stepEnd (releaseConverter (completeHalfPair u k y.count)) k
          ⟨o, d, y.count, y.min.zeroExtend 16, y.max.zeroExtend 16, BitVec.ofNat 16 (y.sum / y.count),
            y.last.zeroExtend 16⟩))
      let judged (v : Nat) : Prop :=
        (v < p.judgeLo.toNat → ends .fail .judgeLow) ∧
        (p.judgeLo.toNat ≤ v → p.judgeHi.toNat < v → ends .fail .judgeHigh) ∧
        (p.judgeLo.toNat ≤ v → v ≤ p.judgeHi.toNat → ends .pass .none)
      (p.capture = none → u = { s with converter := y }) ∧
      (∀ off, p.capture = some ⟨off, .wordLow⟩ → off + 2 * x.count + 2 ≤ 1024 →
        u = { s with converter := y, mem := stored (off + 2 * x.count) [low, top] }) ∧
      (∀ off, p.capture = some ⟨off, .wordHigh⟩ → off + 2 * x.count + 2 ≤ 1024 →
        u = { s with converter := y, mem := stored (off + 2 * x.count) [top, low] }) ∧
      (∀ off pk, p.capture = some ⟨off, pk⟩ → pk = .pairLow ∨ pk = .pairHigh → (s.lane k).halfPair = none →
        u = State.setLane { s with converter := y } k { s.lane k with halfPair := some code }) ∧
      (∀ off a, p.capture = some ⟨off, .pairLow⟩ → (s.lane k).halfPair = some a →
        off + 3 * (x.count / 2) + 3 ≤ 1024 →
        u = State.setLane { s with converter := y, mem := stored (off + 3 * (x.count / 2)) (pairLow a) }
              k { s.lane k with halfPair := none }) ∧
      (∀ off a, p.capture = some ⟨off, .pairHigh⟩ → (s.lane k).halfPair = some a →
        off + 3 * (x.count / 2) + 3 ≤ 1024 →
        u = State.setLane { s with converter := y, mem := stored (off + 3 * (x.count / 2)) (pairHigh a) }
              k { s.lane k with halfPair := none }) ∧
      (code < p.abortLo → ends .fail .limitLow) ∧
      (p.abortLo ≤ code → p.abortHi < code → ends .fail .limitHigh) ∧
      (p.abortLo ≤ code → code ≤ p.abortHi →
        (p.samples ≤ y.count →
          (p.stat = .none → ends .pass .none) ∧ (p.stat = .min → judged y.min.toNat) ∧
          (p.stat = .max → judged y.max.toNat) ∧ (p.stat = .avg → judged (y.sum / y.count)) ∧
          (p.stat = .last → judged y.last.toNat)) ∧
        (y.count < p.samples →
          (1 ≤ p.wait → exec (.conversionEnd code) s =
            .next { u with converter := { y with phase := .sampleWait, waitLeft := some p.wait } }) ∧
          (p.wait = 0 → active → exec (.conversionEnd code) s =
            .next { u with converter := { y with phase := .converting, waitLeft := none } }) ∧
          (p.wait = 0 → ¬active → exec (.conversionEnd code) s =
            .next { u with converter := { y with phase := .holdoffWait, waitLeft := none } })))) ∧
    (s.converterServes k p .sampleWait → x.waitLeft = some 0 →
      (active → exec .sampleWaitExpiry s =
        .next { s with converter := { x with phase := .converting, waitLeft := none } }) ∧
      (¬active → exec .sampleWaitExpiry s =
        .next { s with converter := { x with phase := .holdoffWait, waitLeft := none } }))

/-- LEVEL_CHANGE (R132, R136): the sampled level becomes the opposite one and a running detector's reference with it. A
matching edge of a claimed INPUT_EDGE line confirms its lane's trigger (R97, R98) or starts its next conversion (R103);
every other change ends there. -/
def Obligations.LevelChangeIsHandedOn : Prop :=
  ∀ (s : State) (l : LineId), s.ready = true →
    let x := s.line l
    let t := s.putLine l { x with
      level := !x.level, detector := if x.detector = none then none else some (!x.level) }
    (x.mode ≠ .inputEdge ∨ s.lineOwnerOf l = none → exec (.levelChange l) s = .next t) ∧
    ∀ k : LaneId, x.mode = .inputEdge → s.lineOwnerOf l = some k →
      let matching (p : CycleParams) : Prop :=
        p.line = l ∧ ((p.mode = .edgeRise ∧ x.level = false) ∨ (p.mode = .edgeFall ∧ x.level = true))
      (∀ p, (s.lane k).cycleParams = some p → matching p →
        ((s.lane k).phase = .edgeWait → p.delay = 0 → exec (.levelChange l) s = .next (requestConverter t k)) ∧
        ((s.lane k).phase = .edgeWait → 1 ≤ p.delay →
          exec (.levelChange l) s =
            .next (t.setLane k { s.lane k with phase := .confirm, interval := some p.delay })) ∧
        ((s.lane k).phase = .converting → s.converter.phase = .holdoffWait →
          exec (.levelChange l) s = .next { t with converter := { s.converter with phase := .converting } })) ∧
      (((s.lane k).phase ≠ .edgeWait ∧ ((s.lane k).phase ≠ .converting ∨ s.converter.phase ≠ .holdoffWait)) ∨
        (s.lane k).cycleParams = none ∨
        (∃ p, (s.lane k).cycleParams = some p ∧ (p.line ≠ l ∨
          (p.mode = .edgeRise ∧ x.level = true) ∨ (p.mode = .edgeFall ∧ x.level = false))) →
        exec (.levelChange l) s = .next t)

/-- GROUP_PERIOD_START (R67, R69): a pending timing takes effect, ending the periods in progress with a low output.
CHANNEL_PERIOD_START (R68, R122): the channel latches its duty, OFF latching 0, and a selected channel's period is counted
with its high time; once in each group period (log 20). -/
def Obligations.PeriodStartsLatchDuties : Prop :=
  ∀ s : State, s.ready = true →
    (∀ g : GroupId, ∃ t : State, exec (.groupPeriodStart g) s = .next t ∧
      t = { s with channels := t.channels, groups := t.groups } ∧
      (∀ h, t.group h = if h = g then ⟨(s.group g).pending.getD (s.group g).running, none⟩ else s.group h) ∧
      ∀ c, t.chan c = if c.val / 4 = g.val
        then { s.chan c with started := false,
                             latched := if (s.group g).pending = none then (s.chan c).latched else 0 }
        else s.chan c) ∧
    ∀ (c : ChanId) (high low : Nat),
      ((s.chan c).started = true → exec (.channelPeriodStart c high low) s = .next s) ∧
      ((s.chan c).started = false →
        ∃ t : State, exec (.channelPeriodStart c high low) s = .next t ∧
          t = { s with channels := t.channels, monitor := t.monitor } ∧
          (∀ d, t.chan d = if d = c
            then { s.chan c with latched := if (s.chan c).state = .off then 0 else (s.chan c).duty, started := true }
            else s.chan d) ∧
          (s.monitor.selected ≠ some c → t.monitor = s.monitor) ∧
          (s.monitor.selected = some c → s.monitor.phase = .align →
            t.monitor = { s.monitor with phase := .counting, periods := 0, high := 0, time := 0 }) ∧
          (∀ k mask P, s.monitor.selected = some c → s.monitor.phase = .counting → s.monitor.grantee = some k →
            (s.lane k).verifyParams = some (mask, P) →
            (s.monitor.periods < P →
              t.monitor = { s.monitor with periods := s.monitor.periods + 1, high := s.monitor.high + high,
                                           time := s.monitor.time + (high + low) }) ∧
            (P ≤ s.monitor.periods → t.monitor = s.monitor)))

/-- MEASUREMENT_END (R122–R126): duty, deviation and pass or fail of the selected channel are recorded, and the monitor
selects the next masked channel or, after the last one, is released and the step ends with its result. A measured time of
0 gives a free value for the duty (log 9). When the next channel begins at the same instant is the model's choice
(log 20). -/
def Obligations.MeasurementEndRecordsThenSelects : Prop :=
  ∀ (s : State) (k : LaneId) (c : ChanId) (mask : BitVec 16) (P : Nat), s.ready = true →
    s.monitor.phase = .counting → s.monitor.grantee = some k → s.monitor.selected = some c →
    (s.lane k).verifyParams = some (mask, P) →
    (s.monitor.periods ≠ P → exec .measurementEnd s = .next s) ∧
    (s.monitor.periods = P →
      ∃ d dev : Duty,
        d = (if s.monitor.time = 0 then Config.dutyOfNoTime s.monitor.high
          else if s.monitor.high * 4096 / s.monitor.time ≤ 4095
            then BitVec.ofNat 12 (s.monitor.high * 4096 / s.monitor.time) else 4095) ∧
        ((s.chan c).duty.toNat ≤ d.toNat → dev.toNat = d.toNat - (s.chan c).duty.toNat) ∧
        (d.toNat ≤ (s.chan c).duty.toNat → dev.toNat = (s.chan c).duty.toNat - d.toNat) ∧
        let failed : Bool := decide (s.config.tolerance.toNat < dev.toNat) || inChans (s.watch k).disturbed c
        let w : Watch := ⟨(s.watch k).disturbed, (s.watch k).measured ++ [⟨c, d, dev, failed⟩]⟩
        (∀ e : ChanId, c < e → inChans mask e = true → (∀ f : ChanId, c < f → f < e → inChans mask f = false) →
          ∃ t : State, exec .measurementEnd s = .next t ∧
            t = { s with lastVerified := t.lastVerified, watches := t.watches, monitor := t.monitor } ∧
            (∀ f, t.verified f = if f = c then some d else s.verified f) ∧
            (∀ j, t.watch j = if j = k then w else s.watch j) ∧
            ∃ ph, t.monitor = { s.monitor with selected := some e, phase := ph, periods := 0, high := 0, time := 0,
                                               instant := none } ∧
              ph = (if e.val / 4 = c.val / 4 ∧ s.quarterOf c = s.quarterOf e ∧ (s.chan e).started = true
                then .counting else .align)) ∧
        ((∀ e : ChanId, c < e → inChans mask e = false) →
          ∃ t : State, t = { s with lastVerified := t.lastVerified, watches := t.watches,
                                    monitor := { s.monitor with instant := some c } } ∧
            (∀ f, t.verified f = if f = c then some d else s.verified f) ∧
            (∀ j, t.watch j = if j = k then w else s.watch j) ∧
            let ends (o : StepOutcome) (dt : StepDetail) : Prop :=
              exec .measurementEnd s = .next (State.instantOver
                (finishAct (stepEnd (releaseMonitor t) k (w.toResult o dt (s.lane k).ticks))))
            (w.disturbed ≠ 0 → ends .error .disturbed) ∧
            (w.disturbed = 0 → (∃ m ∈ w.measured, m.failed = true) → ends .fail .dutyMismatch) ∧
            (w.disturbed = 0 → (∀ m ∈ w.measured, m.failed = false) → ends .pass .none)))

/-- The values of a VERIFY result (R125, R127): v0 is the mask of the failing channels measured so far, v1–v3 describe the
worst of them, the largest deviation and among equals the lowest channel, or read FFFFh, 0 and 0 when none failed. -/
def Obligations.VerifyResultNamesTheWorstChannel : Prop :=
  ∀ (w : Watch) (o : StepOutcome) (d : StepDetail) (ticks : Nat),
    let r := w.toResult o d ticks
    r.outcome = o ∧ r.detail = d ∧ r.count = ticks ∧
    (∀ c : ChanId, inChans r.v0 c = true ↔ ∃ m ∈ w.measured, m.failed = true ∧ m.chan = c) ∧
    ((∀ m ∈ w.measured, m.failed = false) → r.v1 = 0xFFFF#16 ∧ r.v2 = 0 ∧ r.v3 = 0) ∧
    ∀ m ∈ w.measured, w.measured.Pairwise (fun x y => x.chan < y.chan) → m.failed = true →
      (∀ x ∈ w.measured, x.failed = true →
        x.deviation < m.deviation ∨ (x.deviation = m.deviation ∧ m.chan ≤ x.chan)) →
      r.v1.toNat = m.chan.val ∧ r.v2.toNat = m.duty.toNat ∧ r.v3.toNat = m.deviation.toNat

/-! ### The fixture link -/

/-- The elements of a transfer that does not wind down, one after another (R144, R146–R148, R150, R151): START_DONE,
RESTART_DONE, BYTE_SENT in each phase, BYTE_READ and READ_ACK_BIT_END. With each the link has gone on, so that no wait for
a high wire is left; once such a wait has run out the bus is stuck, and no element ends any more (R142; log 13). -/
def Obligations.LinkElementsFollowOneAnother : Prop :=
  (∀ (c : Instr) (s : State), s.config.stretch.toNat ≤ s.link.waited →
    c = .linkStartDone ∨ c = .linkRestartDone ∨ (∃ ack, c = .linkByteSent ack) ∨ (∃ b, c = .linkByteRead b) ∨
      c = .linkReadAckBitEnd → exec c s = .next s) ∧
  ∀ (s : State) (k : LaneId) (p : LinkParams), s.ready = true → s.link.windDown = false →
    s.link.waited < s.config.stretch.toNat →
    let x := s.link
    let stops (c : Instr) (y : Link) (ending : LinkEnding) : Prop :=
      exec c s = .next { s with link := { y with phase := .stop, ending := ending, waited := 0 } }
    let window (off : Nat) : Nat := 0x3000 + 0x400 * k.val + off
    (s.linkServes k p .start →
      (p.mode ≠ .fetchHere → exec .linkStartDone s =
        .next { s with link := { x with phase := .address, readBit := false, sending := p.target ++ 0#1, waited := 0 } }) ∧
      (p.mode = .fetchHere → exec .linkStartDone s =
        .next { s with link := { x with phase := .address, readBit := true, sending := p.target ++ 1#1, waited := 0 } })) ∧
    (s.linkServes k p .restart → exec .linkRestartDone s =
      .next { s with link := { x with phase := .address, readBit := true, sending := p.target ++ 1#1, waited := 0 } }) ∧
    (s.linkServes k p .address →
      (p.mode = .probe ∨ p.mode = .probeUntil →
        let y : Link := { x with attempts := if x.attempts < 65535 then x.attempts + 1 else x.attempts }
        stops (.linkByteSent true) y .normal ∧ stops (.linkByteSent false) y .busy) ∧
      (p.mode ≠ .probe → p.mode ≠ .probeUntil →
        stops (.linkByteSent false) x .noDevice ∧
        (x.readBit = true → exec (.linkByteSent true) s =
          .next { s with link := { x with phase := .read, ninth := false, extra := false, waited := 0 } }) ∧
        (x.readBit = false → p.width = 2 → exec (.linkByteSent true) s =
          .next { s with link := { x with phase := .register, regLeft := 1, sending := p.register.extractLsb' 8 8,
                                          waited := 0 } }) ∧
        (x.readBit = false → p.width = 1 → exec (.linkByteSent true) s =
          .next { s with link := { x with phase := .register, regLeft := 0,
                                          sending := p.register.extractLsb' 0 8, waited := 0 } }))) ∧
    (s.linkServes k p .register →
      stops (.linkByteSent false) x .refused ∧
      (x.regLeft = 1 → exec (.linkByteSent true) s =
        .next { s with link := { x with phase := .register, regLeft := 0, sending := p.register.extractLsb' 0 8, waited := 0 } }) ∧
      (x.regLeft = 0 →
        (p.mode = .store → p.offset + x.bytes < 1024 → exec (.linkByteSent true) s =
          .next { s with link := { x with phase := .write,
                                          sending := Memory.read s.mem (window (p.offset + x.bytes)),
                                          waited := 0 } }) ∧
        (p.mode = .fetchAt → exec (.linkByteSent true) s = .next { s with link := { x with phase := .restart, waited := 0 } }) ∧
        (p.mode = .point → stops (.linkByteSent true) x .normal))) ∧
    (s.linkServes k p .write →
      stops (.linkByteSent false) x .refused ∧
      (p.length ≤ x.bytes + 1 → stops (.linkByteSent true) { x with bytes := x.bytes + 1 } .normal) ∧
      (x.bytes + 1 < p.length → p.offset + x.bytes + 1 < 1024 → exec (.linkByteSent true) s =
        .next { s with link := { x with phase := .write, bytes := x.bytes + 1,
                                        sending := Memory.read s.mem (window (p.offset + x.bytes + 1)),
                                        waited := 0 } })) ∧
    (s.linkServes k p .read →
      (x.ninth = false → x.extra = false → p.offset + x.bytes < 1024 → ∀ b : Byte, exec (.linkByteRead b) s =
        .next { s with mem := Memory.writeBytes s.mem (window (p.offset + x.bytes)) [b],
                       link := { x with ninth := true, bytes := x.bytes + 1, waited := 0 } }) ∧
      (x.ninth = true → x.extra = false →
        (x.bytes < p.length → exec .linkReadAckBitEnd s =
          .next { s with link := { x with phase := .read, ninth := false, extra := false, waited := 0 } }) ∧
        (p.length ≤ x.bytes → stops .linkReadAckBitEnd x .normal)))

/-- How a transfer ends (R145, R149–R151, R142): STOP_COMPLETE releases the link and gives the step its outcome, or begins
a poll interval; RECOVERY_COMPLETE clears the bus-uncertain flag and begins the transfer proper; BUS_STUCK, once the
link has waited for a wire up to the stretch limit, ends the step ERROR with STUCK and sets the flag. Under a wind-down
each of the three ends the wind-down (R152). Once the wait has run out BUS_STUCK alone ends the transfer (R153). What the
tick boundaries find of the wires is a free value (log 13). -/
def Obligations.TransfersEndWithTheirStop : Prop :=
  ∀ (s : State) (k : LaneId) (p : LinkParams) (cont : Bool) (timeout : Nat), s.ready = true →
    s.link.grantee = some k → (s.lane k).record = some ⟨cont, timeout, .link p⟩ → (s.lane k).phase = .linking →
    let stuck : State := { s with link := { s.link with busUncertain := true } }
    let limit : Prop := s.config.stretch.toNat ≤ s.link.waited
    let freed : State := { s with link := { s.link with busUncertain := false } }
    let result (o : StepOutcome) (d : StepDetail) : StepResult :=
      ⟨o, d, (s.lane k).ticks, BitVec.ofNat 16 s.link.bytes, BitVec.ofNat 16 s.link.attempts, 0, 0⟩
    (s.link.windDown = false →
      let ends (o : StepOutcome) (d : StepDetail) : Prop :=
        exec .linkStopComplete s = .next (finishAct (stepEnd (releaseLink s) k (result o d)))
      (¬limit → s.link.phase = .stop →
        (s.link.ending = .normal → ends .pass .none) ∧
        (s.link.ending = .noDevice → ends .error .noDevice) ∧
        (s.link.ending = .refused → ends .error .refused) ∧
        (s.link.ending = .busy → p.mode ≠ .probeUntil → ends .fail .busy) ∧
        (s.link.ending = .busy → p.mode = .probeUntil → exec .linkStopComplete s =
          .next ((releaseLink s).setLane k { (releaseLink s).lane k with
            phase := .pollInterval, interval := some s.config.poll, attempts := s.link.attempts }))) ∧
      (¬limit → s.link.phase = .recovery → exec .recoveryComplete s =
        .next { s with link := { s.link with busUncertain := false, phase := .start, waited := 0 } }) ∧
      (limit → exec .busStuck s = .next (finishAct (stepEnd (releaseLink stuck) k (result .error .stuck))))) ∧
    (∀ cause : EndCause, s.link.windDown = true → (s.lane k).cause = some cause →
      (¬limit → s.link.phase = .stop → exec .linkStopComplete s = .next (finishAct (endWindDown s k cause))) ∧
      (¬limit → s.link.phase = .recovery → exec .recoveryComplete s = .next (finishAct (endWindDown freed k cause))) ∧
      (limit → exec .busStuck s = .next (finishAct (endWindDown stuck k cause)))) ∧
    (limit → exec .linkStopComplete s = .next s ∧ exec .recoveryComplete s = .next s) ∧
    (¬limit → exec .busStuck s = .next s)
/-! ### ABORT, timeouts, wind-down -/

/-- ABORT of a slot number over 21, or of a slot that is not held (R23), writes only the verdict. ABORT of a queued or parked
slot (R24, R25): it leaves its place and ends ABORTED with HOST_ABORT, detail FFh, the
end tick and every step SKIPPED; it joins FINISHED; nothing else changes. The port's frame is
another statement's (CommandWordRunsItsCommand). -/
def Obligations.AbortEndsAnUnrunSlot : Prop :=
  (∀ (b : Byte) (s : State), s.ready = true →
    let answers (t : State) : Prop := ∃ f : PortFrame, exec (.abort b) s = .next { t with frame := f }
    (22 ≤ b.toNat → answers { s with result := ⟨.noSlot, 0x02#8, 0xFF#8⟩ }) ∧
    ∀ n : SlotId, b = numberOf n → s.place n = none →
      answers { s with result := ⟨.notHeld, 0x02#8, 0xFF#8⟩ }) ∧
  ∀ (n : SlotId) (s : State), s.ready = true → Memory.wf s.mem →
    (s.place n = some .parked ∨ ∃ k, s.place n = some (.queued k)) →
    ∃ t : State, exec (.abort (numberOf n)) s = .next t ∧
      t = { s with mem := t.mem, queues := t.queues, parked := t.parked, finished := t.finished, result := t.result,
                   frame := t.frame } ∧
      t.finished = s.finished ||| (1#22 <<< n.val) ∧
      Memory.bytes t.mem (slotBase n + 0x01) 3 = [0x07#8, 0x35#8, 0xFF#8] ∧
      Memory.bytes t.mem (slotBase n + 0x1C) 4 = wordBytes s.tick ∧
      (∀ i : StepId, i.val < s.stepCount n →
        Memory.bytes t.mem (stepBase n i + 0x1C) 12 = 0x06#8 :: List.replicate 11 0x00#8) ∧
      (∀ a, ¬inHeader n 0x01 3 a → ¬inHeader n 0x1C 4 a → ¬inResults n 0 (s.stepCount n) a →
        Memory.read t.mem a = Memory.read s.mem a) ∧
      (s.place n = some .parked →
        t.parked = s.parked.erase n ∧ t.queues = s.queues ∧ t.result = ⟨.accepted, 0x02#8, 0x02#8⟩) ∧
      ∀ k, s.place n = some (.queued k) →
        (∀ j, t.queue j = if j = k then (s.queue j).erase n else s.queue j) ∧ t.parked = s.parked ∧
        t.result = ⟨.accepted, 0x02#8, 0x01#8⟩
/-- ABORT of a running slot (R26): the verdict says whether the lane winds down, and the lane takes the abort. That it says
so of a lane that is LINKING even where the wind-down ends at once is the model's choice (log 7), and so is what the port
keeps of its frame (log 11). -/
def Obligations.AbortReachesTheRunningLane : Prop :=
  ∀ (n : SlotId) (k : LaneId) (s : State), s.ready = true → s.place n = some (.running k) →
    let winds := (s.lane k).state = .winding ∨ ((s.lane k).state = .stepping ∧ (s.lane k).phase = .linking)
    let answered (code : ResultCode) : State := { s with result := ⟨code, 0x02#8, 0x03#8⟩, frame := ⟨80, []⟩ }
    (winds → exec (.abort (numberOf n)) s =
      .next (finishAct (cutLane (answered .acceptedPending) k .hostAbort))) ∧
    (¬winds → exec (.abort (numberOf n)) s =
      .next (finishAct (cutLane (answered .accepted) k .hostAbort)))

/-- A plan timeout, an abort or the safe order on a CLAIMING or GATED lane (R44, R46, R49): off the wait list, every step
SKIPPED, the slot ended with detail FFh. That one walk, in the chain end, serves the departure as well is the model's
choice (log 24). -/
def Obligations.CauseEndsAWaitingLane : Prop :=
  ∀ (s : State) (k : LaneId) (n : SlotId) (cause : EndCause), Memory.wf s.mem →
    (s.lane k).state = .claiming ∨ (s.lane k).state = .gated → (s.lane k).running = some n →
    ∃ t : State, t = { s with mem := t.mem, waitList := s.waitList.filter fun w => w.lane != k } ∧
      (∀ i : StepId, i.val < s.stepCount n →
        Memory.bytes t.mem (stepBase n i + 0x1C) 12 = 0x06#8 :: List.replicate 11 0x00#8) ∧
      (∀ a, ¬inResults n 0 (s.stepCount n) a → Memory.read t.mem a = Memory.read s.mem a) ∧
      (cause = .planTimeout → cutLane s k cause = endSlot t k n .failed .planTimeout 0xFF#8) ∧
      (cause = .hostAbort → cutLane s k cause = endSlot t k n .aborted .hostAbort 0xFF#8) ∧
      (cause = .safeOrder ∨ cause = .safeRace → cutLane s k cause = endSlot t k n .aborted .safeAbort 0xFF#8)

/-- A timeout, an abort or the safe order on a STEPPING lane that holds no transfer (R42, R43, R47, R112–R114, R127): the request or
unit is given up, the step gets its own outcome with what it reached, later steps are SKIPPED, and the slot ends with the
step's index (a step timeout is judged under CONTINUE instead, R42); a half pair is completed at a timeout and dropped at an abort (R110).
Under a safe order that comes in one tick boundary with the lane's take, grant or switch and after it, the step in flight is
SKIPPED (R162; how the model tells that boundary, and the detail of the slot there, is log 35). -/
def Obligations.CauseEndsASteppingLane : Prop :=
  ∀ (s : State) (k : LaneId) (n : SlotId) (i : StepId) (r : StepRecord) (cause : EndCause), s.stepping k n i r →
    (s.lane k).phase ≠ .linking →
    let kept := if cause = .planTimeout ∨ cause = .stepTimeout then completeHalfPair s k s.converter.count else s
    let rest := match (s.lane k).phase with
      | .converterQueue => withdrawConverter kept k
      | .converting => releaseConverter kept
      | .monitorQueue => withdrawMonitor kept k
      | .measuring => releaseMonitor kept
      | .linkQueue => withdrawLink kept k
      | _ => kept
    let result (o : StepOutcome) (d : StepDetail) : StepResult := match r.cmd with
      | .cycle _ => if (s.lane k).phase = .converting
        then ⟨o, d, s.converter.count, s.converter.min.zeroExtend 16, s.converter.max.zeroExtend 16,
              BitVec.ofNat 16 (if s.converter.count = 0 then 0 else s.converter.sum / s.converter.count),
              s.converter.last.zeroExtend 16⟩
        else ⟨o, d, 0, 0, 0, 0, 0⟩
      | .verify _ _ => (s.watch k).toResult o d (s.lane k).ticks
      | .link _ => ⟨o, d, (s.lane k).ticks, 0, BitVec.ofNat 16 (s.lane k).attempts, 0, 0⟩
      | _ => ⟨o, d, (s.lane k).ticks, 0, 0, 0, 0⟩
    let ends (res : StepResult) (st : SlotState) (reason : EndReason) : Act :=
      endSlot (skipFrom (recordResult rest k n i res) n (i.val + 1)) k n st reason (BitVec.ofNat 8 i.val)
    (cause = .stepTimeout → timeOutStep s k = stepEnd rest k (result .timeout .step)) ∧
    (cause = .planTimeout → cutLane s k cause = ends (result .timeout .plan) .failed .planTimeout) ∧
    (cause = .hostAbort → cutLane s k cause = ends (result .aborted .host) .aborted .hostAbort) ∧
    (cause = .safeOrder → cutLane s k cause = ends (result .aborted .safe) .aborted .safeAbort) ∧
    (cause = .safeRace → cutLane s k cause = ends ⟨.skipped, .none, 0, 0, 0, 0, 0⟩ .aborted .safeAbort)
/-- A wind-down (R48, R152): a cause on a lane that is LINKING, a step timeout among them (R42), makes it WINDING, stops its
step timer, notes the cause and sets the link's wind-down mark; in phase START it ends at once or not, by a free value
(log 8), but not when the wait for a wire has run out: the bus is stuck, and BUS_STUCK ends it (R153); a second cause
replaces a step timeout only. What the link is in the middle of ends, a STOP follows (an acknowledged read address is
followed by one byte more), and the end of the wind-down releases the link and writes what the cause calls for (a step SKIPPED by the
race of R162 is log 35's reading). An order taken in the ninth clock of a byte read goes to STOP after it, the model's
choice (log 28). -/
def Obligations.WindDownGoesToTheNextStop : Prop :=
  ∀ (s : State) (k : LaneId) (cause : EndCause),
    let w : State := { s.setLane k { s.lane k with state := .winding, stepTimer := none, cause := some cause } with
                       link := { s.link with windDown := true } }
    let limit : Prop := s.config.stretch.toNat ≤ s.link.waited
    ((s.lane k).state = .stepping → (s.lane k).phase = .linking → s.link.phase ≠ .start ∨ limit →
      cutLane s k cause = (w, []) ∧ (cause = .stepTimeout → timeOutStep s k = (w, []))) ∧
    ((s.lane k).state = .stepping → (s.lane k).phase = .linking → s.link.phase = .start → ¬limit →
      let v := { w with freeIndex := s.freeIndex + 1 }
      (cause = .stepTimeout → timeOutStep s k = cutLane s k cause) ∧
      (Config.startBeingDriven s.freeIndex = true → cutLane s k cause = (v, [])) ∧
      (Config.startBeingDriven s.freeIndex = false → cutLane s k cause = endWindDown v k cause)) ∧
    ((s.lane k).state = .winding → (s.lane k).cause = some .stepTimeout →
      cutLane s k cause = (s.setLane k { s.lane k with cause := some cause }, [])) ∧
    ((s.lane k).state = .winding → (s.lane k).cause ≠ some .stepTimeout → cutLane s k cause = (s, [])) ∧
    (∀ (n : SlotId) (i : StepId) (cont : Bool) (timeout : Nat) (p : LinkParams),
      (s.lane k).running = some n → (s.lane k).step = some i →
      (s.lane k).record = some ⟨cont, timeout, .link p⟩ → (s.lane k).phase = .linking →
      let result (o : StepOutcome) (d : StepDetail) : StepResult :=
        ⟨o, d, (s.lane k).ticks, BitVec.ofNat 16 s.link.bytes, BitVec.ofNat 16 s.link.attempts, 0, 0⟩
      let ends (res : StepResult) (st : SlotState) (reason : EndReason) : Act :=
        endSlot (skipFrom (recordResult (releaseLink s) k n i res) n (i.val + 1)) k n st reason
          (BitVec.ofNat 8 i.val)
      (cause = .stepTimeout → endWindDown s k cause = stepEnd (releaseLink s) k (result .timeout .step)) ∧
      (cause = .planTimeout → endWindDown s k cause = ends (result .timeout .plan) .failed .planTimeout) ∧
      (cause = .hostAbort → endWindDown s k cause = ends (result .aborted .host) .aborted .hostAbort) ∧
      (cause = .safeOrder → endWindDown s k cause = ends (result .aborted .safe) .aborted .safeAbort) ∧
      (cause = .safeRace → endWindDown s k cause = ends ⟨.skipped, .none, 0, 0, 0, 0, 0⟩ .aborted .safeAbort)) ∧
    ∀ p : LinkParams, s.ready = true → s.link.windDown = true → ¬limit →
      let x := s.link
      let stops (c : Instr) (y : Link) : Prop :=
        exec c s = .next { s with link := { y with phase := .stop, ending := .normal, waited := 0 } }
      (s.linkServes k p .start → stops .linkStartDone x) ∧
      (s.linkServes k p .restart → stops .linkRestartDone x) ∧
      (s.linkServes k p .address →
        (p.mode = .probe ∨ p.mode = .probeUntil → ∀ ack, stops (.linkByteSent ack)
          { x with attempts := if x.attempts < 65535 then x.attempts + 1 else x.attempts }) ∧
        (p.mode ≠ .probe → p.mode ≠ .probeUntil →
          (x.readBit = true → exec (.linkByteSent true) s =
            .next { s with link := { x with phase := .read, ninth := false, extra := true, waited := 0 } }) ∧
          (x.readBit = false → stops (.linkByteSent true) x) ∧ stops (.linkByteSent false) x)) ∧
      (s.linkServes k p .register → ∀ ack, stops (.linkByteSent ack) x) ∧
      (s.linkServes k p .write →
        stops (.linkByteSent true) { x with bytes := x.bytes + 1 } ∧ stops (.linkByteSent false) x) ∧
      (s.linkServes k p .read →
        (x.ninth = false → x.extra = true → ∀ b : Byte, exec (.linkByteRead b) s =
          .next { s with link := { x with ninth := true, waited := 0 } }) ∧
        (x.ninth = false → x.extra = false → p.offset + x.bytes < 1024 → ∀ b : Byte, exec (.linkByteRead b) s =
          .next { s with mem := Memory.writeBytes s.mem (0x3000 + 0x400 * k.val + (p.offset + x.bytes)) [b],
                         link := { x with ninth := true, bytes := x.bytes + 1, waited := 0 } }) ∧
        (x.ninth = true → stops .linkReadAckBitEnd x))
/-! ### GO and the other commands -/

/-- GO (R41, R81): the apply part acts on every claimed channel of a named lane that has a pending target, and on no
other; the verdict is the mask of the lanes waiting for it; those lanes go on, a GATED one at step 0, an AWAIT_GO step
ending PASS. An applied channel that is watched is marked disturbed (R121, R124), and each applied channel reports before
the next one is applied (R73). That the released lanes are those waiting when GO comes and go on in ascending order, and
that what follows an ended RAMP wait comes after the apply part, is the model's choice (logs 6, 26 and 33), and so is what
the port keeps of its frame (log 11). -/
def Obligations.GoAppliesThenReleases : Prop :=
  ∀ (s : State) (lanes : BitVec 4),
    let waits (k : LaneId) : Bool :=
      inLanes lanes k && ((s.lane k).state == .gated || ((s.lane k).state == .stepping && (s.lane k).phase == .awaitGo))
    let ks := allLanes.filter waits
    let verdict : CommandResult := ⟨.accepted, 0x03#8, ks.foldl (fun m k => m ||| (1#8 <<< k.val)) 0⟩
    let framed : State := { s with frame := ⟨80, []⟩ }
    (s.ready = true →
      exec (.go lanes false) s = .next (finishAct ({ framed with result := verdict }, ks.map Task.release))) ∧
    (s.ready = true →
      let cs := (allLanes.filter (inLanes lanes)).flatMap fun k => allChans.filter fun c => s.ownerOf c == some k
      ∃ (t : State) (ts : List Task), reported applyOn cs framed = (t, ts) ∧
        t = { framed with channels := t.channels, lanes := t.lanes, monitor := t.monitor, watches := t.watches } ∧
        (∀ c, t.chan c = match s.ownerOf c, (s.chan c).pending with
          | some k, some p => if inLanes lanes k = true
            then { { s.chan c with offOnArrival := false }.takeTarget p.target p.rate with pending := none }
            else s.chan c
          | _, _ => s.chan c) ∧
        exec (.go lanes true) s = .next (finishAct ({ t with result := verdict }, ts ++ ks.map Task.release)) ∧
        ((∀ k, ¬s.rampWaits k) → ts = [] ∧ t.lanes = s.lanes ∧ t.monitor = s.monitor ∧
          s.marksDisturbed t (fun c => (s.chan c).pending ≠ none ∧ c ∈ cs))) ∧
    (∀ c : ChanId, ∃ t : State, applyOn s c = t ∧ t = { s with channels := t.channels, watches := t.watches } ∧
      (∀ d, d ≠ c → t.chan d = s.chan d) ∧
      s.marksDisturbed t (fun d => d = c ∧ (s.chan c).pending ≠ none)) ∧
    ∀ k : LaneId,
      ((s.lane k).state = .gated → runTask (.release k) s = (s, [Task.startStep k 0])) ∧
      ((s.lane k).state = .stepping → (s.lane k).phase = .awaitGo →
        runTask (.release k) s = stepEnd s k ⟨.pass, .none, (s.lane k).ticks, 0, 0, 0, 0⟩)

/-- RENEW, MONITOR_ON and RESUME (R159, R157, R164) in every state of the monitor; CLEAR_FLAGS (R179); an unknown code
(R176). The port's frame is another statement's (CommandWordRunsItsCommand). -/
def Obligations.ShortCommandsAnswerAtOnce : Prop :=
  ∀ s : State, s.ready = true →
    let answers (c : Instr) (t : State) : Prop := ∃ f : PortFrame, exec c s = .next { t with frame := f }
    (s.holdSafe.state = .watching →
      answers .renew { s with holdSafe := ⟨.watching, 0, false⟩, result := ⟨.accepted, 0x04#8, 0⟩ } ∧
      answers .monitorOn { s with result := ⟨.accepted, 0x07#8, 1⟩ } ∧
      answers .resume { s with result := ⟨.notSafe, 0x08#8, 0xFF#8⟩ }) ∧
    (s.holdSafe.state = .disabled →
      answers .renew { s with result := ⟨.accepted, 0x04#8, 1⟩ } ∧
      answers .monitorOn { s with holdSafe := ⟨.watching, 0, false⟩, result := ⟨.accepted, 0x07#8, 0⟩ } ∧
      answers .resume { s with result := ⟨.notSafe, 0x08#8, 0xFF#8⟩ }) ∧
    (s.holdSafe.state = .safe →
      answers .renew { s with result := ⟨.safeActive, 0x04#8, 0xFF#8⟩ } ∧
      answers .monitorOn { s with result := ⟨.accepted, 0x07#8, 1⟩ } ∧
      ((∀ k, (s.lane k).state ≠ .winding) →
        answers .resume { s with holdSafe := ⟨.watching, 0, false⟩, result := ⟨.accepted, 0x08#8, 0⟩ }) ∧
      (∀ k, (s.lane k).state = .winding →
        answers .resume { s with result := ⟨.busy, 0x08#8,
          (allLanes.filter fun j => (s.lane j).state == .winding).foldl (fun m j => m ||| (1#8 <<< j.val)) 0⟩ })) ∧
    answers .clearFlags
      { s with crcFlag := false, portFault := false, result := ⟨.accepted, 0x09#8, 0⟩ } ∧
    ∀ code : Byte, code.toNat = 0 ∨ 10 ≤ code.toNat →
      answers (.unknownCommand code) { s with result := ⟨.unknownCommand, code, 0xFF#8⟩ }
/-- LOAD_CONFIG (R177, R87, R69): BUSY, CONFIG_INVALID with the offset of the first bad field, or the whole page taken,
disabled channels turned off, and each group's pending timing judged against its running timing. What the port keeps of its
frame is the model's choice (log 11). -/
def Obligations.LoadConfigTakesThePageOrNothing : Prop :=
  ∀ s : State, s.ready = true →
    ((∃ n, s.place n ≠ none) ∨ (∃ k, (s.lane k).state ≠ .idle) →
      exec .loadConfig s = .next { s with result := ⟨.busy, 0x05#8, 0xFF#8⟩, frame := ⟨80, []⟩ }) ∧
    ((∀ n, s.place n = none) → (∀ k, (s.lane k).state = .idle) →
      (∀ off, firstBadField s.mem = some off →
        exec .loadConfig s =
          .next { s with result := ⟨.configInvalid, 0x05#8, BitVec.ofNat 8 off⟩, frame := ⟨80, []⟩ }) ∧
      (firstBadField s.mem = none →
        ∃ t : State, exec .loadConfig s = .next t ∧
          t = { s with config := configOfPage s.mem, configDefault := false, channels := t.channels, groups := t.groups,
                       watches := t.watches, result := ⟨.accepted, 0x05#8, 0⟩, frame := ⟨80, []⟩ } ∧
          (∀ c, t.chan c = if inChans t.config.enable c = true then s.chan c
            else { s.chan c with state := .off, duty := 0, target := 0, rate := 0, offOnArrival := false,
                                 pending := none }) ∧
          s.marksDisturbed t (fun _ => False) ∧
          ∀ g, (t.group g).running = (s.group g).running ∧
            (t.group g).pending = (if t.config.timing g = (s.group g).running then none else some (t.config.timing g))))

/-- The configuration page (R177, section 11.3): each field's range, the first bad one in ascending offset, which for an
array is the bad entry's own offset, and the set a good page holds, field by field. -/
def Obligations.ConfigurationFieldsAreChecked : Prop :=
  ∀ m : Memory,
    let outside (v lo hi : Nat) : Prop := v < lo ∨ hi < v
    let bad (off : Nat) : Prop :=
      (off = 0x000 ∧ m.read 0x000 ≠ 1) ∨
      (∃ g : GroupId, off = 0x004 + 2 * g.val ∧ outside (m.read16 off).toNat 50 10000) ∨
      (∃ c : ChanId, off = 0x010 + 2 * c.val ∧ outside (m.read16 off).toNat 0 4095) ∨
      (∃ c : ChanId, off = 0x030 + 2 * c.val ∧ outside (m.read16 off).toNat 0 4095) ∨
      (∃ c : ChanId, off = 0x050 + c.val ∧ outside (m.read off).toNat 0 3) ∨
      (∃ l : LineId, off = 0x060 + l.val ∧ outside (m.read off).toNat 0 4) ∨
      (∃ l : LineId, off = 0x068 + l.val ∧ outside (m.read off).toNat 0 1) ∨
      (off = 0x074 ∧ outside (m.read32 off).toNat 1000 100000000) ∨
      (off = 0x078 ∧ outside (m.read16 off).toNat 10 400) ∨
      (off = 0x07A ∧ outside (m.read16 off).toNat 1 1000) ∨
      (off = 0x07C ∧ outside (m.read16 off).toNat 1 1000)
    (∀ off : Nat, firstBadField m = some off ↔ bad off ∧ ∀ lower : Nat, lower < off → ¬bad lower) ∧
    (firstBadField m = none ↔
      m.read 0x000 = 1 ∧
      (∀ g : GroupId, 50 ≤ (m.read16 (0x004 + 2 * g.val)).toNat ∧ (m.read16 (0x004 + 2 * g.val)).toNat ≤ 10000) ∧
      (∀ c : ChanId, (m.read16 (0x010 + 2 * c.val)).toNat ≤ 4095 ∧ (m.read16 (0x030 + 2 * c.val)).toNat ≤ 4095 ∧
        (m.read (0x050 + c.val)).toNat ≤ 3) ∧
      (∀ l : LineId, (m.read (0x060 + l.val)).toNat ≤ 4 ∧ (m.read (0x068 + l.val)).toNat ≤ 1) ∧
      1000 ≤ (m.read32 0x074).toNat ∧ (m.read32 0x074).toNat ≤ 100000000 ∧
      10 ≤ (m.read16 0x078).toNat ∧ (m.read16 0x078).toNat ≤ 400 ∧
      1 ≤ (m.read16 0x07A).toNat ∧ (m.read16 0x07A).toNat ≤ 1000 ∧
      1 ≤ (m.read16 0x07C).toNat ∧ (m.read16 0x07C).toNat ≤ 1000) ∧
    (firstBadField m = none →
      let cfg := configOfPage m
      cfg.enable = m.read16 0x00C ∧ cfg.tolerance = m.read 0x070 ∧ cfg.window = (m.read32 0x074).toNat ∧
      cfg.linkRate = m.read16 0x078 ∧ cfg.stretch = m.read16 0x07A ∧ cfg.poll = (m.read16 0x07C).toNat ∧
      (∀ g : GroupId, (cfg.timing g).period = m.read16 (0x004 + 2 * g.val) ∧
        ∀ j : Fin 4, ((cfg.timing g).quarters[j]).toNat = (m.read (0x050 + (4 * g.val + j.val))).toNat) ∧
      (∀ c : ChanId, (cfg.safeDuty[c]).toNat = (m.read16 (0x010 + 2 * c.val)).toNat ∧
        (cfg.safeRate[c]).toNat = (m.read16 (0x030 + 2 * c.val)).toNat) ∧
      ∀ l : LineId, (cfg.safeMode[l]).code = m.read (0x060 + l.val) ∧
        boolByte (inLines cfg.safeLevel l) = m.read (0x068 + l.val))

/-- ENGINE_RESET (R178, R27, R53, R61, R65, R89, R116, R129, R139, R154, R165): what it clears, and what it keeps. The
values of the link's inner fields, the kept marks of taken period starts and what the port keeps of its frame are the
model's choice (logs 32, 20 and 11). -/
def Obligations.EngineResetClearsTheEngine : Prop :=
  ∀ s : State, s.ready = true →
    ∃ t : State, exec .engineReset s = .next t ∧
      t = { s with queues := t.queues, parked := [], finished := 0, lanes := t.lanes, chanOwner := t.chanOwner,
                   lineOwner := t.lineOwner, waitList := [], converter := Converter.reset, monitor := DutyMonitor.reset,
                   watches := t.watches, lastVerified := t.lastVerified, link := Link.reset, channels := t.channels,
                   lines := t.lines, holdSafe := t.holdSafe, result := ⟨.accepted, 0x06#8, 0⟩, frame := ⟨80, []⟩ } ∧
      (∀ k, t.queue k = [] ∧ t.lane k = Lane.idle ∧ t.watch k = Watch.empty) ∧
      (∀ c, t.ownerOf c = none ∧ t.verified c = none ∧
        t.chan c = { Channel.reset with started := (s.chan c).started }) ∧
      (∀ l, t.lineOwnerOf l = none ∧
        t.line l = { mode := .inputPullup, latch := false, level := (s.line l).level, detector := none }) ∧
      t.holdSafe = ⟨if s.holdSafe.state = .disabled then .disabled else .watching, 0, false⟩ ∧ t.attn = false

/-! ### The hold-safe monitor's expiry -/

/-- MONITOR_EXPIRY (R160, R161, R61, R49, R85, R138): SAFE, the claim table cleared, every queued and parked slot ended
ABORTED with SAFE_ABORT and its steps SKIPPED, every running slot of a lane that holds no transfer ended so as well, with
its step in flight ABORTED or, in the race of R162 (log 35), SKIPPED and the later ones SKIPPED, every enabled channel given
its safe target, every line its safe mode and level, every lane IDLE or WINDING. In a state whose lanes and units agree no
unit serves or queues any lane but a WINDING one, a lane that holds a transfer winds it down (R48) and a WINDING one goes
on, for the safe order if it was for a step timeout, and the tenth law holds. The order of the blocks' parts is the
model's choice (log 5). An expiry that no tick boundary has found is none (log 19). -/
def Obligations.MonitorExpiryBringsSafety : Prop :=
  ∀ s : State, s.ready = true →
    (s.holdSafe.state ≠ .watching ∨ s.holdSafe.expiryDue = false → exec .monitorExpiry s = .next s) ∧
    (s.holdSafe.state = .watching → s.holdSafe.expiryDue = true →
      ∃ t : State, exec .monitorExpiry s = .next t ∧
        t = { s with mem := t.mem, queues := t.queues, parked := [], finished := t.finished, lanes := t.lanes,
                     chanOwner := t.chanOwner, lineOwner := t.lineOwner, waitList := [], channels := t.channels,
                     converter := t.converter, monitor := t.monitor, watches := t.watches, lines := t.lines,
                     link := t.link, freeIndex := t.freeIndex, holdSafe := ⟨.safe, s.holdSafe.count, false⟩ } ∧
        t.safe = true ∧ t.attn = true ∧ (∀ k, t.queue k = []) ∧ t.unclaimed ∧
        (∀ n : SlotId, s.isFinished n = true → t.isFinished n = true) ∧
        (let skipped (n : SlotId) (first : Nat) : Prop := ∀ i : StepId, first ≤ i.val → i.val < s.stepCount n →
           Memory.bytes t.mem (stepBase n i + 0x1C) 12 = 0x06#8 :: List.replicate 11 0x00#8
         let ended (n : SlotId) (detail : Byte) : Prop :=
           Memory.bytes t.mem (slotBase n + 0x01) 3 = [0x07#8, 0x36#8, detail] ∧
             Memory.bytes t.mem (slotBase n + 0x1C) 4 = wordBytes s.tick
         (∀ n : SlotId, n ∈ s.parked ∨ (∃ k, n ∈ s.queue k) → t.isFinished n = true ∧
           (Memory.wf s.mem → s.slotsApart → ended n 0xFF#8 ∧ skipped n 0)) ∧
         ∀ (k : LaneId) (n : SlotId), (s.lane k).running = some n →
           ((s.lane k).state = .claiming ∨ (s.lane k).state = .gated →
             t.isFinished n = true ∧ (Memory.wf s.mem → s.slotsApart → ended n 0xFF#8 ∧ skipped n 0)) ∧
           ∀ i : StepId, (s.lane k).state = .stepping → (s.lane k).step = some i → (s.lane k).phase ≠ .linking →
             t.isFinished n = true ∧
             (Memory.wf s.mem → s.slotsApart →
               ended n (BitVec.ofNat 8 i.val) ∧ skipped n (i.val + 1) ∧
               Memory.bytes t.mem (stepBase n i + 0x1C) 2 =
                 (if (s.lane k).entered then [0x06#8, 0x00#8] else [0x05#8, 0x0F#8]) ∧
               ((s.lane k).entered = true →
                 Memory.bytes t.mem (stepBase n i + 0x1E) 10 = List.replicate 10 0x00#8))) ∧
        (∀ c, t.chan c = if inChans s.config.enable c = true
          then (if s.config.safeDuty[c] = 0 ∧ s.config.safeRate[c] = 0
            then { s.chan c with state := .off, duty := 0, target := 0, rate := 0, offOnArrival := false,
                                 pending := none }
            else { s.chan c with pending := none, offOnArrival := decide (s.config.safeDuty[c] = 0) }.takeTarget
              s.config.safeDuty[c] s.config.safeRate[c])
          else { s.chan c with pending := if s.ownerOf c = none then (s.chan c).pending else none }) ∧
        (∀ l, (t.line l).latch = inLines s.config.safeLevel l ∧ (t.line l).mode = s.config.safeMode[l] ∧
          (t.line l).level = (s.line l).level) ∧
        ((∀ k, (s.lane k).state ≠ .idle → ∃ n, (s.lane k).running = some n) →
          (∀ k, (s.lane k).state = .stepping ∨ (s.lane k).state = .winding → ∃ i, (s.lane k).step = some i) →
          ∀ k, (t.lane k).state = .idle ∨ (t.lane k).state = .winding) ∧
        (s.lanesServed →
          t.converter.grantee = none ∧ t.monitor.grantee = none ∧ t.link.queue = [] ∧
          (∀ k, t.link.grantee = some k → s.link.grantee = some k ∧ (t.lane k).state = .winding) ∧ t.tenthLaw ∧
          ∀ k, (s.lane k).phase = .linking →
            let order : EndCause := if (s.lane k).entered then .safeRace else .safeOrder
            ((s.lane k).state = .stepping → s.link.phase ≠ .start ∨ s.config.stretch.toNat ≤ s.link.waited →
              t.lane k = { s.lane k with state := .winding, stepTimer := none, cause := some order } ∧
              t.link = { s.link with queue := [], windDown := true }) ∧
            ((s.lane k).state = .winding →
              t.lane k = { s.lane k with
                cause := if (s.lane k).cause = some .stepTimeout then some order else (s.lane k).cause } ∧
              t.link = { s.link with queue := [] })))

/-! ### The control port -/

/-- The dispatcher (R183): a WRITE of a word to COMMAND with a good CRC is the command its bytes spell. A host command's
frame is that WRITE's (R166): ten bytes, and nothing sent after them (what is kept of a frame is the model's choice, log
11). -/
def Obligations.CommandWordRunsItsCommand : Prop :=
  ∀ (b0 b1 b2 b3 : Byte) (s : State), s.ready = true →
    let runs (c : Instr) : Prop :=
      exec (.writeFrame 0x7F08#16 [b0, b1, b2, b3] (writeCrc 0x7F08#16 [b0, b1, b2, b3])) s = exec c s ∧
      ∃ t : State, exec c s = .next t ∧ t.frame = ⟨80, []⟩
    (b0 = 0x01#8 → runs (.post b1)) ∧ (b0 = 0x02#8 → runs (.abort b1)) ∧
    (b0 = 0x03#8 → runs (.go (b1.setWidth 4) (b2.getLsbD 0))) ∧ (b0 = 0x04#8 → runs .renew) ∧
    (b0 = 0x05#8 → runs .loadConfig) ∧ (b0 = 0x06#8 → runs .engineReset) ∧ (b0 = 0x07#8 → runs .monitorOn) ∧
    (b0 = 0x08#8 → runs .resume) ∧ (b0 = 0x09#8 → runs .clearFlags) ∧
    (b0.toNat = 0 ∨ 10 ≤ b0.toNat → runs (.unknownCommand b0))

/-- A WRITE that passes every check (R168, R1, R19): its bytes are stored and nothing else happens; a WRITE of FINISHED
removes the slots whose bit is 1. Of more than 64 data bytes, which the frame format does not give, what the frame leaves
in its range and in PORT_FAULT is open (log 10). FINISHED_WRITE is such a WRITE, its frame with it (log 11). -/
def Obligations.GoodWriteIsAppliedWhole : Prop :=
  ∀ (addr : Half) (data : List Byte) (s : State), s.ready = true → 1 ≤ data.length → data.length ≤ 256 →
    let a := addr.toNat
    let e := a + data.length
    let f : PortFrame := ⟨8 * (6 + data.length), []⟩
    let sends (t : State) : Prop := exec (.writeFrame addr data (writeCrc addr data)) s = .next t
    let stored : Prop := e ≤ 0x0200 ∨ (0x3000 ≤ a ∧ e ≤ 0x4000) ∨
      (0x0200 ≤ a ∧ e ≤ 0x2E00 ∧ ∀ n, s.place n ≠ none → ∀ x, a ≤ x → x < e → ¬inSlot n x)
    (stored → data.length ≤ 64 → sends { s with mem := Memory.writeBytes s.mem a data, frame := f }) ∧
    (stored → 64 < data.length → ∃ (bytes : List Byte) (fault : Bool), bytes.length = data.length ∧
      sends { s with mem := Memory.writeBytes s.mem a bytes, portFault := s.portFault || fault, frame := f,
                     freeIndex := s.freeIndex + 1 }) ∧
    (∀ mask : Word, a = 0x7F10 → data = wordBytes mask →
      sends { s with finished := s.finished &&& ~~~(mask.setWidth 22), frame := f }) ∧
    ∀ mask : Word, exec (.finishedWrite mask) s =
      .next { s with finished := s.finished &&& ~~~(mask.setWidth 22), frame := ⟨80, []⟩ }

/-- Frames that latch PORT_FAULT and do nothing else (R171, R21): a WRITE to a held slot, to the status page, outside or
across areas, misaligned or of a read-only register, whatever its length; a bad operation byte; an early rise of nCS.
READ_ONLY_REGISTER_WRITE is such a WRITE, its frame with it (log 11). -/
def Obligations.FaultyFrameOnlyLatchesPortFault : Prop :=
  ∀ s : State, s.ready = true →
    (∀ (addr : Half) (data : List Byte), 1 ≤ data.length → data.length ≤ 256 →
      let a := addr.toNat
      let e := a + data.length
      (∃ n x, s.place n ≠ none ∧ a ≤ x ∧ x < e ∧ inSlot n x ∧ 0x0200 ≤ a ∧ e ≤ 0x2E00) ∨
      (a < 0x3000 ∧ 0x2E00 < e) ∨ (a < 0x0200 ∧ 0x0200 < e) ∨ (a < 0x2E00 ∧ 0x2E00 < e) ∨
      (a < 0x4000 ∧ 0x4000 < e) ∨ (0x4000 ≤ a ∧ a < 0x7F00) ∨ (0x7F00 ≤ a ∧ 0x7F1C < e) ∨
      (0x7F00 ≤ a ∧ (a % 4 ≠ 0 ∨ data.length % 4 ≠ 0)) ∨
      (0x7F00 ≤ a ∧ ((a ≠ 0x7F08 ∧ a ≠ 0x7F10) ∨ data.length ≠ 4)) →
      exec (.writeFrame addr data (writeCrc addr data)) s =
        .next { s with portFault := true, frame := ⟨8 * (6 + data.length), []⟩ }) ∧
    (∀ (addr : Half) (data : List Byte), (Instr.readOnlyRegisterWrite addr data).wellFormed = true →
      exec (.readOnlyRegisterWrite addr data) s =
        .next { s with portFault := true, frame := ⟨8 * (6 + data.length), []⟩ }) ∧
    (∀ op : Byte, op ≠ 0xA5#8 → op ≠ 0x5A#8 →
      exec (.badOperationByte op) s = .next { s with portFault := true, frame := ⟨8, []⟩ }) ∧
    ∀ bits : Nat, 0 < bits →
      exec (.earlyNcsRise bits) s = .next { s with portFault := true, frame := ⟨bits, []⟩ }

/-- The CRC of the nine ASCII digits 1 to 9 is 29B1h, sent low byte first (R167). A frame with a bad
CRC (R170): the count rises by one and stops at 255, CRC_FLAG is latched, a READ gets refused data; nothing else
happens, whatever its address and length (what is kept of the frame: log 11). -/
def Obligations.BadCrcIsCounted : Prop :=
  (crc16 [0x31#8, 0x32#8, 0x33#8, 0x34#8, 0x35#8, 0x36#8, 0x37#8, 0x38#8, 0x39#8] = 0x29B1#16 ∧
    halfBytes 0x29B1#16 = [0xB1#8, 0x29#8]) ∧
  ∀ s : State, s.ready = true →
    let n : Byte := if s.crcCount = 0xFF#8 then 0xFF#8 else s.crcCount + 1
    (∀ (addr crc : Half) (data : List Byte), 1 ≤ data.length → data.length ≤ 256 → crc ≠ writeCrc addr data →
      exec (.writeFrame addr data crc) s =
        .next { s with crcCount := n, crcFlag := true, frame := ⟨8 * (6 + data.length), []⟩ }) ∧
    ∀ (addr crc : Half) (l : Byte), crc ≠ readCrc addr l →
      exec (.readFrame addr l crc) s =
        .next { s with crcCount := n, crcFlag := true,
                       frame := ⟨48, List.replicate (l.toNat + 1) 0x00#8 ++
                         halfBytes (~~~(crc16 (List.replicate (l.toNat + 1) 0x00#8)))⟩ }

/-- A READ with a good header CRC (R169): the snapshot and its CRC, or refused data with PORT_FAULT; it changes no state
of the part but what it sends. A byte of exchange memory reads as memory holds it (R1, R22). SDO (R166) is released while
nCS is high and during device reset, and carries 00h but in the places of a READ's answer. A length byte of 64 to 255,
which the frame format does not give, is answered as the rules say for any length (log 10). -/
def Obligations.ReadAnswersWithASnapshot : Prop :=
  (∀ (s : State) (x : Nat), x < 0x2E00 ∨ (0x3000 ≤ x ∧ x < 0x4000) → s.portByte x = Memory.read s.mem x) ∧
  (∀ (s : State) (i : Nat), s.sdo false i = none ∧ (s.ready = false → s.sdo true i = none) ∧
    (s.ready = true → s.sdo true i = some (if i < 6 then 0 else s.frame.reply.getD (i - 6) 0))) ∧
  ∀ (addr : Half) (l : Byte) (s : State), s.ready = true →
    let a := addr.toNat
    let n := l.toNat + 1
    let answered : Prop := a + n ≤ 0x0200 ∨ (0x0200 ≤ a ∧ a + n ≤ 0x2E00) ∨ (0x2E00 ≤ a ∧ a + n ≤ 0x3000) ∨
      (0x3000 ≤ a ∧ a + n ≤ 0x4000) ∨ (0x7F00 ≤ a ∧ a + n ≤ 0x7F1C ∧ a % 4 = 0 ∧ n % 4 = 0)
    (answered → exec (.readFrame addr l (readCrc addr l)) s =
      .next { s with frame := ⟨48, (List.range n).map (fun i => s.portByte (a + i)) ++
                       halfBytes (crc16 ((List.range n).map fun i => s.portByte (a + i)))⟩ }) ∧
    (¬answered → exec (.readFrame addr l (readCrc addr l)) s =
      .next { s with portFault := true,
                     frame := ⟨48, List.replicate n 0x00#8 ++ halfBytes (~~~(crc16 (List.replicate n 0x00#8)))⟩ })

/-- What the views show (R4, R19, R173–R175, R180, R182–R184): how each line's pin is driven and pulled up (R131), every
item of the channel, line and lane records and of the shared-unit region at its offset, the seven registers with the flags
at their bits, the step and the wait reason a lane shows (R30, R31), and the value each name of the code tables of section
11.7 stands for (R182). -/
def Obligations.ViewsShowTheStateAtTheirOffsets : Prop :=
  ∀ s : State,
    (∀ c : ChanId, s.snapshot (0x2E00 + 0x10 * c.val) 0x10 =
      [(s.chan c).state.code, laneByte (s.ownerOf c), boolByte (s.chan c).offOnArrival, 0x00#8] ++
        dutyBytes (s.chan c).target ++ dutyBytes (s.chan c).duty ++ dutyBytes (s.chan c).rate ++
        (match (s.chan c).pending with
          | some p => dutyBytes p.target
          | none => [0xFF#8, 0xFF#8]) ++
        (match s.verified c with
          | some d => dutyBytes d
          | none => [0xFF#8, 0xFF#8]) ++ [0x00#8, 0x00#8]) ∧
    (∀ l : LineId, s.snapshot (0x2F00 + 0x08 * l.val) 0x08 =
      [(s.line l).mode.code, boolByte (s.line l).latch, boolByte (s.line l).level, laneByte (s.lineOwnerOf l),
        0x00#8, 0x00#8, 0x00#8, 0x00#8]) ∧
    (∀ l : LineId,
      let x := s.line l
      (x.mode = .input ∨ x.mode = .inputPullup ∨ x.mode = .inputEdge → x.drive = .notDriven) ∧
      (x.mode = .outputOpenDrain → x.drive = if x.latch then .released else .low) ∧
      (x.mode = .outputPushPull → x.drive = if x.latch then .high else .low) ∧
      (x.pullUp = true ↔ x.mode = .inputPullup ∨ x.mode = .inputEdge)) ∧
    (∀ k : LaneId, (s.queue k).length ≤ 8 → s.snapshot (0x2F40 + 0x20 * k.val) 0x20 =
      [(s.lane k).state.code, slotByte (s.lane k).running, stepByte (s.lane k).shownStep, (s.lane k).waitReason.code,
        BitVec.ofNat 8 (s.queue k).length] ++ (s.queue k).map numberOf ++
        List.replicate (8 - (s.queue k).length) 0xFF#8 ++ List.replicate 19 0x00#8) ∧
    (s.converter.queue.length ≤ 4 → s.monitor.queue.length ≤ 4 → s.link.queue.length ≤ 4 → s.waitList.length ≤ 4 →
      let lanes (q : List LaneId) : List Byte :=
        q.map (fun k => BitVec.ofNat 8 k.val) ++ List.replicate (4 - q.length) 0xFF#8
      s.snapshot 0x2FC0 0x40 =
        laneByte s.converter.grantee :: lanes s.converter.queue ++ laneByte s.monitor.grantee :: lanes s.monitor.queue ++
          laneByte s.link.grantee :: lanes s.link.queue ++ [s.link.phase.code, boolByte s.link.busUncertain] ++
          lanes (s.waitList.map Waiting.lane) ++ List.replicate 43 0x00#8) ∧
    (s.snapshot 0x7F00 0x1C = wordBytes 0x00DF1601#32 ++ wordBytes s.statusReg ++ wordBytes 0x00000000#32 ++
      [s.result.code.code, s.result.echo, s.result.detail, 0x00#8] ++ wordBytes s.finishedReg ++ wordBytes s.tick ++
      [s.crcCount, 0x00#8, 0x00#8, 0x00#8]) ∧
    (∀ i : Nat, s.statusReg.getLsbD i =
      if i = 0 then s.ready
      else if i = 1 then decide (s.holdSafe.state = .safe)
      else if i = 2 then decide (s.holdSafe.state ≠ .disabled)
      else if i = 3 then s.configDefault
      else if i = 4 then s.crcFlag
      else if i = 5 then s.portFault
      else if i = 6 then s.ready && (decide (s.finished ≠ 0) || decide (s.holdSafe.state = .safe))
      else false) ∧
    (∀ n : SlotId, s.finishedReg.getLsbD n.val = s.isFinished n) ∧
    (∀ i : Nat, 22 ≤ i → s.finishedReg.getLsbD i = false) ∧
    (∀ l : Lane,
      (l.state = .idle ∨ l.state = .claiming ∨ l.state = .gated → l.shownStep = none ∧ l.waitReason = .none) ∧
      (l.state = .winding → l.shownStep = l.step ∧ l.waitReason = .linking) ∧
      (l.state = .stepping → l.shownStep = l.step ∧
        (l.phase, l.waitReason) ∈ [(Phase.none, WaitReason.none), (.settle, .ramp), (.verifySettle, .ramp),
          (.delay, .delay), (.timedDelay, .trigger), (.edgeWait, .trigger), (.confirm, .trigger),
          (.converterQueue, .converter), (.converting, .converting), (.monitorQueue, .monitor), (.measuring, .measuring),
          (.linkQueue, .link), (.linking, .linking), (.pollInterval, .pollInterval), (.awaitGo, .go)])) ∧
    let upTo (n : Nat) : List Byte := (List.range (n + 1)).map (BitVec.ofNat 8)
    [SlotState.empty, .queued, .parked, .running, .complete, .completeWithFaults, .failed, .aborted, .rejected].map
      SlotState.code = upTo 8 ∧
    [LaneState.idle, .claiming, .gated, .stepping, .winding].map LaneState.code = upTo 4 ∧
    [ChanState.off, .ramping, .holding].map ChanState.code = upTo 2 ∧
    [StepOutcome.pending, .pass, .fail, .timeout, .error, .aborted, .skipped].map StepOutcome.code = upTo 6 ∧
    [LineMode.input, .inputPullup, .inputEdge, .outputOpenDrain, .outputPushPull].map LineMode.code = upTo 4 ∧
    [WaitReason.none, .ramp, .delay, .trigger, .converter, .converting, .monitor, .measuring, .link, .linking,
      .pollInterval, .go].map WaitReason.code = upTo 11 ∧
    [LinkPhase.idle, .recovery, .start, .address, .register, .write, .restart, .read, .stop].map LinkPhase.code = upTo 8 ∧
    [StepDetail.none, .limitLow, .limitHigh, .judgeLow, .judgeHigh, .triggerLineMode, .dutyMismatch, .disturbed,
      .noDevice, .refused, .stuck, .busy, .step, .plan, .host, .safe].map StepDetail.code = upTo 15 ∧
    [ResultCode.none, .accepted, .acceptedPending].map ResultCode.code = upTo 2 ∧
    [ResultCode.badFormat, .badLane, .badStepCount, .badContinuation, .channelDisabled, .stepInvalid, .stepOutsideClaim,
      .queueFull].map ResultCode.code = [0x10#8, 0x11#8, 0x12#8, 0x13#8, 0x14#8, 0x15#8, 0x16#8, 0x17#8] ∧
    [ResultCode.safeActive, .noSlot, .slotHeld, .notAcknowledged, .notHeld, .busy, .configInvalid, .notSafe,
      .unknownCommand].map ResultCode.code =
        [0x20#8, 0x21#8, 0x22#8, 0x23#8, 0x24#8, 0x25#8, 0x26#8, 0x27#8, 0x28#8] ∧
    [EndReason.noReason, .normal, .stepFailed, .planTimeout, .chainMissing, .chainClaims, .hostAbort, .safeAbort].map
      EndReason.code = [0x00#8, 0x30#8, 0x31#8, 0x32#8, 0x33#8, 0x34#8, 0x35#8, 0x36#8]

/-! ### Device reset -/

/-- DEVICE_RESET and DEVICE_RESET_END (R181, R53, R88, R139, R154): at its beginning READY goes, every output is low, every
lane is IDLE and the link is cut; at its end every register has its reset value, with SAFESTRAP's level choosing the
monitor's state (R156) and the lines' first samples their levels (R132). What is cleared at the beginning and what at the
end, READY low between them, and the link's inner fields are the model's choice (logs 20, 22 and 32). -/
def Obligations.DeviceResetCutsThenClears : Prop :=
  ∀ s : State,
    (∃ t : State, exec .deviceReset s = .next t ∧ t.ready = false ∧ t.attn = false ∧ t.mem = s.mem ∧
      (∀ k, t.lane k = Lane.idle ∧ t.queue k = []) ∧ t.parked = [] ∧ t.unclaimed ∧
      (∀ c, t.chan c = Channel.reset) ∧
      (∀ l, t.line l = { mode := .inputPullup, latch := false, level := (s.line l).level, detector := none }) ∧
      t.link = Link.reset ∧ t.converter = Converter.reset ∧ t.monitor = DutyMonitor.reset ∧ t.frame = ⟨0, []⟩) ∧
    (s.ready = false → ∀ (strap : Bool) (levels : BitVec 8),
      ∃ t : State, exec (.deviceResetEnd strap levels) s = .next t ∧
        t = { State.afterReset strap levels with pending := s.pending, freeIndex := s.freeIndex } ∧
        t.holdSafe = ⟨if strap then .watching else .disabled, 0, false⟩ ∧
        (∀ a, Memory.read t.mem a = 0) ∧
        t.statusReg = (if strap then 0x0D#32 else 0x09#32) ∧ t.resultReg = 0 ∧ t.finishedReg = 0 ∧ t.tick = 0 ∧
        t.crcCountReg = 0 ∧
        (∀ c, t.chan c = ⟨.off, 0, 0, 0, false, none, 0, false⟩ ∧ t.ownerOf c = none ∧ t.verified c = none) ∧
        (∀ l, t.line l = ⟨.inputPullup, false, levels.getLsbD l.val, none⟩ ∧ t.lineOwnerOf l = none) ∧
        (∀ k, t.lane k = Lane.idle ∧ t.queue k = []) ∧
        t.link.phase = .idle ∧ t.link.busUncertain = true ∧ t.link.grantee = none ∧
        (∀ g, (t.group g).pending = none ∧ (t.group g).running.period = 1000) ∧
        t.config.enable = 0xFFFF#16 ∧ t.config.tolerance = 16 ∧ t.config.window = 100000 ∧ t.config.linkRate = 100 ∧
        t.config.stretch = 100 ∧ t.config.poll = 50)

end
end

