-- ==== Sys2Proof/Laws/State.lean ====
section
/-! SUPPORT. One lemma per field per update of State, each true by definition, so that no later proof unfolds a record
update; and what each table reads after an update of one entry. -/

namespace Sys2Proof.Machine

/-! ### State.store -/

@[simp] theorem State.store_pending (s : State) (a : Nat) (bs : List Byte) : (s.store a bs).pending = s.pending := rfl
@[simp] theorem State.store_freeIndex (s : State) (a : Nat) (bs : List Byte) : (s.store a bs).freeIndex = s.freeIndex := rfl
@[simp] theorem State.store_mem (s : State) (a : Nat) (bs : List Byte) : (s.store a bs).mem = Memory.writeBytes s.mem a bs := rfl
@[simp] theorem State.store_ready (s : State) (a : Nat) (bs : List Byte) : (s.store a bs).ready = s.ready := rfl
@[simp] theorem State.store_configDefault (s : State) (a : Nat) (bs : List Byte) : (s.store a bs).configDefault = s.configDefault := rfl
@[simp] theorem State.store_crcFlag (s : State) (a : Nat) (bs : List Byte) : (s.store a bs).crcFlag = s.crcFlag := rfl
@[simp] theorem State.store_portFault (s : State) (a : Nat) (bs : List Byte) : (s.store a bs).portFault = s.portFault := rfl
@[simp] theorem State.store_crcCount (s : State) (a : Nat) (bs : List Byte) : (s.store a bs).crcCount = s.crcCount := rfl
@[simp] theorem State.store_result (s : State) (a : Nat) (bs : List Byte) : (s.store a bs).result = s.result := rfl
@[simp] theorem State.store_frame (s : State) (a : Nat) (bs : List Byte) : (s.store a bs).frame = s.frame := rfl
@[simp] theorem State.store_tick (s : State) (a : Nat) (bs : List Byte) : (s.store a bs).tick = s.tick := rfl
@[simp] theorem State.store_config (s : State) (a : Nat) (bs : List Byte) : (s.store a bs).config = s.config := rfl
@[simp] theorem State.store_queues (s : State) (a : Nat) (bs : List Byte) : (s.store a bs).queues = s.queues := rfl
@[simp] theorem State.store_parked (s : State) (a : Nat) (bs : List Byte) : (s.store a bs).parked = s.parked := rfl
@[simp] theorem State.store_finished (s : State) (a : Nat) (bs : List Byte) : (s.store a bs).finished = s.finished := rfl
@[simp] theorem State.store_lanes (s : State) (a : Nat) (bs : List Byte) : (s.store a bs).lanes = s.lanes := rfl
@[simp] theorem State.store_chanOwner (s : State) (a : Nat) (bs : List Byte) : (s.store a bs).chanOwner = s.chanOwner := rfl
@[simp] theorem State.store_lineOwner (s : State) (a : Nat) (bs : List Byte) : (s.store a bs).lineOwner = s.lineOwner := rfl
@[simp] theorem State.store_waitList (s : State) (a : Nat) (bs : List Byte) : (s.store a bs).waitList = s.waitList := rfl
@[simp] theorem State.store_channels (s : State) (a : Nat) (bs : List Byte) : (s.store a bs).channels = s.channels := rfl
@[simp] theorem State.store_groups (s : State) (a : Nat) (bs : List Byte) : (s.store a bs).groups = s.groups := rfl
@[simp] theorem State.store_rampMovesDue (s : State) (a : Nat) (bs : List Byte) : (s.store a bs).rampMovesDue = s.rampMovesDue := rfl
@[simp] theorem State.store_converter (s : State) (a : Nat) (bs : List Byte) : (s.store a bs).converter = s.converter := rfl
@[simp] theorem State.store_monitor (s : State) (a : Nat) (bs : List Byte) : (s.store a bs).monitor = s.monitor := rfl
@[simp] theorem State.store_watches (s : State) (a : Nat) (bs : List Byte) : (s.store a bs).watches = s.watches := rfl
@[simp] theorem State.store_lastVerified (s : State) (a : Nat) (bs : List Byte) : (s.store a bs).lastVerified = s.lastVerified := rfl
@[simp] theorem State.store_lines (s : State) (a : Nat) (bs : List Byte) : (s.store a bs).lines = s.lines := rfl
@[simp] theorem State.store_link (s : State) (a : Nat) (bs : List Byte) : (s.store a bs).link = s.link := rfl
@[simp] theorem State.store_holdSafe (s : State) (a : Nat) (bs : List Byte) : (s.store a bs).holdSafe = s.holdSafe := rfl

/-! ### State.setLane -/

@[simp] theorem State.setLane_pending (s : State) (k : LaneId) (l : Lane) : (s.setLane k l).pending = s.pending := rfl
@[simp] theorem State.setLane_freeIndex (s : State) (k : LaneId) (l : Lane) : (s.setLane k l).freeIndex = s.freeIndex := rfl
@[simp] theorem State.setLane_mem (s : State) (k : LaneId) (l : Lane) : (s.setLane k l).mem = s.mem := rfl
@[simp] theorem State.setLane_ready (s : State) (k : LaneId) (l : Lane) : (s.setLane k l).ready = s.ready := rfl
@[simp] theorem State.setLane_configDefault (s : State) (k : LaneId) (l : Lane) : (s.setLane k l).configDefault = s.configDefault := rfl
@[simp] theorem State.setLane_crcFlag (s : State) (k : LaneId) (l : Lane) : (s.setLane k l).crcFlag = s.crcFlag := rfl
@[simp] theorem State.setLane_portFault (s : State) (k : LaneId) (l : Lane) : (s.setLane k l).portFault = s.portFault := rfl
@[simp] theorem State.setLane_crcCount (s : State) (k : LaneId) (l : Lane) : (s.setLane k l).crcCount = s.crcCount := rfl
@[simp] theorem State.setLane_result (s : State) (k : LaneId) (l : Lane) : (s.setLane k l).result = s.result := rfl
@[simp] theorem State.setLane_frame (s : State) (k : LaneId) (l : Lane) : (s.setLane k l).frame = s.frame := rfl
@[simp] theorem State.setLane_tick (s : State) (k : LaneId) (l : Lane) : (s.setLane k l).tick = s.tick := rfl
@[simp] theorem State.setLane_config (s : State) (k : LaneId) (l : Lane) : (s.setLane k l).config = s.config := rfl
@[simp] theorem State.setLane_queues (s : State) (k : LaneId) (l : Lane) : (s.setLane k l).queues = s.queues := rfl
@[simp] theorem State.setLane_parked (s : State) (k : LaneId) (l : Lane) : (s.setLane k l).parked = s.parked := rfl
@[simp] theorem State.setLane_finished (s : State) (k : LaneId) (l : Lane) : (s.setLane k l).finished = s.finished := rfl
@[simp] theorem State.setLane_lanes (s : State) (k : LaneId) (l : Lane) : (s.setLane k l).lanes = s.lanes.set k.val l k.isLt := rfl
@[simp] theorem State.setLane_chanOwner (s : State) (k : LaneId) (l : Lane) : (s.setLane k l).chanOwner = s.chanOwner := rfl
@[simp] theorem State.setLane_lineOwner (s : State) (k : LaneId) (l : Lane) : (s.setLane k l).lineOwner = s.lineOwner := rfl
@[simp] theorem State.setLane_waitList (s : State) (k : LaneId) (l : Lane) : (s.setLane k l).waitList = s.waitList := rfl
@[simp] theorem State.setLane_channels (s : State) (k : LaneId) (l : Lane) : (s.setLane k l).channels = s.channels := rfl
@[simp] theorem State.setLane_groups (s : State) (k : LaneId) (l : Lane) : (s.setLane k l).groups = s.groups := rfl
@[simp] theorem State.setLane_rampMovesDue (s : State) (k : LaneId) (l : Lane) : (s.setLane k l).rampMovesDue = s.rampMovesDue := rfl
@[simp] theorem State.setLane_converter (s : State) (k : LaneId) (l : Lane) : (s.setLane k l).converter = s.converter := rfl
@[simp] theorem State.setLane_monitor (s : State) (k : LaneId) (l : Lane) : (s.setLane k l).monitor = s.monitor := rfl
@[simp] theorem State.setLane_watches (s : State) (k : LaneId) (l : Lane) : (s.setLane k l).watches = s.watches := rfl
@[simp] theorem State.setLane_lastVerified (s : State) (k : LaneId) (l : Lane) : (s.setLane k l).lastVerified = s.lastVerified := rfl
@[simp] theorem State.setLane_lines (s : State) (k : LaneId) (l : Lane) : (s.setLane k l).lines = s.lines := rfl
@[simp] theorem State.setLane_link (s : State) (k : LaneId) (l : Lane) : (s.setLane k l).link = s.link := rfl
@[simp] theorem State.setLane_holdSafe (s : State) (k : LaneId) (l : Lane) : (s.setLane k l).holdSafe = s.holdSafe := rfl

/-! ### State.setPhase -/

@[simp] theorem State.setPhase_pending (s : State) (k : LaneId) (p : Phase) : (s.setPhase k p).pending = s.pending := rfl
@[simp] theorem State.setPhase_freeIndex (s : State) (k : LaneId) (p : Phase) : (s.setPhase k p).freeIndex = s.freeIndex := rfl
@[simp] theorem State.setPhase_mem (s : State) (k : LaneId) (p : Phase) : (s.setPhase k p).mem = s.mem := rfl
@[simp] theorem State.setPhase_ready (s : State) (k : LaneId) (p : Phase) : (s.setPhase k p).ready = s.ready := rfl
@[simp] theorem State.setPhase_configDefault (s : State) (k : LaneId) (p : Phase) : (s.setPhase k p).configDefault = s.configDefault := rfl
@[simp] theorem State.setPhase_crcFlag (s : State) (k : LaneId) (p : Phase) : (s.setPhase k p).crcFlag = s.crcFlag := rfl
@[simp] theorem State.setPhase_portFault (s : State) (k : LaneId) (p : Phase) : (s.setPhase k p).portFault = s.portFault := rfl
@[simp] theorem State.setPhase_crcCount (s : State) (k : LaneId) (p : Phase) : (s.setPhase k p).crcCount = s.crcCount := rfl
@[simp] theorem State.setPhase_result (s : State) (k : LaneId) (p : Phase) : (s.setPhase k p).result = s.result := rfl
@[simp] theorem State.setPhase_frame (s : State) (k : LaneId) (p : Phase) : (s.setPhase k p).frame = s.frame := rfl
@[simp] theorem State.setPhase_tick (s : State) (k : LaneId) (p : Phase) : (s.setPhase k p).tick = s.tick := rfl
@[simp] theorem State.setPhase_config (s : State) (k : LaneId) (p : Phase) : (s.setPhase k p).config = s.config := rfl
@[simp] theorem State.setPhase_queues (s : State) (k : LaneId) (p : Phase) : (s.setPhase k p).queues = s.queues := rfl
@[simp] theorem State.setPhase_parked (s : State) (k : LaneId) (p : Phase) : (s.setPhase k p).parked = s.parked := rfl
@[simp] theorem State.setPhase_finished (s : State) (k : LaneId) (p : Phase) : (s.setPhase k p).finished = s.finished := rfl
@[simp] theorem State.setPhase_lanes (s : State) (k : LaneId) (p : Phase) : (s.setPhase k p).lanes = s.lanes.set k.val { s.lane k with phase := p } k.isLt := rfl
@[simp] theorem State.setPhase_chanOwner (s : State) (k : LaneId) (p : Phase) : (s.setPhase k p).chanOwner = s.chanOwner := rfl
@[simp] theorem State.setPhase_lineOwner (s : State) (k : LaneId) (p : Phase) : (s.setPhase k p).lineOwner = s.lineOwner := rfl
@[simp] theorem State.setPhase_waitList (s : State) (k : LaneId) (p : Phase) : (s.setPhase k p).waitList = s.waitList := rfl
@[simp] theorem State.setPhase_channels (s : State) (k : LaneId) (p : Phase) : (s.setPhase k p).channels = s.channels := rfl
@[simp] theorem State.setPhase_groups (s : State) (k : LaneId) (p : Phase) : (s.setPhase k p).groups = s.groups := rfl
@[simp] theorem State.setPhase_rampMovesDue (s : State) (k : LaneId) (p : Phase) : (s.setPhase k p).rampMovesDue = s.rampMovesDue := rfl
@[simp] theorem State.setPhase_converter (s : State) (k : LaneId) (p : Phase) : (s.setPhase k p).converter = s.converter := rfl
@[simp] theorem State.setPhase_monitor (s : State) (k : LaneId) (p : Phase) : (s.setPhase k p).monitor = s.monitor := rfl
@[simp] theorem State.setPhase_watches (s : State) (k : LaneId) (p : Phase) : (s.setPhase k p).watches = s.watches := rfl
@[simp] theorem State.setPhase_lastVerified (s : State) (k : LaneId) (p : Phase) : (s.setPhase k p).lastVerified = s.lastVerified := rfl
@[simp] theorem State.setPhase_lines (s : State) (k : LaneId) (p : Phase) : (s.setPhase k p).lines = s.lines := rfl
@[simp] theorem State.setPhase_link (s : State) (k : LaneId) (p : Phase) : (s.setPhase k p).link = s.link := rfl
@[simp] theorem State.setPhase_holdSafe (s : State) (k : LaneId) (p : Phase) : (s.setPhase k p).holdSafe = s.holdSafe := rfl

/-! ### State.setQueue -/

@[simp] theorem State.setQueue_pending (s : State) (k : LaneId) (q : List SlotId) : (s.setQueue k q).pending = s.pending := rfl
@[simp] theorem State.setQueue_freeIndex (s : State) (k : LaneId) (q : List SlotId) : (s.setQueue k q).freeIndex = s.freeIndex := rfl
@[simp] theorem State.setQueue_mem (s : State) (k : LaneId) (q : List SlotId) : (s.setQueue k q).mem = s.mem := rfl
@[simp] theorem State.setQueue_ready (s : State) (k : LaneId) (q : List SlotId) : (s.setQueue k q).ready = s.ready := rfl
@[simp] theorem State.setQueue_configDefault (s : State) (k : LaneId) (q : List SlotId) : (s.setQueue k q).configDefault = s.configDefault := rfl
@[simp] theorem State.setQueue_crcFlag (s : State) (k : LaneId) (q : List SlotId) : (s.setQueue k q).crcFlag = s.crcFlag := rfl
@[simp] theorem State.setQueue_portFault (s : State) (k : LaneId) (q : List SlotId) : (s.setQueue k q).portFault = s.portFault := rfl
@[simp] theorem State.setQueue_crcCount (s : State) (k : LaneId) (q : List SlotId) : (s.setQueue k q).crcCount = s.crcCount := rfl
@[simp] theorem State.setQueue_result (s : State) (k : LaneId) (q : List SlotId) : (s.setQueue k q).result = s.result := rfl
@[simp] theorem State.setQueue_frame (s : State) (k : LaneId) (q : List SlotId) : (s.setQueue k q).frame = s.frame := rfl
@[simp] theorem State.setQueue_tick (s : State) (k : LaneId) (q : List SlotId) : (s.setQueue k q).tick = s.tick := rfl
@[simp] theorem State.setQueue_config (s : State) (k : LaneId) (q : List SlotId) : (s.setQueue k q).config = s.config := rfl
@[simp] theorem State.setQueue_queues (s : State) (k : LaneId) (q : List SlotId) : (s.setQueue k q).queues = s.queues.set k.val q k.isLt := rfl
@[simp] theorem State.setQueue_parked (s : State) (k : LaneId) (q : List SlotId) : (s.setQueue k q).parked = s.parked := rfl
@[simp] theorem State.setQueue_finished (s : State) (k : LaneId) (q : List SlotId) : (s.setQueue k q).finished = s.finished := rfl
@[simp] theorem State.setQueue_lanes (s : State) (k : LaneId) (q : List SlotId) : (s.setQueue k q).lanes = s.lanes := rfl
@[simp] theorem State.setQueue_chanOwner (s : State) (k : LaneId) (q : List SlotId) : (s.setQueue k q).chanOwner = s.chanOwner := rfl
@[simp] theorem State.setQueue_lineOwner (s : State) (k : LaneId) (q : List SlotId) : (s.setQueue k q).lineOwner = s.lineOwner := rfl
@[simp] theorem State.setQueue_waitList (s : State) (k : LaneId) (q : List SlotId) : (s.setQueue k q).waitList = s.waitList := rfl
@[simp] theorem State.setQueue_channels (s : State) (k : LaneId) (q : List SlotId) : (s.setQueue k q).channels = s.channels := rfl
@[simp] theorem State.setQueue_groups (s : State) (k : LaneId) (q : List SlotId) : (s.setQueue k q).groups = s.groups := rfl
@[simp] theorem State.setQueue_rampMovesDue (s : State) (k : LaneId) (q : List SlotId) : (s.setQueue k q).rampMovesDue = s.rampMovesDue := rfl
@[simp] theorem State.setQueue_converter (s : State) (k : LaneId) (q : List SlotId) : (s.setQueue k q).converter = s.converter := rfl
@[simp] theorem State.setQueue_monitor (s : State) (k : LaneId) (q : List SlotId) : (s.setQueue k q).monitor = s.monitor := rfl
@[simp] theorem State.setQueue_watches (s : State) (k : LaneId) (q : List SlotId) : (s.setQueue k q).watches = s.watches := rfl
@[simp] theorem State.setQueue_lastVerified (s : State) (k : LaneId) (q : List SlotId) : (s.setQueue k q).lastVerified = s.lastVerified := rfl
@[simp] theorem State.setQueue_lines (s : State) (k : LaneId) (q : List SlotId) : (s.setQueue k q).lines = s.lines := rfl
@[simp] theorem State.setQueue_link (s : State) (k : LaneId) (q : List SlotId) : (s.setQueue k q).link = s.link := rfl
@[simp] theorem State.setQueue_holdSafe (s : State) (k : LaneId) (q : List SlotId) : (s.setQueue k q).holdSafe = s.holdSafe := rfl

/-! ### State.putChan -/

@[simp] theorem State.putChan_pending (s : State) (c : ChanId) (x : Channel) : (s.putChan c x).pending = s.pending := rfl
@[simp] theorem State.putChan_freeIndex (s : State) (c : ChanId) (x : Channel) : (s.putChan c x).freeIndex = s.freeIndex := rfl
@[simp] theorem State.putChan_mem (s : State) (c : ChanId) (x : Channel) : (s.putChan c x).mem = s.mem := rfl
@[simp] theorem State.putChan_ready (s : State) (c : ChanId) (x : Channel) : (s.putChan c x).ready = s.ready := rfl
@[simp] theorem State.putChan_configDefault (s : State) (c : ChanId) (x : Channel) : (s.putChan c x).configDefault = s.configDefault := rfl
@[simp] theorem State.putChan_crcFlag (s : State) (c : ChanId) (x : Channel) : (s.putChan c x).crcFlag = s.crcFlag := rfl
@[simp] theorem State.putChan_portFault (s : State) (c : ChanId) (x : Channel) : (s.putChan c x).portFault = s.portFault := rfl
@[simp] theorem State.putChan_crcCount (s : State) (c : ChanId) (x : Channel) : (s.putChan c x).crcCount = s.crcCount := rfl
@[simp] theorem State.putChan_result (s : State) (c : ChanId) (x : Channel) : (s.putChan c x).result = s.result := rfl
@[simp] theorem State.putChan_frame (s : State) (c : ChanId) (x : Channel) : (s.putChan c x).frame = s.frame := rfl
@[simp] theorem State.putChan_tick (s : State) (c : ChanId) (x : Channel) : (s.putChan c x).tick = s.tick := rfl
@[simp] theorem State.putChan_config (s : State) (c : ChanId) (x : Channel) : (s.putChan c x).config = s.config := rfl
@[simp] theorem State.putChan_queues (s : State) (c : ChanId) (x : Channel) : (s.putChan c x).queues = s.queues := rfl
@[simp] theorem State.putChan_parked (s : State) (c : ChanId) (x : Channel) : (s.putChan c x).parked = s.parked := rfl
@[simp] theorem State.putChan_finished (s : State) (c : ChanId) (x : Channel) : (s.putChan c x).finished = s.finished := rfl
@[simp] theorem State.putChan_lanes (s : State) (c : ChanId) (x : Channel) : (s.putChan c x).lanes = s.lanes := rfl
@[simp] theorem State.putChan_chanOwner (s : State) (c : ChanId) (x : Channel) : (s.putChan c x).chanOwner = s.chanOwner := rfl
@[simp] theorem State.putChan_lineOwner (s : State) (c : ChanId) (x : Channel) : (s.putChan c x).lineOwner = s.lineOwner := rfl
@[simp] theorem State.putChan_waitList (s : State) (c : ChanId) (x : Channel) : (s.putChan c x).waitList = s.waitList := rfl
@[simp] theorem State.putChan_channels (s : State) (c : ChanId) (x : Channel) : (s.putChan c x).channels = s.channels.set c.val x c.isLt := rfl
@[simp] theorem State.putChan_groups (s : State) (c : ChanId) (x : Channel) : (s.putChan c x).groups = s.groups := rfl
@[simp] theorem State.putChan_rampMovesDue (s : State) (c : ChanId) (x : Channel) : (s.putChan c x).rampMovesDue = s.rampMovesDue := rfl
@[simp] theorem State.putChan_converter (s : State) (c : ChanId) (x : Channel) : (s.putChan c x).converter = s.converter := rfl
@[simp] theorem State.putChan_monitor (s : State) (c : ChanId) (x : Channel) : (s.putChan c x).monitor = s.monitor := rfl
@[simp] theorem State.putChan_watches (s : State) (c : ChanId) (x : Channel) : (s.putChan c x).watches = s.watches := rfl
@[simp] theorem State.putChan_lastVerified (s : State) (c : ChanId) (x : Channel) : (s.putChan c x).lastVerified = s.lastVerified := rfl
@[simp] theorem State.putChan_lines (s : State) (c : ChanId) (x : Channel) : (s.putChan c x).lines = s.lines := rfl
@[simp] theorem State.putChan_link (s : State) (c : ChanId) (x : Channel) : (s.putChan c x).link = s.link := rfl
@[simp] theorem State.putChan_holdSafe (s : State) (c : ChanId) (x : Channel) : (s.putChan c x).holdSafe = s.holdSafe := rfl

/-! ### State.putLine -/

@[simp] theorem State.putLine_pending (s : State) (l : LineId) (x : Line) : (s.putLine l x).pending = s.pending := rfl
@[simp] theorem State.putLine_freeIndex (s : State) (l : LineId) (x : Line) : (s.putLine l x).freeIndex = s.freeIndex := rfl
@[simp] theorem State.putLine_mem (s : State) (l : LineId) (x : Line) : (s.putLine l x).mem = s.mem := rfl
@[simp] theorem State.putLine_ready (s : State) (l : LineId) (x : Line) : (s.putLine l x).ready = s.ready := rfl
@[simp] theorem State.putLine_configDefault (s : State) (l : LineId) (x : Line) : (s.putLine l x).configDefault = s.configDefault := rfl
@[simp] theorem State.putLine_crcFlag (s : State) (l : LineId) (x : Line) : (s.putLine l x).crcFlag = s.crcFlag := rfl
@[simp] theorem State.putLine_portFault (s : State) (l : LineId) (x : Line) : (s.putLine l x).portFault = s.portFault := rfl
@[simp] theorem State.putLine_crcCount (s : State) (l : LineId) (x : Line) : (s.putLine l x).crcCount = s.crcCount := rfl
@[simp] theorem State.putLine_result (s : State) (l : LineId) (x : Line) : (s.putLine l x).result = s.result := rfl
@[simp] theorem State.putLine_frame (s : State) (l : LineId) (x : Line) : (s.putLine l x).frame = s.frame := rfl
@[simp] theorem State.putLine_tick (s : State) (l : LineId) (x : Line) : (s.putLine l x).tick = s.tick := rfl
@[simp] theorem State.putLine_config (s : State) (l : LineId) (x : Line) : (s.putLine l x).config = s.config := rfl
@[simp] theorem State.putLine_queues (s : State) (l : LineId) (x : Line) : (s.putLine l x).queues = s.queues := rfl
@[simp] theorem State.putLine_parked (s : State) (l : LineId) (x : Line) : (s.putLine l x).parked = s.parked := rfl
@[simp] theorem State.putLine_finished (s : State) (l : LineId) (x : Line) : (s.putLine l x).finished = s.finished := rfl
@[simp] theorem State.putLine_lanes (s : State) (l : LineId) (x : Line) : (s.putLine l x).lanes = s.lanes := rfl
@[simp] theorem State.putLine_chanOwner (s : State) (l : LineId) (x : Line) : (s.putLine l x).chanOwner = s.chanOwner := rfl
@[simp] theorem State.putLine_lineOwner (s : State) (l : LineId) (x : Line) : (s.putLine l x).lineOwner = s.lineOwner := rfl
@[simp] theorem State.putLine_waitList (s : State) (l : LineId) (x : Line) : (s.putLine l x).waitList = s.waitList := rfl
@[simp] theorem State.putLine_channels (s : State) (l : LineId) (x : Line) : (s.putLine l x).channels = s.channels := rfl
@[simp] theorem State.putLine_groups (s : State) (l : LineId) (x : Line) : (s.putLine l x).groups = s.groups := rfl
@[simp] theorem State.putLine_rampMovesDue (s : State) (l : LineId) (x : Line) : (s.putLine l x).rampMovesDue = s.rampMovesDue := rfl
@[simp] theorem State.putLine_converter (s : State) (l : LineId) (x : Line) : (s.putLine l x).converter = s.converter := rfl
@[simp] theorem State.putLine_monitor (s : State) (l : LineId) (x : Line) : (s.putLine l x).monitor = s.monitor := rfl
@[simp] theorem State.putLine_watches (s : State) (l : LineId) (x : Line) : (s.putLine l x).watches = s.watches := rfl
@[simp] theorem State.putLine_lastVerified (s : State) (l : LineId) (x : Line) : (s.putLine l x).lastVerified = s.lastVerified := rfl
@[simp] theorem State.putLine_lines (s : State) (l : LineId) (x : Line) : (s.putLine l x).lines = s.lines.set l.val x l.isLt := rfl
@[simp] theorem State.putLine_link (s : State) (l : LineId) (x : Line) : (s.putLine l x).link = s.link := rfl
@[simp] theorem State.putLine_holdSafe (s : State) (l : LineId) (x : Line) : (s.putLine l x).holdSafe = s.holdSafe := rfl

/-! ### State.putGroup -/

@[simp] theorem State.putGroup_pending (s : State) (g : GroupId) (x : Group) : (s.putGroup g x).pending = s.pending := rfl
@[simp] theorem State.putGroup_freeIndex (s : State) (g : GroupId) (x : Group) : (s.putGroup g x).freeIndex = s.freeIndex := rfl
@[simp] theorem State.putGroup_mem (s : State) (g : GroupId) (x : Group) : (s.putGroup g x).mem = s.mem := rfl
@[simp] theorem State.putGroup_ready (s : State) (g : GroupId) (x : Group) : (s.putGroup g x).ready = s.ready := rfl
@[simp] theorem State.putGroup_configDefault (s : State) (g : GroupId) (x : Group) : (s.putGroup g x).configDefault = s.configDefault := rfl
@[simp] theorem State.putGroup_crcFlag (s : State) (g : GroupId) (x : Group) : (s.putGroup g x).crcFlag = s.crcFlag := rfl
@[simp] theorem State.putGroup_portFault (s : State) (g : GroupId) (x : Group) : (s.putGroup g x).portFault = s.portFault := rfl
@[simp] theorem State.putGroup_crcCount (s : State) (g : GroupId) (x : Group) : (s.putGroup g x).crcCount = s.crcCount := rfl
@[simp] theorem State.putGroup_result (s : State) (g : GroupId) (x : Group) : (s.putGroup g x).result = s.result := rfl
@[simp] theorem State.putGroup_frame (s : State) (g : GroupId) (x : Group) : (s.putGroup g x).frame = s.frame := rfl
@[simp] theorem State.putGroup_tick (s : State) (g : GroupId) (x : Group) : (s.putGroup g x).tick = s.tick := rfl
@[simp] theorem State.putGroup_config (s : State) (g : GroupId) (x : Group) : (s.putGroup g x).config = s.config := rfl
@[simp] theorem State.putGroup_queues (s : State) (g : GroupId) (x : Group) : (s.putGroup g x).queues = s.queues := rfl
@[simp] theorem State.putGroup_parked (s : State) (g : GroupId) (x : Group) : (s.putGroup g x).parked = s.parked := rfl
@[simp] theorem State.putGroup_finished (s : State) (g : GroupId) (x : Group) : (s.putGroup g x).finished = s.finished := rfl
@[simp] theorem State.putGroup_lanes (s : State) (g : GroupId) (x : Group) : (s.putGroup g x).lanes = s.lanes := rfl
@[simp] theorem State.putGroup_chanOwner (s : State) (g : GroupId) (x : Group) : (s.putGroup g x).chanOwner = s.chanOwner := rfl
@[simp] theorem State.putGroup_lineOwner (s : State) (g : GroupId) (x : Group) : (s.putGroup g x).lineOwner = s.lineOwner := rfl
@[simp] theorem State.putGroup_waitList (s : State) (g : GroupId) (x : Group) : (s.putGroup g x).waitList = s.waitList := rfl
@[simp] theorem State.putGroup_channels (s : State) (g : GroupId) (x : Group) : (s.putGroup g x).channels = s.channels := rfl
@[simp] theorem State.putGroup_groups (s : State) (g : GroupId) (x : Group) : (s.putGroup g x).groups = s.groups.set g.val x g.isLt := rfl
@[simp] theorem State.putGroup_rampMovesDue (s : State) (g : GroupId) (x : Group) : (s.putGroup g x).rampMovesDue = s.rampMovesDue := rfl
@[simp] theorem State.putGroup_converter (s : State) (g : GroupId) (x : Group) : (s.putGroup g x).converter = s.converter := rfl
@[simp] theorem State.putGroup_monitor (s : State) (g : GroupId) (x : Group) : (s.putGroup g x).monitor = s.monitor := rfl
@[simp] theorem State.putGroup_watches (s : State) (g : GroupId) (x : Group) : (s.putGroup g x).watches = s.watches := rfl
@[simp] theorem State.putGroup_lastVerified (s : State) (g : GroupId) (x : Group) : (s.putGroup g x).lastVerified = s.lastVerified := rfl
@[simp] theorem State.putGroup_lines (s : State) (g : GroupId) (x : Group) : (s.putGroup g x).lines = s.lines := rfl
@[simp] theorem State.putGroup_link (s : State) (g : GroupId) (x : Group) : (s.putGroup g x).link = s.link := rfl
@[simp] theorem State.putGroup_holdSafe (s : State) (g : GroupId) (x : Group) : (s.putGroup g x).holdSafe = s.holdSafe := rfl

/-! ### State.putOwner -/

@[simp] theorem State.putOwner_pending (s : State) (c : ChanId) (o : Option LaneId) : (s.putOwner c o).pending = s.pending := rfl
@[simp] theorem State.putOwner_freeIndex (s : State) (c : ChanId) (o : Option LaneId) : (s.putOwner c o).freeIndex = s.freeIndex := rfl
@[simp] theorem State.putOwner_mem (s : State) (c : ChanId) (o : Option LaneId) : (s.putOwner c o).mem = s.mem := rfl
@[simp] theorem State.putOwner_ready (s : State) (c : ChanId) (o : Option LaneId) : (s.putOwner c o).ready = s.ready := rfl
@[simp] theorem State.putOwner_configDefault (s : State) (c : ChanId) (o : Option LaneId) : (s.putOwner c o).configDefault = s.configDefault := rfl
@[simp] theorem State.putOwner_crcFlag (s : State) (c : ChanId) (o : Option LaneId) : (s.putOwner c o).crcFlag = s.crcFlag := rfl
@[simp] theorem State.putOwner_portFault (s : State) (c : ChanId) (o : Option LaneId) : (s.putOwner c o).portFault = s.portFault := rfl
@[simp] theorem State.putOwner_crcCount (s : State) (c : ChanId) (o : Option LaneId) : (s.putOwner c o).crcCount = s.crcCount := rfl
@[simp] theorem State.putOwner_result (s : State) (c : ChanId) (o : Option LaneId) : (s.putOwner c o).result = s.result := rfl
@[simp] theorem State.putOwner_frame (s : State) (c : ChanId) (o : Option LaneId) : (s.putOwner c o).frame = s.frame := rfl
@[simp] theorem State.putOwner_tick (s : State) (c : ChanId) (o : Option LaneId) : (s.putOwner c o).tick = s.tick := rfl
@[simp] theorem State.putOwner_config (s : State) (c : ChanId) (o : Option LaneId) : (s.putOwner c o).config = s.config := rfl
@[simp] theorem State.putOwner_queues (s : State) (c : ChanId) (o : Option LaneId) : (s.putOwner c o).queues = s.queues := rfl
@[simp] theorem State.putOwner_parked (s : State) (c : ChanId) (o : Option LaneId) : (s.putOwner c o).parked = s.parked := rfl
@[simp] theorem State.putOwner_finished (s : State) (c : ChanId) (o : Option LaneId) : (s.putOwner c o).finished = s.finished := rfl
@[simp] theorem State.putOwner_lanes (s : State) (c : ChanId) (o : Option LaneId) : (s.putOwner c o).lanes = s.lanes := rfl
@[simp] theorem State.putOwner_chanOwner (s : State) (c : ChanId) (o : Option LaneId) : (s.putOwner c o).chanOwner = s.chanOwner.set c.val o c.isLt := rfl
@[simp] theorem State.putOwner_lineOwner (s : State) (c : ChanId) (o : Option LaneId) : (s.putOwner c o).lineOwner = s.lineOwner := rfl
@[simp] theorem State.putOwner_waitList (s : State) (c : ChanId) (o : Option LaneId) : (s.putOwner c o).waitList = s.waitList := rfl
@[simp] theorem State.putOwner_channels (s : State) (c : ChanId) (o : Option LaneId) : (s.putOwner c o).channels = s.channels := rfl
@[simp] theorem State.putOwner_groups (s : State) (c : ChanId) (o : Option LaneId) : (s.putOwner c o).groups = s.groups := rfl
@[simp] theorem State.putOwner_rampMovesDue (s : State) (c : ChanId) (o : Option LaneId) : (s.putOwner c o).rampMovesDue = s.rampMovesDue := rfl
@[simp] theorem State.putOwner_converter (s : State) (c : ChanId) (o : Option LaneId) : (s.putOwner c o).converter = s.converter := rfl
@[simp] theorem State.putOwner_monitor (s : State) (c : ChanId) (o : Option LaneId) : (s.putOwner c o).monitor = s.monitor := rfl
@[simp] theorem State.putOwner_watches (s : State) (c : ChanId) (o : Option LaneId) : (s.putOwner c o).watches = s.watches := rfl
@[simp] theorem State.putOwner_lastVerified (s : State) (c : ChanId) (o : Option LaneId) : (s.putOwner c o).lastVerified = s.lastVerified := rfl
@[simp] theorem State.putOwner_lines (s : State) (c : ChanId) (o : Option LaneId) : (s.putOwner c o).lines = s.lines := rfl
@[simp] theorem State.putOwner_link (s : State) (c : ChanId) (o : Option LaneId) : (s.putOwner c o).link = s.link := rfl
@[simp] theorem State.putOwner_holdSafe (s : State) (c : ChanId) (o : Option LaneId) : (s.putOwner c o).holdSafe = s.holdSafe := rfl

/-! ### State.putLineOwner -/

@[simp] theorem State.putLineOwner_pending (s : State) (l : LineId) (o : Option LaneId) : (s.putLineOwner l o).pending = s.pending := rfl
@[simp] theorem State.putLineOwner_freeIndex (s : State) (l : LineId) (o : Option LaneId) : (s.putLineOwner l o).freeIndex = s.freeIndex := rfl
@[simp] theorem State.putLineOwner_mem (s : State) (l : LineId) (o : Option LaneId) : (s.putLineOwner l o).mem = s.mem := rfl
@[simp] theorem State.putLineOwner_ready (s : State) (l : LineId) (o : Option LaneId) : (s.putLineOwner l o).ready = s.ready := rfl
@[simp] theorem State.putLineOwner_configDefault (s : State) (l : LineId) (o : Option LaneId) : (s.putLineOwner l o).configDefault = s.configDefault := rfl
@[simp] theorem State.putLineOwner_crcFlag (s : State) (l : LineId) (o : Option LaneId) : (s.putLineOwner l o).crcFlag = s.crcFlag := rfl
@[simp] theorem State.putLineOwner_portFault (s : State) (l : LineId) (o : Option LaneId) : (s.putLineOwner l o).portFault = s.portFault := rfl
@[simp] theorem State.putLineOwner_crcCount (s : State) (l : LineId) (o : Option LaneId) : (s.putLineOwner l o).crcCount = s.crcCount := rfl
@[simp] theorem State.putLineOwner_result (s : State) (l : LineId) (o : Option LaneId) : (s.putLineOwner l o).result = s.result := rfl
@[simp] theorem State.putLineOwner_frame (s : State) (l : LineId) (o : Option LaneId) : (s.putLineOwner l o).frame = s.frame := rfl
@[simp] theorem State.putLineOwner_tick (s : State) (l : LineId) (o : Option LaneId) : (s.putLineOwner l o).tick = s.tick := rfl
@[simp] theorem State.putLineOwner_config (s : State) (l : LineId) (o : Option LaneId) : (s.putLineOwner l o).config = s.config := rfl
@[simp] theorem State.putLineOwner_queues (s : State) (l : LineId) (o : Option LaneId) : (s.putLineOwner l o).queues = s.queues := rfl
@[simp] theorem State.putLineOwner_parked (s : State) (l : LineId) (o : Option LaneId) : (s.putLineOwner l o).parked = s.parked := rfl
@[simp] theorem State.putLineOwner_finished (s : State) (l : LineId) (o : Option LaneId) : (s.putLineOwner l o).finished = s.finished := rfl
@[simp] theorem State.putLineOwner_lanes (s : State) (l : LineId) (o : Option LaneId) : (s.putLineOwner l o).lanes = s.lanes := rfl
@[simp] theorem State.putLineOwner_chanOwner (s : State) (l : LineId) (o : Option LaneId) : (s.putLineOwner l o).chanOwner = s.chanOwner := rfl
@[simp] theorem State.putLineOwner_lineOwner (s : State) (l : LineId) (o : Option LaneId) : (s.putLineOwner l o).lineOwner = s.lineOwner.set l.val o l.isLt := rfl
@[simp] theorem State.putLineOwner_waitList (s : State) (l : LineId) (o : Option LaneId) : (s.putLineOwner l o).waitList = s.waitList := rfl
@[simp] theorem State.putLineOwner_channels (s : State) (l : LineId) (o : Option LaneId) : (s.putLineOwner l o).channels = s.channels := rfl
@[simp] theorem State.putLineOwner_groups (s : State) (l : LineId) (o : Option LaneId) : (s.putLineOwner l o).groups = s.groups := rfl
@[simp] theorem State.putLineOwner_rampMovesDue (s : State) (l : LineId) (o : Option LaneId) : (s.putLineOwner l o).rampMovesDue = s.rampMovesDue := rfl
@[simp] theorem State.putLineOwner_converter (s : State) (l : LineId) (o : Option LaneId) : (s.putLineOwner l o).converter = s.converter := rfl
@[simp] theorem State.putLineOwner_monitor (s : State) (l : LineId) (o : Option LaneId) : (s.putLineOwner l o).monitor = s.monitor := rfl
@[simp] theorem State.putLineOwner_watches (s : State) (l : LineId) (o : Option LaneId) : (s.putLineOwner l o).watches = s.watches := rfl
@[simp] theorem State.putLineOwner_lastVerified (s : State) (l : LineId) (o : Option LaneId) : (s.putLineOwner l o).lastVerified = s.lastVerified := rfl
@[simp] theorem State.putLineOwner_lines (s : State) (l : LineId) (o : Option LaneId) : (s.putLineOwner l o).lines = s.lines := rfl
@[simp] theorem State.putLineOwner_link (s : State) (l : LineId) (o : Option LaneId) : (s.putLineOwner l o).link = s.link := rfl
@[simp] theorem State.putLineOwner_holdSafe (s : State) (l : LineId) (o : Option LaneId) : (s.putLineOwner l o).holdSafe = s.holdSafe := rfl

/-! ### State.putWatch -/

@[simp] theorem State.putWatch_pending (s : State) (k : LaneId) (w : Watch) : (s.putWatch k w).pending = s.pending := rfl
@[simp] theorem State.putWatch_freeIndex (s : State) (k : LaneId) (w : Watch) : (s.putWatch k w).freeIndex = s.freeIndex := rfl
@[simp] theorem State.putWatch_mem (s : State) (k : LaneId) (w : Watch) : (s.putWatch k w).mem = s.mem := rfl
@[simp] theorem State.putWatch_ready (s : State) (k : LaneId) (w : Watch) : (s.putWatch k w).ready = s.ready := rfl
@[simp] theorem State.putWatch_configDefault (s : State) (k : LaneId) (w : Watch) : (s.putWatch k w).configDefault = s.configDefault := rfl
@[simp] theorem State.putWatch_crcFlag (s : State) (k : LaneId) (w : Watch) : (s.putWatch k w).crcFlag = s.crcFlag := rfl
@[simp] theorem State.putWatch_portFault (s : State) (k : LaneId) (w : Watch) : (s.putWatch k w).portFault = s.portFault := rfl
@[simp] theorem State.putWatch_crcCount (s : State) (k : LaneId) (w : Watch) : (s.putWatch k w).crcCount = s.crcCount := rfl
@[simp] theorem State.putWatch_result (s : State) (k : LaneId) (w : Watch) : (s.putWatch k w).result = s.result := rfl
@[simp] theorem State.putWatch_frame (s : State) (k : LaneId) (w : Watch) : (s.putWatch k w).frame = s.frame := rfl
@[simp] theorem State.putWatch_tick (s : State) (k : LaneId) (w : Watch) : (s.putWatch k w).tick = s.tick := rfl
@[simp] theorem State.putWatch_config (s : State) (k : LaneId) (w : Watch) : (s.putWatch k w).config = s.config := rfl
@[simp] theorem State.putWatch_queues (s : State) (k : LaneId) (w : Watch) : (s.putWatch k w).queues = s.queues := rfl
@[simp] theorem State.putWatch_parked (s : State) (k : LaneId) (w : Watch) : (s.putWatch k w).parked = s.parked := rfl
@[simp] theorem State.putWatch_finished (s : State) (k : LaneId) (w : Watch) : (s.putWatch k w).finished = s.finished := rfl
@[simp] theorem State.putWatch_lanes (s : State) (k : LaneId) (w : Watch) : (s.putWatch k w).lanes = s.lanes := rfl
@[simp] theorem State.putWatch_chanOwner (s : State) (k : LaneId) (w : Watch) : (s.putWatch k w).chanOwner = s.chanOwner := rfl
@[simp] theorem State.putWatch_lineOwner (s : State) (k : LaneId) (w : Watch) : (s.putWatch k w).lineOwner = s.lineOwner := rfl
@[simp] theorem State.putWatch_waitList (s : State) (k : LaneId) (w : Watch) : (s.putWatch k w).waitList = s.waitList := rfl
@[simp] theorem State.putWatch_channels (s : State) (k : LaneId) (w : Watch) : (s.putWatch k w).channels = s.channels := rfl
@[simp] theorem State.putWatch_groups (s : State) (k : LaneId) (w : Watch) : (s.putWatch k w).groups = s.groups := rfl
@[simp] theorem State.putWatch_rampMovesDue (s : State) (k : LaneId) (w : Watch) : (s.putWatch k w).rampMovesDue = s.rampMovesDue := rfl
@[simp] theorem State.putWatch_converter (s : State) (k : LaneId) (w : Watch) : (s.putWatch k w).converter = s.converter := rfl
@[simp] theorem State.putWatch_monitor (s : State) (k : LaneId) (w : Watch) : (s.putWatch k w).monitor = s.monitor := rfl
@[simp] theorem State.putWatch_watches (s : State) (k : LaneId) (w : Watch) : (s.putWatch k w).watches = s.watches.set k.val w k.isLt := rfl
@[simp] theorem State.putWatch_lastVerified (s : State) (k : LaneId) (w : Watch) : (s.putWatch k w).lastVerified = s.lastVerified := rfl
@[simp] theorem State.putWatch_lines (s : State) (k : LaneId) (w : Watch) : (s.putWatch k w).lines = s.lines := rfl
@[simp] theorem State.putWatch_link (s : State) (k : LaneId) (w : Watch) : (s.putWatch k w).link = s.link := rfl
@[simp] theorem State.putWatch_holdSafe (s : State) (k : LaneId) (w : Watch) : (s.putWatch k w).holdSafe = s.holdSafe := rfl

/-! ### State.putVerified -/

@[simp] theorem State.putVerified_pending (s : State) (c : ChanId) (d : Option Duty) : (s.putVerified c d).pending = s.pending := rfl
@[simp] theorem State.putVerified_freeIndex (s : State) (c : ChanId) (d : Option Duty) : (s.putVerified c d).freeIndex = s.freeIndex := rfl
@[simp] theorem State.putVerified_mem (s : State) (c : ChanId) (d : Option Duty) : (s.putVerified c d).mem = s.mem := rfl
@[simp] theorem State.putVerified_ready (s : State) (c : ChanId) (d : Option Duty) : (s.putVerified c d).ready = s.ready := rfl
@[simp] theorem State.putVerified_configDefault (s : State) (c : ChanId) (d : Option Duty) : (s.putVerified c d).configDefault = s.configDefault := rfl
@[simp] theorem State.putVerified_crcFlag (s : State) (c : ChanId) (d : Option Duty) : (s.putVerified c d).crcFlag = s.crcFlag := rfl
@[simp] theorem State.putVerified_portFault (s : State) (c : ChanId) (d : Option Duty) : (s.putVerified c d).portFault = s.portFault := rfl
@[simp] theorem State.putVerified_crcCount (s : State) (c : ChanId) (d : Option Duty) : (s.putVerified c d).crcCount = s.crcCount := rfl
@[simp] theorem State.putVerified_result (s : State) (c : ChanId) (d : Option Duty) : (s.putVerified c d).result = s.result := rfl
@[simp] theorem State.putVerified_frame (s : State) (c : ChanId) (d : Option Duty) : (s.putVerified c d).frame = s.frame := rfl
@[simp] theorem State.putVerified_tick (s : State) (c : ChanId) (d : Option Duty) : (s.putVerified c d).tick = s.tick := rfl
@[simp] theorem State.putVerified_config (s : State) (c : ChanId) (d : Option Duty) : (s.putVerified c d).config = s.config := rfl
@[simp] theorem State.putVerified_queues (s : State) (c : ChanId) (d : Option Duty) : (s.putVerified c d).queues = s.queues := rfl
@[simp] theorem State.putVerified_parked (s : State) (c : ChanId) (d : Option Duty) : (s.putVerified c d).parked = s.parked := rfl
@[simp] theorem State.putVerified_finished (s : State) (c : ChanId) (d : Option Duty) : (s.putVerified c d).finished = s.finished := rfl
@[simp] theorem State.putVerified_lanes (s : State) (c : ChanId) (d : Option Duty) : (s.putVerified c d).lanes = s.lanes := rfl
@[simp] theorem State.putVerified_chanOwner (s : State) (c : ChanId) (d : Option Duty) : (s.putVerified c d).chanOwner = s.chanOwner := rfl
@[simp] theorem State.putVerified_lineOwner (s : State) (c : ChanId) (d : Option Duty) : (s.putVerified c d).lineOwner = s.lineOwner := rfl
@[simp] theorem State.putVerified_waitList (s : State) (c : ChanId) (d : Option Duty) : (s.putVerified c d).waitList = s.waitList := rfl
@[simp] theorem State.putVerified_channels (s : State) (c : ChanId) (d : Option Duty) : (s.putVerified c d).channels = s.channels := rfl
@[simp] theorem State.putVerified_groups (s : State) (c : ChanId) (d : Option Duty) : (s.putVerified c d).groups = s.groups := rfl
@[simp] theorem State.putVerified_rampMovesDue (s : State) (c : ChanId) (d : Option Duty) : (s.putVerified c d).rampMovesDue = s.rampMovesDue := rfl
@[simp] theorem State.putVerified_converter (s : State) (c : ChanId) (d : Option Duty) : (s.putVerified c d).converter = s.converter := rfl
@[simp] theorem State.putVerified_monitor (s : State) (c : ChanId) (d : Option Duty) : (s.putVerified c d).monitor = s.monitor := rfl
@[simp] theorem State.putVerified_watches (s : State) (c : ChanId) (d : Option Duty) : (s.putVerified c d).watches = s.watches := rfl
@[simp] theorem State.putVerified_lastVerified (s : State) (c : ChanId) (d : Option Duty) : (s.putVerified c d).lastVerified = s.lastVerified.set c.val d c.isLt := rfl
@[simp] theorem State.putVerified_lines (s : State) (c : ChanId) (d : Option Duty) : (s.putVerified c d).lines = s.lines := rfl
@[simp] theorem State.putVerified_link (s : State) (c : ChanId) (d : Option Duty) : (s.putVerified c d).link = s.link := rfl
@[simp] theorem State.putVerified_holdSafe (s : State) (c : ChanId) (d : Option Duty) : (s.putVerified c d).holdSafe = s.holdSafe := rfl

/-! ### State.answer -/

@[simp] theorem State.answer_pending (s : State) (e : Byte) (code : ResultCode) (d : Byte) : (s.answer e code d).pending = s.pending := rfl
@[simp] theorem State.answer_freeIndex (s : State) (e : Byte) (code : ResultCode) (d : Byte) : (s.answer e code d).freeIndex = s.freeIndex := rfl
@[simp] theorem State.answer_mem (s : State) (e : Byte) (code : ResultCode) (d : Byte) : (s.answer e code d).mem = s.mem := rfl
@[simp] theorem State.answer_ready (s : State) (e : Byte) (code : ResultCode) (d : Byte) : (s.answer e code d).ready = s.ready := rfl
@[simp] theorem State.answer_configDefault (s : State) (e : Byte) (code : ResultCode) (d : Byte) : (s.answer e code d).configDefault = s.configDefault := rfl
@[simp] theorem State.answer_crcFlag (s : State) (e : Byte) (code : ResultCode) (d : Byte) : (s.answer e code d).crcFlag = s.crcFlag := rfl
@[simp] theorem State.answer_portFault (s : State) (e : Byte) (code : ResultCode) (d : Byte) : (s.answer e code d).portFault = s.portFault := rfl
@[simp] theorem State.answer_crcCount (s : State) (e : Byte) (code : ResultCode) (d : Byte) : (s.answer e code d).crcCount = s.crcCount := rfl
@[simp] theorem State.answer_result (s : State) (e : Byte) (code : ResultCode) (d : Byte) : (s.answer e code d).result = { code := code, echo := e, detail := d } := rfl
@[simp] theorem State.answer_frame (s : State) (e : Byte) (code : ResultCode) (d : Byte) : (s.answer e code d).frame = s.frame := rfl
@[simp] theorem State.answer_tick (s : State) (e : Byte) (code : ResultCode) (d : Byte) : (s.answer e code d).tick = s.tick := rfl
@[simp] theorem State.answer_config (s : State) (e : Byte) (code : ResultCode) (d : Byte) : (s.answer e code d).config = s.config := rfl
@[simp] theorem State.answer_queues (s : State) (e : Byte) (code : ResultCode) (d : Byte) : (s.answer e code d).queues = s.queues := rfl
@[simp] theorem State.answer_parked (s : State) (e : Byte) (code : ResultCode) (d : Byte) : (s.answer e code d).parked = s.parked := rfl
@[simp] theorem State.answer_finished (s : State) (e : Byte) (code : ResultCode) (d : Byte) : (s.answer e code d).finished = s.finished := rfl
@[simp] theorem State.answer_lanes (s : State) (e : Byte) (code : ResultCode) (d : Byte) : (s.answer e code d).lanes = s.lanes := rfl
@[simp] theorem State.answer_chanOwner (s : State) (e : Byte) (code : ResultCode) (d : Byte) : (s.answer e code d).chanOwner = s.chanOwner := rfl
@[simp] theorem State.answer_lineOwner (s : State) (e : Byte) (code : ResultCode) (d : Byte) : (s.answer e code d).lineOwner = s.lineOwner := rfl
@[simp] theorem State.answer_waitList (s : State) (e : Byte) (code : ResultCode) (d : Byte) : (s.answer e code d).waitList = s.waitList := rfl
@[simp] theorem State.answer_channels (s : State) (e : Byte) (code : ResultCode) (d : Byte) : (s.answer e code d).channels = s.channels := rfl
@[simp] theorem State.answer_groups (s : State) (e : Byte) (code : ResultCode) (d : Byte) : (s.answer e code d).groups = s.groups := rfl
@[simp] theorem State.answer_rampMovesDue (s : State) (e : Byte) (code : ResultCode) (d : Byte) : (s.answer e code d).rampMovesDue = s.rampMovesDue := rfl
@[simp] theorem State.answer_converter (s : State) (e : Byte) (code : ResultCode) (d : Byte) : (s.answer e code d).converter = s.converter := rfl
@[simp] theorem State.answer_monitor (s : State) (e : Byte) (code : ResultCode) (d : Byte) : (s.answer e code d).monitor = s.monitor := rfl
@[simp] theorem State.answer_watches (s : State) (e : Byte) (code : ResultCode) (d : Byte) : (s.answer e code d).watches = s.watches := rfl
@[simp] theorem State.answer_lastVerified (s : State) (e : Byte) (code : ResultCode) (d : Byte) : (s.answer e code d).lastVerified = s.lastVerified := rfl
@[simp] theorem State.answer_lines (s : State) (e : Byte) (code : ResultCode) (d : Byte) : (s.answer e code d).lines = s.lines := rfl
@[simp] theorem State.answer_link (s : State) (e : Byte) (code : ResultCode) (d : Byte) : (s.answer e code d).link = s.link := rfl
@[simp] theorem State.answer_holdSafe (s : State) (e : Byte) (code : ResultCode) (d : Byte) : (s.answer e code d).holdSafe = s.holdSafe := rfl

/-! ### State.setLink -/

@[simp] theorem State.setLink_pending (s : State) (x : Link) : (s.setLink x).pending = s.pending := rfl
@[simp] theorem State.setLink_freeIndex (s : State) (x : Link) : (s.setLink x).freeIndex = s.freeIndex := rfl
@[simp] theorem State.setLink_mem (s : State) (x : Link) : (s.setLink x).mem = s.mem := rfl
@[simp] theorem State.setLink_ready (s : State) (x : Link) : (s.setLink x).ready = s.ready := rfl
@[simp] theorem State.setLink_configDefault (s : State) (x : Link) : (s.setLink x).configDefault = s.configDefault := rfl
@[simp] theorem State.setLink_crcFlag (s : State) (x : Link) : (s.setLink x).crcFlag = s.crcFlag := rfl
@[simp] theorem State.setLink_portFault (s : State) (x : Link) : (s.setLink x).portFault = s.portFault := rfl
@[simp] theorem State.setLink_crcCount (s : State) (x : Link) : (s.setLink x).crcCount = s.crcCount := rfl
@[simp] theorem State.setLink_result (s : State) (x : Link) : (s.setLink x).result = s.result := rfl
@[simp] theorem State.setLink_frame (s : State) (x : Link) : (s.setLink x).frame = s.frame := rfl
@[simp] theorem State.setLink_tick (s : State) (x : Link) : (s.setLink x).tick = s.tick := rfl
@[simp] theorem State.setLink_config (s : State) (x : Link) : (s.setLink x).config = s.config := rfl
@[simp] theorem State.setLink_queues (s : State) (x : Link) : (s.setLink x).queues = s.queues := rfl
@[simp] theorem State.setLink_parked (s : State) (x : Link) : (s.setLink x).parked = s.parked := rfl
@[simp] theorem State.setLink_finished (s : State) (x : Link) : (s.setLink x).finished = s.finished := rfl
@[simp] theorem State.setLink_lanes (s : State) (x : Link) : (s.setLink x).lanes = s.lanes := rfl
@[simp] theorem State.setLink_chanOwner (s : State) (x : Link) : (s.setLink x).chanOwner = s.chanOwner := rfl
@[simp] theorem State.setLink_lineOwner (s : State) (x : Link) : (s.setLink x).lineOwner = s.lineOwner := rfl
@[simp] theorem State.setLink_waitList (s : State) (x : Link) : (s.setLink x).waitList = s.waitList := rfl
@[simp] theorem State.setLink_channels (s : State) (x : Link) : (s.setLink x).channels = s.channels := rfl
@[simp] theorem State.setLink_groups (s : State) (x : Link) : (s.setLink x).groups = s.groups := rfl
@[simp] theorem State.setLink_rampMovesDue (s : State) (x : Link) : (s.setLink x).rampMovesDue = s.rampMovesDue := rfl
@[simp] theorem State.setLink_converter (s : State) (x : Link) : (s.setLink x).converter = s.converter := rfl
@[simp] theorem State.setLink_monitor (s : State) (x : Link) : (s.setLink x).monitor = s.monitor := rfl
@[simp] theorem State.setLink_watches (s : State) (x : Link) : (s.setLink x).watches = s.watches := rfl
@[simp] theorem State.setLink_lastVerified (s : State) (x : Link) : (s.setLink x).lastVerified = s.lastVerified := rfl
@[simp] theorem State.setLink_lines (s : State) (x : Link) : (s.setLink x).lines = s.lines := rfl
@[simp] theorem State.setLink_link (s : State) (x : Link) : (s.setLink x).link = x := rfl
@[simp] theorem State.setLink_holdSafe (s : State) (x : Link) : (s.setLink x).holdSafe = s.holdSafe := rfl

/-! ### State.judged -/

@[simp] theorem State.judged_pending (s : State) (bits : Nat) (reply : List Byte) : (s.judged bits reply).pending = s.pending := rfl
@[simp] theorem State.judged_freeIndex (s : State) (bits : Nat) (reply : List Byte) : (s.judged bits reply).freeIndex = s.freeIndex := rfl
@[simp] theorem State.judged_mem (s : State) (bits : Nat) (reply : List Byte) : (s.judged bits reply).mem = s.mem := rfl
@[simp] theorem State.judged_ready (s : State) (bits : Nat) (reply : List Byte) : (s.judged bits reply).ready = s.ready := rfl
@[simp] theorem State.judged_configDefault (s : State) (bits : Nat) (reply : List Byte) : (s.judged bits reply).configDefault = s.configDefault := rfl
@[simp] theorem State.judged_crcFlag (s : State) (bits : Nat) (reply : List Byte) : (s.judged bits reply).crcFlag = s.crcFlag := rfl
@[simp] theorem State.judged_portFault (s : State) (bits : Nat) (reply : List Byte) : (s.judged bits reply).portFault = s.portFault := rfl
@[simp] theorem State.judged_crcCount (s : State) (bits : Nat) (reply : List Byte) : (s.judged bits reply).crcCount = s.crcCount := rfl
@[simp] theorem State.judged_result (s : State) (bits : Nat) (reply : List Byte) : (s.judged bits reply).result = s.result := rfl
@[simp] theorem State.judged_frame (s : State) (bits : Nat) (reply : List Byte) : (s.judged bits reply).frame = ⟨bits, reply⟩ := rfl
@[simp] theorem State.judged_tick (s : State) (bits : Nat) (reply : List Byte) : (s.judged bits reply).tick = s.tick := rfl
@[simp] theorem State.judged_config (s : State) (bits : Nat) (reply : List Byte) : (s.judged bits reply).config = s.config := rfl
@[simp] theorem State.judged_queues (s : State) (bits : Nat) (reply : List Byte) : (s.judged bits reply).queues = s.queues := rfl
@[simp] theorem State.judged_parked (s : State) (bits : Nat) (reply : List Byte) : (s.judged bits reply).parked = s.parked := rfl
@[simp] theorem State.judged_finished (s : State) (bits : Nat) (reply : List Byte) : (s.judged bits reply).finished = s.finished := rfl
@[simp] theorem State.judged_lanes (s : State) (bits : Nat) (reply : List Byte) : (s.judged bits reply).lanes = s.lanes := rfl
@[simp] theorem State.judged_chanOwner (s : State) (bits : Nat) (reply : List Byte) : (s.judged bits reply).chanOwner = s.chanOwner := rfl
@[simp] theorem State.judged_lineOwner (s : State) (bits : Nat) (reply : List Byte) : (s.judged bits reply).lineOwner = s.lineOwner := rfl
@[simp] theorem State.judged_waitList (s : State) (bits : Nat) (reply : List Byte) : (s.judged bits reply).waitList = s.waitList := rfl
@[simp] theorem State.judged_channels (s : State) (bits : Nat) (reply : List Byte) : (s.judged bits reply).channels = s.channels := rfl
@[simp] theorem State.judged_groups (s : State) (bits : Nat) (reply : List Byte) : (s.judged bits reply).groups = s.groups := rfl
@[simp] theorem State.judged_rampMovesDue (s : State) (bits : Nat) (reply : List Byte) : (s.judged bits reply).rampMovesDue = s.rampMovesDue := rfl
@[simp] theorem State.judged_converter (s : State) (bits : Nat) (reply : List Byte) : (s.judged bits reply).converter = s.converter := rfl
@[simp] theorem State.judged_monitor (s : State) (bits : Nat) (reply : List Byte) : (s.judged bits reply).monitor = s.monitor := rfl
@[simp] theorem State.judged_watches (s : State) (bits : Nat) (reply : List Byte) : (s.judged bits reply).watches = s.watches := rfl
@[simp] theorem State.judged_lastVerified (s : State) (bits : Nat) (reply : List Byte) : (s.judged bits reply).lastVerified = s.lastVerified := rfl
@[simp] theorem State.judged_lines (s : State) (bits : Nat) (reply : List Byte) : (s.judged bits reply).lines = s.lines := rfl
@[simp] theorem State.judged_link (s : State) (bits : Nat) (reply : List Byte) : (s.judged bits reply).link = s.link := rfl
@[simp] theorem State.judged_holdSafe (s : State) (bits : Nat) (reply : List Byte) : (s.judged bits reply).holdSafe = s.holdSafe := rfl

/-! ### One entry of a table -/

/-- The entry written, and every other entry as before. -/
theorem State.setLane_get (s : State) (k j : LaneId) (l : Lane) :
    (s.setLane k l).lane j = if k = j then l else s.lane j := by
  simp only [State.setLane, State.lane, Fin.getElem_fin, Vector.getElem_set, Fin.val_inj]

@[simp] theorem State.setLane_get_self (s : State) (k : LaneId) (l : Lane) : (s.setLane k l).lane k = l := by
  simp [State.setLane_get]

theorem State.setLane_get_other (s : State) {k j : LaneId} (l : Lane) (hne : k ≠ j) :
    (s.setLane k l).lane j = s.lane j := by
  simp [State.setLane_get, hne]

/-- The entry written, and every other entry as before. -/
theorem State.setQueue_get (s : State) (k j : LaneId) (q : List SlotId) :
    (s.setQueue k q).queue j = if k = j then q else s.queue j := by
  simp only [State.setQueue, State.queue, Fin.getElem_fin, Vector.getElem_set, Fin.val_inj]

@[simp] theorem State.setQueue_get_self (s : State) (k : LaneId) (q : List SlotId) : (s.setQueue k q).queue k = q := by
  simp [State.setQueue_get]

theorem State.setQueue_get_other (s : State) {k j : LaneId} (q : List SlotId) (hne : k ≠ j) :
    (s.setQueue k q).queue j = s.queue j := by
  simp [State.setQueue_get, hne]

/-- The entry written, and every other entry as before. -/
theorem State.putChan_get (s : State) (c d : ChanId) (x : Channel) :
    (s.putChan c x).chan d = if c = d then x else s.chan d := by
  simp only [State.putChan, State.chan, Fin.getElem_fin, Vector.getElem_set, Fin.val_inj]

@[simp] theorem State.putChan_get_self (s : State) (c : ChanId) (x : Channel) : (s.putChan c x).chan c = x := by
  simp [State.putChan_get]

theorem State.putChan_get_other (s : State) {c d : ChanId} (x : Channel) (hne : c ≠ d) :
    (s.putChan c x).chan d = s.chan d := by
  simp [State.putChan_get, hne]

/-- The entry written, and every other entry as before. -/
theorem State.putLine_get (s : State) (l m : LineId) (x : Line) :
    (s.putLine l x).line m = if l = m then x else s.line m := by
  simp only [State.putLine, State.line, Fin.getElem_fin, Vector.getElem_set, Fin.val_inj]

@[simp] theorem State.putLine_get_self (s : State) (l : LineId) (x : Line) : (s.putLine l x).line l = x := by
  simp [State.putLine_get]

theorem State.putLine_get_other (s : State) {l m : LineId} (x : Line) (hne : l ≠ m) :
    (s.putLine l x).line m = s.line m := by
  simp [State.putLine_get, hne]

/-- The entry written, and every other entry as before. -/
theorem State.putGroup_get (s : State) (g h : GroupId) (x : Group) :
    (s.putGroup g x).group h = if g = h then x else s.group h := by
  simp only [State.putGroup, State.group, Fin.getElem_fin, Vector.getElem_set, Fin.val_inj]

@[simp] theorem State.putGroup_get_self (s : State) (g : GroupId) (x : Group) : (s.putGroup g x).group g = x := by
  simp [State.putGroup_get]

theorem State.putGroup_get_other (s : State) {g h : GroupId} (x : Group) (hne : g ≠ h) :
    (s.putGroup g x).group h = s.group h := by
  simp [State.putGroup_get, hne]

/-- The entry written, and every other entry as before. -/
theorem State.putOwner_get (s : State) (c d : ChanId) (o : Option LaneId) :
    (s.putOwner c o).ownerOf d = if c = d then o else s.ownerOf d := by
  simp only [State.putOwner, State.ownerOf, Fin.getElem_fin, Vector.getElem_set, Fin.val_inj]

@[simp] theorem State.putOwner_get_self (s : State) (c : ChanId) (o : Option LaneId) : (s.putOwner c o).ownerOf c = o := by
  simp [State.putOwner_get]

theorem State.putOwner_get_other (s : State) {c d : ChanId} (o : Option LaneId) (hne : c ≠ d) :
    (s.putOwner c o).ownerOf d = s.ownerOf d := by
  simp [State.putOwner_get, hne]

/-- The entry written, and every other entry as before. -/
theorem State.putLineOwner_get (s : State) (l m : LineId) (o : Option LaneId) :
    (s.putLineOwner l o).lineOwnerOf m = if l = m then o else s.lineOwnerOf m := by
  simp only [State.putLineOwner, State.lineOwnerOf, Fin.getElem_fin, Vector.getElem_set, Fin.val_inj]

@[simp] theorem State.putLineOwner_get_self (s : State) (l : LineId) (o : Option LaneId) : (s.putLineOwner l o).lineOwnerOf l = o := by
  simp [State.putLineOwner_get]

theorem State.putLineOwner_get_other (s : State) {l m : LineId} (o : Option LaneId) (hne : l ≠ m) :
    (s.putLineOwner l o).lineOwnerOf m = s.lineOwnerOf m := by
  simp [State.putLineOwner_get, hne]

/-- The entry written, and every other entry as before. -/
theorem State.putWatch_get (s : State) (k j : LaneId) (w : Watch) :
    (s.putWatch k w).watch j = if k = j then w else s.watch j := by
  simp only [State.putWatch, State.watch, Fin.getElem_fin, Vector.getElem_set, Fin.val_inj]

@[simp] theorem State.putWatch_get_self (s : State) (k : LaneId) (w : Watch) : (s.putWatch k w).watch k = w := by
  simp [State.putWatch_get]

theorem State.putWatch_get_other (s : State) {k j : LaneId} (w : Watch) (hne : k ≠ j) :
    (s.putWatch k w).watch j = s.watch j := by
  simp [State.putWatch_get, hne]

/-- The entry written, and every other entry as before. -/
theorem State.putVerified_get (s : State) (c d : ChanId) (v : Option Duty) :
    (s.putVerified c v).verified d = if c = d then v else s.verified d := by
  simp only [State.putVerified, State.verified, Fin.getElem_fin, Vector.getElem_set, Fin.val_inj]

@[simp] theorem State.putVerified_get_self (s : State) (c : ChanId) (v : Option Duty) : (s.putVerified c v).verified c = v := by
  simp [State.putVerified_get]

theorem State.putVerified_get_other (s : State) {c d : ChanId} (v : Option Duty) (hne : c ≠ d) :
    (s.putVerified c v).verified d = s.verified d := by
  simp [State.putVerified_get, hne]

/-! ### Every table is read the same after an update of another field -/

@[simp] theorem State.store_lane (s : State) (a : Nat) (bs : List Byte) (i : LaneId) : (s.store a bs).lane i = s.lane i := rfl
@[simp] theorem State.store_queue (s : State) (a : Nat) (bs : List Byte) (i : LaneId) : (s.store a bs).queue i = s.queue i := rfl
@[simp] theorem State.store_chan (s : State) (a : Nat) (bs : List Byte) (i : ChanId) : (s.store a bs).chan i = s.chan i := rfl
@[simp] theorem State.store_line (s : State) (a : Nat) (bs : List Byte) (i : LineId) : (s.store a bs).line i = s.line i := rfl
@[simp] theorem State.store_group (s : State) (a : Nat) (bs : List Byte) (i : GroupId) : (s.store a bs).group i = s.group i := rfl
@[simp] theorem State.store_ownerOf (s : State) (a : Nat) (bs : List Byte) (i : ChanId) : (s.store a bs).ownerOf i = s.ownerOf i := rfl
@[simp] theorem State.store_lineOwnerOf (s : State) (a : Nat) (bs : List Byte) (i : LineId) : (s.store a bs).lineOwnerOf i = s.lineOwnerOf i := rfl
@[simp] theorem State.store_watch (s : State) (a : Nat) (bs : List Byte) (i : LaneId) : (s.store a bs).watch i = s.watch i := rfl
@[simp] theorem State.store_verified (s : State) (a : Nat) (bs : List Byte) (i : ChanId) : (s.store a bs).verified i = s.verified i := rfl
@[simp] theorem State.setLane_queue (s : State) (k : LaneId) (l : Lane) (i : LaneId) : (s.setLane k l).queue i = s.queue i := rfl
@[simp] theorem State.setLane_chan (s : State) (k : LaneId) (l : Lane) (i : ChanId) : (s.setLane k l).chan i = s.chan i := rfl
@[simp] theorem State.setLane_line (s : State) (k : LaneId) (l : Lane) (i : LineId) : (s.setLane k l).line i = s.line i := rfl
@[simp] theorem State.setLane_group (s : State) (k : LaneId) (l : Lane) (i : GroupId) : (s.setLane k l).group i = s.group i := rfl
@[simp] theorem State.setLane_ownerOf (s : State) (k : LaneId) (l : Lane) (i : ChanId) : (s.setLane k l).ownerOf i = s.ownerOf i := rfl
@[simp] theorem State.setLane_lineOwnerOf (s : State) (k : LaneId) (l : Lane) (i : LineId) : (s.setLane k l).lineOwnerOf i = s.lineOwnerOf i := rfl
@[simp] theorem State.setLane_watch (s : State) (k : LaneId) (l : Lane) (i : LaneId) : (s.setLane k l).watch i = s.watch i := rfl
@[simp] theorem State.setLane_verified (s : State) (k : LaneId) (l : Lane) (i : ChanId) : (s.setLane k l).verified i = s.verified i := rfl
@[simp] theorem State.setPhase_queue (s : State) (k : LaneId) (p : Phase) (i : LaneId) : (s.setPhase k p).queue i = s.queue i := rfl
@[simp] theorem State.setPhase_chan (s : State) (k : LaneId) (p : Phase) (i : ChanId) : (s.setPhase k p).chan i = s.chan i := rfl
@[simp] theorem State.setPhase_line (s : State) (k : LaneId) (p : Phase) (i : LineId) : (s.setPhase k p).line i = s.line i := rfl
@[simp] theorem State.setPhase_group (s : State) (k : LaneId) (p : Phase) (i : GroupId) : (s.setPhase k p).group i = s.group i := rfl
@[simp] theorem State.setPhase_ownerOf (s : State) (k : LaneId) (p : Phase) (i : ChanId) : (s.setPhase k p).ownerOf i = s.ownerOf i := rfl
@[simp] theorem State.setPhase_lineOwnerOf (s : State) (k : LaneId) (p : Phase) (i : LineId) : (s.setPhase k p).lineOwnerOf i = s.lineOwnerOf i := rfl
@[simp] theorem State.setPhase_watch (s : State) (k : LaneId) (p : Phase) (i : LaneId) : (s.setPhase k p).watch i = s.watch i := rfl
@[simp] theorem State.setPhase_verified (s : State) (k : LaneId) (p : Phase) (i : ChanId) : (s.setPhase k p).verified i = s.verified i := rfl
@[simp] theorem State.setQueue_lane (s : State) (k : LaneId) (q : List SlotId) (i : LaneId) : (s.setQueue k q).lane i = s.lane i := rfl
@[simp] theorem State.setQueue_chan (s : State) (k : LaneId) (q : List SlotId) (i : ChanId) : (s.setQueue k q).chan i = s.chan i := rfl
@[simp] theorem State.setQueue_line (s : State) (k : LaneId) (q : List SlotId) (i : LineId) : (s.setQueue k q).line i = s.line i := rfl
@[simp] theorem State.setQueue_group (s : State) (k : LaneId) (q : List SlotId) (i : GroupId) : (s.setQueue k q).group i = s.group i := rfl
@[simp] theorem State.setQueue_ownerOf (s : State) (k : LaneId) (q : List SlotId) (i : ChanId) : (s.setQueue k q).ownerOf i = s.ownerOf i := rfl
@[simp] theorem State.setQueue_lineOwnerOf (s : State) (k : LaneId) (q : List SlotId) (i : LineId) : (s.setQueue k q).lineOwnerOf i = s.lineOwnerOf i := rfl
@[simp] theorem State.setQueue_watch (s : State) (k : LaneId) (q : List SlotId) (i : LaneId) : (s.setQueue k q).watch i = s.watch i := rfl
@[simp] theorem State.setQueue_verified (s : State) (k : LaneId) (q : List SlotId) (i : ChanId) : (s.setQueue k q).verified i = s.verified i := rfl
@[simp] theorem State.putChan_lane (s : State) (c : ChanId) (x : Channel) (i : LaneId) : (s.putChan c x).lane i = s.lane i := rfl
@[simp] theorem State.putChan_queue (s : State) (c : ChanId) (x : Channel) (i : LaneId) : (s.putChan c x).queue i = s.queue i := rfl
@[simp] theorem State.putChan_line (s : State) (c : ChanId) (x : Channel) (i : LineId) : (s.putChan c x).line i = s.line i := rfl
@[simp] theorem State.putChan_group (s : State) (c : ChanId) (x : Channel) (i : GroupId) : (s.putChan c x).group i = s.group i := rfl
@[simp] theorem State.putChan_ownerOf (s : State) (c : ChanId) (x : Channel) (i : ChanId) : (s.putChan c x).ownerOf i = s.ownerOf i := rfl
@[simp] theorem State.putChan_lineOwnerOf (s : State) (c : ChanId) (x : Channel) (i : LineId) : (s.putChan c x).lineOwnerOf i = s.lineOwnerOf i := rfl
@[simp] theorem State.putChan_watch (s : State) (c : ChanId) (x : Channel) (i : LaneId) : (s.putChan c x).watch i = s.watch i := rfl
@[simp] theorem State.putChan_verified (s : State) (c : ChanId) (x : Channel) (i : ChanId) : (s.putChan c x).verified i = s.verified i := rfl
@[simp] theorem State.putLine_lane (s : State) (l : LineId) (x : Line) (i : LaneId) : (s.putLine l x).lane i = s.lane i := rfl
@[simp] theorem State.putLine_queue (s : State) (l : LineId) (x : Line) (i : LaneId) : (s.putLine l x).queue i = s.queue i := rfl
@[simp] theorem State.putLine_chan (s : State) (l : LineId) (x : Line) (i : ChanId) : (s.putLine l x).chan i = s.chan i := rfl
@[simp] theorem State.putLine_group (s : State) (l : LineId) (x : Line) (i : GroupId) : (s.putLine l x).group i = s.group i := rfl
@[simp] theorem State.putLine_ownerOf (s : State) (l : LineId) (x : Line) (i : ChanId) : (s.putLine l x).ownerOf i = s.ownerOf i := rfl
@[simp] theorem State.putLine_lineOwnerOf (s : State) (l : LineId) (x : Line) (i : LineId) : (s.putLine l x).lineOwnerOf i = s.lineOwnerOf i := rfl
@[simp] theorem State.putLine_watch (s : State) (l : LineId) (x : Line) (i : LaneId) : (s.putLine l x).watch i = s.watch i := rfl
@[simp] theorem State.putLine_verified (s : State) (l : LineId) (x : Line) (i : ChanId) : (s.putLine l x).verified i = s.verified i := rfl
@[simp] theorem State.putGroup_lane (s : State) (g : GroupId) (x : Group) (i : LaneId) : (s.putGroup g x).lane i = s.lane i := rfl
@[simp] theorem State.putGroup_queue (s : State) (g : GroupId) (x : Group) (i : LaneId) : (s.putGroup g x).queue i = s.queue i := rfl
@[simp] theorem State.putGroup_chan (s : State) (g : GroupId) (x : Group) (i : ChanId) : (s.putGroup g x).chan i = s.chan i := rfl
@[simp] theorem State.putGroup_line (s : State) (g : GroupId) (x : Group) (i : LineId) : (s.putGroup g x).line i = s.line i := rfl
@[simp] theorem State.putGroup_ownerOf (s : State) (g : GroupId) (x : Group) (i : ChanId) : (s.putGroup g x).ownerOf i = s.ownerOf i := rfl
@[simp] theorem State.putGroup_lineOwnerOf (s : State) (g : GroupId) (x : Group) (i : LineId) : (s.putGroup g x).lineOwnerOf i = s.lineOwnerOf i := rfl
@[simp] theorem State.putGroup_watch (s : State) (g : GroupId) (x : Group) (i : LaneId) : (s.putGroup g x).watch i = s.watch i := rfl
@[simp] theorem State.putGroup_verified (s : State) (g : GroupId) (x : Group) (i : ChanId) : (s.putGroup g x).verified i = s.verified i := rfl
@[simp] theorem State.putOwner_lane (s : State) (c : ChanId) (o : Option LaneId) (i : LaneId) : (s.putOwner c o).lane i = s.lane i := rfl
@[simp] theorem State.putOwner_queue (s : State) (c : ChanId) (o : Option LaneId) (i : LaneId) : (s.putOwner c o).queue i = s.queue i := rfl
@[simp] theorem State.putOwner_chan (s : State) (c : ChanId) (o : Option LaneId) (i : ChanId) : (s.putOwner c o).chan i = s.chan i := rfl
@[simp] theorem State.putOwner_line (s : State) (c : ChanId) (o : Option LaneId) (i : LineId) : (s.putOwner c o).line i = s.line i := rfl
@[simp] theorem State.putOwner_group (s : State) (c : ChanId) (o : Option LaneId) (i : GroupId) : (s.putOwner c o).group i = s.group i := rfl
@[simp] theorem State.putOwner_lineOwnerOf (s : State) (c : ChanId) (o : Option LaneId) (i : LineId) : (s.putOwner c o).lineOwnerOf i = s.lineOwnerOf i := rfl
@[simp] theorem State.putOwner_watch (s : State) (c : ChanId) (o : Option LaneId) (i : LaneId) : (s.putOwner c o).watch i = s.watch i := rfl
@[simp] theorem State.putOwner_verified (s : State) (c : ChanId) (o : Option LaneId) (i : ChanId) : (s.putOwner c o).verified i = s.verified i := rfl
@[simp] theorem State.putLineOwner_lane (s : State) (l : LineId) (o : Option LaneId) (i : LaneId) : (s.putLineOwner l o).lane i = s.lane i := rfl
@[simp] theorem State.putLineOwner_queue (s : State) (l : LineId) (o : Option LaneId) (i : LaneId) : (s.putLineOwner l o).queue i = s.queue i := rfl
@[simp] theorem State.putLineOwner_chan (s : State) (l : LineId) (o : Option LaneId) (i : ChanId) : (s.putLineOwner l o).chan i = s.chan i := rfl
@[simp] theorem State.putLineOwner_line (s : State) (l : LineId) (o : Option LaneId) (i : LineId) : (s.putLineOwner l o).line i = s.line i := rfl
@[simp] theorem State.putLineOwner_group (s : State) (l : LineId) (o : Option LaneId) (i : GroupId) : (s.putLineOwner l o).group i = s.group i := rfl
@[simp] theorem State.putLineOwner_ownerOf (s : State) (l : LineId) (o : Option LaneId) (i : ChanId) : (s.putLineOwner l o).ownerOf i = s.ownerOf i := rfl
@[simp] theorem State.putLineOwner_watch (s : State) (l : LineId) (o : Option LaneId) (i : LaneId) : (s.putLineOwner l o).watch i = s.watch i := rfl
@[simp] theorem State.putLineOwner_verified (s : State) (l : LineId) (o : Option LaneId) (i : ChanId) : (s.putLineOwner l o).verified i = s.verified i := rfl
@[simp] theorem State.putWatch_lane (s : State) (k : LaneId) (w : Watch) (i : LaneId) : (s.putWatch k w).lane i = s.lane i := rfl
@[simp] theorem State.putWatch_queue (s : State) (k : LaneId) (w : Watch) (i : LaneId) : (s.putWatch k w).queue i = s.queue i := rfl
@[simp] theorem State.putWatch_chan (s : State) (k : LaneId) (w : Watch) (i : ChanId) : (s.putWatch k w).chan i = s.chan i := rfl
@[simp] theorem State.putWatch_line (s : State) (k : LaneId) (w : Watch) (i : LineId) : (s.putWatch k w).line i = s.line i := rfl
@[simp] theorem State.putWatch_group (s : State) (k : LaneId) (w : Watch) (i : GroupId) : (s.putWatch k w).group i = s.group i := rfl
@[simp] theorem State.putWatch_ownerOf (s : State) (k : LaneId) (w : Watch) (i : ChanId) : (s.putWatch k w).ownerOf i = s.ownerOf i := rfl
@[simp] theorem State.putWatch_lineOwnerOf (s : State) (k : LaneId) (w : Watch) (i : LineId) : (s.putWatch k w).lineOwnerOf i = s.lineOwnerOf i := rfl
@[simp] theorem State.putWatch_verified (s : State) (k : LaneId) (w : Watch) (i : ChanId) : (s.putWatch k w).verified i = s.verified i := rfl
@[simp] theorem State.putVerified_lane (s : State) (c : ChanId) (d : Option Duty) (i : LaneId) : (s.putVerified c d).lane i = s.lane i := rfl
@[simp] theorem State.putVerified_queue (s : State) (c : ChanId) (d : Option Duty) (i : LaneId) : (s.putVerified c d).queue i = s.queue i := rfl
@[simp] theorem State.putVerified_chan (s : State) (c : ChanId) (d : Option Duty) (i : ChanId) : (s.putVerified c d).chan i = s.chan i := rfl
@[simp] theorem State.putVerified_line (s : State) (c : ChanId) (d : Option Duty) (i : LineId) : (s.putVerified c d).line i = s.line i := rfl
@[simp] theorem State.putVerified_group (s : State) (c : ChanId) (d : Option Duty) (i : GroupId) : (s.putVerified c d).group i = s.group i := rfl
@[simp] theorem State.putVerified_ownerOf (s : State) (c : ChanId) (d : Option Duty) (i : ChanId) : (s.putVerified c d).ownerOf i = s.ownerOf i := rfl
@[simp] theorem State.putVerified_lineOwnerOf (s : State) (c : ChanId) (d : Option Duty) (i : LineId) : (s.putVerified c d).lineOwnerOf i = s.lineOwnerOf i := rfl
@[simp] theorem State.putVerified_watch (s : State) (c : ChanId) (d : Option Duty) (i : LaneId) : (s.putVerified c d).watch i = s.watch i := rfl
@[simp] theorem State.answer_lane (s : State) (e : Byte) (code : ResultCode) (d : Byte) (i : LaneId) : (s.answer e code d).lane i = s.lane i := rfl
@[simp] theorem State.answer_queue (s : State) (e : Byte) (code : ResultCode) (d : Byte) (i : LaneId) : (s.answer e code d).queue i = s.queue i := rfl
@[simp] theorem State.answer_chan (s : State) (e : Byte) (code : ResultCode) (d : Byte) (i : ChanId) : (s.answer e code d).chan i = s.chan i := rfl
@[simp] theorem State.answer_line (s : State) (e : Byte) (code : ResultCode) (d : Byte) (i : LineId) : (s.answer e code d).line i = s.line i := rfl
@[simp] theorem State.answer_group (s : State) (e : Byte) (code : ResultCode) (d : Byte) (i : GroupId) : (s.answer e code d).group i = s.group i := rfl
@[simp] theorem State.answer_ownerOf (s : State) (e : Byte) (code : ResultCode) (d : Byte) (i : ChanId) : (s.answer e code d).ownerOf i = s.ownerOf i := rfl
@[simp] theorem State.answer_lineOwnerOf (s : State) (e : Byte) (code : ResultCode) (d : Byte) (i : LineId) : (s.answer e code d).lineOwnerOf i = s.lineOwnerOf i := rfl
@[simp] theorem State.answer_watch (s : State) (e : Byte) (code : ResultCode) (d : Byte) (i : LaneId) : (s.answer e code d).watch i = s.watch i := rfl
@[simp] theorem State.answer_verified (s : State) (e : Byte) (code : ResultCode) (d : Byte) (i : ChanId) : (s.answer e code d).verified i = s.verified i := rfl
@[simp] theorem State.setLink_lane (s : State) (x : Link) (i : LaneId) : (s.setLink x).lane i = s.lane i := rfl
@[simp] theorem State.setLink_queue (s : State) (x : Link) (i : LaneId) : (s.setLink x).queue i = s.queue i := rfl
@[simp] theorem State.setLink_chan (s : State) (x : Link) (i : ChanId) : (s.setLink x).chan i = s.chan i := rfl
@[simp] theorem State.setLink_line (s : State) (x : Link) (i : LineId) : (s.setLink x).line i = s.line i := rfl
@[simp] theorem State.setLink_group (s : State) (x : Link) (i : GroupId) : (s.setLink x).group i = s.group i := rfl
@[simp] theorem State.setLink_ownerOf (s : State) (x : Link) (i : ChanId) : (s.setLink x).ownerOf i = s.ownerOf i := rfl
@[simp] theorem State.setLink_lineOwnerOf (s : State) (x : Link) (i : LineId) : (s.setLink x).lineOwnerOf i = s.lineOwnerOf i := rfl
@[simp] theorem State.setLink_watch (s : State) (x : Link) (i : LaneId) : (s.setLink x).watch i = s.watch i := rfl
@[simp] theorem State.setLink_verified (s : State) (x : Link) (i : ChanId) : (s.setLink x).verified i = s.verified i := rfl
@[simp] theorem State.judged_lane (s : State) (bits : Nat) (reply : List Byte) (i : LaneId) : (s.judged bits reply).lane i = s.lane i := rfl
@[simp] theorem State.judged_queue (s : State) (bits : Nat) (reply : List Byte) (i : LaneId) : (s.judged bits reply).queue i = s.queue i := rfl
@[simp] theorem State.judged_chan (s : State) (bits : Nat) (reply : List Byte) (i : ChanId) : (s.judged bits reply).chan i = s.chan i := rfl
@[simp] theorem State.judged_line (s : State) (bits : Nat) (reply : List Byte) (i : LineId) : (s.judged bits reply).line i = s.line i := rfl
@[simp] theorem State.judged_group (s : State) (bits : Nat) (reply : List Byte) (i : GroupId) : (s.judged bits reply).group i = s.group i := rfl
@[simp] theorem State.judged_ownerOf (s : State) (bits : Nat) (reply : List Byte) (i : ChanId) : (s.judged bits reply).ownerOf i = s.ownerOf i := rfl
@[simp] theorem State.judged_lineOwnerOf (s : State) (bits : Nat) (reply : List Byte) (i : LineId) : (s.judged bits reply).lineOwnerOf i = s.lineOwnerOf i := rfl
@[simp] theorem State.judged_watch (s : State) (bits : Nat) (reply : List Byte) (i : LaneId) : (s.judged bits reply).watch i = s.watch i := rfl
@[simp] theorem State.judged_verified (s : State) (bits : Nat) (reply : List Byte) (i : ChanId) : (s.judged bits reply).verified i = s.verified i := rfl

/-! ### Two writes of one lane -/

/-- The later of two writes of a lane stands. -/
@[simp] theorem State.setLane_setLane (s : State) (k : LaneId) (l l' : Lane) :
    (s.setLane k l).setLane k l' = s.setLane k l' := by
  simp [State.setLane]

/-- A lane written as it is changes nothing. -/
@[simp] theorem State.setLane_lane (s : State) (k : LaneId) : s.setLane k (s.lane k) = s := by
  simp [State.setLane, State.lane]

@[simp] theorem State.setLane_setPhase (s : State) (k : LaneId) (l : Lane) (p : Phase) :
    (s.setLane k l).setPhase k p = s.setLane k { l with phase := p } := by
  simp [State.setPhase]

end Sys2Proof.Machine
end

