-- ==== Sys2Proof/Laws/Channels.lean ====
section
/-! SUPPORT. The lists of lanes, channels and lines are complete; what an act on every channel or line of a list leaves
(Channels.lean, Lines.lean): the entries it reads and writes, and the rest of State as it was. -/

namespace Sys2Proof.Machine

theorem mem_allLanes (k : LaneId) : k ∈ allLanes := by revert k; decide
theorem mem_allSlots (n : SlotId) : n ∈ allSlots := by revert n; decide
theorem mem_allChans (c : ChanId) : c ∈ allChans := by revert c; decide
theorem mem_allLines (l : LineId) : l ∈ allLines := by revert l; decide
theorem mem_allGroups (g : GroupId) : g ∈ allGroups := by revert g; decide
theorem mem_allSteps (i : StepId) : i ∈ allSteps := by revert i; decide
theorem nodup_allLanes : allLanes.Nodup := by decide
theorem nodup_allChans : allChans.Nodup := by decide
theorem nodup_allLines : allLines.Nodup := by decide

@[simp] theorem vec4_get {α : Type} (f : Fin 4 → α) (k : Fin 4) : (vec4 f)[k.val] = f k := by
  revert k
  simp [vec4, Fin.forall_fin_succ]

@[simp] theorem vec8_get {α : Type} (f : Fin 8 → α) (k : Fin 8) : (vec8 f)[k.val] = f k := by
  revert k
  simp [vec8, Fin.forall_fin_succ]

@[simp] theorem vec16_get {α : Type} (f : Fin 16 → α) (k : Fin 16) : (vec16 f)[k.val] = f k := by
  revert k
  simp [vec16, Fin.forall_fin_succ]

/-! ### Acts on entries one after another -/

/-- A fold of acts that each write one entry of a table: an entry of the list is written once, from the state the fold
began in, and every other entry is as it was. `get` reads the table, `val` is what the act writes. -/
theorem foldl_entry {ι α : Type} [DecidableEq ι] (get : State → ι → α) (f : State → ι → State) (val : State → ι → α)
    (hget : ∀ s i j, get (f s i) j = if j = i then val s i else get s j)
    (hval : ∀ s i j, i ≠ j → val (f s i) j = val s j) (is : List ι) (hn : is.Nodup) (s : State) (j : ι) :
    get (is.foldl f s) j = if j ∈ is then val s j else get s j := by
  induction is generalizing s with
  | nil => simp
  | cons i is ih =>
    obtain ⟨hi, hn⟩ := List.nodup_cons.mp hn
    rw [List.foldl_cons, ih hn, hget]
    by_cases hj : j = i
    · subst hj; simp [hi]
    · rw [hval s i j (Ne.symm hj)]
      simp [hj]

/-- A fold keeps what each of its acts keeps. -/
theorem foldl_keep {ι β : Type} (view : State → β) (f : State → ι → State) (h : ∀ s i, view (f s i) = view s)
    (is : List ι) (s : State) : view (is.foldl f s) = view s := by
  induction is generalizing s with
  | nil => rfl
  | cons i is ih => rw [List.foldl_cons, ih, h]

/-- A fold keeps a property that each of its acts keeps. -/
theorem foldl_induct {ι : Type} (P : State → Prop) (f : State → ι → State) (h : ∀ s i, P s → P (f s i))
    (is : List ι) (s : State) (hs : P s) : P (is.foldl f s) := by
  induction is generalizing s with
  | nil => exact hs
  | cons i is ih => exact ih _ (h s i hs)

/-- Nothing but channels and watches differs. -/
def ChansOnly (s t : State) : Prop := t = { s with channels := t.channels, watches := t.watches }

theorem ChansOnly.refl (s : State) : ChansOnly s s := rfl

theorem ChansOnly.trans {s t u : State} (h : ChansOnly s t) (g : ChansOnly t u) : ChansOnly s u := by
  unfold ChansOnly at *
  rw [g, h]

theorem ChansOnly.foldl {ι : Type} {f : State → ι → State} (h : ∀ s i, ChansOnly s (f s i)) (is : List ι) (s : State) :
    ChansOnly s (is.foldl f s) :=
  foldl_induct (ChansOnly s) f (fun _ i hs => hs.trans (h _ i)) is s (ChansOnly.refl s)

theorem putChan_chansOnly (s : State) (c : ChanId) (x : Channel) : ChansOnly s (s.putChan c x) := rfl

theorem disturb_chansOnly (s : State) (c : ChanId) : ChansOnly s (s.disturb c) := by
  unfold State.disturb
  split
  · rfl
  · split <;> rfl

theorem disturb_channels (s : State) (c : ChanId) : (s.disturb c).channels = s.channels := by
  unfold State.disturb
  split
  · rfl
  · split <;> rfl

theorem changeChan_chansOnly (s : State) (c : ChanId) (x : Channel) : ChansOnly s (s.changeChan c x) := by
  unfold State.changeChan
  split
  · exact putChan_chansOnly s c x
  · exact (putChan_chansOnly s c x).trans (disturb_chansOnly _ c)

@[simp] theorem disturb_chan (s : State) (c d : ChanId) : (s.disturb c).chan d = s.chan d := by
  unfold State.chan
  rw [disturb_channels]

theorem changeChan_chan (s : State) (c d : ChanId) (x : Channel) :
    (s.changeChan c x).chan d = if d = c then x else s.chan d := by
  unfold State.changeChan
  split <;> simp only [disturb_chan, State.putChan_get, eq_comm]

/-- An act on each channel of a mask that writes the channel's value from its own value and a part of State that the act
keeps: the masked channels are written, nothing else but watches differs. -/
theorem onChans_spec (m : BitVec 16) (f : State → ChanId → State) (val : State → ChanId → Channel)
    (hf : ∀ s c, ChansOnly s (f s c)) (hget : ∀ s c d, (f s c).chan d = if d = c then val s c else s.chan d)
    (hval : ∀ s c d, c ≠ d → val (f s c) d = val s d) (s : State) :
    ChansOnly s (onChans m f s) ∧
      ∀ d, (onChans m f s).chan d = if inChans m d = true then val s d else s.chan d := by
  refine ⟨ChansOnly.foldl hf _ s, fun d => ?_⟩
  unfold onChans
  rw [foldl_entry State.chan f val hget hval _ (nodup_allChans.filter _) s d]
  simp [List.mem_filter, mem_allChans]

/-- The fields a change of channels keeps, for rewriting. -/
theorem ChansOnly.keeps {s t : State} (h : ChansOnly s t) :
    t.mem = s.mem ∧ t.lanes = s.lanes ∧ t.chanOwner = s.chanOwner ∧ t.lineOwner = s.lineOwner ∧ t.config = s.config ∧
    t.queues = s.queues ∧ t.parked = s.parked ∧ t.finished = s.finished ∧ t.waitList = s.waitList ∧
    t.converter = s.converter ∧ t.monitor = s.monitor ∧ t.lines = s.lines ∧ t.link = s.link ∧
    t.holdSafe = s.holdSafe ∧ t.tick = s.tick ∧ t.groups = s.groups := by
  unfold ChansOnly at h
  rw [h]
  simp

theorem ChansOnly.ownerOf {s t : State} (h : ChansOnly s t) (c : ChanId) : t.ownerOf c = s.ownerOf c := by
  unfold State.ownerOf
  rw [h.keeps.2.2.1]

theorem ChansOnly.lane {s t : State} (h : ChansOnly s t) (k : LaneId) : t.lane k = s.lane k := by
  unfold State.lane
  rw [h.keeps.2.1]

/-- SET on a mask (R77). -/
theorem onChans_setOn (m : BitVec 16) (x r : Duty) (s : State) :
    ChansOnly s (onChans m (setOn x r) s) ∧
      ∀ d, (onChans m (setOn x r) s).chan d = if inChans m d = true then (s.chan d).setTarget x r else s.chan d :=
  onChans_spec m (setOn x r) (fun s c => (s.chan c).setTarget x r) (fun s c => changeChan_chansOnly s c _)
    (fun s c d => changeChan_chan s c d _)
    (fun s c d h => by simp only [setOn, changeChan_chan, if_neg (Ne.symm h)]) s

/-- A staged SET on a mask (R78). -/
theorem onChans_stageOn (m : BitVec 16) (x r : Duty) (s : State) :
    ChansOnly s (onChans m (stageOn x r) s) ∧
      ∀ d, (onChans m (stageOn x r) s).chan d = if inChans m d = true then (s.chan d).stage x r else s.chan d :=
  onChans_spec m (stageOn x r) (fun s c => (s.chan c).stage x r) (fun s c => changeChan_chansOnly s c _)
    (fun s c d => changeChan_chan s c d _)
    (fun s c d h => by simp only [stageOn, changeChan_chan, if_neg (Ne.symm h)]) s

/-- OFF on a mask (R83). -/
theorem onChans_offOn (m : BitVec 16) (r : Duty) (s : State) :
    ChansOnly s (onChans m (offOn r) s) ∧
      ∀ d, (onChans m (offOn r) s).chan d = if inChans m d = true then (s.chan d).offStep r else s.chan d :=
  onChans_spec m (offOn r) (fun s c => (s.chan c).offStep r) (fun s c => changeChan_chansOnly s c _)
    (fun s c d => changeChan_chan s c d _)
    (fun s c d h => by simp only [offOn, changeChan_chan, if_neg (Ne.symm h)]) s

/-- Turning off the channels of a mask (R82). -/
theorem onChans_turnOffOn (m : BitVec 16) (s : State) :
    ChansOnly s (onChans m turnOffOn s) ∧
      ∀ d, (onChans m turnOffOn s).chan d = if inChans m d = true then (s.chan d).turnOff else s.chan d :=
  onChans_spec m turnOffOn (fun s c => (s.chan c).turnOff) (fun s c => changeChan_chansOnly s c _)
    (fun s c d => changeChan_chan s c d _)
    (fun s c d h => by simp only [turnOffOn, changeChan_chan, if_neg (Ne.symm h)]) s

/-- What an apply makes of a channel (R80). -/
def Channel.applied (x : Channel) : Channel :=
  match x.pending with
  | none => x
  | some p => x.applyPending p

theorem applyOn_chansOnly (s : State) (c : ChanId) : ChansOnly s (applyOn s c) := by
  unfold applyOn
  split
  · exact ChansOnly.refl s
  · exact (changeChan_chansOnly s c _).trans (disturb_chansOnly _ c)

theorem applyOn_chan (s : State) (c d : ChanId) :
    (applyOn s c).chan d = if d = c then (s.chan c).applied else s.chan d := by
  unfold applyOn Channel.applied
  cases hp : (s.chan c).pending with
  | none => by_cases h : d = c <;> simp_all
  | some p => exact (disturb_chan _ c d).trans (changeChan_chan s c d _)

/-- Applies on a list of channels without repetition (R80, R81). -/
theorem foldl_applyOn (cs : List ChanId) (hn : cs.Nodup) (s : State) :
    ChansOnly s (cs.foldl applyOn s) ∧
      ∀ d, (cs.foldl applyOn s).chan d = if d ∈ cs then (s.chan d).applied else s.chan d :=
  ⟨ChansOnly.foldl applyOn_chansOnly cs s, fun d =>
    foldl_entry State.chan applyOn (fun s c => (s.chan c).applied) applyOn_chan
      (fun s c d h => by simp only [applyOn_chan, if_neg (Ne.symm h)]) cs hn s d⟩

/-- Applies on a mask. -/
theorem onChans_applyOn (m : BitVec 16) (s : State) :
    ChansOnly s (onChans m applyOn s) ∧
      ∀ d, (onChans m applyOn s).chan d = if inChans m d = true then (s.chan d).applied else s.chan d :=
  onChans_spec m applyOn (fun s c => (s.chan c).applied) applyOn_chansOnly applyOn_chan
    (fun s c d h => by simp only [applyOn_chan, if_neg (Ne.symm h)]) s

/-- A ramp move on every channel (R72). -/
theorem foldl_rampOn (s : State) :
    ChansOnly s (allChans.foldl rampOn s) ∧ ∀ d, (allChans.foldl rampOn s).chan d = (s.chan d).rampMove := by
  refine ⟨ChansOnly.foldl (fun s c => changeChan_chansOnly s c _) allChans s, fun d => ?_⟩
  rw [foldl_entry State.chan rampOn (fun s c => (s.chan c).rampMove) (fun s c d => changeChan_chan s c d _)
    (fun s c d h => by simp only [rampOn, changeChan_chan, if_neg (Ne.symm h)]) allChans nodup_allChans s d]
  simp [mem_allChans]

/-- What the safe order makes of a channel under a configuration (R85). -/
def ConfigSet.safed (cfg : ConfigSet) (c : ChanId) (x : Channel) : Channel :=
  if inChans cfg.enable c = true then x.safeTarget cfg.safeDuty[c] cfg.safeRate[c] else x

/-- The safe order on every channel (R85). -/
theorem foldl_safeOn (s : State) :
    ChansOnly s (allChans.foldl safeOn s) ∧
      ∀ d, (allChans.foldl safeOn s).chan d = s.config.safed d (s.chan d) := by
  have hf : ∀ s c, ChansOnly s (safeOn s c) := by
    intro s c
    unfold safeOn
    split
    · exact changeChan_chansOnly s c _
    · exact ChansOnly.refl s
  have hget : ∀ s c d, (safeOn s c).chan d = if d = c then s.config.safed c (s.chan c) else s.chan d := by
    intro s c d
    unfold safeOn ConfigSet.safed
    split
    · rw [changeChan_chan]
    · by_cases h : d = c <;> simp [h]
  refine ⟨ChansOnly.foldl hf allChans s, fun d => ?_⟩
  rw [foldl_entry State.chan safeOn (fun s c => s.config.safed c (s.chan c)) hget
    (fun s c d h => by simp only [hget, if_neg (Ne.symm h), (hf s c).keeps.2.2.2.2.1]) allChans nodup_allChans s d]
  simp [mem_allChans]

/-- Disabled channels are turned off (R87). -/
theorem foldl_disableOn (enable : BitVec 16) (s : State) :
    ChansOnly s (allChans.foldl (disableOn enable) s) ∧
      ∀ d, (allChans.foldl (disableOn enable) s).chan d =
        if inChans enable d = true then s.chan d else (s.chan d).turnOff := by
  have hf : ∀ s c, ChansOnly s (disableOn enable s c) := by
    intro s c
    unfold disableOn
    split
    · exact ChansOnly.refl s
    · exact changeChan_chansOnly s c _
  have hget : ∀ s c d, (disableOn enable s c).chan d =
      if d = c then (if inChans enable c = true then s.chan c else (s.chan c).turnOff) else s.chan d := by
    intro s c d
    unfold disableOn turnOffOn
    split
    · by_cases h : d = c <;> simp [h]
    · rw [changeChan_chan]
  refine ⟨ChansOnly.foldl hf allChans s, fun d => ?_⟩
  rw [foldl_entry State.chan (disableOn enable)
    (fun s c => if inChans enable c = true then s.chan c else (s.chan c).turnOff) hget
    (fun s c d h => by simp only [hget, if_neg (Ne.symm h)]) allChans nodup_allChans s d]
  simp [mem_allChans]

/-! ### Lines -/

/-- Nothing but lines differs. -/
def LinesOnly (s t : State) : Prop := t = { s with lines := t.lines }

theorem LinesOnly.trans {s t u : State} (h : LinesOnly s t) (g : LinesOnly t u) : LinesOnly s u := by
  unfold LinesOnly at *
  rw [g, h]

theorem LinesOnly.foldl {ι : Type} {f : State → ι → State} (h : ∀ s i, LinesOnly s (f s i)) (is : List ι) (s : State) :
    LinesOnly s (is.foldl f s) :=
  foldl_induct (LinesOnly s) f (fun _ i hs => hs.trans (h _ i)) is s rfl

theorem putLine_line (s : State) (l m : LineId) (x : Line) :
    (s.putLine l x).line m = if m = l then x else s.line m := by
  simp only [State.putLine_get, eq_comm]

/-- A LINES step (R134). -/
theorem onLines_lineSetOn (m : BitVec 8) (mode : LineMode) (levels : BitVec 8) (s : State) :
    LinesOnly s (onLines m (lineSetOn mode levels) s) ∧
      ∀ d, (onLines m (lineSetOn mode levels) s).line d =
        if inLines m d = true then (s.line d).setTo (inLines levels d) mode else s.line d := by
  refine ⟨LinesOnly.foldl (f := lineSetOn mode levels) (fun s l => rfl) _ s, fun d => ?_⟩
  unfold onLines
  rw [foldl_entry State.line (lineSetOn mode levels) (fun s l => (s.line l).setTo (inLines levels l) mode)
    (fun s c d => putLine_line s c d _)
    (fun s c d h => by simp only [lineSetOn, putLine_line, if_neg (Ne.symm h)]) _ (nodup_allLines.filter _) s d]
  simp [List.mem_filter, mem_allLines]

/-- The safe order on every line (R138). -/
theorem foldl_safeLineOn (s : State) :
    LinesOnly s (allLines.foldl safeLineOn s) ∧
      ∀ d, (allLines.foldl safeLineOn s).line d =
        (s.line d).setTo (inLines s.config.safeLevel d) s.config.safeMode[d] := by
  have hf : ∀ s l, LinesOnly s (safeLineOn s l) := fun s l => rfl
  refine ⟨LinesOnly.foldl hf _ s, fun d => ?_⟩
  rw [foldl_entry State.line safeLineOn
    (fun s l => (s.line l).setTo (inLines s.config.safeLevel l) s.config.safeMode[l])
    (fun s c d => putLine_line s c d _)
    (fun s c d h => by
      simp only [safeLineOn, putLine_line, if_neg (Ne.symm h)]
      rfl) _ nodup_allLines s d]
  simp [mem_allLines]

/-- Either reset on every line (R139). -/
theorem foldl_resetLineOn (s : State) :
    LinesOnly s (allLines.foldl resetLineOn s) ∧
      ∀ d, (allLines.foldl resetLineOn s).line d = (s.line d).setTo false .inputPullup := by
  refine ⟨LinesOnly.foldl (f := resetLineOn) (fun s l => rfl) _ s, fun d => ?_⟩
  rw [foldl_entry State.line resetLineOn (fun s l => (s.line l).setTo false .inputPullup)
    (fun s c d => putLine_line s c d _)
    (fun s c d h => by simp only [resetLineOn, putLine_line, if_neg (Ne.symm h)]) _ nodup_allLines s d]
  simp [mem_allLines]

end Sys2Proof.Machine
end

