-- ==== Sys2Proof/Laws/Claims.lean ====
section
/-! SUPPORT. What the operations of the claim table leave (Claims.lean): the owners they write, the pending targets they
clear, and the rest of State as it was. -/

namespace Sys2Proof.Machine

theorem putOwner_ownerOf (s : State) (c d : ChanId) (o : Option LaneId) :
    (s.putOwner c o).ownerOf d = if d = c then o else s.ownerOf d := by
  simp only [State.putOwner_get, eq_comm]

theorem putLineOwner_lineOwnerOf (s : State) (l m : LineId) (o : Option LaneId) :
    (s.putLineOwner l o).lineOwnerOf m = if m = l then o else s.lineOwnerOf m := by
  simp only [State.putLineOwner_get, eq_comm]

theorem putChan_chan (s : State) (c d : ChanId) (x : Channel) :
    (s.putChan c x).chan d = if d = c then x else s.chan d := by
  simp only [State.putChan_get, eq_comm]

/-- Nothing but the claim table, the wait list and the channels differs. -/
def ClaimsOnly (s t : State) : Prop :=
  t = { s with chanOwner := t.chanOwner, lineOwner := t.lineOwner, waitList := t.waitList, channels := t.channels }

theorem ClaimsOnly.refl (s : State) : ClaimsOnly s s := rfl

theorem ClaimsOnly.trans {s t u : State} (h : ClaimsOnly s t) (g : ClaimsOnly t u) : ClaimsOnly s u := by
  unfold ClaimsOnly at *
  rw [g, h]

theorem ClaimsOnly.foldl {ι : Type} {f : State → ι → State} (h : ∀ s i, ClaimsOnly s (f s i)) (is : List ι)
    (s : State) : ClaimsOnly s (is.foldl f s) :=
  foldl_induct (ClaimsOnly s) f (fun _ i hs => hs.trans (h _ i)) is s (ClaimsOnly.refl s)

/-! ### Masks of what a lane holds -/

/-- A mask gathered bit by bit holds the bits of the entries gathered. -/
theorem getLsbD_gather16 {ι : Type} (num : ι → Nat) (p : ι → Bool) (is : List ι) (m : BitVec 16) (i : Nat) (hi : i < 16) :
    (is.foldl (fun m c => if p c = true then m ||| (1#16 <<< num c) else m) m).getLsbD i =
      (m.getLsbD i || is.any fun c => p c && num c == i) := by
  induction is generalizing m with
  | nil => simp
  | cons c is ih =>
    rw [List.foldl_cons, ih, List.any_cons]
    by_cases h : p c = true
    · by_cases hc : num c = i
      · subst hc; simp [h, hi]
      · have : (1#16 <<< num c).getLsbD i = false := by
          simp only [BitVec.getLsbD_shiftLeft, BitVec.getLsbD_one]
          by_cases hl : i < num c
          · simp [hl]
          · simp; omega
        have hb : (num c == i) = false := by simpa using hc
        simp [h, hb, this]
    · simp [h]

theorem getLsbD_gather8 {ι : Type} (num : ι → Nat) (p : ι → Bool) (is : List ι) (m : BitVec 8) (i : Nat) (hi : i < 8) :
    (is.foldl (fun m c => if p c = true then m ||| (1#8 <<< num c) else m) m).getLsbD i =
      (m.getLsbD i || is.any fun c => p c && num c == i) := by
  induction is generalizing m with
  | nil => simp
  | cons c is ih =>
    rw [List.foldl_cons, ih, List.any_cons]
    by_cases h : p c = true
    · by_cases hc : num c = i
      · subst hc; simp [h, hi]
      · have : (1#8 <<< num c).getLsbD i = false := by
          simp only [BitVec.getLsbD_shiftLeft, BitVec.getLsbD_one]
          by_cases hl : i < num c
          · simp [hl]
          · simp; omega
        have hb : (num c == i) = false := by simpa using hc
        simp [h, hb, this]
    · simp [h]

/-- The mask of a lane's channels names exactly the channels it owns. -/
@[simp] theorem inChans_chansHeld (s : State) (k : LaneId) (c : ChanId) :
    inChans (s.chansHeld k) c = decide (s.ownerOf c = some k) := by
  have h := getLsbD_gather16 (fun c : ChanId => c.val) (fun c => decide (s.ownerOf c = some k)) allChans 0 c.val c.isLt
  unfold inChans State.chansHeld
  simp only [decide_eq_true_eq] at h
  rw [h, Bool.eq_iff_iff]
  simp only [BitVec.ofNat_eq_ofNat, BitVec.getLsbD_zero, Bool.false_or, List.any_eq_true, Bool.and_eq_true,
    decide_eq_true_eq, beq_iff_eq]
  constructor
  · rintro ⟨d, _, hd, he⟩
    rwa [Fin.val_inj.mp he] at hd
  · exact fun hc => ⟨c, mem_allChans c, hc, rfl⟩

@[simp] theorem inLines_linesHeld (s : State) (k : LaneId) (l : LineId) :
    inLines (s.linesHeld k) l = decide (s.lineOwnerOf l = some k) := by
  have h := getLsbD_gather8 (fun l : LineId => l.val) (fun l => decide (s.lineOwnerOf l = some k)) allLines 0 l.val l.isLt
  unfold inLines State.linesHeld
  simp only [decide_eq_true_eq] at h
  rw [h, Bool.eq_iff_iff]
  simp only [BitVec.ofNat_eq_ofNat, BitVec.getLsbD_zero, Bool.false_or, List.any_eq_true, Bool.and_eq_true,
    decide_eq_true_eq, beq_iff_eq]
  constructor
  · rintro ⟨d, _, hd, he⟩
    rwa [Fin.val_inj.mp he] at hd
  · exact fun hc => ⟨l, mem_allLines l, hc, rfl⟩

/-! ### Judging and giving -/

theorem entriesEmpty_iff (s : State) (chans : BitVec 16) (lines : BitVec 8) :
    s.entriesEmpty chans lines = true ↔
      (∀ c, inChans chans c = true → s.ownerOf c = none) ∧ ∀ l, inLines lines l = true → s.lineOwnerOf l = none := by
  unfold State.entriesEmpty
  simp only [Bool.and_eq_true, List.all_eq_true, Bool.or_eq_true, Bool.not_eq_true', Option.isNone_iff_eq_none]
  constructor
  · rintro ⟨hc, hl⟩
    refine ⟨fun c h => ?_, fun l h => ?_⟩
    · rcases hc c (mem_allChans c) with h' | h'
      · simp [h] at h'
      · exact h'
    · rcases hl l (mem_allLines l) with h' | h'
      · simp [h] at h'
      · exact h'
  · rintro ⟨hc, hl⟩
    refine ⟨fun c _ => ?_, fun l _ => ?_⟩
    · cases h : inChans chans c
      · exact Or.inl rfl
      · exact Or.inr (hc c h)
    · cases h : inLines lines l
      · exact Or.inl rfl
      · exact Or.inr (hl l h)

theorem overlaps_eq_false_iff (c₁ : BitVec 16) (l₁ : BitVec 8) (c₂ : BitVec 16) (l₂ : BitVec 8) :
    overlaps c₁ l₁ c₂ l₂ = false ↔ c₁ &&& c₂ = 0 ∧ l₁ &&& l₂ = 0 := by
  simp [overlaps]

/-- When a set may be granted (R56, R58). -/
theorem grantable_iff (s : State) (chans : BitVec 16) (lines : BitVec 8) (older : List Waiting) :
    s.grantable chans lines older = true ↔
      (∀ c, inChans chans c = true → s.ownerOf c = none) ∧ (∀ l, inLines lines l = true → s.lineOwnerOf l = none) ∧
        ∀ w ∈ older, chans &&& w.chans = 0 ∧ lines &&& w.lines = 0 := by
  unfold State.grantable
  simp only [Bool.and_eq_true, entriesEmpty_iff, List.all_eq_true, Bool.not_eq_true', overlaps_eq_false_iff, and_assoc]

/-- A grant gives the lane every entry its set names (R56). -/
theorem giveClaims_spec (s : State) (k : LaneId) (chans : BitVec 16) (lines : BitVec 8) :
    s.giveClaims k chans lines =
      { s with chanOwner := (s.giveClaims k chans lines).chanOwner,
               lineOwner := (s.giveClaims k chans lines).lineOwner } ∧
    (∀ c, (s.giveClaims k chans lines).ownerOf c = if inChans chans c = true then some k else s.ownerOf c) ∧
    (∀ l, (s.giveClaims k chans lines).lineOwnerOf l = if inLines lines l = true then some k else s.lineOwnerOf l) := by
  have hl : ∀ (ls : List LineId) (u : State),
      (ls.foldl (fun s l => s.putLineOwner l (some k)) u) =
        { u with lineOwner := (ls.foldl (fun s l => s.putLineOwner l (some k)) u).lineOwner } := by
    intro ls
    induction ls with
    | nil => exact fun u => rfl
    | cons l ls ih => intro u; rw [List.foldl_cons, ih]; rfl
  have hc : ∀ (cs : List ChanId) (u : State),
      (cs.foldl (fun s c => s.putOwner c (some k)) u) =
        { u with chanOwner := (cs.foldl (fun s c => s.putOwner c (some k)) u).chanOwner } := by
    intro cs
    induction cs with
    | nil => exact fun u => rfl
    | cons l ls ih => intro u; rw [List.foldl_cons, ih]; rfl
  unfold State.giveClaims onLines onChans
  refine ⟨?_, fun c => ?_, fun l => ?_⟩
  · rw [hl, hc]
  · rw [foldl_keep (fun s => s.ownerOf c) (fun s l => s.putLineOwner l (some k)) (fun _ _ => rfl)]
    rw [foldl_entry State.ownerOf (fun s c => s.putOwner c (some k)) (fun _ _ => some k)
      (fun s i j => putOwner_ownerOf s i j _) (fun _ _ _ _ => rfl) _ (nodup_allChans.filter _)]
    simp [List.mem_filter, mem_allChans]
  · rw [foldl_entry State.lineOwnerOf (fun s c => s.putLineOwner c (some k)) (fun _ _ => some k)
      (fun s i j => putLineOwner_lineOwnerOf s i j _) (fun _ _ _ _ => rfl) _ (nodup_allLines.filter _)]
    rw [foldl_keep (fun s => s.lineOwnerOf l) (fun s c => s.putOwner c (some k)) (fun _ _ => rfl)]
    simp [List.mem_filter, mem_allLines]

/-! ### Releasing -/

theorem releaseChan_claimsOnly (k : LaneId) (keep : BitVec 16) (s : State) (c : ChanId) :
    ClaimsOnly s (releaseChan k keep s c) := by
  unfold releaseChan clearPending
  split <;> rfl

theorem releaseLine_claimsOnly (k : LaneId) (keep : BitVec 8) (s : State) (l : LineId) :
    ClaimsOnly s (releaseLine k keep s l) := by
  unfold releaseLine
  split <;> rfl

/-- A release (R60, R62): the lane's entries outside the masks become empty and their channels lose their pending target;
the wait list stays. -/
theorem releaseClaims_spec (s : State) (k : LaneId) (chans : BitVec 16) (lines : BitVec 8) :
    s.releaseClaims k chans lines =
      { s with chanOwner := (s.releaseClaims k chans lines).chanOwner,
               lineOwner := (s.releaseClaims k chans lines).lineOwner,
               channels := (s.releaseClaims k chans lines).channels } ∧
    (∀ c, (s.releaseClaims k chans lines).ownerOf c =
      if s.ownerOf c = some k ∧ inChans chans c = false then none else s.ownerOf c) ∧
    (∀ c, (s.releaseClaims k chans lines).chan c =
      if s.ownerOf c = some k ∧ inChans chans c = false then { s.chan c with pending := none } else s.chan c) ∧
    (∀ l, (s.releaseClaims k chans lines).lineOwnerOf l =
      if s.lineOwnerOf l = some k ∧ inLines lines l = false then none else s.lineOwnerOf l) := by
  have hl : ∀ (ls : List LineId) (u : State),
      ls.foldl (releaseLine k lines) u = { u with lineOwner := (ls.foldl (releaseLine k lines) u).lineOwner } := by
    intro ls
    induction ls with
    | nil => exact fun u => rfl
    | cons l ls ih =>
      intro u
      rw [List.foldl_cons, ih]
      unfold releaseLine
      split <;> rfl
  have hc : ∀ (cs : List ChanId) (u : State),
      cs.foldl (releaseChan k chans) u =
        { u with chanOwner := (cs.foldl (releaseChan k chans) u).chanOwner,
                 channels := (cs.foldl (releaseChan k chans) u).channels } := by
    intro cs
    induction cs with
    | nil => exact fun u => rfl
    | cons l ls ih =>
      intro u
      rw [List.foldl_cons, ih]
      unfold releaseChan clearPending
      split <;> rfl
  have howner : ∀ (s : State) (c d : ChanId), (releaseChan k chans s c).ownerOf d =
      if d = c then (if s.ownerOf c = some k ∧ inChans chans c = false then none else s.ownerOf c)
      else s.ownerOf d := by
    intro s c d
    unfold releaseChan clearPending
    by_cases h : s.ownerOf c = some k ∧ inChans chans c = false
    · simp only [h, Bool.not_eq_true', and_self, if_true]
      exact putOwner_ownerOf s c d none
    · simp only [Bool.not_eq_true', h, if_false]
      by_cases hd : d = c <;> simp [hd]
  have hchan : ∀ (s : State) (c d : ChanId), (releaseChan k chans s c).chan d =
      if d = c then (if s.ownerOf c = some k ∧ inChans chans c = false then { s.chan c with pending := none }
        else s.chan c)
      else s.chan d := by
    intro s c d
    unfold releaseChan clearPending
    by_cases h : s.ownerOf c = some k ∧ inChans chans c = false
    · simp only [h, Bool.not_eq_true', and_self, if_true]
      exact putChan_chan (s.putOwner c none) c d _
    · simp only [Bool.not_eq_true', h, if_false]
      by_cases hd : d = c <;> simp [hd]
  have hline : ∀ (s : State) (l m : LineId), (releaseLine k lines s l).lineOwnerOf m =
      if m = l then (if s.lineOwnerOf l = some k ∧ inLines lines l = false then none else s.lineOwnerOf l)
      else s.lineOwnerOf m := by
    intro s c d
    unfold releaseLine
    by_cases h : s.lineOwnerOf c = some k ∧ inLines lines c = false
    · simp only [h, Bool.not_eq_true', and_self, if_true]
      exact putLineOwner_lineOwnerOf s c d none
    · simp only [Bool.not_eq_true', h, if_false]
      by_cases hd : d = c <;> simp [hd]
  unfold State.releaseClaims
  refine ⟨?_, fun c => ?_, fun c => ?_, fun l => ?_⟩
  · rw [hl, hc]
  · rw [foldl_keep (fun s => s.ownerOf c) (releaseLine k lines)
      (fun s l => by unfold releaseLine; split <;> rfl)]
    rw [foldl_entry State.ownerOf (releaseChan k chans) _ howner
      (fun s i j h => by simp only [howner, if_neg (Ne.symm h)]) _ nodup_allChans]
    simp [mem_allChans]
  · rw [foldl_keep (fun s => s.chan c) (releaseLine k lines)
      (fun s l => by unfold releaseLine; split <;> rfl)]
    rw [foldl_entry State.chan (releaseChan k chans) _ hchan
      (fun s i j h => by simp only [hchan, howner, if_neg (Ne.symm h)]) _ nodup_allChans]
    simp [mem_allChans]
  · rw [foldl_entry State.lineOwnerOf (releaseLine k lines) _ hline
      (fun s i j h => by simp only [hline, if_neg (Ne.symm h)]) _ nodup_allLines]
    simp only [mem_allLines, if_true]
    rw [foldl_keep (fun s => s.lineOwnerOf l) (releaseChan k chans)
      (fun s c => by unfold releaseChan clearPending; split <;> rfl)]

theorem releaseClaims_claimsOnly (s : State) (k : LaneId) (chans : BitVec 16) (lines : BitVec 8) :
    ClaimsOnly s (s.releaseClaims k chans lines) := by
  unfold ClaimsOnly
  rw [(releaseClaims_spec s k chans lines).1]

theorem giveClaims_claimsOnly (s : State) (k : LaneId) (chans : BitVec 16) (lines : BitVec 8) :
    ClaimsOnly s (s.giveClaims k chans lines) := by
  unfold ClaimsOnly
  rw [(giveClaims_spec s k chans lines).1]

theorem walkList_claimsOnly (ws kept : List Waiting) (s : State) : ClaimsOnly s (walkList ws kept s).1 := by
  induction ws generalizing kept s with
  | nil => exact ClaimsOnly.refl s
  | cons w ws ih =>
    unfold walkList
    split
    · exact (giveClaims_claimsOnly s _ _ _).trans (ih _ _)
    · exact ih _ _

/-- A walk (R58) changes the claim table alone. -/
theorem walk_claimsOnly (s : State) : ClaimsOnly s (walk s).1 := by
  have h := walkList_claimsOnly s.waitList [] s
  unfold walk
  unfold ClaimsOnly at *
  simp only
  rw [h]

/-- A walk keeps every channel's own state. -/
theorem walkList_channels (ws kept : List Waiting) (s : State) : (walkList ws kept s).1.channels = s.channels := by
  induction ws generalizing kept s with
  | nil => rfl
  | cons w ws ih =>
    unfold walkList
    split
    · simp only
      rw [ih, (giveClaims_spec s _ _ _).1]
    · exact ih _ _

/-- The claim table cleared (R61): no owner, no lane waiting, and no pending target on a channel that was claimed. -/
theorem clearClaims_spec (s : State) :
    ClaimsOnly s s.clearClaims ∧ (∀ c, s.clearClaims.ownerOf c = none) ∧ (∀ l, s.clearClaims.lineOwnerOf l = none) ∧
    s.clearClaims.waitList = [] ∧
    ∀ c, s.clearClaims.chan c =
      { s.chan c with pending := if s.ownerOf c = none then (s.chan c).pending else none } := by
  have hfc : ∀ s c, ClaimsOnly s (clearOwner s c) := by
    intro s c
    simp only [clearOwner, clearPending]
    split <;> rfl
  have howner : ∀ (s : State) (c d : ChanId), (clearOwner s c).ownerOf d = if d = c then none else s.ownerOf d := by
    intro s c d
    simp only [clearOwner, clearPending]
    split
    · exact putOwner_ownerOf s c d none
    · by_cases hd : d = c
      · subst hd; simp_all
      · simp [hd]
  have hchan : ∀ (s : State) (c d : ChanId), (clearOwner s c).chan d =
      if d = c then { s.chan c with pending := if s.ownerOf c = none then (s.chan c).pending else none }
      else s.chan d := by
    intro s c d
    simp only [clearOwner, clearPending]
    cases ho : s.ownerOf c
    · by_cases hd : d = c
      · subst hd; simp
      · simp [hd]
    · simp only [Option.isSome_some, if_true, reduceCtorEq, if_false]
      exact putChan_chan (s.putOwner c none) c d _
  have hline : ∀ (s : State) (l m : LineId), (clearLineOwner s l).lineOwnerOf m =
      if m = l then none else s.lineOwnerOf m := fun s l m => putLineOwner_lineOwnerOf s l m none
  have hfl : ∀ (s : State) (l : LineId), ClaimsOnly s (clearLineOwner s l) := fun _ _ => rfl
  refine ⟨?_, fun c => ?_, fun l => ?_, rfl, fun c => ?_⟩
  · have h := (ClaimsOnly.foldl hfc allChans s).trans (ClaimsOnly.foldl hfl allLines _)
    unfold State.clearClaims
    generalize allLines.foldl clearLineOwner (allChans.foldl clearOwner s) = u at h ⊢
    exact h.trans rfl
  · unfold State.clearClaims
    rw [show ∀ u : State, State.ownerOf { u with waitList := [] } c = u.ownerOf c from fun _ => rfl]
    rw [foldl_keep (fun s => s.ownerOf c) clearLineOwner (fun _ _ => rfl)]
    rw [foldl_entry State.ownerOf clearOwner (fun _ _ => none) howner (fun _ _ _ _ => rfl) _ nodup_allChans]
    simp [mem_allChans]
  · unfold State.clearClaims
    rw [show ∀ u : State, State.lineOwnerOf { u with waitList := [] } l = u.lineOwnerOf l from fun _ => rfl]
    rw [foldl_entry State.lineOwnerOf clearLineOwner (fun _ _ => none) hline (fun _ _ _ _ => rfl) _
      nodup_allLines]
    simp [mem_allLines]
  · unfold State.clearClaims
    rw [show ∀ u : State, State.chan { u with waitList := [] } c = u.chan c from fun _ => rfl]
    rw [foldl_keep (fun s => s.chan c) clearLineOwner (fun _ _ => rfl)]
    rw [foldl_entry State.chan clearOwner _ hchan (fun s i j h => by simp only [hchan, howner, if_neg (Ne.symm h)])
      _ nodup_allChans]
    simp [mem_allChans]

end Sys2Proof.Machine
end

