-- ==== Sys2Proof/Laws/Lanes.lean ====
section
/-! SUPPORT. What a lane's operation, a task, a whole act and an ending from outside can change: exchange memory, the
intake's sets, lanes, claims, channels, lines and shared units, and nothing else of State; with the rule for showing that
an act keeps a property. -/

namespace Sys2Proof.Machine

/-- Nothing but the engine differs: the port, the tick, the configuration, the groups' timing, the last verified duties and
the hold-safe monitor are as they were. -/
def EngineOnly (s t : State) : Prop :=
  t = { s with mem := t.mem, queues := t.queues, parked := t.parked, finished := t.finished, lanes := t.lanes,
               chanOwner := t.chanOwner, lineOwner := t.lineOwner, waitList := t.waitList, channels := t.channels,
               converter := t.converter, monitor := t.monitor, watches := t.watches, lines := t.lines, link := t.link,
               freeIndex := t.freeIndex }

theorem EngineOnly.refl (s : State) : EngineOnly s s := rfl

theorem EngineOnly.trans {s t u : State} (h : EngineOnly s t) (g : EngineOnly t u) : EngineOnly s u := by
  unfold EngineOnly at *
  rw [g, h]

theorem EngineOnly.foldl {ι : Type} {f : State → ι → State} (h : ∀ s i, EngineOnly s (f s i)) (is : List ι) (s : State) :
    EngineOnly s (is.foldl f s) :=
  foldl_induct (EngineOnly s) f (fun _ i hs => hs.trans (h _ i)) is s (EngineOnly.refl s)

theorem ChansOnly.engine {s t : State} (h : ChansOnly s t) : EngineOnly s t := by
  unfold ChansOnly at h
  unfold EngineOnly
  rw [h]

theorem LinesOnly.engine {s t : State} (h : LinesOnly s t) : EngineOnly s t := by
  unfold LinesOnly at h
  unfold EngineOnly
  rw [h]

theorem ClaimsOnly.engine {s t : State} (h : ClaimsOnly s t) : EngineOnly s t := by
  unfold ClaimsOnly at h
  unfold EngineOnly
  rw [h]

/-- The fields an engine change keeps. -/
theorem EngineOnly.keeps {s t : State} (h : EngineOnly s t) :
    t.pending = s.pending ∧ t.ready = s.ready ∧ t.configDefault = s.configDefault ∧ t.crcFlag = s.crcFlag ∧
    t.portFault = s.portFault ∧ t.crcCount = s.crcCount ∧ t.result = s.result ∧ t.frame = s.frame ∧ t.tick = s.tick ∧
    t.config = s.config ∧ t.groups = s.groups ∧ t.rampMovesDue = s.rampMovesDue ∧ t.lastVerified = s.lastVerified ∧
    t.holdSafe = s.holdSafe := by
  unfold EngineOnly at h
  rw [h]
  simp

theorem store_engine (s : State) (a : Nat) (bs : List Byte) : EngineOnly s (s.store a bs) := rfl
theorem setLane_engine (s : State) (k : LaneId) (l : Lane) : EngineOnly s (s.setLane k l) := rfl
theorem putWatch_engine (s : State) (k : LaneId) (w : Watch) : EngineOnly s (s.putWatch k w) := rfl
theorem setQueue_engine (s : State) (k : LaneId) (q : List SlotId) : EngineOnly s (s.setQueue k q) := rfl
theorem withParked_engine (s : State) (ns : List SlotId) : EngineOnly s { s with parked := ns } := rfl
theorem withWaitList_engine (s : State) (ws : List Waiting) : EngineOnly s { s with waitList := ws } := rfl
theorem withConverter_engine (s : State) (x : Converter) : EngineOnly s { s with converter := x } := rfl
theorem withMonitor_engine (s : State) (x : DutyMonitor) : EngineOnly s { s with monitor := x } := rfl
theorem withLink_engine (s : State) (x : Link) : EngineOnly s { s with link := x } := rfl
theorem withFreeIndex_engine (s : State) (i : Nat) : EngineOnly s { s with freeIndex := i } := rfl

/-! ### Shared units -/

theorem grantConverter_engine (s : State) (k : LaneId) : EngineOnly s (grantConverter s k) := rfl

theorem requestConverter_engine (s : State) (k : LaneId) : EngineOnly s (requestConverter s k) := by
  unfold requestConverter
  split <;> rfl

theorem releaseConverter_engine (s : State) : EngineOnly s (releaseConverter s) := by
  unfold releaseConverter
  split <;> rfl

theorem selectChannel_engine (s : State) (c : ChanId) : EngineOnly s (selectChannel s c) := rfl
theorem selectNone_engine (s : State) : EngineOnly s (selectNone s) := rfl

theorem grantMonitor_engine (s : State) (k : LaneId) : EngineOnly s (grantMonitor s k) := by
  unfold grantMonitor
  split <;> rfl

theorem requestMonitor_engine (s : State) (k : LaneId) : EngineOnly s (requestMonitor s k) := by
  unfold requestMonitor
  split
  · exact grantMonitor_engine s k
  · rfl

theorem releaseMonitor_engine (s : State) : EngineOnly s (releaseMonitor s) := by
  unfold releaseMonitor
  split
  · rfl
  · exact (withMonitor_engine s _).trans (grantMonitor_engine _ _)

theorem requestLink_engine (s : State) (k : LaneId) : EngineOnly s (requestLink s k) := by
  unfold requestLink
  split <;> rfl

theorem releaseLink_engine (s : State) : EngineOnly s (releaseLink s) := by
  unfold releaseLink
  split <;> rfl

/-! ### Slots -/

theorem writeResults_engine (s : State) (n : SlotId) (first : Nat) (r : StepResult) :
    EngineOnly s (writeResults s n first r) := by
  unfold writeResults
  exact EngineOnly.foldl (f := fun t i => writeResult t n i r) (fun _ _ => rfl) _ s

theorem skipFrom_engine (s : State) (n : SlotId) (first : Nat) : EngineOnly s (skipFrom s n first) :=
  writeResults_engine s n first _

theorem finishSlot_engine (s : State) (n : SlotId) (st : SlotState) (reason : EndReason) (detail : Byte) :
    EngineOnly s (finishSlot s n st reason detail) := rfl

theorem recordResult_engine (s : State) (k : LaneId) (n : SlotId) (i : StepId) (r : StepResult) :
    EngineOnly s (recordResult s k n i r) :=
  (((store_engine s _ _).trans (store_engine _ _ _)).trans (setLane_engine _ _ _)).trans (putWatch_engine _ _ _)

theorem storeWindow_engine (s : State) (k : LaneId) (off : Nat) (bs : List Byte) :
    EngineOnly s (s.storeWindow k off bs) := by
  induction bs generalizing s off with
  | nil => rfl
  | cons b bs ih => exact (store_engine s _ [b]).trans (ih _ _)

theorem storeSample_engine (s : State) (k : LaneId) (n : Nat) (code : Duty) : EngineOnly s (storeSample s k n code) := by
  unfold storeSample
  split
  · simp only
    split <;> (try split) <;>
      first
        | exact storeWindow_engine _ _ _ _
        | exact (storeWindow_engine _ _ _ _).trans (setLane_engine _ _ _)
        | rfl
  · rfl

theorem completeHalfPair_engine (s : State) (k : LaneId) (count : Nat) : EngineOnly s (completeHalfPair s k count) := by
  unfold completeHalfPair
  split
  · rfl
  · exact storeSample_engine _ _ _ _

/-! ### Ends of steps, slots and chains -/

theorem endSlot_engine (s : State) (k : LaneId) (n : SlotId) (st : SlotState) (reason : EndReason) (detail : Byte) :
    EngineOnly s (endSlot s k n st reason detail).1 := by
  unfold endSlot chainEnd
  refine (finishSlot_engine s n st reason detail).trans ?_
  generalize finishSlot s n st reason detail = u
  have h : EngineOnly u (if u.offAtEnd n then onChans (u.chansHeld k) turnOffOn u else u) := by
    split
    · exact (onChans_turnOffOn _ u).1.engine
    · rfl
  refine h.trans ?_
  generalize (if u.offAtEnd n then onChans (u.chansHeld k) turnOffOn u else u) = v
  exact ((releaseClaims_claimsOnly v k 0 0).engine.trans (walk_claimsOnly _).engine).trans (setLane_engine _ _ _)

theorem startSlot_engine (s : State) (n : SlotId) : EngineOnly s (startSlot s n) :=
  (store_engine s _ _).trans (store_engine _ _ _)

theorem continued_engine (s : State) (k : LaneId) (n c : SlotId) : EngineOnly s (continued s k n c) := by
  unfold continued
  exact (((finishSlot_engine s n _ _ _).trans (withParked_engine _ _)).trans (startSlot_engine _ c)).trans
    (setLane_engine _ k _)

theorem switchTo_engine (s : State) (k : LaneId) (n c : SlotId) : EngineOnly s (switchTo s k n c).1 := by
  unfold switchTo
  refine (continued_engine s k n c).trans ?_
  generalize continued s k n c = v
  have h := (releaseClaims_claimsOnly v k (v.chanClaim c) (v.lineClaim c)).engine
  unfold trimThenEnter
  generalize v.releaseClaims k (v.chanClaim c) (v.lineClaim c) = w at h ⊢
  have hw := h.trans (walk_claimsOnly w).engine
  dsimp only
  split
  · exact hw
  · exact h

theorem judgeSlot_engine (s : State) (k : LaneId) (n : SlotId) : EngineOnly s (judgeSlot s k n).1 := by
  unfold judgeSlot continueWith
  split
  · exact endSlot_engine _ _ _ _ _ _
  · split
    · split
      · split
        · exact switchTo_engine _ _ _ _
        · exact endSlot_engine _ _ _ _ _ _
      · exact endSlot_engine _ _ _ _ _ _
    · exact endSlot_engine _ _ _ _ _ _

theorem afterStep_engine (s : State) (k : LaneId) (n : SlotId) (i : StepId) (cont : Bool) (o : StepOutcome) :
    EngineOnly s (afterStep s k n i cont o).1 := by
  unfold afterStep
  split
  · split
    · rfl
    · exact judgeSlot_engine _ _ _
  · exact (skipFrom_engine _ _ _).trans (endSlot_engine _ _ _ _ _ _)

theorem stepEnd_engine (s : State) (k : LaneId) (r : StepResult) : EngineOnly s (stepEnd s k r).1 := by
  unfold stepEnd
  split
  · exact (recordResult_engine _ _ _ _ _).trans (afterStep_engine _ _ _ _ _ _)
  · rfl

theorem stepEndsSlot_engine (s : State) (k : LaneId) (r : StepResult) (st : SlotState) (reason : EndReason) :
    EngineOnly s (stepEndsSlot s k r st reason).1 := by
  unfold stepEndsSlot
  split
  · exact ((recordResult_engine _ _ _ _ _).trans (skipFrom_engine _ _ _)).trans (endSlot_engine _ _ _ _ _ _)
  · rfl

/-! ### Tasks and acts -/

theorem beginTrigger_engine (s : State) (k : LaneId) (p : CycleParams) : EngineOnly s (beginTrigger s k p).1 := by
  unfold beginTrigger acceptTrigger
  split
  · exact requestConverter_engine s k
  · split
    · exact requestConverter_engine s k
    · rfl
  · split
    · rfl
    · exact stepEnd_engine _ _ _
  · split
    · rfl
    · exact stepEnd_engine _ _ _

theorem endSettle_engine (s : State) (k : LaneId) : EngineOnly s (endSettle s k) :=
  (putWatch_engine s _ _).trans (requestMonitor_engine _ k)

theorem serveStep_engine (s : State) (k : LaneId) (c : StepCmd) : EngineOnly s (serveStep s k c).1 := by
  cases c with
  | set m t r staged settle =>
    unfold serveStep stepPass
    simp only
    split
    · exact (onChans_stageOn m t r s).1.engine.trans (stepEnd_engine _ _ _)
    · split
      · exact (onChans_setOn m t r s).1.engine.trans rfl
      · exact (onChans_setOn m t r s).1.engine.trans (stepEnd_engine _ _ _)
  | apply m => exact (onChans_applyOn _ s).1.engine.trans (stepEnd_engine _ _ _)
  | off m r => exact (onChans_offOn m r s).1.engine.trans (stepEnd_engine _ _ _)
  | delay n =>
    unfold serveStep stepPass
    simp only
    split
    · exact stepEnd_engine _ _ _
    · rfl
  | cycle p => exact beginTrigger_engine s k p
  | verify m p =>
    unfold serveStep
    simp only
    split
    · exact endSettle_engine s k
    · rfl
  | link p => exact requestLink_engine s k
  | lines m mode levels => exact (onLines_lineSetOn m mode levels s).1.engine.trans (stepEnd_engine _ _ _)
  | awaitGo => rfl

theorem startStep_engine (s : State) (k : LaneId) (i : StepId) : EngineOnly s (startStep s k i).1 := by
  unfold startStep
  split
  · rfl
  · simp only
    split
    · exact EngineOnly.trans ((store_engine _ _ _).trans (setLane_engine _ _ _)) (serveStep_engine _ _ _)
    · exact (store_engine _ _ _).trans (setLane_engine _ _ _)

theorem requestClaims_engine (s : State) (k : LaneId) (n : SlotId) : EngineOnly s (requestClaims s k n).1 := by
  unfold requestClaims
  simp only
  split
  · exact (giveClaims_claimsOnly _ _ _ _).engine
  · rfl

theorem takeHead_engine (s : State) (k : LaneId) : EngineOnly s (takeHead s k).1 := by
  unfold takeHead
  split
  · split
    · rfl
    · exact (((setQueue_engine s _ _).trans ((store_engine _ _ _).trans (store_engine _ _ _))).trans
        (setLane_engine _ _ _)).trans (requestClaims_engine _ _ _)
  · rfl

theorem judgeWait_engine (s : State) (k : LaneId) : EngineOnly s (judgeWait s k).1 := by
  unfold judgeWait
  split
  · split <;> rfl
  · split
    · exact endSettle_engine _ _
    · rfl
  · rfl

theorem reportChan_engine (s : State) (c : ChanId) : EngineOnly s (reportChan s c).1 := by
  unfold reportChan
  split
  · exact judgeWait_engine _ _
  · rfl

/-- An act of the channel block with its reports changes the engine alone. -/
theorem reported_engine {f : State → ChanId → State} (hf : ∀ s c, EngineOnly s (f s c)) (cs : List ChanId) (s : State) :
    EngineOnly s (reported f cs s).1 := by
  induction cs generalizing s with
  | nil => rfl
  | cons c cs ih => exact ((hf s c).trans (reportChan_engine _ c)).trans (ih _)

/-- A task changes the engine alone. -/
theorem runTask_engine (t : Task) (s : State) : EngineOnly s (runTask t s).1 := by
  cases t with
  | startStep k i => exact startStep_engine s k i
  | enter k =>
    unfold runTask enterSlot
    simp only
    split
    · rfl
    · split <;> rfl
  | take k => exact takeHead_engine s k
  | release k =>
    unfold runTask releaseGo stepPass
    simp only
    split
    · rfl
    · split
      · exact stepEnd_engine _ _ _
      · rfl
  | settled k => exact stepEnd_engine _ _ _

/-- What every task keeps, an act keeps. -/
theorem drain_induct (P : State → Prop) (h : ∀ t s, P s → P (runTask t s).1) (fuel : Nat) (ts : List Task) (s : State)
    (hs : P s) : P (drain fuel ts s).1 := by
  induction fuel generalizing ts s with
  | zero => cases ts <;> exact hs
  | succ n ih =>
    cases ts with
    | nil => exact hs
    | cons t ts => exact ih _ _ (h t s hs)

/-- An act carried out keeps what its first part and every task keep. -/
theorem finishAct_induct (P : State → Prop) (h : ∀ t s, P s → P (runTask t s).1) (a : Act) (ha : P a.1) :
    P (finishAct a) := drain_induct P h _ _ _ ha

theorem finishAct_engine (a : Act) : EngineOnly a.1 (finishAct a) :=
  finishAct_induct (EngineOnly a.1) (fun t s hs => hs.trans (runTask_engine t s)) a (EngineOnly.refl _)

/-- Fuel left over changes nothing. -/
theorem drain_enough (n m : Nat) (ts : List Task) (s : State) (h : (drain n ts s).2 = []) :
    drain (n + m) ts s = drain n ts s := by
  induction n generalizing ts s with
  | zero =>
    cases ts with
    | nil => cases 0 + m <;> rfl
    | cons t ts => cases h
  | succ n ih =>
    cases ts with
    | nil => cases n + 1 + m <;> rfl
    | cons t ts =>
      rw [Nat.add_right_comm]
      exact ih _ _ h

/-- Two amounts of fuel that both carry the tasks out lead to one state. -/
theorem drain_unique (n m : Nat) (ts : List Task) (s : State) (hn : (drain n ts s).2 = []) (hm : (drain m ts s).2 = []) :
    drain n ts s = drain m ts s := by
  rw [← drain_enough n m ts s hn, Nat.add_comm, drain_enough m n ts s hm]

/-- An act without tasks is over. -/
@[simp] theorem finishAct_nil (s : State) : finishAct (s, []) = s := by
  unfold finishAct drain
  rfl

/-! ### Endings from outside -/

theorem stopServing_engine (s : State) (k : LaneId) : EngineOnly s (stopServing s k) := by
  unfold stopServing
  split <;>
    first
      | rfl
      | exact releaseConverter_engine s
      | exact releaseMonitor_engine s

theorem endByCause_engine (s : State) (k : LaneId) (cause : EndCause) (r : StepResult) :
    EngineOnly s (endByCause s k cause r).1 := by
  unfold endByCause
  split
  · exact stepEnd_engine _ _ _
  all_goals exact stepEndsSlot_engine _ _ _ _ _

theorem endStepNow_engine (s : State) (k : LaneId) (cause : EndCause) : EngineOnly s (endStepNow s k cause).1 := by
  have h : EngineOnly s (settleHalfPair s k cause) := by
    unfold settleHalfPair
    split
    · exact completeHalfPair_engine _ _ _
    · rfl
  exact (h.trans (stopServing_engine _ k)).trans (endByCause_engine _ _ _ _)

theorem endWindDown_engine (s : State) (k : LaneId) (cause : EndCause) : EngineOnly s (endWindDown s k cause).1 :=
  (releaseLink_engine s).trans (endByCause_engine _ _ _ _)

theorem windDown_engine (s : State) (k : LaneId) (cause : EndCause) : EngineOnly s (windDown s k cause).1 := by
  unfold windDown
  simp only
  split
  · split
    · rfl
    · exact (((setLane_engine s _ _).trans (withLink_engine _ _)).trans (withFreeIndex_engine _ _)).trans
        (endWindDown_engine _ _ _)
  · rfl

/-- A plan timeout, an abort or the safe order on a lane changes the engine alone. -/
theorem cutLane_engine (s : State) (k : LaneId) (cause : EndCause) : EngineOnly s (cutLane s k cause).1 := by
  have hw : EngineOnly s (endWaiting s k cause).1 := by
    unfold endWaiting
    split
    · rfl
    · exact (withWaitList_engine s _).trans ((skipFrom_engine _ _ _).trans (endSlot_engine _ _ _ _ _ _))
  unfold cutLane
  split
  · rfl
  · exact hw
  · exact hw
  · split
    · exact windDown_engine _ _ _
    · exact endStepNow_engine _ _ _
  · unfold recause
    split <;> rfl

theorem timeOutStep_engine (s : State) (k : LaneId) : EngineOnly s (timeOutStep s k).1 := by
  unfold timeOutStep
  split
  · exact windDown_engine _ _ _
  · exact endStepNow_engine _ _ _

end Sys2Proof.Machine
end

