-- ==== Sys2Proof/Laws/Link.lean ====
section
/-! SUPPORT. The fixture link before and after its wait for a wire has run out (Units.lean, Endings.lean,
LinkEvents.lean): which transfer goes on, and what a wind-down order does. -/

namespace Sys2Proof.Machine

/-- The wait has run out once it has reached the stretch limit (R142). -/
theorem linkWaitOver_eq_true (s : State) : s.linkWaitOver = true ↔ s.config.stretch.toNat ≤ s.link.waited :=
  decide_eq_true_iff

/-- It has not before (R142). -/
theorem linkWaitOver_eq_false (s : State) : s.linkWaitOver = false ↔ s.link.waited < s.config.stretch.toNat := by
  rw [← Bool.not_eq_true, linkWaitOver_eq_true, Nat.not_le]

/-- Until then the transfer of the lane that holds the link goes on. -/
theorem linkServed_of_waiting (s : State) (h : s.linkWaitOver = false) : s.linkServed = s.linkHolder := by
  unfold State.linkServed
  rw [h]
  rfl

/-- Then none does (R142). -/
theorem linkServed_of_over (s : State) (h : s.linkWaitOver = true) : s.linkServed = none := by
  unfold State.linkServed
  rw [h]
  rfl

/-- The lane and the link after a wind-down order that leaves the link something to finish (R48, R152). -/
def wound (s : State) (k : LaneId) (cause : EndCause) : State :=
  let t := s.setLane k { s.lane k with state := .winding, stepTimer := none, cause := some cause }
  { t with link := { t.link with windDown := true } }

/-- Outside START, and on a stuck bus, an order marks the link and its lane and nothing else (R152, R153). -/
theorem windDown_marks (s : State) (k : LaneId) (cause : EndCause)
    (h : s.link.phase ≠ .start ∨ s.linkWaitOver = true) : windDown s k cause = (wound s k cause, []) := by
  have hn : ¬((wound s k cause).link.phase = .start ∧ (wound s k cause).linkWaitOver = false) := by
    rintro ⟨h1, h2⟩
    rcases h with h | h
    · exact h h1
    · exact absurd (h.symm.trans h2) Bool.noConfusion
  exact if_neg hn

/-- In START before the limit the order ends the transfer at once or not, by a free value (R152; log 8). -/
theorem windDown_start (s : State) (k : LaneId) (cause : EndCause) (h : s.link.phase = .start)
    (hw : s.linkWaitOver = false) :
    windDown s k cause =
      let t := { wound s k cause with freeIndex := s.freeIndex + 1 }
      if Config.startBeingDriven s.freeIndex then (t, []) else endWindDown t k cause :=
  if_pos ⟨h, hw⟩

end Sys2Proof.Machine
end

