-- ==== Sys2Proof/Laws/Memory.lean ====
section
/-! SUPPORT. Exchange memory: every operation keeps the canonical form, the memory after reset has it, a byte written is
read back, and every other byte reads as before. -/

namespace Sys2Proof.Machine

/-- The least address a memory in canonical form lists is above every address written before it. -/
theorem Memory.write_bound {m : Memory} {a : Nat} {v : Byte} {b : Nat} (hab : b < a)
    (hm : ∀ c ∈ m, b < c.1) : ∀ c ∈ m.write a v, b < c.1 := by
  induction m with
  | nil =>
    intro c hc
    simp only [Memory.write] at hc
    split at hc <;> simp_all
  | cons d m ih =>
    obtain ⟨e, w⟩ := d
    have hd : b < e := hm (e, w) List.mem_cons_self
    have ht : ∀ c ∈ m, b < c.1 := fun c hc => hm c (List.mem_cons_of_mem _ hc)
    intro c hc
    simp only [Memory.write] at hc
    split at hc
    · split at hc <;> simp only [List.mem_cons] at hc
      · rcases hc with rfl | h
        · exact hd
        · exact ht c h
      · rcases hc with rfl | rfl | h
        · exact hab
        · exact hd
        · exact ht c h
    · split at hc
      · split at hc
        · exact ht c hc
        · simp only [List.mem_cons] at hc
          rcases hc with rfl | h
          · exact hab
          · exact ht c h
      · simp only [List.mem_cons] at hc
        rcases hc with rfl | h
        · exact hd
        · exact ih ht c h

/-- A byte write keeps the canonical form. -/
theorem Memory.wf_write {m : Memory} (h : m.wf) (a : Nat) (v : Byte) : (m.write a v).wf := by
  induction m with
  | nil =>
    simp only [Memory.write]
    split
    · exact h
    · exact ⟨List.pairwise_singleton _ _, by simpa using ‹¬v = 0›⟩
  | cons d m ih =>
    obtain ⟨e, w⟩ := d
    obtain ⟨hp, hz⟩ := h
    rw [List.pairwise_cons] at hp
    have hw : w ≠ 0 := hz (e, w) List.mem_cons_self
    have hzt : ∀ c ∈ m, c.2 ≠ 0 := fun c hc => hz c (List.mem_cons_of_mem _ hc)
    have hm : Memory.wf m := ⟨hp.2, hzt⟩
    simp only [Memory.write]
    split
    · rename_i hlt
      split
      · exact ⟨List.pairwise_cons.mpr hp, hz⟩
      · rename_i hv
        refine ⟨List.pairwise_cons.mpr ⟨?_, List.pairwise_cons.mpr hp⟩, ?_⟩
        · intro c hc
          rcases List.mem_cons.mp hc with rfl | hc
          · exact hlt
          · exact Nat.lt_trans hlt (hp.1 c hc)
        · intro c hc
          rcases List.mem_cons.mp hc with rfl | hc
          · exact hv
          · exact hz c hc
    · rename_i hle
      split
      · rename_i heq
        subst heq
        split
        · exact hm
        · rename_i hv
          refine ⟨List.pairwise_cons.mpr ⟨hp.1, hp.2⟩, ?_⟩
          intro c hc
          rcases List.mem_cons.mp hc with rfl | hc
          · exact hv
          · exact hzt c hc
      · rename_i hne
        have hea : e < a := by omega
        refine ⟨List.pairwise_cons.mpr ⟨Memory.write_bound hea hp.1, (ih hm).1⟩, ?_⟩
        intro c hc
        rcases List.mem_cons.mp hc with rfl | hc
        · exact hw
        · exact (ih hm).2 c hc

/-- A write of several bytes keeps the canonical form. -/
theorem Memory.wf_writeBytes {m : Memory} (h : m.wf) (a : Nat) (vs : List Byte) : (m.writeBytes a vs).wf := by
  induction vs generalizing m a with
  | nil => exact h
  | cons v vs ih => exact ih (Memory.wf_write h a v) (a + 1)

/-- The memory after reset lists nothing, in canonical form. -/
theorem State.reset_memory : State.reset.mem = [] ∧ Memory.wf State.reset.mem :=
  ⟨rfl, List.Pairwise.nil, by simp [State.reset, State.afterReset]⟩

/-- An address below every listed one reads 00h. -/
theorem Memory.read_below {m : Memory} {a : Nat} (h : ∀ c ∈ m, a < c.1) : m.read a = 0 := by
  induction m with
  | nil => rfl
  | cons d m ih =>
    obtain ⟨e, w⟩ := d
    have hd : a < e := h (e, w) List.mem_cons_self
    simp only [Memory.read]
    rw [if_neg (by omega)]
    exact ih fun c hc => h c (List.mem_cons_of_mem _ hc)

/-- A byte written is read back, and every other byte reads as before. -/
theorem Memory.read_write {m : Memory} (h : m.wf) (a b : Nat) (v : Byte) :
    (m.write a v).read b = if a = b then v else m.read b := by
  induction m with
  | nil =>
    simp only [Memory.write]
    by_cases hv : v = 0
    · simp [hv, Memory.read]
    · rw [if_neg hv]
      rfl
  | cons d m ih =>
    obtain ⟨e, w⟩ := d
    obtain ⟨hp, hz⟩ := h
    rw [List.pairwise_cons] at hp
    have hm : Memory.wf m := ⟨hp.2, fun c hc => hz c (List.mem_cons_of_mem _ hc)⟩
    have low (x : Nat) (hx : x ≤ e) : Memory.read m x = 0 :=
      Memory.read_below fun c hc => Nat.lt_of_le_of_lt hx (hp.1 c hc)
    simp only [Memory.write]
    split
    · rename_i hlt
      by_cases hv : v = 0
      · by_cases hab : a = b
        · subst hab
          simp [hv, Memory.read, Nat.ne_of_gt hlt, low a (Nat.le_of_lt hlt)]
        · simp [hv, hab]
      · simp only [hv, if_false]
        by_cases hab : a = b <;> simp [Memory.read, hab]
    · rename_i hle
      split
      · rename_i heq
        subst heq
        by_cases hv : v = 0
        · by_cases hab : a = b
          · subst hab
            simp [hv, low a (Nat.le_refl a)]
          · simp [hv, hab, Memory.read]
        · simp only [hv, if_false]
          by_cases hab : a = b <;> simp [Memory.read, hab]
      · rename_i hne
        simp only [Memory.read, ih hm]
        by_cases heb : e = b
        · have : ¬a = b := by omega
          simp [heb, this]
        · simp [heb]

/-- Bytes written are read back, and every byte outside them reads as before. -/
theorem Memory.read_writeBytes {m : Memory} (h : m.wf) (a b : Nat) (vs : List Byte) :
    (m.writeBytes a vs).read b = if a ≤ b ∧ b < a + vs.length then vs.getD (b - a) 0 else m.read b := by
  induction vs generalizing m a with
  | nil =>
    simp only [Memory.writeBytes, List.length_nil]
    rw [if_neg (by omega)]
  | cons v vs ih =>
    simp only [Memory.writeBytes, List.length_cons]
    rw [ih (Memory.wf_write h a v) (a + 1), Memory.read_write h]
    by_cases h1 : a = b
    · subst h1
      rw [if_neg (by omega), if_pos rfl, if_pos (by omega)]
      simp
    · rw [if_neg h1]
      by_cases h2 : a + 1 ≤ b ∧ b < a + 1 + vs.length
      · rw [if_pos h2, if_pos (by omega)]
        obtain ⟨j, rfl⟩ : ∃ j, b = a + 1 + j := ⟨b - (a + 1), by omega⟩
        have e1 : a + 1 + j - (a + 1) = j := by omega
        have e2 : a + 1 + j - a = j + 1 := by omega
        rw [e1, e2, List.getD_cons_succ]
      · rw [if_neg h2, if_neg (by omega)]

/-- Storing bytes keeps the canonical form of the state's memory. -/
theorem State.wf_store {s : State} (h : Memory.wf s.mem) (a : Nat) (vs : List Byte) : Memory.wf (s.store a vs).mem :=
  Memory.wf_writeBytes h a vs

/-! ### Reads elsewhere -/

/-- A byte write leaves every other address as it reads, canonical form or not. -/
theorem Memory.read_write_ne (m : Memory) {a b : Nat} (v : Byte) (h : a ≠ b) : (m.write a v).read b = m.read b := by
  induction m with
  | nil =>
    simp only [Memory.write]
    split
    · rfl
    · simp [Memory.read, h]
  | cons d m ih =>
    obtain ⟨e, w⟩ := d
    simp only [Memory.write]
    split_ifs with h1 h2 h3 h4
    · rfl
    · simp [Memory.read, h]
    · subst h3; simp [Memory.read, h]
    · subst h3; simp [Memory.read, h]
    · simp only [Memory.read, ih]

/-- A write of bytes leaves every address outside them as it reads. -/
theorem Memory.read_writeBytes_out (m : Memory) (a b : Nat) (vs : List Byte) (h : b < a ∨ a + vs.length ≤ b) :
    (m.writeBytes a vs).read b = m.read b := by
  induction vs generalizing m a with
  | nil => rfl
  | cons v vs ih =>
    simp only [List.length_cons] at h
    simp only [Memory.writeBytes]
    rw [ih _ _ (by omega), Memory.read_write_ne _ _ (by omega)]

/-- The bytes written are read back. -/
theorem Memory.read_writeBytes_in {m : Memory} (h : m.wf) (a : Nat) (vs : List Byte) (i : Nat) (hi : i < vs.length) :
    (m.writeBytes a vs).read (a + i) = vs[i] := by
  rw [Memory.read_writeBytes h, if_pos (by omega)]
  simp [hi]

end Sys2Proof.Machine
end

