-- ==== Sys2Proof/Laws/PerInstr.lean ====
section
/-! SUPPORT. Per-command lemmas about the commands as syntax: an event inside the part is well-formed with every operand,
but for CHANNEL_PERIOD_START, whose period must have lasted some time (log 21). -/

namespace Sys2Proof.Laws.EventOperands

/-- An event is well-formed, unless it is a period start after a period of no time. -/
def Statement (i : Instr) : Prop :=
  i.isEvent = true → (∀ c : ChanId, i ≠ .channelPeriodStart c 0 0) → i.wellFormed = true

theorem post (slot : Byte) : Statement (.post slot) := fun h _ => Bool.noConfusion h
theorem abort (slot : Byte) : Statement (.abort slot) := fun h _ => Bool.noConfusion h
theorem go (lanes : BitVec 4) (apply : Bool) : Statement (.go lanes apply) := fun h _ => Bool.noConfusion h
theorem renew : Statement .renew := fun h _ => Bool.noConfusion h
theorem loadConfig : Statement .loadConfig := fun h _ => Bool.noConfusion h
theorem engineReset : Statement .engineReset := fun h _ => Bool.noConfusion h
theorem monitorOn : Statement .monitorOn := fun h _ => Bool.noConfusion h
theorem resume : Statement .resume := fun h _ => Bool.noConfusion h
theorem clearFlags : Statement .clearFlags := fun h _ => Bool.noConfusion h
theorem unknownCommand (code : Byte) : Statement (.unknownCommand code) := fun h _ => Bool.noConfusion h
theorem finishedWrite (mask : Word) : Statement (.finishedWrite mask) := fun h _ => Bool.noConfusion h
theorem readOnlyRegisterWrite (addr : Half) (data : List Byte) : Statement (.readOnlyRegisterWrite addr data) :=
  fun h _ => Bool.noConfusion h
theorem writeFrame (addr : Half) (data : List Byte) (crc : Half) : Statement (.writeFrame addr data crc) :=
  fun h _ => Bool.noConfusion h
theorem readFrame (addr : Half) (lengthLess1 : Byte) (crc : Half) : Statement (.readFrame addr lengthLess1 crc) :=
  fun h _ => Bool.noConfusion h
theorem badOperationByte (op : Byte) : Statement (.badOperationByte op) := fun h _ => Bool.noConfusion h
theorem earlyNcsRise (bits : Nat) : Statement (.earlyNcsRise bits) := fun h _ => Bool.noConfusion h
theorem deviceReset : Statement .deviceReset := fun h _ => Bool.noConfusion h
theorem deviceResetEnd (strap : Bool) (levels : BitVec 8) : Statement (.deviceResetEnd strap levels) :=
  fun h _ => Bool.noConfusion h
theorem tick : Statement .tick := fun _ _ => rfl
theorem rampMove : Statement .rampMove := fun _ _ => rfl
theorem stepTimeout (lane : LaneId) : Statement (.stepTimeout lane) := fun _ _ => rfl
theorem planTimeout (lane : LaneId) : Statement (.planTimeout lane) := fun _ _ => rfl
theorem delayExpiry (lane : LaneId) : Statement (.delayExpiry lane) := fun _ _ => rfl
theorem triggerDelayExpiry (lane : LaneId) : Statement (.triggerDelayExpiry lane) := fun _ _ => rfl
theorem confirmationExpiry (lane : LaneId) : Statement (.confirmationExpiry lane) := fun _ _ => rfl
theorem sampleWaitExpiry : Statement .sampleWaitExpiry := fun _ _ => rfl
theorem conversionEnd (code : Duty) : Statement (.conversionEnd code) := fun _ _ => rfl
theorem levelChange (line : LineId) : Statement (.levelChange line) := fun _ _ => rfl
theorem groupPeriodStart (group : GroupId) : Statement (.groupPeriodStart group) := fun _ _ => rfl
theorem channelPeriodStart (chan : ChanId) (high low : Nat) : Statement (.channelPeriodStart chan high low) := by
  intro _ h
  simp only [Instr.wellFormed, decide_eq_true_eq]
  rcases Nat.eq_zero_or_pos (high + low) with e | e
  · obtain ⟨rfl, rfl⟩ := Nat.add_eq_zero_iff.mp e
    exact absurd rfl (h chan)
  · exact e
theorem measurementEnd : Statement .measurementEnd := fun _ _ => rfl
theorem linkStartDone : Statement .linkStartDone := fun _ _ => rfl
theorem linkByteSent (ack : Bool) : Statement (.linkByteSent ack) := fun _ _ => rfl
theorem linkByteRead (byte : Byte) : Statement (.linkByteRead byte) := fun _ _ => rfl
theorem linkRestartDone : Statement .linkRestartDone := fun _ _ => rfl
theorem recoveryComplete : Statement .recoveryComplete := fun _ _ => rfl
theorem linkStopComplete : Statement .linkStopComplete := fun _ _ => rfl
theorem busStuck : Statement .busStuck := fun _ _ => rfl
theorem pollIntervalExpiry (lane : LaneId) : Statement (.pollIntervalExpiry lane) := fun _ _ => rfl
theorem monitorExpiry : Statement .monitorExpiry := fun _ _ => rfl
theorem linkReadAckBitEnd : Statement .linkReadAckBitEnd := fun _ _ => rfl

end Sys2Proof.Laws.EventOperands
end

