-- ==== Sys2Proof/Laws/Port.lean ====
section
/-! SUPPORT. The five mapped areas of the control port space as address ranges (R1), and when a frame's range lies whole
in one (R171); the frame that carries a host command. -/

namespace Sys2Proof.Machine

/-- The first address of an area and the one past its last. -/
def Area.lo : Area → Nat
  | .config => 0x0000 | .slots => 0x0200 | .status => 0x2E00 | .capture => 0x3000 | .registers => 0x7F00
def Area.hi : Area → Nat
  | .config => 0x0200 | .slots => 0x2E00 | .status => 0x3000 | .capture => 0x4000 | .registers => 0x7F1C

theorem areaOf_eq_some (a : Nat) (x : Area) : areaOf a = some x ↔ x.lo ≤ a ∧ a < x.hi := by
  unfold areaOf Config.slotAreaBase Config.statusPageBase Config.captureBase Config.captureEnd Config.registerBase
    Config.registerEnd
  cases x <;> simp only [Area.lo, Area.hi] <;> split_ifs <;>
    simp only [Option.some.injEq, reduceCtorEq, false_iff, true_iff] <;> omega

/-- A range lies whole in an area. -/
theorem areaOfRange_eq_some (a n : Nat) (hn : 1 ≤ n) (x : Area) :
    areaOfRange a n = some x ↔ x.lo ≤ a ∧ a + n ≤ x.hi := by
  have h : areaOfRange a n = some x ↔ areaOf a = some x ∧ areaOf (a + (n - 1)) = some x := by
    unfold areaOfRange
    split
    · rename_i e; rw [← e]; simp
    · rename_i e
      simp only [reduceCtorEq, false_iff, not_and]
      intro h1 h2
      exact e (h1.trans h2.symm)
  rw [h, areaOf_eq_some, areaOf_eq_some]
  cases x <;> simp only [Area.lo, Area.hi] <;> omega

/-- A range lies in no area. -/
theorem areaOfRange_eq_none (a n : Nat) (hn : 1 ≤ n) :
    areaOfRange a n = none ↔ ∀ x : Area, ¬(x.lo ≤ a ∧ a + n ≤ x.hi) := by
  constructor
  · intro h x hx
    rw [← areaOfRange_eq_some a n hn, h] at hx
    exact absurd hx (by simp)
  · intro h
    cases e : areaOfRange a n with
    | none => rfl
    | some x => exact absurd ((areaOfRange_eq_some a n hn x).mp e) (h x)

/-! ### Frames -/

/-- The view of a WRITE frame's act: SDO carries 00h in every byte after it (R166). -/
theorem sdo_judged_write (s : State) (bits i : Nat) (h : s.ready = true) : (s.judged bits []).sdo true i = some 0 := by
  unfold State.sdo
  simp [h]

/-- Outside device reset a host command acts in its WRITE frame of ten bytes (R166, R183). -/
theorem asCommand_ready (f : State → State) (s : State) (h : s.ready = true) : asCommand f s = f (s.judged 80 []) := by
  unfold asCommand whenReady
  rw [if_pos h]
  rfl

/-- During device reset no command reaches the part (R181). -/
theorem asCommand_reset (f : State → State) (s : State) (h : s.ready = false) : asCommand f s = s := by
  unfold asCommand whenReady
  rw [h]
  rfl

end Sys2Proof.Machine
end

