-- ==== Sys2Proof/Laws/Reports.lean ====
section
/-! SUPPORT. What a state report can change (R73), what an act on channels with a report after each leaves, and which
marks an act of the channel block sets (R121). -/

namespace Sys2Proof.Machine

/-! ### Reports -/

/-- Nothing but lanes, the duty monitor and watches differs. -/
def JudgeOnly (s t : State) : Prop := t = { s with lanes := t.lanes, monitor := t.monitor, watches := t.watches }

theorem JudgeOnly.refl (s : State) : JudgeOnly s s := rfl

theorem requestMonitor_judgeOnly (s : State) (k : LaneId) : JudgeOnly s (requestMonitor s k) := by
  unfold requestMonitor grantMonitor
  split
  · split <;> rfl
  · rfl

theorem judgeWait_judgeOnly (s : State) (k : LaneId) : JudgeOnly s (judgeWait s k).1 := by
  unfold judgeWait endSettle
  split
  · split <;> rfl
  · split
    · have h := requestMonitor_judgeOnly (s.putWatch k Watch.empty) k
      unfold JudgeOnly at *
      rw [h]
      rfl
    · rfl
  · rfl

theorem reportChan_judgeOnly (s : State) (c : ChanId) : JudgeOnly s (reportChan s c).1 := by
  unfold reportChan
  split
  · exact judgeWait_judgeOnly _ _
  · rfl

theorem JudgeOnly.chan {s t : State} (h : JudgeOnly s t) (c : ChanId) : t.chan c = s.chan c := by
  unfold JudgeOnly at h
  rw [h]
  rfl

theorem JudgeOnly.ownerOf {s t : State} (h : JudgeOnly s t) (c : ChanId) : t.ownerOf c = s.ownerOf c := by
  unfold JudgeOnly at h
  rw [h]
  rfl

theorem JudgeOnly.config {s t : State} (h : JudgeOnly s t) : t.config = s.config := by
  unfold JudgeOnly at h
  rw [h]

/-- Nothing but channels, watches, lanes and the duty monitor differs. -/
def ReportedOnly (s t : State) : Prop :=
  t = { s with channels := t.channels, lanes := t.lanes, monitor := t.monitor, watches := t.watches }

theorem ReportedOnly.refl (s : State) : ReportedOnly s s := rfl

theorem ReportedOnly.trans {s t u : State} (h : ReportedOnly s t) (g : ReportedOnly t u) : ReportedOnly s u := by
  unfold ReportedOnly at *
  rw [g, h]

theorem ChansOnly.reportedOnly {s t : State} (h : ChansOnly s t) : ReportedOnly s t := by
  unfold ChansOnly at h
  unfold ReportedOnly
  rw [h]

theorem JudgeOnly.reportedOnly {s t : State} (h : JudgeOnly s t) : ReportedOnly s t := by
  unfold JudgeOnly at h
  unfold ReportedOnly
  rw [h]

/-- An act on channels of a list without repetition, each reporting before the next is acted on: a channel of the list
is written once, from its value at the beginning; `val` is what the act writes. -/
theorem reported_spec (f : State → ChanId → State) (val : State → ChanId → Channel)
    (hf : ∀ s c, ChansOnly s (f s c)) (hget : ∀ s c d, (f s c).chan d = if d = c then val s c else s.chan d)
    (hval : ∀ s c d, c ≠ d → val (f s c) d = val s d) (hj : ∀ s t d, JudgeOnly s t → val t d = val s d)
    (cs : List ChanId) (hn : cs.Nodup) (s : State) :
    ReportedOnly s (reported f cs s).1 ∧
      ∀ d, (reported f cs s).1.chan d = if d ∈ cs then val s d else s.chan d := by
  induction cs generalizing s with
  | nil => exact ⟨rfl, fun d => by simp [reported]⟩
  | cons c cs ih =>
    obtain ⟨hc, hn⟩ := List.nodup_cons.mp hn
    have hr := reportChan_judgeOnly (f s c) c
    obtain ⟨h₁, h₂⟩ := ih hn (reportChan (f s c) c).1
    refine ⟨((hf s c).reportedOnly.trans hr.reportedOnly).trans h₁, fun d => ?_⟩
    have h : (reported f (c :: cs) s).1.chan d = (reported f cs (reportChan (f s c) c).1).1.chan d := rfl
    rw [h, h₂, hr.chan, hj _ _ _ hr, hget]
    by_cases hd : d = c
    · subst hd; simp [hc]
    · rw [hval s c d (Ne.symm hd)]
      simp [hd]

/-- Where no lane waits with wait reason RAMP, a report does nothing. -/
theorem reportChan_quiet (s : State) (h : ∀ k, ¬s.rampWaits k) (c : ChanId) : reportChan s c = (s, []) := by
  have hk : ∀ k, judgeWait s k = (s, []) := by
    intro k
    have h := h k
    unfold State.rampWaits at h
    unfold judgeWait
    cases hp : (s.lane k).phase <;> simp_all
  unfold reportChan
  split
  · exact hk _
  · rfl

/-- Where no lane waits with wait reason RAMP, an act on channels is that act alone. -/
theorem reported_quiet (f : State → ChanId → State) (hf : ∀ s c, ChansOnly s (f s c)) (cs : List ChanId) (s : State)
    (h : ∀ k, ¬s.rampWaits k) : reported f cs s = (cs.foldl f s, []) := by
  induction cs generalizing s with
  | nil => rfl
  | cons c cs ih =>
    have h' : ∀ k, ¬(f s c).rampWaits k := fun k => by
      unfold State.rampWaits
      rw [(hf s c).lane]
      exact h k
    have hr := reportChan_quiet (f s c) h' c
    unfold reported
    simp only [hr, ih (f s c) h', List.foldl_cons, List.append_nil]

/-! ### Marks of a watch -/

theorem watches?_eq (s : State) (k : LaneId) (c : ChanId) (h : s.ownerOf c = some k) :
    s.watches? k c = true ↔ s.watching k c := by
  unfold State.watches? State.watching
  cases hv : (s.lane k).verifyParams with
  | none => simp
  | some p =>
    obtain ⟨mask, periods⟩ := p
    simp [h, and_assoc]

theorem inChans_or_bit (m : BitVec 16) (c d : ChanId) :
    inChans (m ||| (1#16 <<< c.val)) d = true ↔ inChans m d = true ∨ d = c := by
  revert m c d
  intro m c d
  unfold inChans
  have h : (1#16 <<< c.val).getLsbD d.val = decide (d = c) := by revert c d; decide
  rw [BitVec.getLsbD_or, h, Bool.or_eq_true, decide_eq_true_iff]

/-- A report of channel c marks it in the watch that watches it, and marks nothing else. -/
theorem disturb_watch (s : State) (c : ChanId) (k : LaneId) :
    ((s.disturb c).watch k).measured = (s.watch k).measured ∧
      ∀ d, inChans ((s.disturb c).watch k).disturbed d = true ↔
        inChans (s.watch k).disturbed d = true ∨ (s.watching k c ∧ d = c) := by
  unfold State.disturb
  cases ho : s.ownerOf c with
  | none =>
    have hw : ¬s.watching k c := fun hw => by
      have := hw.1
      simp_all
    simp [hw]
  | some j =>
    have hj := watches?_eq s j c ho
    by_cases hkj : k = j
    · subst hkj
      by_cases hw : s.watches? k c = true
      · have hw' := hj.mp hw
        simp [hw, hw', inChans_or_bit]
      · have hn : ¬s.watching k c := fun h => hw (hj.mpr h)
        simp [hw, hn]
    · have hn : ¬s.watching k c := fun h => by
        have := h.1
        rw [ho] at this
        exact hkj (Option.some.inj this).symm
      by_cases hw : s.watches? j c = true
      · simp [hw, State.putWatch_get, hn, Ne.symm hkj]
      · simp [hw, hn]

/-- Watching does not rest on channels or disturbed marks. -/
theorem watching_congr {s t : State} (ho : t.chanOwner = s.chanOwner) (hl : t.lanes = s.lanes)
    (hm : ∀ k, (t.watch k).measured = (s.watch k).measured) (k : LaneId) (c : ChanId) :
    t.watching k c ↔ s.watching k c := by
  unfold State.watching State.ownerOf State.lane
  rw [ho, hl, hm]

/-- A channel that takes a new value is marked if its state changes, and nothing else is. -/
theorem changeChan_marks (s : State) (c : ChanId) (x : Channel) :
    s.marksDisturbed (s.changeChan c x) (fun _ => False) := by
  intro k
  have hp : ∀ d, (s.putChan c x).chan d = if d = c then x else s.chan d := fun d => by
    simp only [State.putChan_get, eq_comm]
  have hk : (s.putChan c x).watch k = s.watch k := rfl
  unfold State.changeChan
  by_cases hs : (s.chan c).state = x.state
  · rw [if_pos hs]
    refine ⟨rfl, fun d => ?_⟩
    rw [hp, hk]
    by_cases hd : d = c
    · subst hd; simp [hs]
    · simp [hd]
  · rw [if_neg hs]
    obtain ⟨h₁, h₂⟩ := disturb_watch (s.putChan c x) c k
    refine ⟨h₁, fun d => ?_⟩
    have hw : (s.putChan c x).watching k c ↔ s.watching k c := watching_congr rfl rfl (fun _ => rfl) k c
    rw [h₂, hw, hk, disturb_chan, hp]
    by_cases hd : d = c
    · subst hd; simp [Ne.symm hs]
    · simp [hd]

/-- A channel whose pending target is applied is marked if it is watched, and nothing else is. -/
theorem applyOn_marks (s : State) (c : ChanId) :
    s.marksDisturbed (applyOn s c) (fun d => d = c ∧ (s.chan c).pending ≠ none) := by
  intro k
  unfold applyOn
  cases hp : (s.chan c).pending with
  | none => simp
  | some p =>
    simp only
    obtain ⟨a₁, a₂⟩ := changeChan_marks s c ((s.chan c).applyPending p) k
    have hc := changeChan_chansOnly s c ((s.chan c).applyPending p)
    have hch := changeChan_chan s c
    have hm := fun j => (changeChan_marks s c ((s.chan c).applyPending p) j).1
    generalize ht : s.changeChan c ((s.chan c).applyPending p) = t at *
    obtain ⟨b₁, b₂⟩ := disturb_watch t c k
    refine ⟨b₁.trans a₁, fun d => ?_⟩
    rw [b₂, a₂, disturb_chan, watching_congr hc.keeps.2.2.1 hc.keeps.2.1 hm k c]
    have hd : d ≠ c → t.chan d = s.chan d := fun h => by
      have := hch d ((s.chan c).applyPending p)
      rwa [ht, if_neg h] at this
    by_cases h : d = c
    · subst h
      simp
      tauto
    · simp [h, hd h]

/-- The marks that an act on the channels of a list without repetition sets; `app` says which channels count as applied. -/
theorem foldl_marks (f : State → ChanId → State) (app : State → ChanId → Prop) (hf : ∀ s c, ChansOnly s (f s c))
    (hget : ∀ s c d, d ≠ c → (f s c).chan d = s.chan d)
    (hm : ∀ (s : State) c, s.marksDisturbed (f s c) (fun d => d = c ∧ app s c))
    (happ : ∀ s c d, c ≠ d → (app (f s c) d ↔ app s d)) (cs : List ChanId) (hn : cs.Nodup) (s : State) :
    s.marksDisturbed (cs.foldl f s) (fun d => d ∈ cs ∧ app s d) := by
  induction cs generalizing s with
  | nil => intro k; simp
  | cons c cs ih =>
    obtain ⟨hc, hn⟩ := List.nodup_cons.mp hn
    have keep : ∀ (ds : List ChanId) (u : State) (d : ChanId), d ∉ ds → (ds.foldl f u).chan d = u.chan d := by
      intro ds
      induction ds with
      | nil => intro u d _; rfl
      | cons e ds ihd =>
        intro u d hd
        rw [List.mem_cons, not_or] at hd
        rw [List.foldl_cons, ihd _ _ hd.2, hget u e d hd.1]
    intro k
    obtain ⟨a₁, a₂⟩ := hm s c k
    obtain ⟨b₁, b₂⟩ := ih hn (f s c) k
    refine ⟨b₁.trans a₁, fun d => ?_⟩
    rw [List.foldl_cons, b₂, a₂,
      watching_congr (hf s c).keeps.2.2.1 (hf s c).keeps.2.1 (fun j => (hm s c j).1) k d]
    by_cases hd : d = c
    · subst hd
      rw [keep cs _ d hc]
      simp [hc]
    · have happ := happ s c d (Ne.symm hd)
      rw [hget s c d hd]
      simp [hd, happ]

end Sys2Proof.Machine
end

