-- ==== Sys2Proof/Laws/Resets.lean ====
section
/-! SUPPORT. What the blocks that both resets clear are afterwards (HostCommands.lean, DeviceReset.lean). -/

namespace Sys2Proof.Machine

/-- The blocks of both resets (R27, R53, R61, R65, R89, R116, R129, R139, R154): every set, lane, claim and unit empty,
every channel cut off, every line in INPUT_PULLUP with its sampled level kept. -/
theorem resetBlocks_spec (s : State) :
    s.resetBlocks = { s with
      queues := vec4 fun _ => [], parked := [], finished := 0, lanes := vec4 fun _ => Lane.idle,
      chanOwner := vec16 fun _ => none, lineOwner := vec8 fun _ => none, waitList := [], converter := Converter.reset,
      monitor := DutyMonitor.reset, watches := vec4 fun _ => Watch.empty, lastVerified := vec16 fun _ => none,
      link := Link.reset, channels := vec16 fun c => (s.chan c).cutOff, lines := s.resetBlocks.lines } ∧
    ∀ l, s.resetBlocks.line l = (s.line l).setTo false .inputPullup := by
  let u : State := { s with
      queues := vec4 fun _ => [], parked := [], finished := 0, lanes := vec4 fun _ => Lane.idle,
      chanOwner := vec16 fun _ => none, lineOwner := vec8 fun _ => none, waitList := [], converter := Converter.reset,
      monitor := DutyMonitor.reset, watches := vec4 fun _ => Watch.empty, lastVerified := vec16 fun _ => none,
      link := Link.reset, channels := vec16 fun c => (s.chan c).cutOff }
  have h : s.resetBlocks = allLines.foldl resetLineOn u := rfl
  obtain ⟨h1, h2⟩ := foldl_resetLineOn u
  rw [h]
  generalize allLines.foldl resetLineOn u = v at h1 h2 ⊢
  exact ⟨h1, h2⟩

end Sys2Proof.Machine
end

