-- ==== Sys2Proof/Laws/Slots.lean ====
section
/-! SUPPORT. Where the part's writes into a slot lie and what they leave (Slots.lean): the bytes written are read back,
every other byte reads as before, and no part of a slot is another slot's. -/

namespace Sys2Proof.Machine

/-! ### Bytes -/

theorem Memory.bytes_writeBytes {m : Memory} (h : m.wf) (a : Nat) (vs : List Byte) :
    Memory.bytes (m.writeBytes a vs) a vs.length = vs := by
  apply List.ext_getElem
  · simp [Memory.bytes]
  · intro i h1 h2
    simp only [Memory.bytes, List.getElem_map, List.getElem_range]
    exact Memory.read_writeBytes_in h a vs i h2

theorem Memory.bytes_congr {m m' : Memory} {a n : Nat} (h : ∀ b, a ≤ b → b < a + n → m.read b = m'.read b) :
    Memory.bytes m a n = Memory.bytes m' a n := by
  apply List.ext_getElem
  · simp [Memory.bytes]
  · intro i h1 h2
    simp only [Memory.bytes, List.getElem_map, List.getElem_range]
    simp only [Memory.bytes, List.length_map, List.length_range] at h1
    exact h _ (by omega) (by omega)

theorem Memory.bytes_writeBytes_out (m : Memory) (a b n : Nat) (vs : List Byte)
    (h : b + n ≤ a ∨ a + vs.length ≤ b) : Memory.bytes (m.writeBytes a vs) b n = Memory.bytes m b n :=
  Memory.bytes_congr fun c h1 h2 => Memory.read_writeBytes_out m a c vs (by omega)

/-! ### The layout of a slot -/

theorem slotBase_eq (n : SlotId) : slotBase n = 0x200 + n.val * 0x200 := rfl
theorem stepBase_eq (n : SlotId) (i : StepId) : stepBase n i = 0x220 + n.val * 0x200 + i.val * 0x28 := by
  unfold stepBase
  rw [slotBase_eq]
  omega

/-- A step record lies in its slot, after the header. -/
theorem stepBase_bounds (n : SlotId) (i : StepId) :
    slotBase n + 0x20 ≤ stepBase n i ∧ stepBase n i + 0x28 ≤ slotBase n + 0x200 := by
  have := i.isLt
  rw [stepBase_eq, slotBase_eq]
  omega

/-- Result parts of different steps lie apart. -/
theorem stepBase_apart (n : SlotId) {i j : StepId} (h : i ≠ j) :
    stepBase n i + 0x28 ≤ stepBase n j ∨ stepBase n j + 0x28 ≤ stepBase n i := by
  rw [stepBase_eq, stepBase_eq]
  have : i.val ≠ j.val := fun e => h (Fin.ext e)
  omega

/-- Slots lie apart. -/
theorem slotBase_apart {n m : SlotId} (h : n ≠ m) : slotBase n + 0x200 ≤ slotBase m ∨ slotBase m + 0x200 ≤ slotBase n := by
  rw [slotBase_eq, slotBase_eq]
  have : n.val ≠ m.val := fun e => h (Fin.ext e)
  omega

@[simp] theorem StepResult.bytes_length (r : StepResult) : r.bytes.length = 12 := rfl

/-! ### Result parts -/

/-- Nothing but memory differs, and it reads as before outside `P`. -/
def MemOutside (P : Nat → Prop) (s t : State) : Prop :=
  t = { s with mem := t.mem } ∧ ∀ a, ¬P a → Memory.read t.mem a = Memory.read s.mem a

theorem MemOutside.refl (P : Nat → Prop) (s : State) : MemOutside P s s := ⟨rfl, fun _ _ => rfl⟩

theorem MemOutside.trans {P : Nat → Prop} {s t u : State} (h : MemOutside P s t) (g : MemOutside P t u) :
    MemOutside P s u := by
  refine ⟨?_, fun a ha => (g.2 a ha).trans (h.2 a ha)⟩
  rw [g.1, h.1]

theorem MemOutside.mono {P Q : Nat → Prop} {s t : State} (h : MemOutside P s t) (hpq : ∀ a, P a → Q a) :
    MemOutside Q s t := ⟨h.1, fun a ha => h.2 a fun hp => ha (hpq a hp)⟩

theorem store_memOutside (s : State) (a : Nat) (vs : List Byte) :
    MemOutside (fun b => a ≤ b ∧ b < a + vs.length) s (s.store a vs) :=
  ⟨rfl, fun b hb => Memory.read_writeBytes_out s.mem a b vs (by omega)⟩

theorem writeResult_memOutside (s : State) (n : SlotId) (i : StepId) (r : StepResult) :
    MemOutside (inResults n i.val (i.val + 1)) s (writeResult s n i r) :=
  (store_memOutside s _ _).mono fun a ha => ⟨i, by omega, by omega, ha.1, by simpa using ha.2⟩

/-- The results of the steps from `first` on: each is written, and nothing else. -/
theorem writeResults_spec (s : State) (n : SlotId) (first : Nat) (r : StepResult) :
    MemOutside (inResults n first (s.stepCount n)) s (writeResults s n first r) ∧
    (Memory.wf s.mem → Memory.wf (writeResults s n first r).mem ∧
      ∀ i : StepId, first ≤ i.val → i.val < s.stepCount n →
        Memory.bytes (writeResults s n first r).mem (stepBase n i + 0x1C) 12 = r.bytes) := by
  unfold writeResults
  generalize hk : s.stepCount n = count
  generalize hl : (allSteps.filter fun i => decide (first ≤ i.val) && decide (i.val < count)) = is
  have hmem : ∀ i, i ∈ is ↔ first ≤ i.val ∧ i.val < count := by
    intro i
    rw [← hl]
    simp [mem_allSteps]
  have hnd : is.Nodup := by
    rw [← hl]
    exact (by decide : allSteps.Nodup).filter _
  clear hl hk
  have key : ∀ (is : List StepId) (s : State), is.Nodup →
      MemOutside (fun a => ∃ i ∈ is, stepBase n i + 0x1C ≤ a ∧ a < stepBase n i + 0x28) s
        (is.foldl (fun t i => writeResult t n i r) s) ∧
      (Memory.wf s.mem → Memory.wf (is.foldl (fun t i => writeResult t n i r) s).mem ∧
        ∀ i ∈ is, Memory.bytes (is.foldl (fun t i => writeResult t n i r) s).mem (stepBase n i + 0x1C) 12 = r.bytes) := by
    intro is
    induction is with
    | nil => exact fun s _ => ⟨MemOutside.refl _ s, fun h => ⟨h, by simp⟩⟩
    | cons j is ih =>
      intro s hn
      obtain ⟨hj, hn⟩ := List.nodup_cons.mp hn
      obtain ⟨h1, h2⟩ := ih (writeResult s n j r) hn
      rw [List.foldl_cons]
      refine ⟨?_, fun hwf => ?_⟩
      · refine MemOutside.trans ((writeResult_memOutside s n j r).mono ?_) (h1.mono ?_)
        · rintro a ⟨i, hi1, hi2, ha⟩
          have : i = j := Fin.ext (by omega)
          exact ⟨j, by simp, this ▸ ha⟩
        · rintro a ⟨i, hi, ha⟩
          exact ⟨i, by simp [hi], ha⟩
      · obtain ⟨h3, h4⟩ := h2 (State.wf_store hwf _ _)
        refine ⟨h3, fun i hi => ?_⟩
        rcases List.mem_cons.mp hi with rfl | hi
        · rw [show Memory.bytes (is.foldl (fun t i => writeResult t n i r) (writeResult s n i r)).mem
              (stepBase n i + 0x1C) 12 = Memory.bytes (writeResult s n i r).mem (stepBase n i + 0x1C) 12 from
            Memory.bytes_congr fun a ha1 ha2 => h1.2 a (by
              rintro ⟨k, hk, ha⟩
              have : i ≠ k := fun e => hj (e ▸ hk)
              have := stepBase_apart n this
              omega)]
          exact Memory.bytes_writeBytes hwf (stepBase n i + 0x1C) r.bytes
        · exact h4 i hi
  obtain ⟨h1, h2⟩ := key is s hnd
  refine ⟨h1.mono ?_, fun hwf => ⟨(h2 hwf).1, fun i hi1 hi2 => (h2 hwf).2 i ((hmem i).mpr ⟨hi1, hi2⟩)⟩⟩
  rintro a ⟨i, hi, ha⟩
  exact ⟨i, ((hmem i).mp hi).1, ((hmem i).mp hi).2, ha⟩

/-- Result parts written do not touch a header. -/
theorem inResults_not_header {n m : SlotId} {first count off size a : Nat} (h : inHeader n off size a)
    (hs : off + size ≤ 0x20) : ¬inResults m first count a := by
  rintro ⟨i, _, _, h1, h2⟩
  obtain ⟨h3, h4⟩ := h
  have := stepBase_bounds m i
  by_cases e : n = m
  · subst e; omega
  · have := slotBase_apart e
    omega

/-- A memory change outside a slot's header keeps the header's fields. -/
theorem MemOutside.hdr {P : Nat → Prop} {s t : State} (h : MemOutside P s t) (n : SlotId) (off : Nat)
    (hp : ¬P (slotBase n + off)) : t.hdr n off = s.hdr n off := h.2 _ hp

/-! ### A step's result -/

theorem State.setLane_at (s : State) (k j : LaneId) (l : Lane) :
    (s.setLane k l).lane j = if j = k then l else s.lane j := by
  rw [State.setLane_get]
  simp only [eq_comm]

/-- What recording a result leaves (R35): the result part, steps done and fault count, the lane with its step over and an
empty watch; every other byte, lane and watch is as it was. -/
theorem recordResult_spec (s : State) (k : LaneId) (n : SlotId) (i : StepId) (r : StepResult) :
    recordResult s k n i r = { s with mem := (recordResult s k n i r).mem, lanes := (recordResult s k n i r).lanes,
                                      watches := (recordResult s k n i r).watches } ∧
    (recordResult s k n i r).mem = Memory.writeBytes (Memory.writeBytes s.mem (stepBase n i + 0x1C) r.bytes)
      (slotBase n + 0x0B)
      [if r.outcome.counted then s.stepsDone n + 1 else s.stepsDone n,
       if r.outcome.isFault then s.faultCount n + 1 else s.faultCount n] ∧
    (∀ j, (recordResult s k n i r).lane j = if j = k then (s.lane k).stepOver else s.lane j) ∧
    (∀ j, (recordResult s k n i r).watch j = if j = k then Watch.empty else s.watch j) := by
  have hb := stepBase_bounds n i
  have hh : ∀ off : Nat, off < 0x20 → (writeResult s n i r).hdr n off = s.hdr n off := by
    intro off ho
    exact Memory.read_writeBytes_out s.mem _ _ r.bytes (by rw [StepResult.bytes_length]; omega)
  have hsd : (writeResult s n i r).stepsDone n = s.stepsDone n := hh 0x0B (by omega)
  have hfc : (writeResult s n i r).faultCount n = s.faultCount n := hh 0x0C (by omega)
  have hm : (writeResult s n i r).mem = Memory.writeBytes s.mem (stepBase n i + 0x1C) r.bytes := rfl
  have hl : ∀ j, (writeResult s n i r).lane j = s.lane j := fun _ => rfl
  have hw : ∀ j, (writeResult s n i r).watch j = s.watch j := fun _ => rfl
  have he : writeResult s n i r = { s with mem := (writeResult s n i r).mem } := rfl
  unfold recordResult countStep
  dsimp only
  rw [hsd, hfc]
  generalize writeResult s n i r = u at hm hl hw he ⊢
  refine ⟨?_, ?_, fun j => ?_, fun j => ?_⟩
  · rw [he]
    rfl
  · simp only [State.putWatch_mem, State.setLane_mem, State.store_mem, hm]
  · simp only [State.putWatch_lane, State.setLane_at, State.store_lane, hl]
  · rw [State.putWatch_get]
    simp only [State.setLane_watch, State.store_watch, hw, eq_comm]

end Sys2Proof.Machine
end

