-- ==== Sys2Proof/Laws/Time.lean ====
section
/-! SUPPORT. What a tick boundary leaves of each block it reaches (TimeEvents.lean), which expiry comes before it (R159),
and which ending the safe order is to a lane (SafeOrder.lean). -/

namespace Sys2Proof.Machine

/-! ### The blocks at a boundary -/

/-- A boundary changes nothing of a lane but its timers, the age of its step and the mark of R162. -/
theorem Lane.atTick_keeps (l : Lane) :
    l.atTick = { l with stepTimer := l.atTick.stepTimer, planTimer := l.atTick.planTimer, interval := l.atTick.interval,
                        ticks := l.atTick.ticks, entered := false } := rfl

/-- A boundary changes nothing of the link but its wait (R142). -/
theorem Link.atTick_keeps (x : Link) (wire : WireWait) (stretch : Nat) :
    x.atTick wire stretch = { x with waited := (x.atTick wire stretch).waited } := by
  unfold Link.atTick
  by_cases h : x.grantee = none ∨ stretch ≤ x.waited
  · rw [if_pos h]
  · rw [if_neg h]

/-- A wait that has run out stays so, and a link without a grantee waits for nothing (R142). -/
theorem Link.atTick_over (x : Link) (wire : WireWait) (stretch : Nat) (h : x.grantee = none ∨ stretch ≤ x.waited) :
    x.atTick wire stretch = x := if_pos h

/-- A wait that goes on, or begins, has not passed the limit before it reaches it (R142). -/
theorem Link.atTick_le (x : Link) (wire : WireWait) (stretch : Nat) (h : x.waited ≤ stretch) (hs : 1 ≤ stretch) :
    (x.atTick wire stretch).waited ≤ stretch := by
  unfold Link.atTick
  by_cases hc : x.grantee = none ∨ stretch ≤ x.waited
  · rw [if_pos hc]
    exact h
  · rw [if_neg hc]
    have hw : x.waited < stretch := Nat.lt_of_not_le fun g => hc (.inr g)
    cases wire
    · exact Nat.zero_le _
    · exact hs
    · exact hw

/-- A monitor that is not WATCHING counts nothing (R158). -/
theorem HoldSafe.atTick_still (h : HoldSafe) (window : Nat) (hs : h.state ≠ .watching) : h.atTick window = h :=
  if_neg hs

/-! ### The expiry -/

/-- Without an expiry to take, MONITOR_EXPIRY does nothing (R158). -/
theorem monitorExpiry_not_due (s : State) (h : ¬(s.holdSafe.state = .watching ∧ s.holdSafe.expiryDue = true)) :
    monitorExpiry s = s := if_neg h

/-- Without an expiry to take, TICK is its boundary alone. -/
theorem tick_not_due (s : State) (h : ¬(s.holdSafe.state = .watching ∧ s.holdSafe.expiryDue = true)) :
    tick s = tickBoundary s := by
  unfold tick
  rw [monitorExpiry_not_due s h]

/-! ### The safe order -/

/-- The safe order ends a slot as SAFE_ABORT, whichever of its causes it is (R49, R162). -/
theorem safeCause_slotEnding (l : Lane) : l.safeCause.slotEnding = (.aborted, .safeAbort) := by
  unfold Lane.safeCause
  cases l.entered <;> rfl

/-- A step ended in the race of R162 is SKIPPED and nothing more (R36). -/
theorem resultBy_safeRace (s : State) (k : LaneId) : s.resultBy k .safeRace = plainResult .skipped .none 0 := rfl

/-- A step ended by any other cause carries what it has reached (R36). -/
theorem resultBy_partial (s : State) (k : LaneId) (cause : EndCause) (h : cause ≠ .safeRace) :
    s.resultBy k cause = s.partialResult k cause.outcome.1 cause.outcome.2 := by
  cases cause <;> first | rfl | exact absurd rfl h

/-- The safe order on one lane changes the engine alone. -/
theorem safeLane_engine (s : State) (k : LaneId) : EngineOnly s (safeLane s k) :=
  (cutLane_engine s k _).trans (finishAct_engine _)

/-- The lanes' part of the safe order changes the engine alone. -/
theorem safeLanes_engine (s : State) : EngineOnly s (safeLanes s) := EngineOnly.foldl safeLane_engine _ s

end Sys2Proof.Machine
end

