-- ==== Sys2Proof/Tests/Slice0.lean ====
section
/-! SUPPORT. Tests on small states: what the well-formedness check refuses, values the spec works out, one act of some
commands, and for each statement a state and operands that meet its hypotheses. -/

namespace Sys2Proof.Tests
open Sys2Proof.Machine

-- One theorem after another: a thread for each of them at once would not fit the memory.
set_option Elab.async false

/-! ### Small states -/

/-- A plan header (section 11.4) of lane 0. -/
def header (n : SlotId) (flags count cont : Byte) (chans : BitVec 16) (lines : Byte) (m : Memory) : Memory :=
  Memory.writeBytes m (slotBase n) ([1, 0, 0, 0, 0, flags, count, cont] ++ halfBytes chans ++ [lines])

/-- A step record (section 11.4) with timeout 1 ms. -/
def stepBytes (n : SlotId) (i : StepId) (kind flags : Byte) (params : List Byte) (m : Memory) : Memory :=
  Memory.writeBytes m (stepBase n i) ([kind, flags, 1, 0] ++ params)

/-- Slot 0 holds one DELAY of 5 ticks, claiming CH0, CH1 and FL0, with the plan flags and continuation given. -/
def delayPlan (flags cont : Byte) : Memory :=
  stepBytes 0 0 4 0 [5, 0, 0, 0] (header 0 flags 1 cont 0x0003#16 0x01#8 [])

/-- The part after reset with that plan in memory. -/
def loaded (flags : Byte) : State := { State.reset with mem := delayPlan flags 0xFF#8 }

/-- A record of slot 0's step 0, for its single bytes. -/
def oneStep (kind flags : Byte) (params : List Byte) : Memory := stepBytes 0 0 kind flags params []

/-- The value of one byte, and of two bytes, of that record. -/
def byteOf (m : Memory) (off : Nat) : Nat := (m.read (stepBase 0 0 + off)).toNat
def halfOf (m : Memory) (off : Nat) : Nat := (m.read16 (stepBase 0 0 + off)).toNat

/-- Lane 0 runs step 0 of slot 0, in a phase, owning CH0, CH1 and FL0. -/
def inStep (cmd : StepCmd) (ph : Phase) : State :=
  { (loaded 0).setLane 0 { Lane.idle with state := .stepping, running := some 0, step := some 0,
                                          record := some ⟨false, 1, cmd⟩, phase := ph } with
    chanOwner := vec16 fun c => if c.val < 2 then some 0 else none,
    lineOwner := vec8 fun l => if l.val = 0 then some 0 else none }

/-- A cycle of 2 samples of AIN0 on FL0 with the whole range as its windows. -/
def cycle (mode : TriggerMode) (delay wait : Nat) (holdoff : Bool) (stat : JudgeStat) (cp : Option CaptureParams) :
    CycleParams :=
  ⟨0, 2, mode, 0, delay, wait, holdoff, 0, 4095, stat, 100, 200, cp⟩

/-- Lane 0 holds the converter in a sampling phase, with `count` samples recorded. -/
def sampling (p : CycleParams) (ph : SamplingPhase) (count : Nat) : State :=
  { inStep (.cycle p) .converting with
    converter := { Converter.reset with grantee := some 0, phase := ph, count := count, waitLeft := some 0 } }

/-- A transfer of 2 bytes to target 50h. -/
def transfer (mode : LinkMode) (width : Nat) : LinkParams := ⟨mode, 0x50#7, width, 0x0120#16, 2, 0⟩

/-- Lane 0 holds the link in a phase. -/
def onLink (p : LinkParams) (ph : LinkPhase) (windDown : Bool) : State :=
  { inStep (.link p) .linking with
    link := { Link.reset with grantee := some 0, phase := ph, busUncertain := false, windDown := windDown } }

/-- Lane 0 holds the duty monitor, counting CH0 of a VERIFY of CH0 and CH1 over 1 period. -/
def verifying (mask : BitVec 16) (periods : Nat) : State :=
  { inStep (.verify mask 1) .measuring with
    monitor := { DutyMonitor.reset with grantee := some 0, selected := some 0, phase := .counting, periods := periods } }

/-- The hold-safe monitor in a state. -/
def holding (st : HoldState) (count : Nat) (due : Bool) (s : State) : State := { s with holdSafe := ⟨st, count, due⟩ }

/-- The part with every other slot of lane 0's queue given. -/
def queued (q : List SlotId) (s : State) : State := s.setQueue 0 q

/-! ### Well-formedness -/

theorem test_unknownCommand_that_names_one_is_refused :
    (Instr.unknownCommand 0x01#8).wellFormed = false ∧ (Instr.unknownCommand 0x09#8).wellFormed = false ∧
    (Instr.unknownCommand 0x00#8).wellFormed = true ∧ (Instr.unknownCommand 0x0A#8).wellFormed = true := by decide

theorem test_frame_lengths :
    (Instr.writeFrame 0 [] 0).wellFormed = false ∧ (Instr.writeFrame 0 (List.replicate 257 0) 0).wellFormed = false ∧
    (Instr.writeFrame 0 [0] 0).wellFormed = true ∧ (Instr.writeFrame 0 (List.replicate 256 0) 0).wellFormed = true := by
  decide +kernel

theorem test_readOnlyRegisterWrite_names_a_read_only_register :
    (Instr.readOnlyRegisterWrite 0x7F08#16 [0, 0, 0, 0]).wellFormed = false ∧
    (Instr.readOnlyRegisterWrite 0x7F10#16 [0, 0, 0, 0]).wellFormed = false ∧
    (Instr.readOnlyRegisterWrite 0x7F01#16 [0, 0, 0, 0]).wellFormed = false ∧
    (Instr.readOnlyRegisterWrite 0x7F00#16 [0]).wellFormed = false ∧
    (Instr.readOnlyRegisterWrite 0x0000#16 [0, 0, 0, 0]).wellFormed = false ∧
    (Instr.readOnlyRegisterWrite 0x7F00#16 []).wellFormed = false ∧
    (Instr.readOnlyRegisterWrite 0x7F18#16 [0, 0, 0, 0]).wellFormed = true ∧
    (Instr.readOnlyRegisterWrite 0x7F08#16 (List.replicate 8 0)).wellFormed = true := by decide

theorem test_other_checks :
    (Instr.badOperationByte 0xA5#8).wellFormed = false ∧ (Instr.badOperationByte 0x5A#8).wellFormed = false ∧
    (Instr.badOperationByte 0x00#8).wellFormed = true ∧ (Instr.earlyNcsRise 0).wellFormed = false ∧
    (Instr.earlyNcsRise 1).wellFormed = true ∧ (Instr.channelPeriodStart 0 0 0).wellFormed = false ∧
    (Instr.channelPeriodStart 0 0 1).wellFormed = true := by decide

theorem test_no_word_spells_a_command : decodeTableWord 32 0x00000001 = none ∧ decodeTableWord 0 0 = none := by decide

/-! ### Values the spec works out -/

/-- Section 11.5: the pair of codes 1000 and 1010 in modes 2 and 3. -/
theorem test_pair_of_section_11_5 :
    pairBytes false 1000#12 1010#12 = [0xE8#8, 0x23#8, 0x3F#8] ∧
    pairBytes true 1000#12 1010#12 = [0x3E#8, 0x83#8, 0xF2#8] := by decide

/-- Chapter 4: CH5's ramp from 1000 toward 3000 by 500, and its arrival at 0 from 400 by 400 with the marker set. -/
theorem test_ramp_of_chapter_4 :
    (Channel.rampMove ⟨.ramping, 1000, 3000, 500, false, none, 0, false⟩).duty = 1500 ∧
    Channel.rampMove ⟨.ramping, 400, 0, 400, true, none, 0, false⟩ = ⟨.off, 0, 0, 0, false, none, 0, false⟩ := by decide

/-- Chapter 6: a pin high for 960/4096 of four periods measures 960. -/
theorem test_measured_duty_of_chapter_6 :
    DutyMonitor.measuredDuty { DutyMonitor.reset with high := 3840, time := 16384 } = 960#12 ∧
    dutyDistance 960#12 1000#12 = 40#12 := by decide

/-- A judge statistic of 5 names no statistic (R185). -/
theorem test_judge_statistic_codes :
    JudgeStat.ofByte 5#8 = none ∧ JudgeStat.ofByte 4#8 = some .last ∧ JudgeStat.ofByte 0#8 = some .none := by decide

/-- A slot never written is refused BAD_FORMAT with detail 0 (note at R185). -/
theorem test_post_of_an_unwritten_slot :
    ∃ t : State, exec (.post 0) State.reset = .next t ∧ t = { State.reset with
      mem := [(0x201, 0x08#8), (0x202, 0x10#8)], result := ⟨.badFormat, 0x01#8, 0x00#8⟩, frame := ⟨80, []⟩ } :=
  ⟨_, rfl, by decide +kernel⟩

/-- A POST of the DELAY plan runs it at once on the idle lane. -/
theorem test_post_runs_on_an_idle_lane : ∃ t : State, exec (.post 0) (loaded 0) = .next t ∧
    t.result = ⟨.accepted, 0x01#8, 0x01#8⟩ ∧ (t.lane 0).state = .stepping ∧ (t.lane 0).phase = .delay ∧
    (t.lane 0).interval = some 5 ∧ (t.lane 0).stepTimer = some 100 ∧ t.ownerOf 1 = some 0 ∧
    Memory.bytes t.mem 0x20D 1 = [0x00#8] := ⟨_, rfl, by decide +kernel⟩

/-- A DELAY that expires ends its plan COMPLETE: slot 0 joins FINISHED and ATTN rises. -/
theorem test_delay_expiry_completes_the_plan : ∃ t : State,
    exec (.delayExpiry 0) ((inStep (.delay 5) .delay).setLane 0
      { (inStep (.delay 5) .delay).lane 0 with interval := some 0 }) = .next t ∧
    t.finished = 1#22 ∧ t.attn = true ∧ (t.lane 0).state = .idle ∧ t.ownerOf 0 = none ∧
    Memory.bytes t.mem 0x201 3 = [0x04#8, 0x30#8, 0xFF#8] ∧
    Memory.bytes t.mem 0x23C 4 = [0x01#8, 0x00#8, 0x05#8, 0x00#8] := ⟨_, rfl, by decide +kernel⟩

/-- A READ of 7F00h with length 4 answers ID, low byte first. -/
theorem test_read_of_id : ∃ t : State, exec (.readFrame 0x7F00#16 3 (readCrc 0x7F00#16 3)) State.reset = .next t ∧
    t.frame.reply.take 4 = [0x01#8, 0x16#8, 0xDF#8, 0x00#8] := ⟨_, rfl, by decide +kernel⟩

/-- The WRITE that carries RENEW after a READ: SDO carries 00h again, and the port has received ten bytes (R166). -/
theorem test_write_after_a_read : ∃ t u v : State,
    exec (.readFrame 0x7F00#16 3 (readCrc 0x7F00#16 3)) State.reset = .next t ∧ t.sdo true 6 = some 0x01#8 ∧
    exec .renew t = .next u ∧ u.sdo true 6 = some 0x00#8 ∧ u.frame.bits = 80 ∧
    exec (.readOnlyRegisterWrite 0x7F04#16 [0, 0, 0, 0]) t = .next v ∧ v.sdo true 6 = some 0x00#8 :=
  ⟨_, _, _, rfl, by decide +kernel, rfl, by decide +kernel, by decide +kernel, rfl, by decide +kernel⟩

/-! ### A state and operands for the hypotheses of each statement -/

theorem test_hypotheses_StepRunsTheFrontCommand : State.reset.pending = [] := rfl

theorem test_hypotheses_EveryActRunsToItsEnd :
    exec (.writeFrame 0 [] 0) State.reset = .next State.reset ∧
    exec (.readOnlyRegisterWrite 0x7F08 [0, 0, 0, 0]) State.reset = .next State.reset := ⟨rfl, rfl⟩

theorem test_hypotheses_NothingHappensDuringDeviceReset :
    ({ State.reset with ready := false } : State).ready = false ∧ Instr.renew.wellFormed = true ∧
    Instr.renew ≠ .deviceReset ∧ ∀ strap levels, Instr.renew ≠ .deviceResetEnd strap levels :=
  ⟨rfl, rfl, by decide, fun _ _ h => Instr.noConfusion h⟩

theorem test_hypotheses_EventsLeaveThePortAlone :
    (∃ t, exec (.delayExpiry 0) (inStep (.delay 5) .delay) = .next t) ∧ (Instr.delayExpiry 0).isEvent = true ∧
    Instr.delayExpiry 0 ≠ .tick ∧ Instr.delayExpiry 0 ≠ .monitorExpiry ∧
    ∀ g, Instr.delayExpiry 0 ≠ .groupPeriodStart g :=
  ⟨⟨_, rfl⟩, rfl, by decide, by decide, fun _ h => Instr.noConfusion h⟩

theorem test_hypotheses_CommandsWriteOnlyTheirBytes :
    (∃ t, exec (.post 0) (loaded 0) = .next t) ∧ (∀ addr data crc, Instr.post 0 ≠ .writeFrame addr data crc) ∧
    (∀ strap levels, Instr.post 0 ≠ .deviceResetEnd strap levels) ∧
    (∀ n : SlotId, n ∈ (loaded 0).heldList ∨ Instr.post 0 = .post (numberOf n) → ¬deviceAddr n 0x1FF) ∧
    (0x1FF : Nat) < 0x3000 := by
  refine ⟨⟨_, rfl⟩, fun _ _ _ h => Instr.noConfusion h, fun _ _ h => Instr.noConfusion h, ?_, by decide⟩
  rintro n - h
  simp only [deviceAddr, inHeader, inResults, stepBase, slotBase, Config.slotAreaBase, Config.slotSize] at h
  rcases h with h | h | h | ⟨i, h⟩ <;> omega

theorem test_hypotheses_EveryStepKeepsMemoryCanonical :
    Memory.wf (queued [] (loaded 0)).mem ∧ ∃ t, step { loaded 0 with pending := [.post 0] } = .next t :=
  ⟨by decide +kernel, _, rfl⟩

theorem test_hypotheses_EveryStepKeepsChannelsLegal :
    State.channelsLegal { inStep .awaitGo .awaitGo with
      channels := vec16 fun c => if c.val = 0 then ⟨.ramping, 10, 0, 3, true, some ⟨5, 0⟩, 10, true⟩
        else ⟨.holding, 7, 7, 0, false, none, 7, true⟩ } ∧
    ∃ t, step { inStep .awaitGo .awaitGo with pending := [.tick] } = .next t := by
  refine ⟨?_, _, rfl⟩
  unfold State.channelsLegal Channel.legal
  decide +kernel

theorem test_hypotheses_EveryStepKeepsQueuesBounded :
    State.queuesBounded (queued [1, 2, 3, 4, 5, 6, 7, 8] (inStep .awaitGo .awaitGo)) := by
  unfold State.queuesBounded
  decide +kernel

theorem test_hypotheses_EveryStepKeepsSlotsApart :
    State.slotsApart { queued [1, 2] (inStep .awaitGo .awaitGo) with parked := [3], finished := 0x000010#22 } := by
  unfold State.slotsApart
  decide +kernel

theorem test_hypotheses_EveryStepKeepsDetectorsAndStatistics_lines :
    State.detectorsLegal { State.reset with
      lines := vec8 fun l => if l.val = 0 then ⟨.inputEdge, false, true, some true⟩ else Line.reset true } := by
  unfold State.detectorsLegal Line.detectorLegal
  intro l
  refine ⟨?_, ?_⟩
  · revert l; decide +kernel
  · intro d
    revert l d; decide +kernel

theorem test_hypotheses_EveryStepKeepsIdleUnitsQuiet :
    State.unitsQuiet (sampling (cycle .immediate 0 0 false .none none) .converting 1) ∧ State.unitsQuiet State.reset := by
  unfold State.unitsQuiet
  decide +kernel

theorem test_hypotheses_EveryStepKeepsDetectorsAndStatistics_unit :
    Converter.ordered ⟨some 0, [], 0, .converting, none, 2, 300, 100, 200, 100⟩ := by
  unfold Converter.ordered
  decide

/-- Lane 0 converts, lane 1 stands in the converter's queue, lane 2 winds down the transfer it holds, lane 3 waits for its
claims. -/
def allServed : State :=
  let s := sampling (cycle .immediate 0 0 false .none none) .converting 1
  let lane (st : LaneState) (n : SlotId) (ph : Phase) (cause : Option EndCause) : Lane :=
    { Lane.idle with state := st, running := some n, step := some 0, phase := ph, cause := cause }
  { ((s.setLane 1 (lane .stepping 1 .converterQueue none)).setLane 2
      (lane .winding 2 .linking (some .hostAbort))).setLane 3 (lane .claiming 3 .none none) with
    converter := { s.converter with queue := [1] },
    link := { Link.reset with grantee := some 2, phase := .write, windDown := true },
    waitList := [⟨3, 0x0003#16, 0x01#8⟩] }

theorem test_hypotheses_EveryStepKeepsLanesServed :
    State.lanesServed allServed ∧ State.lanesServed (verifying 0x0003 0) ∧
    State.lanesServed (onLink (transfer .store 1) .write false) ∧
    ∃ t, step { allServed with pending := [.abort 0] } = .next t := by
  refine ⟨?_, ?_, ?_, _, rfl⟩ <;>
  · unfold State.lanesServed Lane.ordered State.claimsRun Lane.mayHoldClaims
    simp only [← Option.isSome_iff_exists]
    repeat' apply And.intro
    all_goals decide +kernel

theorem test_hypotheses_EveryStepInSafeKeepsTheTenthLaw :
    (holding .safe 0 false State.reset).safe = true ∧ State.tenthLaw (holding .safe 0 false State.reset) ∧
    ∃ t, step (holding .safe 0 false { State.reset with pending := [.tick] }) = .next t := by
  refine ⟨rfl, fun _ => ⟨?_, rfl, ⟨?_, ?_, rfl⟩, ?_, rfl, rfl, rfl, fun k h => ?_⟩, _, rfl⟩
  · decide +kernel
  · decide +kernel
  · decide +kernel
  · intro k; left; unfold Lane.quiet; revert k; decide +kernel
  · cases h

theorem test_hypotheses_EveryStepKeepsTheLastTwoLaws : ∃ t : State,
    step { holding .watching 3 false State.reset with ready := false, pending := [.deviceResetEnd false 0] } = .next t ∧
    t.holdSafe.state = .disabled := ⟨_, rfl, rfl⟩

theorem test_hypotheses_RefusedPostWritesItsVerdict :
    State.reset.ready = true ∧ (holding .safe 0 false State.reset).safe = true ∧ State.reset.safe = false ∧
    22 ≤ (22#8 : Byte).toNat ∧ 22 ≤ (255#8 : Byte).toNat ∧ (21#8 : Byte) = numberOf 21 ∧
    (queued [21] State.reset).place 21 = some (.queued 0) ∧
    ({ State.reset with parked := [0] } : State).place 0 = some .parked ∧
    (inStep .awaitGo .awaitGo).place 0 = some (.running 0) ∧
    (State.place { State.reset with finished := 0x200000#22 } 21 = none ∧
      State.isFinished { State.reset with finished := 0x200000#22 } 21 = true) ∧
    State.postable State.reset 21 ∧ headerFault State.reset 21 = some (.badFormat, 0) := by
  unfold State.postable
  decide +kernel

/-- The header of slot 1 with one field changed. -/
def headed (flags count cont : Byte) (chans : BitVec 16) : State :=
  { State.reset with mem := header 1 flags count cont chans 0 [] }

theorem test_hypotheses_PostJudgesTheHeaderInOrder :
    State.reset.hdr 1 0x00 ≠ 1 ∧ (headed 0x08 1 0xFF 0).hdrFlags 1 &&& 0xF8#8 ≠ 0 ∧
    4 ≤ ({ headed 0 1 0xFF 0 with mem := Memory.write (headed 0 1 0xFF 0).mem (slotBase 1 + 4) 4 } : State).hdr 1 0x04 ∧
    (headed 0 1 0xFF 0).hdr 1 0x00 = 1 ∧ ((headed 0 1 0xFF 0).hdr 1 0x04).toNat ≤ 3 ∧
    (headed 0 0 0xFF 0).stepCount 1 = 0 ∧ 12 < (headed 0 13 0xFF 0).stepCount 1 ∧
    (headed 0 12 22 0).stepCount 1 ≤ 12 ∧ 22 ≤ ((headed 0 12 22 0).continuation 1).toNat ∧
    ((headed 0 1 1 0).continuation 1).toNat = 1 ∧ State.headerWellFormed (headed 7 12 21 0x8001) 1 ∧
    (let s : State := { headed 7 12 21 0x8001 with config := { ConfigSet.default with enable := 0x7FFF#16 } }
     inChans (s.chanClaim 1) 15 = true ∧ inChans s.config.enable 15 = false ∧
       ∀ d : ChanId, d < 15 → inChans (s.chanClaim 1) d = true → inChans s.config.enable d = true) ∧
    State.claimsEnabled (headed 7 12 21 0x8001) 1 ∧ headerFault (headed 7 12 21 0x8001) 1 = some (.stepInvalid, 0) := by
  unfold State.headerWellFormed State.claimsEnabled
  decide +kernel

theorem test_hypotheses_PostJudgesStepsThenQueueRoom :
    State.headerWellFormed (loaded 0) 0 ∧ State.claimsEnabled (loaded 0) 0 ∧
    (∀ i : StepId, i.val < (loaded 0).stepCount 0 → State.stepPasses (loaded 0) 0 i) ∧
    (loaded 4).parkFlag 0 = true ∧ (loaded 0).parkFlag 0 = false ∧
    ((queued [1, 2, 3, 4, 5, 6, 7] (loaded 0)).queue ((loaded 0).slotLane 0)).length < 8 ∧
    8 ≤ ((queued [1, 2, 3, 4, 5, 6, 7, 8] (loaded 0)).queue ((loaded 0).slotLane 0)).length ∧
    (let s : State := { State.reset with
        mem := stepBytes 0 1 0 0 [] (header 0 0 2 0xFF 0x0003#16 0 (stepBytes 0 0 10 0 [] [])) }
     State.headerWellFormed s 0 ∧ State.claimsEnabled s 0 ∧ 1 < s.stepCount 0 ∧
     stepFault s.mem 0 (s.chanClaim 0) (s.lineClaim 0) 1 = some .stepInvalid ∧
     ∀ j : StepId, j < 1 → s.stepPasses 0 j) := by
  unfold State.headerWellFormed State.claimsEnabled State.stepPasses
  decide +kernel

/-- Parameters of a MEASURE or CAPTURE: mode, line, abort window, statistic, packing, judge window, storage offset. -/
def cycleBytes (samples mode line : Byte) (lo hi : Half) (stat packing : Byte) (jlo jhi off : Half) : List Byte :=
  [9, samples - 1, mode, line, 7, 0, 0, 0, 8, 0, 0, 0] ++ halfBytes lo ++ halfBytes hi ++ [stat, packing] ++
    halfBytes jlo ++ halfBytes jhi ++ halfBytes off

/-- What a record of slot 0's step 0 is read as. -/
def readAs (kind flags : Byte) (params : List Byte) : Option StepCmd :=
  (decodeStep (oneStep kind flags params) 0 0).map StepRecord.cmd

/-- Each kind at the bounds of its ranges, read or refused. -/
theorem test_hypotheses_StepRecordsAreReadOrRefused_drive :
    readAs 0 0 [] = none ∧ readAs 11 0 [] = none ∧
    readAs 1 7 [1, 0, 0xFF, 0x0F, 0xFF, 0x0F] = some (.set 1 4095 4095 true true) ∧ readAs 1 8 [1] = none ∧
    readAs 1 0 [0, 0] = none ∧ readAs 1 0 [1, 0, 0, 0x10] = none ∧ readAs 1 0 [1, 0, 0, 0, 0, 0x10] = none ∧
    readAs 2 1 [0, 0] = some (.apply 0) ∧ readAs 2 2 [1] = none ∧
    readAs 3 0 [0, 0x80, 0xFF, 0x0F] = some (.off 0x8000 4095) ∧ readAs 3 0 [0, 0] = none ∧
    readAs 3 0 [1, 0, 0, 0x10] = none ∧ readAs 4 0 [5, 0, 0, 1] = some (.delay 0x01000005) ∧ readAs 4 4 [] = none ∧
    readAs 7 0 [1, 0, 1] = some (.verify 1 1) ∧ readAs 7 0 [1, 0, 64] = some (.verify 1 64) ∧
    readAs 7 0 [1, 0, 0] = none ∧ readAs 7 0 [1, 0, 65] = none ∧ readAs 7 0 [0, 0, 1] = none ∧
    readAs 9 0 [0x80, 4, 0x80] = some (.lines 0x80 .outputPushPull 0x80) ∧ readAs 9 0 [0, 4] = none ∧
    readAs 9 0 [1, 5] = none ∧ readAs 10 1 [] = some .awaitGo ∧ readAs 10 8 [] = none := by decide +kernel

theorem test_hypotheses_StepRecordsAreReadOrRefused_cycle :
    readAs 5 0 (cycleBytes 2 0 9 0 4095 0 9 0xFFFF 0 0xFFFF) =
      some (.cycle ⟨9, 2, .immediate, 1, 7, 8, false, 0, 4095, .none, 4095, 0, none⟩) ∧
    readAs 5 8 (cycleBytes 2 2 7 5 5 4 0 6 6 0) =
      some (.cycle ⟨9, 2, .edgeRise, 7, 7, 8, true, 5, 5, .last, 6, 6, none⟩) ∧
    readAs 5 0 (cycleBytes 2 2 8 0 0 0 0 0 0 0) = none ∧ readAs 5 8 (cycleBytes 2 1 0 0 0 0 0 0 0 0) = none ∧
    readAs 5 0 (cycleBytes 2 4 0 0 0 0 0 0 0 0) = none ∧ readAs 5 0 (cycleBytes 2 0 0 2 1 0 0 0 0 0) = none ∧
    readAs 5 0 (cycleBytes 2 0 0 0 4096 0 0 0 0 0) = none ∧ readAs 5 0 (cycleBytes 2 0 0 0 0 5 0 0 0 0) = none ∧
    readAs 5 0 (cycleBytes 2 0 0 0 0 1 0 2 1 0) = none ∧ readAs 5 0 (cycleBytes 2 0 0 0 0 1 0 0 4096 0) = none ∧
    readAs 5 0 (10 :: (cycleBytes 2 0 0 0 0 0 0 0 0 0).drop 1) = none ∧
    readAs 6 0 (cycleBytes 2 0 0 0 0 0 0 0 0 1020) =
      some (.cycle ⟨9, 2, .immediate, 0, 7, 8, false, 0, 0, .none, 0, 0, some ⟨1020, .wordLow⟩⟩) ∧
    readAs 6 0 (cycleBytes 2 0 0 0 0 0 1 0 0 1021) = none ∧
    readAs 6 0 (cycleBytes 3 0 0 0 0 0 3 0 0 1018) =
      some (.cycle ⟨9, 3, .immediate, 0, 7, 8, false, 0, 0, .none, 0, 0, some ⟨1018, .pairHigh⟩⟩) ∧
    readAs 6 0 (cycleBytes 3 0 0 0 0 0 2 0 0 1019) = none ∧ readAs 6 0 (cycleBytes 1 0 0 0 0 0 4 0 0 0) = none ∧
    readAs 6 0 (cycleBytes 1 0 0 0 0 0 0 0 0 1024) = none := by decide +kernel

theorem test_hypotheses_StepRecordsAreReadOrRefused_link :
    readAs 8 0 [0, 127, 1, 16, 0xFF, 0, 0xF0, 3] = some (.link ⟨.store, 127, 1, 0xFF, 16, 1008⟩) ∧
    readAs 8 0 [3, 0, 2, 1, 0, 1, 0xFF, 3] = some (.link ⟨.fetchAt, 0, 2, 0x100, 1, 1023⟩) ∧
    readAs 8 0 [4, 5, 9, 77, 1, 1, 0xFF, 0xFF] = some (.link ⟨.probe, 5, 9, 0x101, 77, 65535⟩) ∧
    readAs 8 0 [6] = none ∧ readAs 8 0 [4, 128] = none ∧ readAs 8 0 [1, 0, 0] = none ∧ readAs 8 0 [1, 0, 3] = none ∧
    readAs 8 0 [1, 0, 1, 0, 0, 1] = none ∧ readAs 8 0 [2, 0, 0, 0] = none ∧ readAs 8 0 [2, 0, 0, 17] = none ∧
    readAs 8 0 [2, 0, 0, 1, 0, 0, 0, 4] = none ∧ readAs 8 0 [2, 0, 0, 2, 0, 0, 0xFF, 3] = none ∧
    readAs 8 2 [4] = none := by decide +kernel

/-- The claim conditions, inside and outside, for channels, for lines and for the trigger line of an EDGE mode. -/
theorem test_hypotheses_StepRecordsAreReadOrRefused_claims :
    let fault (kind : Byte) (params : List Byte) := stepFault (oneStep kind 0 params) 0 0x0002#16 0x80#8 0
    fault 1 [2, 0] = none ∧ fault 1 [3, 0] = some .stepOutsideClaim ∧ fault 2 [0, 0] = none ∧
    fault 3 [1, 0] = some .stepOutsideClaim ∧ fault 7 [4, 0, 1] = some .stepOutsideClaim ∧ fault 9 [0x80] = none ∧
    fault 9 [0x81] = some .stepOutsideClaim ∧ fault 5 (cycleBytes 1 3 7 0 0 0 0 0 0 0) = none ∧
    fault 5 (cycleBytes 1 2 6 0 0 0 0 0 0 0) = some .stepOutsideClaim ∧
    fault 5 (cycleBytes 1 0 6 0 0 0 0 0 0 0) = none ∧ fault 10 [] = none ∧ fault 0 [] = some .stepInvalid := by
  decide +kernel

theorem test_hypotheses_AcceptedPostIsPlaced :
    (loaded 0).ready = true ∧ Memory.wf (loaded 0).mem ∧ State.postable (loaded 0) 0 ∧
    headerFault (loaded 0) 0 = none ∧ (loaded 0).parkFlag 0 = false ∧ headerFault (loaded 4) 0 = none ∧
    (loaded 4).parkFlag 0 = true ∧
    (let s := (loaded 0).setLane 0 { Lane.idle with state := .gated, running := some 1 }
     State.postable s 0 ∧ headerFault s 0 = none ∧ (s.lane (s.slotLane 0)).state ≠ .idle) := by
  unfold State.postable
  decide +kernel

/-! ### Takes, claims, steps -/

theorem test_hypotheses_TakeStartsTheHeadSlot :
    (((queued [0, 1] (loaded 0)).lane 0).state = .idle ∧ (queued [0, 1] (loaded 0)).safe = false ∧
      (queued [0, 1] (loaded 0)).queue 0 = [0, 1]) ∧
    ((inStep .awaitGo .awaitGo).lane 0).state ≠ .idle ∧ (holding .safe 0 false State.reset).safe = true ∧
    State.reset.queue 0 = [] := by decide +kernel

theorem test_hypotheses_ClaimRequestIsJudgedAtOnce :
    ((∀ c, inChans ((loaded 0).chanClaim 0) c = true → (loaded 0).ownerOf c = none) ∧
      (∀ l, inLines ((loaded 0).lineClaim 0) l = true → (loaded 0).lineOwnerOf l = none) ∧
      ∀ w ∈ (loaded 0).waitList, (loaded 0).chanClaim 0 &&& w.chans = 0 ∧ (loaded 0).lineClaim 0 &&& w.lines = 0) ∧
    (inChans ((inStep .awaitGo .none).chanClaim 0) 1 = true ∧ (inStep .awaitGo .none).ownerOf 1 ≠ none) ∧
    ((inStep .awaitGo .none).lane 0).running = some 0 ∧ (inStep .awaitGo .none).awaitGoStart 0 = false ∧
    ({ inStep .awaitGo .none with mem := delayPlan 1 0xFF } : State).awaitGoStart 0 = true := by decide +kernel

theorem test_hypotheses_WalkJudgesOldestFirst :
    ((∀ c, inChans 0x0003#16 c = true → State.reset.ownerOf c = none) ∧
      (∀ l, inLines 0x01#8 l = true → State.reset.lineOwnerOf l = none) ∧
      ∀ v ∈ [Waiting.mk 2 0x0004#16 0x00#8], 0x0003#16 &&& v.chans = 0 ∧ 0x01#8 &&& v.lines = 0) ∧
    ¬(∀ v ∈ [Waiting.mk 2 0x0001#16 0x00#8], 0x0003#16 &&& v.chans = 0) := by decide +kernel

theorem test_hypotheses_ReleaseEmptiesTheLanesEntries :
    (inStep .awaitGo .none).ownerOf 1 = some 0 ∧ inChans 0x0001#16 1 = false ∧ inChans 0x0001#16 0 = true ∧
    (inStep .awaitGo .none).ownerOf 2 ≠ some 0 ∧ (inStep .awaitGo .none).lineOwnerOf 0 = some 0 := by decide +kernel

theorem test_hypotheses_StepResultIsRecordedWhole : Memory.wf (inStep .awaitGo .awaitGo).mem := by decide +kernel

/-- Slot 0 with two AWAIT_GO steps and a continuation. -/
def twoSteps (cont : Byte) : State :=
  { inStep .awaitGo .awaitGo with
    mem := stepBytes 0 1 10 0 [] (stepBytes 0 0 10 0 [] (header 0 0 2 cont 0x0003#16 0x01#8 [])) }

theorem test_hypotheses_StepOutcomeDecidesWhatFollows :
    (1 : StepId).val = (0 : StepId).val + 1 ∧ (1 : StepId).val < (twoSteps 0xFF).stepCount 0 ∧
    (twoSteps 0xFF).stepCount 0 ≤ (1 : StepId).val + 1 ∧ (twoSteps 0xFF).continuation 0 = 0xFF#8 ∧
    (twoSteps 21).continuation 0 = numberOf 21 ∧ Memory.wf (twoSteps 0xFF).mem ∧
    State.stepping (twoSteps 0xFF) 0 0 0 ⟨false, 1, .awaitGo⟩ := by
  unfold State.stepping
  decide +kernel

/-- Slot 2 parked, claiming the channels given. -/
def chained (chans : BitVec 16) : State :=
  { twoSteps 2 with mem := header 2 4 1 0xFF chans 0 (twoSteps 2).mem, parked := [2] }

theorem test_hypotheses_ContinuationIsCheckedThenTaken :
    (3 : SlotId) ∉ (chained 1).parked ∧ 2 ∈ (chained 1).parked ∧
    (within16 ((chained 4).chanClaim 2) ((chained 4).chansHeld 0) &&
      within8 ((chained 4).lineClaim 2) ((chained 4).linesHeld 0)) = false ∧
    (within16 ((chained 1).chanClaim 2) ((chained 1).chansHeld 0) &&
      within8 ((chained 1).lineClaim 2) ((chained 1).linesHeld 0)) = true := by decide +kernel

theorem test_hypotheses_ChainEndRunsItsActionsInOrder :
    ({ inStep .awaitGo .none with mem := delayPlan 2 0xFF } : State).offAtEnd 0 = true ∧
    (inStep .awaitGo .none).ownerOf 0 = some 0 := by decide +kernel

theorem test_hypotheses_StepStartsWithItsTimer :
    ((inStep .awaitGo .none).lane 0).running = some 0 ∧
    decodeStep (Memory.writeBytes (inStep .awaitGo .none).mem (slotBase 0 + 0x0D) [BitVec.ofNat 8 (0 : StepId).val]) 0 0 =
      some ⟨false, 1, .delay 5⟩ := by decide +kernel

theorem test_hypotheses_AtOnceStepsActThenPass : ((inStep .awaitGo .none).lane 0).ticks = 0 := rfl

/-- Every channel RAMPING, and every channel HOLDING. -/
def allRamping (s : State) : State := { s with channels := vec16 fun _ => ⟨.ramping, 0, 9, 1, false, none, 0, true⟩ }
def allAtRest (s : State) : State := { s with channels := vec16 fun _ => ⟨.holding, 9, 9, 1, false, none, 0, true⟩ }

theorem test_hypotheses_WaitingStepsSetTheirWait :
    (∀ c, inChans 0x0001#16 c = true → ((onChans 0x0001#16 (setOn 9 0) State.reset).chan c).state = .holding) ∧
    (inChans 0x0001#16 0 = true ∧ ((onChans 0x0001#16 (setOn 9 1) State.reset).chan 0).state ≠ .holding) ∧
    ((allRamping State.reset).chan 0).state = .ramping ∧
    (∀ c, inChans 0x0001#16 c = true → (State.reset.chan c).state ≠ .ramping) ∧
    (cycle .immediate 0 0 false .none none).mode = .immediate ∧
    (cycle .timed 0 0 false .none none).delay = 0 ∧ 1 ≤ (cycle .timed 1 0 false .none none).delay ∧
    (State.reset.line (cycle .edgeRise 0 0 false .none none).line).mode ≠ .inputEdge ∧
    (({ State.reset with lines := vec8 fun _ => ⟨.inputEdge, false, true, some true⟩ } : State).line 0).mode = .inputEdge ∧
    (let s := allAtRest (inStep (.set 1 9 1 false true) .settle)
     (s.lane 0).record = some ⟨false, 1, .set 1 9 1 false true⟩ ∧ (s.lane 0).phase = .settle ∧
       ∀ c, inChans 0x0001#16 c = true → (s.chan c).state = .holding) ∧
    (let s := allRamping (inStep (.verify 1 1) .verifySettle)
     (s.lane 0).record = some ⟨false, 1, .verify 1 1⟩ ∧ (s.lane 0).phase = .verifySettle ∧
       inChans 0x0001#16 0 = true ∧ (s.chan 0).state = .ramping) ∧
    ((inStep .awaitGo .none).ownerOf 1 = some 0 ∧ (inStep .awaitGo .none).ownerOf 2 = none) := by decide +kernel

/-- CH0 arrives and the SET of lane 0 that waits for it ends PASS; the plan is over. -/
theorem test_arrival_ends_a_settle : ∃ t : State,
    exec .rampMove { inStep (.set 1 9 9 false true) .settle with
      rampMovesDue := 1, channels := vec16 fun _ => ⟨.ramping, 0, 9, 9, false, none, 0, true⟩ } = .next t ∧
    (t.chan 0).state = .holding ∧ t.finished = 1#22 ∧ (t.lane 0).state = .idle := ⟨_, rfl, by decide +kernel⟩

/-- One GO applies CH0 and CH1 of a VERIFY in its settle phase: at CH0's report nothing moves any more and the watch
begins, and CH1's apply, still to come, disturbs it (R73, R120, R121). -/
theorem test_later_apply_of_one_go_disturbs : ∃ t : State,
    exec (.go 1 true) { inStep (.verify 3 1) .verifySettle with
      channels := vec16 fun c => if c.val = 0 then ⟨.ramping, 0, 9, 1, false, some ⟨5, 0⟩, 0, true⟩
        else ⟨.holding, 9, 9, 1, false, some ⟨4, 0⟩, 0, true⟩ } = .next t ∧
    (t.lane 0).phase = .measuring ∧ (t.watch 0).disturbed = 2#16 := ⟨_, rfl, by decide +kernel⟩

theorem test_hypotheses_ChannelsRampToTheirTargets :
    (let x : Channel := ⟨.ramping, 10, 20, 10, false, none, 0, true⟩
     x.duty ≤ x.target ∧ x.target.toNat - x.duty.toNat ≤ x.rate.toNat) ∧
    (let x : Channel := ⟨.ramping, 10, 20, 9, false, none, 0, true⟩
     x.duty ≤ x.target ∧ x.rate.toNat < x.target.toNat - x.duty.toNat) ∧
    (let x : Channel := ⟨.ramping, 10, 0, 10, true, none, 0, true⟩
     x.target < x.duty ∧ x.duty.toNat - x.target.toNat ≤ x.rate.toNat) ∧
    (let x : Channel := ⟨.ramping, 10, 0, 9, true, none, 0, true⟩
     x.target < x.duty ∧ x.rate.toNat < x.duty.toNat - x.target.toNat) ∧
    State.reset.rampMovesDue = 0 ∧ ({ State.reset with rampMovesDue := 1 } : State).rampMovesDue = 0 + 1 ∧
    ∀ k, ¬State.reset.rampWaits k := by
  unfold State.rampWaits
  decide +kernel

theorem test_hypotheses_UnitsPassOnInOrderOfRequest_monitor :
    (let s := inStep (.verify 0xC000 1) .monitorQueue
     (s.lane 0).verifyParams = some (0xC000#16, 1) ∧ inChans 0xC000#16 14 = true ∧
       (∀ d : ChanId, d < 14 → inChans 0xC000#16 d = false) ∧ s.monitor.instant = none) ∧
    (let s : State := { allRamping (inStep (.verify 1 1) .monitorQueue) with
       monitor := { DutyMonitor.reset with grantee := some 3, queue := [0], instant := some 3 } }
     s.monitor.queue = [0] ∧ s.monitor.instant = some 3 ∧ s.quarterOf 3 = s.quarterOf 0 ∧
       (s.chan 0).started = true) := by decide +kernel

theorem test_hypotheses_UnitsPassOnInOrderOfRequest :
    State.reset.converter.grantee = none ∧ State.reset.monitor.grantee = none ∧ State.reset.link.grantee = none ∧
    (sampling (cycle .immediate 0 0 false .none none) .converting 0).converter.grantee = some 0 ∧
    (verifying 1 0).monitor.grantee = some 0 ∧ (onLink (transfer .probe 0) .start false).link.grantee = some 0 ∧
    ({ Converter.reset with queue := [1, 2] } : Converter).queue = 1 :: [2] ∧ State.reset.converter.queue = [] ∧
    ({ DutyMonitor.reset with queue := [1] } : DutyMonitor).queue = 1 :: [] ∧ State.reset.monitor.queue = [] ∧
    ({ Link.reset with queue := [1] } : Link).queue = 1 :: [] ∧ State.reset.link.queue = [] := by decide +kernel

/-! ### Time, cycles, lines, measurements -/

theorem test_hypotheses_TickCountsOnce :
    State.reset.ready = true ∧ State.reset.holdSafe.state ≠ .watching ∧
    (holding .watching 99998 false State.reset).holdSafe.count + 1 < State.reset.config.window ∧
    (holding .watching 99999 false State.reset).holdSafe.count + 1 = State.reset.config.window ∧
    State.reset.config.window ≤ (holding .watching 100000 false State.reset).holdSafe.count ∧
    (holding .watching 100000 true State.reset).holdSafe.expiryDue = true ∧
    (let s := onLink (transfer .store 1) .write false
     s.link.grantee ≠ none ∧ s.link.waited < s.config.stretch.toNat ∧
       s.config.stretch.toNat ≤ ({ s with link := { s.link with waited := 100 } } : State).link.waited) := by
  decide +kernel

/-- The window runs out at one tick boundary. A renewal of that boundary is accepted; one a boundary later finds SAFE
(R159). -/
theorem test_late_renewal_finds_safe :
    ∃ t₁ t₂ t₃ t₄ : State, exec .tick (holding .watching 99999 false State.reset) = .next t₁ ∧
      exec .renew t₁ = .next t₂ ∧ t₂.holdSafe = ⟨.watching, 0, false⟩ ∧
      exec .tick t₁ = .next t₃ ∧ t₃.holdSafe = ⟨.safe, 100000, false⟩ ∧
      exec .renew t₃ = .next t₄ ∧ t₄.result = ⟨.safeActive, 0x04#8, 0xFF#8⟩ :=
  ⟨_, _, _, _, rfl, rfl, by decide +kernel, rfl, by decide +kernel, rfl, by decide +kernel⟩

/-- A state with lane 0's timers given. -/
def timed (l : Lane → Lane) (s : State) : State := s.setLane 0 (l (s.lane 0))

theorem test_hypotheses_ExpiriesReachTheirLane :
    (let s := timed (fun l => { l with stepTimer := some 0, planTimer := some 0, interval := some 0 })
       (inStep (.delay 5) .delay)
     (s.lane 0).state = .stepping ∧ (s.lane 0).stepTimer = some 0 ∧ (s.lane 0).planTimer = some 0 ∧
       (s.lane 0).interval = some 0 ∧ (s.lane 0).record = some ⟨false, 1, .delay 5⟩ ∧ (s.lane 0).phase = .delay) ∧
    (State.reset.lane 0).stepTimer ≠ some 0 ∧ (State.reset.lane 0).planTimer ≠ some 0 ∧
    (State.reset.lane 0).interval ≠ some 0 ∧
    ((inStep .awaitGo .timedDelay).lane 0).phase = .timedDelay ∧
    ((inStep (.cycle (cycle .edgeRise 3 0 false .none none)) .confirm).lane 0).cycleParams =
      some (cycle .edgeRise 3 0 false .none none) ∧
    ((cycle .edgeRise 3 0 false .none none).mode = .edgeRise ↔ (State.reset.line 0).level = true) ∧
    ¬((cycle .edgeFall 3 0 false .none none).mode = .edgeRise ↔ (State.reset.line 0).level = true) ∧
    ((inStep (.link (transfer .probeUntil 0)) .pollInterval).lane 0).phase = .pollInterval := by decide +kernel

theorem test_hypotheses_ConversionEndRecordsStoresJudges :
    (let p := cycle .immediate 0 5 false .none none
     State.converterServes (sampling p .converting 1) 0 p .converting ∧ p.capture = none ∧ p.samples ≤ 1 + 1 ∧
       0 + 1 < p.samples ∧ 1 ≤ p.wait ∧ p.abortLo ≤ (4095 : Duty) ∧ (4095 : Duty) ≤ p.abortHi) ∧
    (let p := { cycle .edgeRise 0 0 true .min (some ⟨1020, .wordHigh⟩) with abortLo := 100, abortHi := 200 }
     State.converterServes (sampling p .converting 1) 0 p .converting ∧ p.capture = some ⟨1020, .wordHigh⟩ ∧
       1020 + 2 * 1 + 2 ≤ 1024 ∧ (99 : Duty) < p.abortLo ∧ p.abortHi < (201 : Duty) ∧ p.stat = .min ∧ p.wait = 0 ∧
       p.holdoff = true) ∧
    (let p := cycle .edgeFall 0 0 true .last (some ⟨0, .wordLow⟩)
     p.capture = some ⟨0, .wordLow⟩ ∧ p.judgeLo.toNat ≤ 100 ∧ 200 ≤ p.judgeHi.toNat ∧
       ((p.mode = .edgeFall) ↔ ((({ State.reset with lines := vec8 fun _ => Line.reset false } : State).line 0).level
         = false))) ∧
    (let p := cycle .timed 0 0 false .max (some ⟨1021, .pairLow⟩)
     p.capture = some ⟨1021, .pairLow⟩ ∧ ((sampling p .converting 0).lane 0).halfPair = none ∧
       ((timed (fun l => { l with halfPair := some 7 }) (sampling p .converting 1)).lane 0).halfPair = some 7 ∧
       1021 + 3 * (1 / 2) + 3 ≤ 1024 ∧
       ((timed (fun l => { l with halfPair := some 7 }) (sampling p .converting 1)).lane 0).cycleParams = some p) ∧
    (cycle .timed 0 0 false .avg (some ⟨0, .pairHigh⟩)).capture = some ⟨0, .pairHigh⟩ ∧
    (let p := cycle .edgeRise 0 5 true .none none
     State.converterServes (sampling p .sampleWait 1) 0 p .sampleWait ∧
       (sampling p .sampleWait 1).converter.waitLeft = some 0) := by
  unfold State.converterServes
  decide +kernel

/-- Lane 0 waits for an edge of FL0, which is in INPUT_EDGE mode at a level. -/
def edgeWaiting (p : CycleParams) (level : Bool) : State :=
  { inStep (.cycle p) .edgeWait with lines := vec8 fun _ => ⟨.inputEdge, false, level, some level⟩ }

theorem test_hypotheses_LevelChangeIsHandedOn :
    ((State.reset.line 0).mode ≠ .inputEdge ∧ State.reset.lineOwnerOf 0 = none) ∧
    (let p := cycle .edgeRise 0 0 false .none none
     let s := edgeWaiting p false
     (s.line 0).mode = .inputEdge ∧ s.lineOwnerOf 0 = some 0 ∧ (s.lane 0).cycleParams = some p ∧ p.line = 0 ∧
       p.mode = .edgeRise ∧ (s.line 0).level = false ∧ (s.lane 0).phase = .edgeWait ∧ p.delay = 0) ∧
    (let p := cycle .edgeFall 1 0 true .none none
     let s := edgeWaiting p true
     p.mode = .edgeFall ∧ (s.line 0).level = true ∧ 1 ≤ p.delay) ∧
    (let s := sampling (cycle .edgeRise 0 0 true .none none) .holdoffWait 1
     (s.lane 0).phase = .converting ∧ s.converter.phase = .holdoffWait) ∧
    ((inStep .awaitGo .awaitGo).lane 0).cycleParams = none ∧
    ((inStep .awaitGo .awaitGo).lane 0).phase ≠ .edgeWait := by decide +kernel

theorem test_hypotheses_PeriodStartsLatchDuties :
    (State.reset.group 3).pending = none ∧ (15 : ChanId).val / 4 = (3 : GroupId).val ∧
    (State.reset.chan 0).started = false ∧ ((allRamping State.reset).chan 0).started = true ∧
    State.reset.monitor.selected ≠ some 0 ∧
    (let s := verifying 0x0003 0
     s.monitor.selected = some 0 ∧ s.monitor.phase = .counting ∧ s.monitor.grantee = some 0 ∧
       (s.lane 0).verifyParams = some (0x0003#16, 1) ∧ s.monitor.periods < 1 ∧ 1 ≤ (verifying 0x0003 1).monitor.periods) ∧
    ({ DutyMonitor.reset with phase := .align } : DutyMonitor).phase = .align := by decide +kernel

theorem test_hypotheses_MeasurementEndRecordsThenSelects :
    (let s := verifying 0x0003 1
     s.ready = true ∧ s.monitor.phase = .counting ∧ s.monitor.grantee = some 0 ∧ s.monitor.selected = some 0 ∧
       (s.lane 0).verifyParams = some (0x0003#16, 1) ∧ s.monitor.periods = 1 ∧ (0 : ChanId) < 1 ∧
       inChans 0x0003#16 1 = true ∧ ∀ f : ChanId, 0 < f → f < 1 → inChans 0x0003#16 f = false) ∧
    (verifying 0x0003 0).monitor.periods ≠ 1 ∧ (∀ e : ChanId, 0 < e → inChans 0x0001#16 e = false) ∧
    ((verifying 0x0001 1).lane 0).verifyParams = some (0x0001#16, 1) := by decide +kernel

theorem test_hypotheses_VerifyResultNamesTheWorstChannel :
    (let m : Measured := ⟨1, 900, 100, true⟩
     let w : Watch := ⟨0, [⟨0, 5, 0, false⟩, m, ⟨2, 8, 100, true⟩, ⟨3, 8, 99, true⟩]⟩
     m ∈ w.measured ∧ w.measured.Pairwise (fun x y => x.chan < y.chan) ∧ m.failed = true ∧
       ∀ x ∈ w.measured, x.failed = true →
         x.deviation < m.deviation ∨ (x.deviation = m.deviation ∧ m.chan ≤ x.chan)) ∧
    ∀ m ∈ (Watch.mk 0 [⟨0, 5, 0, false⟩]).measured, m.failed = false := by decide

/-! ### The link -/

theorem test_hypotheses_LinkElementsFollowOneAnother :
    (let p := transfer .fetchHere 0
     State.linkServes (onLink p .start false) 0 p .start ∧ (onLink p .start false).link.windDown = false ∧
       p.mode = .fetchHere) ∧
    (let p := transfer .store 2
     State.linkServes (onLink p .address false) 0 p .address ∧ (onLink p .address false).link.readBit = false ∧
       p.width = 2 ∧ p.mode ≠ .probe ∧ p.mode ≠ .probeUntil ∧ p.mode ≠ .fetchHere ∧
       State.linkServes (onLink p .register false) 0 p .register ∧ (onLink p .register false).link.regLeft = 0 ∧
       State.linkServes (onLink p .write false) 0 p .write ∧ 0 + 1 < p.length ∧ p.offset + 0 + 1 < 1024) ∧
    (let p := transfer .fetchAt 1
     p.width = 1 ∧ State.linkServes (onLink p .restart false) 0 p .restart ∧
       State.linkServes (onLink p .read false) 0 p .read ∧ (onLink p .read false).link.ninth = false ∧
       (onLink p .read false).link.extra = false ∧ p.length ≤ 1 + 1) ∧
    (let s := onLink (transfer .store 1) .start false
     s.link.waited < s.config.stretch.toNat ∧
       s.config.stretch.toNat ≤ ({ s with link := { s.link with waited := 100 } } : State).link.waited) ∧
    (transfer .probe 0).mode = .probe ∧ (transfer .probeUntil 0).mode = .probeUntil ∧
    (transfer .point 1).mode = .point := by
  unfold State.linkServes
  decide +kernel

theorem test_hypotheses_TransfersEndWithTheirStop :
    (let s := onLink (transfer .probeUntil 0) .stop false
     s.ready = true ∧ s.link.grantee = some 0 ∧ (s.lane 0).record = some ⟨false, 1, .link (transfer .probeUntil 0)⟩ ∧
       (s.lane 0).phase = .linking ∧ s.link.windDown = false ∧ s.link.phase = .stop ∧ s.link.ending = .normal) ∧
    (onLink (transfer .probe 0) .recovery false).link.phase = .recovery ∧
    (let s := timed (fun l => { l with state := .winding, cause := some .hostAbort })
       (onLink (transfer .store 1) .stop true)
     s.link.windDown = true ∧ (s.lane 0).cause = some .hostAbort) ∧
    (let s := onLink (transfer .store 1) .write false
     ¬(s.config.stretch.toNat ≤ s.link.waited) ∧
       s.config.stretch.toNat ≤ ({ s with link := { s.link with waited := 100 } } : State).link.waited) := by
  decide +kernel

/-- A bus is not stuck before the stretch limit of 100 ticks has run out, and is then (R142). -/
theorem test_bus_is_stuck_at_the_stretch_limit :
    (let s := onLink (transfer .store 1) .write false
     exec .busStuck { s with link := { s.link with waited := 99 } } =
       .next { s with link := { s.link with waited := 99 } }) ∧
    ∃ t : State, exec .busStuck (let s := onLink (transfer .store 1) .write false
      { s with link := { s.link with waited := 100 } }) = .next t ∧ t.link.busUncertain = true ∧
      t.link.grantee = none ∧ Memory.bytes t.mem 0x23C 2 = [0x04#8, 0x0A#8] := ⟨rfl, _, rfl, by decide +kernel⟩

/-- An order that finds the link in START with the stretch limit run out: the bus is stuck and no START ends any more, the
flag is set, and the step ends by the lane's cause (R153). -/
theorem test_wind_down_on_a_stuck_bus : ∃ t u v : State,
    exec (.abort 0) (let s := onLink (transfer .store 1) .start false
      { s with link := { s.link with waited := 100 } }) = .next t ∧
    (t.lane 0).state = .winding ∧ t.link.phase = .start ∧ t.link.windDown = true ∧
    exec .linkStartDone t = .next v ∧ v.link = t.link ∧ exec .busStuck t = .next u ∧
    u.link.busUncertain = true ∧ u.link.grantee = none ∧ (u.lane 0).state = .idle ∧
    Memory.bytes u.mem 0x23C 2 = [0x05#8, 0x0E#8] :=
  ⟨_, _, _, rfl, by decide +kernel, by decide +kernel, by decide +kernel, rfl, by decide +kernel, rfl, by decide +kernel⟩

theorem test_hypotheses_AbortEndsAnUnrunSlot :
    22 ≤ (22#8 : Byte).toNat ∧ (21#8 : Byte) = numberOf 21 ∧ State.reset.place 21 = none ∧
    ({ loaded 4 with parked := [0] } : State).place 0 = some .parked ∧ Memory.wf (loaded 4).mem ∧
    (queued [1, 0, 2] ((loaded 0).setLane 0 { Lane.idle with state := .gated, running := some 5 })).place 0 =
      some (.queued 0) := by decide +kernel

theorem test_hypotheses_AbortReachesTheRunningLane :
    (inStep .awaitGo .awaitGo).place 0 = some (.running 0) ∧
    ((onLink (transfer .probe 0) .address false).lane 0).state = .stepping ∧
    ((onLink (transfer .probe 0) .address false).lane 0).phase = .linking ∧
    ¬(((inStep .awaitGo .awaitGo).lane 0).state = .winding ∨ (((inStep .awaitGo .awaitGo).lane 0).state = .stepping ∧
      ((inStep .awaitGo .awaitGo).lane 0).phase = .linking)) := by decide +kernel

theorem test_hypotheses_CauseEndsAWaitingLane :
    (let s := (loaded 0).setLane 0 { Lane.idle with state := .claiming, running := some 0 }
     Memory.wf s.mem ∧ (s.lane 0).state = .claiming ∧ (s.lane 0).running = some 0) ∧
    (((loaded 0).setLane 0 { Lane.idle with state := .gated, running := some 0 }).lane 0).state = .gated := by
  decide +kernel

theorem test_hypotheses_CauseEndsASteppingLane :
    (let p := cycle .immediate 0 0 false .none (some ⟨0, .pairLow⟩)
     State.stepping (sampling p .converting 1) 0 0 0 ⟨false, 1, .cycle p⟩ ∧
       ((sampling p .converting 1).lane 0).phase ≠ .linking) ∧
    State.stepping (inStep (.verify 1 1) .monitorQueue) 0 0 0 ⟨false, 1, .verify 1 1⟩ ∧
    State.stepping (inStep (.link (transfer .probe 0)) .linkQueue) 0 0 0 ⟨false, 1, .link (transfer .probe 0)⟩ ∧
    State.stepping (inStep (.delay 5) .delay) 0 0 0 ⟨false, 1, .delay 5⟩ := by
  unfold State.stepping
  decide +kernel

theorem test_hypotheses_WindDownGoesToTheNextStop :
    (let s := onLink (transfer .store 1) .write false
     (s.lane 0).state = .stepping ∧ (s.lane 0).phase = .linking ∧ s.link.phase ≠ .start ∧
       (s.lane 0).running = some 0 ∧ (s.lane 0).step = some 0 ∧
       (s.lane 0).record = some ⟨false, 1, .link (transfer .store 1)⟩) ∧
    (let s := onLink (transfer .store 1) .start false
     s.link.phase = .start ∧ ¬(s.config.stretch.toNat ≤ s.link.waited) ∧
       s.config.stretch.toNat ≤ ({ s with link := { s.link with waited := 100 } } : State).link.waited) ∧
    (let s := timed (fun l => { l with state := .winding, cause := some .stepTimeout })
       (onLink (transfer .fetchHere 0) .read true)
     (s.lane 0).state = .winding ∧ (s.lane 0).cause = some .stepTimeout ∧ s.link.windDown = true) ∧
    (let s := timed (fun l => { l with state := .winding, cause := some .safeOrder })
       (onLink (transfer .fetchHere 0) .read true)
     (s.lane 0).cause ≠ some .stepTimeout) ∧
    (let p := transfer .fetchHere 0
     State.linkServes (onLink p .read true) 0 p .read ∧ State.linkServes (onLink p .address true) 0 p .address ∧
       State.linkServes (onLink p .start true) 0 p .start ∧ State.linkServes (onLink p .restart true) 0 p .restart ∧
       State.linkServes (onLink p .register true) 0 p .register ∧ State.linkServes (onLink p .write true) 0 p .write ∧
       p.offset + 0 < 1024 ∧ ¬((onLink p .read true).config.stretch.toNat ≤ (onLink p .read true).link.waited)) := by
  unfold State.linkServes
  decide +kernel

theorem test_hypotheses_WindDownGoesToTheNextStop_second_cause :
    ∀ cause : EndCause,
    (let s := timed (fun l => { l with state := .winding, cause := some cause })
       (onLink (transfer .store 1) .write true)
     (s.lane 0).running = some 0 ∧ (s.lane 0).step = some 0 ∧ (s.lane 0).phase = .linking ∧
       (s.lane 0).record = some ⟨false, 1, .link (transfer .store 1)⟩) := by
  intro cause
  cases cause <;> decide +kernel

/-! ### Commands and the port -/

theorem test_hypotheses_GoAppliesThenReleases :
    State.reset.ready = true ∧ (((loaded 1).setLane 0 { Lane.idle with state := .gated }).lane 0).state = .gated ∧
    ((inStep .awaitGo .awaitGo).lane 0).state = .stepping ∧ ((inStep .awaitGo .awaitGo).lane 0).phase = .awaitGo ∧
    ∀ k, ¬(inStep .awaitGo .awaitGo).rampWaits k := by
  unfold State.rampWaits
  decide +kernel

theorem test_hypotheses_ShortCommandsAnswerAtOnce :
    State.reset.holdSafe.state = .disabled ∧ (holding .watching 5 true State.reset).holdSafe.state = .watching ∧
    (holding .safe 5 false State.reset).holdSafe.state = .safe ∧ (∀ k, (State.reset.lane k).state ≠ .winding) ∧
    ((State.reset.setLane 3 { Lane.idle with state := .winding }).lane 3).state = .winding ∧
    (0#8 : Byte).toNat = 0 ∧ 10 ≤ (10#8 : Byte).toNat := by decide +kernel

/-- A configuration page that holds the defaults (section 11.3). -/
def defaultPage : Memory :=
  let m := [0, 1, 2, 3].foldl (fun m g => Memory.writeBytes m (4 + 2 * g) [0xE8#8, 0x03#8]) (Memory.write [] 0 1)
  let m := Memory.writeBytes m 0x00C [0xFF#8, 0xFF#8]
  let m := Memory.writeBytes m 0x060 (List.replicate 8 1#8)
  Memory.writeBytes m 0x070 [16, 0, 0, 0, 0xA0, 0x86, 0x01, 0, 100, 0, 100, 0, 50, 0]

theorem test_default_page_holds_the_reset_set : configOfPage defaultPage = ConfigSet.default := by decide +kernel

theorem test_hypotheses_LoadConfigTakesThePageOrNothing :
    (queued [3] State.reset).place 3 ≠ none ∧ ((inStep .awaitGo .awaitGo).lane 0).state ≠ .idle ∧
    (∀ n, State.reset.place n = none) ∧ (∀ k, (State.reset.lane k).state = .idle) ∧
    firstBadField State.reset.mem = some 0x000 ∧ firstBadField defaultPage = none := by decide +kernel

theorem test_hypotheses_ConfigurationFieldsAreChecked :
    firstBadField defaultPage = none ∧
    (let first (off : Nat) (bytes : List Byte) := firstBadField (Memory.writeBytes defaultPage off bytes)
     first 0x000 [2] = some 0x000 ∧ first 0x00A [49, 0] = some 0x00A ∧ first 0x004 [0x11, 0x27] = some 0x004 ∧
       first 0x02E [0, 16] = some 0x02E ∧ first 0x030 [0, 16] = some 0x030 ∧ first 0x05F [4] = some 0x05F ∧
       first 0x067 [5, 2] = some 0x067 ∧ first 0x068 [2] = some 0x068 ∧ first 0x074 [0xE7, 3, 0, 0] = some 0x074 ∧
       first 0x078 [9, 0, 0, 0, 0, 0] = some 0x078 ∧ first 0x07A [0, 0, 0, 0] = some 0x07A ∧
       first 0x07C [0xE9, 3] = some 0x07C) := by decide +kernel

theorem test_hypotheses_EngineResetClearsTheEngine : (inStep .awaitGo .awaitGo).ready = true := rfl

theorem test_hypotheses_MonitorExpiryBringsSafety :
    State.reset.holdSafe.state ≠ .watching ∧
    (let s := holding .watching 100000 true { queued [1] (inStep .awaitGo .awaitGo) with parked := [2] }
     s.ready = true ∧ s.holdSafe.state = .watching ∧ s.holdSafe.expiryDue = true ∧ 2 ∈ s.parked ∧ 1 ∈ s.queue 0 ∧
       Memory.wf s.mem ∧ (s.lane 0).running = some 0 ∧ (s.lane 0).step = some 0 ∧
       ∀ k, (s.lane k).state ≠ .idle → k = 0) ∧
    State.slotsApart { allServed with parked := [4] } ∧ (allServed.lane 0).state = .stepping ∧
    (allServed.lane 0).phase ≠ .linking ∧ (allServed.lane 3).state = .claiming := by
  unfold State.slotsApart
  decide +kernel

/-- The monitor expires while lane 0 converts, lane 1 waits for the converter, lane 2 winds down and lane 3 claims. -/
theorem test_expiry_leaves_only_the_winding_lane : ∃ t : State,
    exec .monitorExpiry (holding .watching 100000 true allServed) = .next t ∧
    (t.lane 0).state = .idle ∧ (t.lane 1).state = .idle ∧ (t.lane 2).state = .winding ∧ (t.lane 3).state = .idle ∧
    t.converter.grantee = none ∧ t.converter.queue = [] ∧ t.link.grantee = some 2 ∧ t.finished = 0x00000B#22 ∧
    Memory.bytes t.mem (slotBase 0 + 1) 3 = [0x07#8, 0x36#8, 0x00#8] ∧
    Memory.bytes t.mem (stepBase 0 0 + 0x1C) 4 = [0x05#8, 0x0F#8, 0x01#8, 0x00#8] ∧
    Memory.bytes t.mem (slotBase 3 + 1) 3 = [0x07#8, 0x36#8, 0xFF#8] := ⟨_, rfl, by decide +kernel⟩

/-- A POST is taken at the boundary that has found the window reached, and its lane is in its DELAY: the expiry of that
boundary writes the step in flight SKIPPED (R162). With a boundary between them it is ABORTED (R49). -/
theorem test_safe_order_after_a_take_skips : ∃ s t u : State,
    exec (.post 0) (loaded 0) = .next s ∧ (s.lane 0).state = .stepping ∧
    exec .monitorExpiry (holding .watching 100000 true s) = .next t ∧
    Memory.bytes t.mem (slotBase 0 + 1) 3 = [0x07#8, 0x36#8, 0x00#8] ∧
    Memory.bytes t.mem (stepBase 0 0 + 0x1C) 2 = [0x06#8, 0x00#8] ∧
    exec .monitorExpiry (holding .watching 100000 true (s.setLane 0 (s.lane 0).atTick)) = .next u ∧
    Memory.bytes u.mem (stepBase 0 0 + 0x1C) 2 = [0x05#8, 0x0F#8] :=
  ⟨_, _, _, rfl, by decide +kernel, rfl, by decide +kernel, by decide +kernel, rfl, by decide +kernel⟩

theorem test_hypotheses_CommandWordRunsItsCommand :
    State.reset.ready = true ∧ (0x00#8 : Byte).toNat = 0 ∧ 10 ≤ (0x0A#8 : Byte).toNat := by decide

theorem test_hypotheses_GoodWriteIsAppliedWhole :
    (0x01FF#16 : Half).toNat + [0#8].length ≤ 0x0200 ∧ 0x3000 ≤ (0x3FFF#16 : Half).toNat ∧
    (0x3FFF#16 : Half).toNat + [0#8].length ≤ 0x4000 ∧
    (0x0200 ≤ (0x2DFF#16 : Half).toNat ∧ (0x2DFF#16 : Half).toNat + [0#8].length ≤ 0x2E00 ∧
      ∀ n, State.reset.place n = none) ∧
    ((0x7F10#16 : Half).toNat = 0x7F10 ∧ [0x01#8, 0x00#8, 0x20#8, 0xFF#8] = wordBytes 0xFF200001#32) ∧
    (List.replicate 64 0#8).length ≤ 64 ∧ 64 < (List.replicate 65 0#8).length ∧
    (0x3F00#16 : Half).toNat + (List.replicate 256 0#8).length ≤ 0x4000 ∧ (List.replicate 256 0#8).length ≤ 256 := by
  decide +kernel

theorem test_hypotheses_FaultyFrameOnlyLatchesPortFault :
    ((inStep .awaitGo .awaitGo).place 0 ≠ none ∧ inSlot 0 0x3FF ∧ ¬inSlot 0 0x400) ∧
    (0x2DFF < 0x3000 ∧ 0x2E00 < 0x2DFF + 2) ∧ (0x01FF < 0x0200 ∧ 0x0200 < 0x01FF + 2) ∧
    (0x3FFF < 0x4000 ∧ 0x4000 < 0x3FFF + 2) ∧ 0x7EFF < 0x7F00 ∧ 0x7F1C < 0x7F1C + 4 ∧ 0x7F0A % 4 ≠ 0 ∧
    (Instr.readOnlyRegisterWrite 0x7F04#16 [0, 0, 0, 0]).wellFormed = true ∧
    (0x00#8 : Byte) ≠ 0xA5#8 ∧ (0x00#8 : Byte) ≠ 0x5A#8 ∧ 0 < 1 := by
  unfold inSlot
  decide +kernel

theorem test_hypotheses_BadCrcIsCounted :
    0#16 ≠ writeCrc 0x7F08#16 [4, 0, 0, 0] ∧ 0#16 ≠ readCrc 0x7F00#16 27 := by decide +kernel

theorem test_hypotheses_ReadAnswersWithASnapshot :
    (0x01FF#16 : Half).toNat + ((0 : Byte).toNat + 1) ≤ 0x0200 ∧
    ¬((0x01FF#16 : Half).toNat + ((1 : Byte).toNat + 1) ≤ 0x0200) ∧
    (0x7F00#16 : Half).toNat + ((27 : Byte).toNat + 1) ≤ 0x7F1C ∧
    (0x0100#16 : Half).toNat + ((255 : Byte).toNat + 1) ≤ 0x0200 ∧ State.reset.ready = true ∧
    ({ State.reset with ready := false } : State).ready = false := by decide

theorem test_hypotheses_ViewsShowTheStateAtTheirOffsets :
    ((queued [1, 2, 3, 4, 5, 6, 7, 8] State.reset).queue 0).length ≤ 8 ∧ State.reset.converter.queue.length ≤ 4 ∧
    State.reset.monitor.queue.length ≤ 4 ∧ State.reset.link.queue.length ≤ 4 ∧ State.reset.waitList.length ≤ 4 := by
  decide +kernel

theorem test_hypotheses_DeviceResetCutsThenClears : ({ State.reset with ready := false } : State).ready = false := rfl

end Sys2Proof.Tests
end

