-- ==== Sys2Proof/Proofs/Intake.lean ====
section
/-! SUPPORT. What a command can do to the intake and to exchange memory: the view of State that the slots' laws speak of,
the preorder `Intake.Shrinks` (slots are only given up, and only held slots and capture windows are written), and that every
operation of the lanes and units either leaves the view as it is or shrinks it. -/

namespace Sys2Proof.Machine

/-! ### The intake's view of State -/

/-- What the laws of the slots speak of: exchange memory, the queues, the parked set, FINISHED and the running slots. -/
structure Intake where
  mem : Memory
  queue : LaneId → List SlotId
  parked : List SlotId
  finished : BitVec 22
  running : LaneId → Option SlotId

def State.intake (s : State) : Intake := ⟨s.mem, s.queue, s.parked, s.finished, fun k => (s.lane k).running⟩

/-- The held slots with their repetitions, as `State.heldList` lists them. -/
def Intake.held (v : Intake) : List SlotId := allLanes.flatMap v.queue ++ v.parked ++ allLanes.filterMap v.running

/-- The view with another memory, and with another running slot of lane k. -/
def Intake.withMem (v : Intake) (m : Memory) : Intake := ⟨m, v.queue, v.parked, v.finished, v.running⟩
def Intake.withRunning (v : Intake) (k : LaneId) (o : Option SlotId) : Intake :=
  ⟨v.mem, v.queue, v.parked, v.finished, fun j => if j = k then o else v.running j⟩

theorem held_intake (s : State) : s.intake.held = s.heldList := rfl

/-- How often a slot is held: once for each place. -/
theorem Intake.count_held (v : Intake) (m : SlotId) :
    v.held.count m =
      (∑ k, (v.queue k).count m) + v.parked.count m + ∑ k, (if v.running k = some m then 1 else 0) := by
  have hr : ∀ ks : List LaneId, (ks.filterMap v.running).count m =
      (ks.map fun k => if v.running k = some m then 1 else 0).sum := by
    intro ks
    induction ks with
    | nil => rfl
    | cons k ks ih => cases h : v.running k <;> simp [h, ih, List.count_cons, Nat.add_comm]
  simp only [Intake.held, List.count_append, hr, List.count_flatMap, Fin.sum_univ_four, allLanes, List.map_cons,
    List.map_nil, List.sum_cons, List.sum_nil, Function.comp_apply]
  omega

/-- A sum over the lanes after a change at one lane. -/
theorem sum_lanes_change {f g : LaneId → Nat} (k : LaneId) (h : ∀ j, j ≠ k → g j = f j) :
    (∑ j, g j) + f k = (∑ j, f j) + g k := by
  rw [← Finset.add_sum_erase _ f (Finset.mem_univ k), ← Finset.add_sum_erase _ g (Finset.mem_univ k),
    Finset.sum_congr rfl fun j hj => h j (Finset.ne_of_mem_erase hj)]
  ring

theorem Intake.mem_held (v : Intake) (n : SlotId) :
    n ∈ v.held ↔ (∃ k, n ∈ v.queue k) ∨ n ∈ v.parked ∨ ∃ k, v.running k = some n := by
  simp [Intake.held, mem_allLanes]

/-! ### Where a held slot is -/

theorem place_eq_none_iff (s : State) (n : SlotId) : s.place n = none ↔ n ∉ s.heldList := by
  rw [← held_intake, Intake.mem_held]
  unfold State.place State.intake
  cases hr : allLanes.find? (fun k => (s.lane k).running == some n) with
  | some k =>
    have h := List.find?_some hr
    simp only [beq_iff_eq] at h
    simp only [reduceCtorEq, false_iff, not_not]
    exact .inr (.inr ⟨k, h⟩)
  | none =>
    have hrun : ∀ k, (s.lane k).running ≠ some n := fun k => by
      simpa using List.find?_eq_none.mp hr k (mem_allLanes k)
    by_cases hp : n ∈ s.parked
    · simp [hp]
    · cases hq : allLanes.find? (fun k => (s.queue k).contains n) with
      | some k =>
        have h := List.find?_some hq
        simp only [List.contains_iff_mem] at h
        simp only [hp, List.contains_iff_mem, if_false, reduceCtorEq, false_iff, not_not]
        exact .inl ⟨k, h⟩
      | none =>
        have hqueue : ∀ k, n ∉ s.queue k := fun k => by
          simpa using List.find?_eq_none.mp hq k (mem_allLanes k)
        simp [hp, hrun, hqueue]

theorem running_of_place {s : State} {n : SlotId} {k : LaneId} (h : s.place n = some (.running k)) :
    (s.lane k).running = some n := by
  unfold State.place at h
  split at h
  · rename_i j hj
    obtain rfl : j = k := by simpa using h
    simpa using List.find?_some hj
  · split at h
    · simp at h
    · split at h <;> simp at h

theorem parked_of_place {s : State} {n : SlotId} (h : s.place n = some .parked) : n ∈ s.parked := by
  unfold State.place at h
  split at h
  · simp at h
  · split at h
    · rename_i hp
      simpa using hp
    · split at h <;> simp at h

theorem queued_of_place {s : State} {n : SlotId} {k : LaneId} (h : s.place n = some (.queued k)) : n ∈ s.queue k := by
  unfold State.place at h
  split at h
  · simp at h
  · split at h
    · simp at h
    · split at h
      · rename_i j hj
        obtain rfl : j = k := by simpa using h
        simpa using List.find?_some hj
      · simp at h

/-! ### Writes of exchange memory -/

/-- From m to m' only the part's own fields of slots in `H` and capture windows are written, and the canonical form is kept
(R2, R3, R7). -/
structure SlotWrites (H : SlotId → Prop) (m m' : Memory) : Prop where
  wf : m.wf → m'.wf
  frame : ∀ a, (∀ n, H n → ¬deviceAddr n a) → a < 0x3000 ∨ 0x4000 ≤ a → m'.read a = m.read a

namespace SlotWrites

theorem refl (H : SlotId → Prop) (m : Memory) : SlotWrites H m m := ⟨id, fun _ _ _ => rfl⟩

theorem trans {H : SlotId → Prop} {m₁ m₂ m₃ : Memory} (h : SlotWrites H m₁ m₂) (g : SlotWrites H m₂ m₃) :
    SlotWrites H m₁ m₃ :=
  ⟨fun w => g.wf (h.wf w), fun a ha hc => (g.frame a ha hc).trans (h.frame a ha hc)⟩

theorem mono {H G : SlotId → Prop} {m m' : Memory} (h : SlotWrites H m m') (hg : ∀ n, H n → G n) : SlotWrites G m m' :=
  ⟨h.wf, fun a ha hc => h.frame a (fun n hn => ha n (hg n hn)) hc⟩

theorem writeBytes {H : SlotId → Prop} {n : SlotId} (hn : H n) (m : Memory) (a : Nat) (bs : List Byte)
    (h : ∀ b, a ≤ b → b < a + bs.length → deviceAddr n b) : SlotWrites H m (m.writeBytes a bs) := by
  refine ⟨fun w => Memory.wf_writeBytes w a bs, fun b hb _ => Memory.read_writeBytes_out m a b bs ?_⟩
  by_contra hc
  exact hb n hn (h b (by omega) (by omega))

end SlotWrites

theorem windowAddr_bounds (k : LaneId) (off : Nat) : 0x3000 ≤ windowAddr k off ∧ windowAddr k off < 0x4000 := by
  unfold windowAddr Config.captureBase Config.windowSize
  omega

section
variable (H : SlotId → Prop)

theorem storeWindow_writes (s : State) (k : LaneId) (off : Nat) (bs : List Byte) :
    SlotWrites H s.mem (s.storeWindow k off bs).mem := by
  induction bs generalizing s off with
  | nil => exact SlotWrites.refl H _
  | cons b bs ih =>
    refine SlotWrites.trans ⟨fun w => State.wf_store w _ _, fun a _ ha => ?_⟩ (ih (s.store (windowAddr k off) [b]) (off + 1))
    have := windowAddr_bounds k off
    exact Memory.read_writeBytes_out s.mem _ a [b] (by simp only [List.length_singleton]; omega)

theorem storeSample_writes (s : State) (k : LaneId) (n : Nat) (code : Duty) :
    SlotWrites H s.mem (storeSample s k n code).mem := by
  unfold storeSample
  split
  · dsimp only
    split
    · exact storeWindow_writes H s k _ _
    · exact storeWindow_writes H s k _ _
    all_goals
      split
      · exact SlotWrites.refl H _
      · exact storeWindow_writes H s k _ _
  · exact SlotWrites.refl H _

theorem completeHalfPair_writes (s : State) (k : LaneId) (count : Nat) :
    SlotWrites H s.mem (completeHalfPair s k count).mem := by
  unfold completeHalfPair
  split
  · exact SlotWrites.refl H _
  · exact storeSample_writes H s k count 0

variable {H} {n : SlotId} (hn : H n)
include hn

/-- A write into a stretch of the header that is the part's (R7). -/
theorem header_writes (m : Memory) (off : Nat) (bs : List Byte)
    (h : (0x01 ≤ off ∧ off + bs.length ≤ 0x04) ∨ (0x0B ≤ off ∧ off + bs.length ≤ 0x0E) ∨
      (0x18 ≤ off ∧ off + bs.length ≤ 0x20)) : SlotWrites H m (m.writeBytes (slotBase n + off) bs) := by
  refine SlotWrites.writeBytes hn m _ bs fun b h1 h2 => ?_
  unfold deviceAddr inHeader
  omega

theorem writeResult_writes (s : State) (i : StepId) (r : StepResult) :
    SlotWrites H s.mem (writeResult s n i r).mem :=
  SlotWrites.writeBytes hn s.mem _ _ fun b h1 h2 =>
    .inr (.inr (.inr ⟨i, Nat.zero_le _, i.isLt, h1, by rw [StepResult.bytes_length] at h2; omega⟩))

theorem writeResults_writes (s : State) (first : Nat) (r : StepResult) :
    SlotWrites H s.mem (writeResults s n first r).mem :=
  foldl_induct (fun t => SlotWrites H s.mem t.mem) _ (fun t i ht => ht.trans (writeResult_writes hn t i r)) _ s
    (SlotWrites.refl H _)

end

end Sys2Proof.Machine
end

