-- ==== Sys2Proof/Proofs/IntakeShrinks.lean ====
section
/-! SUPPORT. The preorder `Intake.Shrinks`: what it says of a view, and that the moves by which a slot ends or starts are shrinkings. -/

namespace Sys2Proof.Machine

/-- The slot is in FINISHED, as the view has it. -/
def Intake.isFinished (v : Intake) (n : SlotId) : Bool := v.finished.getLsbD n.val

/-- From v to w slots are only given up: no slot is held more often, a slot that joins FINISHED is held less often, a queue
only loses slots, and memory is written in held slots and capture windows alone. -/
structure Intake.Shrinks (v w : Intake) : Prop where
  writes : SlotWrites (· ∈ v.held) v.mem w.mem
  counts : ∀ m, w.held.count m ≤ v.held.count m
  finished : ∀ m, w.isFinished m = true → v.isFinished m = true ∨ w.held.count m < v.held.count m
  queues : ∀ k, (w.queue k).Sublist (v.queue k)

/-- The bit of slot n joins a FINISHED set. -/
theorem getLsbD_or_slot (f : BitVec 22) (n m : SlotId) :
    (f ||| (1#22 <<< n.val)).getLsbD m.val = (f.getLsbD m.val || decide (m = n)) := by
  have h : (1#22 <<< n.val).getLsbD m.val = decide (m = n) := by revert n m; decide
  rw [BitVec.getLsbD_or, h]

namespace Intake.Shrinks

theorem refl (v : Intake) : v.Shrinks v :=
  ⟨SlotWrites.refl _ _, fun _ => Nat.le_refl _, fun _ h => .inl h, fun _ => List.Sublist.refl _⟩

theorem held_subset {v w : Intake} (h : v.Shrinks w) {n : SlotId} (hn : n ∈ w.held) : n ∈ v.held := by
  have := h.counts n
  rw [← List.one_le_count_iff] at *
  omega

theorem trans {u v w : Intake} (h : u.Shrinks v) (g : v.Shrinks w) : u.Shrinks w where
  writes := h.writes.trans (g.writes.mono fun _ => h.held_subset)
  counts m := (g.counts m).trans (h.counts m)
  finished m hm := by
    have hc := h.counts m
    have gc := g.counts m
    rcases g.finished m hm with hv | hlt
    · exact (h.finished m hv).imp_right fun hlt => by omega
    · exact .inr (by omega)
  queues k := (g.queues k).trans (h.queues k)

theorem of_eq {s t : State} (h : t.intake = s.intake) : s.intake.Shrinks t.intake := h ▸ refl _

/-- Memory alone is written. -/
theorem of_writes {v : Intake} {m : Memory} (h : SlotWrites (· ∈ v.held) v.mem m) : v.Shrinks (v.withMem m) :=
  ⟨h, fun _ => Nat.le_refl _, fun _ h => .inl h, fun _ => List.Sublist.refl _⟩

/-- A slot leaves one of its places and joins FINISHED, and no other slot is held more often. -/
theorem of_leaves {v w : Intake} (n : SlotId) (hm : w.mem = v.mem) (hf : w.finished = v.finished ||| (1#22 <<< n.val))
    (hc : ∀ m, w.held.count m + (if m = n then 1 else 0) = v.held.count m) (hq : ∀ k, (w.queue k).Sublist (v.queue k)) :
    v.Shrinks w where
  writes := hm ▸ SlotWrites.refl _ _
  counts m := by have := hc m; omega
  finished m h := by
    have := hc m
    simp only [Intake.isFinished, hf, getLsbD_or_slot, Bool.or_eq_true, decide_eq_true_eq] at h ⊢
    by_cases e : m = n
    · rw [if_pos e] at this
      exact .inr (by omega)
    · exact .inl (h.resolve_right e)
  queues := hq

end Intake.Shrinks

/-! ### The moves of a slot -/

/-- Lane k's running slot n ends and leaves it (R18). -/
def Intake.finish (v : Intake) (k : LaneId) (n : SlotId) : Intake :=
  ⟨v.mem, v.queue, v.parked, v.finished ||| (1#22 <<< n.val), fun j => if j = k then none else v.running j⟩

/-- Lane k's running slot n ends and slot c of the parked set runs in its place (R51). -/
def Intake.switch (v : Intake) (k : LaneId) (n c : SlotId) : Intake :=
  ⟨v.mem, v.queue, v.parked.erase c, v.finished ||| (1#22 <<< n.val), fun j => if j = k then some c else v.running j⟩

/-- Lane k takes slot n, which leaves its queue's head (R32). -/
def Intake.take (v : Intake) (k : LaneId) (n : SlotId) (q : List SlotId) : Intake :=
  ⟨v.mem, fun j => if j = k then q else v.queue j, v.parked, v.finished, fun j => if j = k then some n else v.running j⟩

/-- A queued slot n ends without having run (R24). -/
def Intake.dropQueued (v : Intake) (k : LaneId) (n : SlotId) : Intake :=
  ⟨v.mem, fun j => if j = k then (v.queue j).erase n else v.queue j, v.parked, v.finished ||| (1#22 <<< n.val), v.running⟩

/-- A parked slot n ends without having run (R25). -/
def Intake.dropParked (v : Intake) (n : SlotId) : Intake :=
  ⟨v.mem, v.queue, v.parked.erase n, v.finished ||| (1#22 <<< n.val), v.running⟩

/-- How often the lanes run a slot, after one of them has got another. -/
theorem sum_running_change (r : LaneId → Option SlotId) (k : LaneId) (o : Option SlotId) (m : SlotId) :
    (∑ j, if (if j = k then o else r j) = some m then 1 else 0) + (if r k = some m then 1 else 0) =
      (∑ j, if r j = some m then 1 else 0) + (if o = some m then 1 else 0) := by
  have h := sum_lanes_change (f := fun j => if r j = some m then 1 else 0)
    (g := fun j => if (if j = k then o else r j) = some m then 1 else 0) k (fun j hj => by simp [hj])
  simpa using h

/-- How often the queues hold a slot, after one of them has become another. -/
theorem sum_queue_change (f : LaneId → List SlotId) (k : LaneId) (q : LaneId → List SlotId) (m : SlotId) :
    (∑ j, (if j = k then q j else f j).count m) + (f k).count m = (∑ j, (f j).count m) + (q k).count m := by
  have h := sum_lanes_change (f := fun j => (f j).count m) (g := fun j => (if j = k then q j else f j).count m) k
    (fun j hj => by simp [hj])
  simpa using h

theorem sublist_change {f q : LaneId → List SlotId} {k : LaneId} (h : (q k).Sublist (f k)) (j : LaneId) :
    (if j = k then q j else f j).Sublist (f j) := by
  by_cases e : j = k
  · subst e; simpa using h
  · simp [e]

/-- A list without one of the slots it holds. -/
theorem count_erase_add {l : List SlotId} {n : SlotId} (h : n ∈ l) (m : SlotId) :
    (l.erase n).count m + (if m = n then 1 else 0) = l.count m := by
  by_cases e : m = n
  · subst e
    have := List.one_le_count_iff.mpr h
    simp only [List.count_erase_self, if_true]
    omega
  · simp [List.count_erase_of_ne e, e]

theorem Intake.shrinks_finish {v : Intake} {k : LaneId} {n : SlotId} (hr : v.running k = some n) :
    v.Shrinks (v.finish k n) := by
  refine .of_leaves n rfl rfl (fun m => ?_) fun _ => List.Sublist.refl _
  have := sum_running_change v.running k none m
  simp only [hr, Option.some.injEq, reduceCtorEq, if_false, eq_comm (a := n)] at this
  simp only [Intake.count_held, Intake.finish]
  omega

theorem Intake.shrinks_switch {v : Intake} {k : LaneId} {n c : SlotId} (hr : v.running k = some n) (hc : c ∈ v.parked) :
    v.Shrinks (v.switch k n c) := by
  refine .of_leaves n rfl rfl (fun m => ?_) fun _ => List.Sublist.refl _
  have := sum_running_change v.running k (some c) m
  have hp := count_erase_add hc m
  simp only [hr, Option.some.injEq, eq_comm (a := n), eq_comm (a := c)] at this
  simp only [Intake.count_held, Intake.switch]
  omega

theorem Intake.shrinks_dropQueued {v : Intake} {k : LaneId} {n : SlotId} (hn : n ∈ v.queue k) :
    v.Shrinks (v.dropQueued k n) := by
  refine .of_leaves n rfl rfl (fun m => ?_) (sublist_change List.erase_sublist)
  have := sum_queue_change v.queue k (fun j => (v.queue j).erase n) m
  have hp := count_erase_add hn m
  simp only [Intake.count_held, Intake.dropQueued]
  omega

theorem Intake.shrinks_dropParked {v : Intake} {n : SlotId} (hn : n ∈ v.parked) : v.Shrinks (v.dropParked n) := by
  refine .of_leaves n rfl rfl (fun m => ?_) fun _ => List.Sublist.refl _
  have hp := count_erase_add hn m
  simp only [Intake.count_held, Intake.dropParked]
  omega

theorem Intake.shrinks_take {v : Intake} {k : LaneId} {n : SlotId} {q : List SlotId} (hq : v.queue k = n :: q) :
    v.Shrinks (v.take k n q) where
  writes := SlotWrites.refl _ _
  counts m := by
    have hs := sum_queue_change v.queue k (fun _ => q) m
    have hr := sum_running_change v.running k (some n) m
    simp only [hq, List.count_cons, beq_iff_eq, Option.some.injEq] at hs hr
    simp only [Intake.count_held, Intake.take]
    omega
  finished _ h := .inl h
  queues := sublist_change (q := fun _ => q) (hq ▸ List.sublist_cons_self n q)

end Sys2Proof.Machine
end

