-- ==== Sys2Proof/Proofs/IntakeActs.lean ====
section
/-! SUPPORT. Each operation of the lanes, the chains and the acts either leaves the intake's view as it is or shrinks it. -/

namespace Sys2Proof.Machine

/-! ### Operations that leave the intake as it is -/

theorem setLane_intake (s : State) (k : LaneId) (l : Lane) :
    (s.setLane k l).intake = s.intake.withRunning k l.running := by
  have h : (fun j => ((s.setLane k l).lane j).running) = fun j => if j = k then l.running else (s.lane j).running := by
    funext j
    rw [State.setLane_at]
    split <;> rfl
  unfold State.intake Intake.withRunning
  rw [h]
  rfl

theorem setLane_keeps_intake {s : State} {k : LaneId} {l : Lane} (h : l.running = (s.lane k).running) :
    (s.setLane k l).intake = s.intake := by
  have hk : (fun j => if j = k then l.running else s.intake.running j) = s.intake.running := by
    funext j
    by_cases e : j = k
    · subst e; exact (if_pos rfl).trans h
    · exact if_neg e
  rw [setLane_intake]
  unfold Intake.withRunning
  rw [hk]

theorem store_intake (s : State) (a : Nat) (bs : List Byte) :
    (s.store a bs).intake = s.intake.withMem (s.store a bs).mem := rfl

theorem setPhase_intake (s : State) (k : LaneId) (p : Phase) : (s.setPhase k p).intake = s.intake :=
  setLane_keeps_intake rfl

theorem ChansOnly.intake {s t : State} (h : ChansOnly s t) : t.intake = s.intake := by
  unfold ChansOnly at h
  rw [h]
  rfl

theorem LinesOnly.intake {s t : State} (h : LinesOnly s t) : t.intake = s.intake := by
  unfold LinesOnly at h
  rw [h]
  rfl

theorem ClaimsOnly.intake {s t : State} (h : ClaimsOnly s t) : t.intake = s.intake := by
  unfold ClaimsOnly at h
  rw [h]
  rfl

theorem grantConverter_intake (s : State) (k : LaneId) : (grantConverter s k).intake = s.intake := by
  unfold grantConverter
  exact setPhase_intake _ k _

theorem requestConverter_intake (s : State) (k : LaneId) : (requestConverter s k).intake = s.intake := by
  unfold requestConverter
  split
  · exact grantConverter_intake s k
  · exact setPhase_intake _ k _

theorem releaseConverter_intake (s : State) : (releaseConverter s).intake = s.intake := by
  unfold releaseConverter
  split
  · rfl
  · exact grantConverter_intake _ _

theorem grantMonitor_intake (s : State) (k : LaneId) : (grantMonitor s k).intake = s.intake := by
  have h : (State.setPhase { s with monitor := { s.monitor with grantee := some k } } k .measuring).intake = s.intake :=
    setPhase_intake _ k _
  unfold grantMonitor
  dsimp only
  split <;> exact h

theorem requestMonitor_intake (s : State) (k : LaneId) : (requestMonitor s k).intake = s.intake := by
  unfold requestMonitor
  split
  · exact grantMonitor_intake s k
  · exact setPhase_intake _ k _

theorem releaseMonitor_intake (s : State) : (releaseMonitor s).intake = s.intake := by
  unfold releaseMonitor
  split
  · rfl
  · exact grantMonitor_intake _ _

theorem grantLink_intake (s : State) (k : LaneId) : (grantLink s k).intake = s.intake := setPhase_intake _ k _

theorem requestLink_intake (s : State) (k : LaneId) : (requestLink s k).intake = s.intake := by
  unfold requestLink
  split
  · exact grantLink_intake s k
  · exact setPhase_intake _ k _

theorem releaseLink_intake (s : State) : (releaseLink s).intake = s.intake := by
  unfold releaseLink
  split
  · rfl
  · exact grantLink_intake _ _

theorem endSettle_intake (s : State) (k : LaneId) : (endSettle s k).intake = s.intake := requestMonitor_intake _ k

theorem stopServing_intake (s : State) (k : LaneId) : (stopServing s k).intake = s.intake := by
  unfold stopServing
  split
  case h_2 => exact releaseConverter_intake s
  case h_4 => exact releaseMonitor_intake s
  all_goals rfl

theorem judgeWait_intake (s : State) (k : LaneId) : (judgeWait s k).1.intake = s.intake := by
  unfold judgeWait
  split
  · split
    · exact setPhase_intake s k _
    · rfl
  · split
    · exact endSettle_intake s k
    · rfl
  · rfl

theorem reportChan_intake (s : State) (c : ChanId) : (reportChan s c).1.intake = s.intake := by
  unfold reportChan
  split
  · exact judgeWait_intake s _
  · rfl

theorem reported_intake {f : State → ChanId → State} (hf : ∀ s c, ChansOnly s (f s c)) (cs : List ChanId) (s : State) :
    (reported f cs s).1.intake = s.intake := by
  induction cs generalizing s with
  | nil => rfl
  | cons c cs ih => exact (ih _).trans ((reportChan_intake _ c).trans (hf s c).intake)

theorem requestClaims_intake (s : State) (k : LaneId) (n : SlotId) : (requestClaims s k n).1.intake = s.intake := by
  unfold requestClaims
  dsimp only
  split
  · exact (giveClaims_claimsOnly s k _ _).intake
  · rfl

theorem trimThenEnter_intake (s : State) (k : LaneId) (c : SlotId) : (trimThenEnter s k c).1.intake = s.intake := by
  have h := (releaseClaims_claimsOnly s k (s.chanClaim c) (s.lineClaim c)).intake
  unfold trimThenEnter
  generalize s.releaseClaims k (s.chanClaim c) (s.lineClaim c) = u at h ⊢
  have hw := (walk_claimsOnly u).intake.trans h
  dsimp only
  split
  · exact hw
  · exact h

theorem setQueue_intake (s : State) (k : LaneId) (q : List SlotId) :
    (s.setQueue k q).intake =
      ⟨s.mem, fun j => if j = k then q else s.queue j, s.parked, s.finished, s.intake.running⟩ := by
  have h : (s.setQueue k q).queue = fun j => if j = k then q else s.queue j := by
    funext j
    rw [State.setQueue_get]
    simp only [eq_comm]
  rw [← h]
  rfl

/-! ### Operations that write memory alone -/

/-- A state that differs in its memory alone. -/
theorem intake_of_mem {s t : State} (h : t = { s with mem := t.mem }) : t.intake = s.intake.withMem t.mem := by
  rw [h]
  rfl

theorem writeResults_intake (s : State) (n : SlotId) (first : Nat) (r : StepResult) :
    (writeResults s n first r).intake = s.intake.withMem (writeResults s n first r).mem :=
  intake_of_mem (writeResults_spec s n first r).1.1

theorem startSlot_intake (s : State) (n : SlotId) : (startSlot s n).intake = s.intake.withMem (startSlot s n).mem := rfl

theorem writeResult_intake (s : State) (n : SlotId) (i : StepId) (r : StepResult) :
    (writeResult s n i r).intake = s.intake.withMem (writeResult s n i r).mem := rfl

theorem countStep_intake (s : State) (n : SlotId) (o : StepOutcome) :
    (countStep s n o).intake = s.intake.withMem (countStep s n o).mem := rfl

theorem recordResult_intake (s : State) (k : LaneId) (n : SlotId) (i : StepId) (r : StepResult) :
    (recordResult s k n i r).intake = s.intake.withMem (recordResult s k n i r).mem := by
  have hu : (countStep (writeResult s n i r) n r.outcome).intake =
      s.intake.withMem (countStep (writeResult s n i r) n r.outcome).mem := by
    rw [countStep_intake, writeResult_intake]
    rfl
  unfold recordResult
  generalize countStep (writeResult s n i r) n r.outcome = u at hu ⊢
  have h : (u.setLane k (u.lane k).stepOver).intake = u.intake := setLane_keeps_intake rfl
  exact h.trans hu

theorem storeWindow_intake (s : State) (k : LaneId) (off : Nat) (bs : List Byte) :
    (s.storeWindow k off bs).intake = s.intake.withMem (s.storeWindow k off bs).mem := by
  induction bs generalizing s off with
  | nil => rfl
  | cons b bs ih => exact ih _ _

theorem storeSample_intake (s : State) (k : LaneId) (n : Nat) (code : Duty) :
    (storeSample s k n code).intake = s.intake.withMem (storeSample s k n code).mem := by
  have hput : ∀ (off : Nat) (bs : List Byte) (l : Lane), l.running = ((s.storeWindow k off bs).lane k).running →
      ((s.storeWindow k off bs).setLane k l).intake = s.intake.withMem (s.storeWindow k off bs).mem :=
    fun off bs l h => (setLane_keeps_intake h).trans (storeWindow_intake s k off bs)
  unfold storeSample
  split
  · dsimp only
    split
    · exact storeWindow_intake s k _ _
    · exact storeWindow_intake s k _ _
    all_goals
      split
      · exact setLane_keeps_intake rfl
      · exact hput _ _ _ rfl
  · rfl

theorem completeHalfPair_intake (s : State) (k : LaneId) (count : Nat) :
    (completeHalfPair s k count).intake = s.intake.withMem (completeHalfPair s k count).mem := by
  unfold completeHalfPair
  split
  · rfl
  · exact storeSample_intake s k count 0

section
variable {H : SlotId → Prop} {n : SlotId} (hn : H n)
include hn

theorem writeVerdict_writes (s : State) (st : SlotState) (reason detail : Byte) :
    SlotWrites H s.mem (writeVerdict s n st reason detail).mem :=
  header_writes hn s.mem 0x01 [st.code, reason, detail] (by simp)

theorem finishSlot_writes (s : State) (st : SlotState) (reason : EndReason) (detail : Byte) :
    SlotWrites H s.mem (finishSlot s n st reason detail).mem :=
  (writeVerdict_writes hn s st reason.code detail).trans (header_writes hn _ 0x1C (wordBytes s.tick) (by simp [wordBytes]))

theorem startSlot_writes (s : State) : SlotWrites H s.mem (startSlot s n).mem :=
  (header_writes hn s.mem 0x01 [SlotState.running.code] (by simp)).trans
    (header_writes hn _ 0x18 (wordBytes s.tick) (by simp [wordBytes]))

theorem recordResult_writes (s : State) (k : LaneId) (i : StepId) (r : StepResult) :
    SlotWrites H s.mem (recordResult s k n i r).mem := by
  rw [(recordResult_spec s k n i r).2.1]
  exact (writeResult_writes hn s i r).trans (header_writes hn _ 0x0B _ (by simp))

theorem endUnrun_writes (s : State) (reason : EndReason) : SlotWrites H s.mem (endUnrun reason s n).mem :=
  (writeResults_writes hn s 0 _).trans (finishSlot_writes hn (skipFrom s n 0) _ _ _)

end

/-- A state whose memory alone differs, by writes of held slots and windows, has given up nothing. -/
theorem shrinks_of_writes {s t : State} (h : t.intake = s.intake.withMem t.mem)
    (hw : SlotWrites (· ∈ s.heldList) s.mem t.mem) : s.intake.Shrinks t.intake := by
  rw [h]
  exact .of_writes hw

theorem mem_heldList_of_running {s : State} {k : LaneId} {n : SlotId} (h : (s.lane k).running = some n) :
    n ∈ s.heldList :=
  (Intake.mem_held s.intake n).mpr (.inr (.inr ⟨k, h⟩))

theorem mem_heldList_of_parked {s : State} {n : SlotId} (h : n ∈ s.parked) : n ∈ s.heldList :=
  (Intake.mem_held s.intake n).mpr (.inr (.inl h))

theorem mem_heldList_of_queue {s : State} {k : LaneId} {n : SlotId} (h : n ∈ s.queue k) : n ∈ s.heldList :=
  (Intake.mem_held s.intake n).mpr (.inl ⟨k, h⟩)

theorem running_of_intake {s t : State} {m : Memory} (h : t.intake = s.intake.withMem m) (k : LaneId) :
    (t.lane k).running = (s.lane k).running :=
  congrFun (congrArg Intake.running h) k

/-! ### Acts that end slots -/

theorem chainEnd_intake (s : State) (k : LaneId) (n : SlotId) :
    (chainEnd s k n).1.intake = s.intake.withRunning k none := by
  have h : (if s.offAtEnd n then onChans (s.chansHeld k) turnOffOn s else s).intake = s.intake := by
    split
    · exact (onChans_turnOffOn _ s).1.intake
    · rfl
  unfold chainEnd
  generalize (if s.offAtEnd n then onChans (s.chansHeld k) turnOffOn s else s) = u at h ⊢
  have hw : (walk (u.releaseClaims k 0 0)).1.intake = s.intake :=
    (walk_claimsOnly _).intake.trans ((releaseClaims_claimsOnly u k 0 0).intake.trans h)
  dsimp only
  rw [setLane_intake, hw]
  rfl

theorem finishSlot_intake (s : State) (n : SlotId) (st : SlotState) (reason : EndReason) (detail : Byte) :
    (finishSlot s n st reason detail).intake =
      ⟨(finishSlot s n st reason detail).mem, s.queue, s.parked, s.finished ||| (1#22 <<< n.val), s.intake.running⟩ := rfl

theorem continued_intake (s : State) (k : LaneId) (n c : SlotId) :
    (continued s k n c).intake = (s.intake.withMem (continued s k n c).mem).switch k n c := by
  have hu := finishSlot_intake s n (s.completedState n) .normal 0xFF#8
  unfold continued
  generalize finishSlot s n (s.completedState n) .normal 0xFF#8 = u at hu ⊢
  have hparked : u.parked = s.parked := congrArg Intake.parked hu
  have hv := startSlot_intake { u with parked := u.parked.erase c } c
  rw [show State.intake { u with parked := u.parked.erase c } =
    ⟨u.mem, u.intake.queue, u.parked.erase c, u.intake.finished, u.intake.running⟩ from rfl, hu, hparked] at hv
  dsimp only
  rw [hparked]
  generalize startSlot { u with parked := s.parked.erase c } c = v at hv ⊢
  rw [setLane_intake, hv]
  rfl

theorem continued_writes {H : SlotId → Prop} {n c : SlotId} (hn : H n) (hc : H c) (s : State) (k : LaneId) :
    SlotWrites H s.mem (continued s k n c).mem := by
  have h := finishSlot_writes hn s (s.completedState n) .normal 0xFF#8
  unfold continued
  generalize finishSlot s n (s.completedState n) .normal 0xFF#8 = u at h ⊢
  exact h.trans (startSlot_writes hc { u with parked := u.parked.erase c })

/-- An operation that leaves the intake as it is, before what gives slots up and after it. -/
theorem Intake.Shrinks.after {s t u : State} (h : t.intake = s.intake) (g : t.intake.Shrinks u.intake) :
    s.intake.Shrinks u.intake := h ▸ g

theorem Intake.Shrinks.before {s t u : State} (h : u.intake = t.intake) (g : s.intake.Shrinks t.intake) :
    s.intake.Shrinks u.intake := h ▸ g

section
variable {s : State} {k : LaneId} {n : SlotId} (hr : (s.lane k).running = some n)
include hr

theorem endSlot_shrinks (st : SlotState) (reason : EndReason) (detail : Byte) :
    s.intake.Shrinks (endSlot s k n st reason detail).1.intake := by
  have h : (endSlot s k n st reason detail).1.intake =
      (s.intake.withMem (finishSlot s n st reason detail).mem).finish k n := chainEnd_intake _ k n
  rw [h]
  exact (Intake.Shrinks.of_writes (v := s.intake) (finishSlot_writes (mem_heldList_of_running hr) s st reason detail)).trans
    (Intake.shrinks_finish hr)

theorem switchTo_shrinks {c : SlotId} (hc : c ∈ s.parked) : s.intake.Shrinks (switchTo s k n c).1.intake := by
  refine Intake.Shrinks.before (trimThenEnter_intake _ k c) ?_
  rw [continued_intake]
  exact (Intake.Shrinks.of_writes (v := s.intake)
    (continued_writes (mem_heldList_of_running hr) (mem_heldList_of_parked hc) s k)).trans (Intake.shrinks_switch hr hc)

theorem judgeSlot_shrinks : s.intake.Shrinks (judgeSlot s k n).1.intake := by
  unfold judgeSlot continueWith
  split
  · exact endSlot_shrinks hr _ _ _
  · split
    · split
      · rename_i hc
        split
        · exact switchTo_shrinks hr (List.contains_iff_mem.mp hc)
        · exact endSlot_shrinks hr _ _ _
      · exact endSlot_shrinks hr _ _ _
    · exact endSlot_shrinks hr _ _ _

/-- A slot whose later steps are written SKIPPED before it ends. -/
theorem skip_endSlot_shrinks (first : Nat) (st : SlotState) (reason : EndReason) (detail : Byte) :
    s.intake.Shrinks (endSlot (skipFrom s n first) k n st reason detail).1.intake := by
  have h := writeResults_intake s n first (plainResult .skipped .none 0)
  have hw := writeResults_writes (H := (· ∈ s.heldList)) (mem_heldList_of_running hr) s first
    (plainResult .skipped .none 0)
  exact (shrinks_of_writes h hw).trans (endSlot_shrinks ((running_of_intake h k).trans hr) _ _ _)

theorem afterStep_shrinks (i : StepId) (cont : Bool) (o : StepOutcome) :
    s.intake.Shrinks (afterStep s k n i cont o).1.intake := by
  unfold afterStep
  split
  · split
    · exact .refl _
    · exact judgeSlot_shrinks hr
  · exact skip_endSlot_shrinks hr _ _ _ _

theorem recordResult_shrinks (i : StepId) (r : StepResult) :
    s.intake.Shrinks (recordResult s k n i r).intake ∧ ((recordResult s k n i r).lane k).running = some n :=
  ⟨shrinks_of_writes (recordResult_intake s k n i r) (recordResult_writes (mem_heldList_of_running hr) s k i r),
    (running_of_intake (recordResult_intake s k n i r) k).trans hr⟩

end

theorem stepEnd_shrinks (s : State) (k : LaneId) (r : StepResult) : s.intake.Shrinks (stepEnd s k r).1.intake := by
  unfold stepEnd
  split
  · rename_i n i hr _
    obtain ⟨h, hr'⟩ := recordResult_shrinks hr i r
    exact h.trans (afterStep_shrinks hr' i _ _)
  · exact .refl _

theorem stepEndsSlot_shrinks (s : State) (k : LaneId) (r : StepResult) (st : SlotState) (reason : EndReason) :
    s.intake.Shrinks (stepEndsSlot s k r st reason).1.intake := by
  unfold stepEndsSlot
  split
  · rename_i n i hr _
    obtain ⟨h, hr'⟩ := recordResult_shrinks hr i r
    exact h.trans (skip_endSlot_shrinks hr' _ _ _ _)
  · exact .refl _

/-! ### Tasks and acts -/

theorem beginTrigger_shrinks (s : State) (k : LaneId) (p : CycleParams) :
    s.intake.Shrinks (beginTrigger s k p).1.intake := by
  have hedge : s.intake.Shrinks (if (s.line p.line).mode = .inputEdge then (s.setPhase k .edgeWait, ([] : List Task))
      else stepEnd s k (plainResult .error .triggerLineMode 0)).1.intake := by
    split
    · exact .of_eq (setPhase_intake s k _)
    · exact stepEnd_shrinks s k _
  unfold beginTrigger acceptTrigger
  split
  · exact .of_eq (requestConverter_intake s k)
  · split
    · exact .of_eq (requestConverter_intake s k)
    · exact .of_eq (setLane_keeps_intake rfl)
  · exact hedge
  · exact hedge

theorem serveStep_shrinks (s : State) (k : LaneId) (c : StepCmd) : s.intake.Shrinks (serveStep s k c).1.intake := by
  cases c with
  | set m t r staged settle =>
    unfold serveStep stepPass
    dsimp only
    split
    · exact .after (onChans_stageOn m t r s).1.intake (stepEnd_shrinks _ k _)
    · split
      · exact .of_eq ((setPhase_intake _ k _).trans (onChans_setOn m t r s).1.intake)
      · exact .after (onChans_setOn m t r s).1.intake (stepEnd_shrinks _ k _)
  | apply m => exact .after (onChans_applyOn _ s).1.intake (stepEnd_shrinks _ k _)
  | off m r => exact .after (onChans_offOn m r s).1.intake (stepEnd_shrinks _ k _)
  | delay n =>
    unfold serveStep stepPass
    dsimp only
    split
    · exact stepEnd_shrinks s k _
    · exact .of_eq (setLane_keeps_intake rfl)
  | cycle p => exact beginTrigger_shrinks s k p
  | verify m p =>
    unfold serveStep
    dsimp only
    split
    · exact .of_eq (endSettle_intake s k)
    · exact .of_eq (setPhase_intake s k _)
  | link p => exact .of_eq (requestLink_intake s k)
  | lines m mode levels => exact .after (onLines_lineSetOn m mode levels s).1.intake (stepEnd_shrinks _ k _)
  | awaitGo => exact .of_eq (setPhase_intake s k _)

theorem startStep_shrinks (s : State) (k : LaneId) (i : StepId) : s.intake.Shrinks (startStep s k i).1.intake := by
  unfold startStep
  split
  · exact .refl _
  · rename_i n hr
    have hw := header_writes (H := (· ∈ s.heldList)) (mem_heldList_of_running hr) s.mem 0x0D [stepByte (some i)]
      (by simp)
    have h : ∀ record, s.intake.Shrinks ((s.store (slotBase n + 0x0D) [stepByte (some i)]).setLane k
        (((s.store (slotBase n + 0x0D) [stepByte (some i)]).lane k).atStep i record)).intake :=
      fun record => shrinks_of_writes (setLane_keeps_intake rfl) hw
    dsimp only
    split
    · exact (h _).trans (serveStep_shrinks _ k _)
    · exact h _

theorem takeHead_shrinks (s : State) (k : LaneId) : s.intake.Shrinks (takeHead s k).1.intake := by
  unfold takeHead
  split
  · split
    · exact .refl _
    · rename_i n q hq
      have hn : n ∈ s.heldList := mem_heldList_of_queue (k := k) (hq ▸ List.mem_cons_self)
      have hw := startSlot_writes (H := (· ∈ s.heldList)) hn (s.setQueue k q)
      have h : (requestClaims ((startSlot (s.setQueue k q) n).setLane k
          ((startSlot (s.setQueue k q) n).startedLane n .claiming)) k n).1.intake =
          (s.intake.withMem (startSlot (s.setQueue k q) n).mem).take k n q := by
        rw [requestClaims_intake, setLane_intake, startSlot_intake, setQueue_intake]
        rfl
      dsimp only
      rw [h]
      exact (Intake.Shrinks.of_writes (v := s.intake) hw).trans (Intake.shrinks_take hq)
  · exact .refl _

theorem runTask_shrinks (t : Task) (s : State) : s.intake.Shrinks (runTask t s).1.intake := by
  cases t with
  | startStep k i => exact startStep_shrinks s k i
  | enter k =>
    unfold runTask enterSlot
    dsimp only
    split
    · exact .refl _
    · split
      · simp only [State.setLane_get_self, State.setLane_setLane]
        exact .of_eq (setLane_keeps_intake rfl)
      · exact .of_eq (setLane_keeps_intake rfl)
  | take k => exact takeHead_shrinks s k
  | release k =>
    unfold runTask releaseGo stepPass
    dsimp only
    split
    · exact .refl _
    · split
      · exact stepEnd_shrinks s k _
      · exact .refl _
  | settled k => exact stepEnd_shrinks s k _

/-- An act carried out to its end only gives slots up (R59). -/
theorem finishAct_shrinks (a : Act) : a.1.intake.Shrinks (finishAct a).intake :=
  finishAct_induct (fun t => a.1.intake.Shrinks t.intake) (fun t s hs => hs.trans (runTask_shrinks t s)) a (.refl _)

theorem act_shrinks {s : State} {a : Act} (h : s.intake.Shrinks a.1.intake) : s.intake.Shrinks (finishAct a).intake :=
  h.trans (finishAct_shrinks a)

/-! ### Endings from outside -/

theorem endByCause_shrinks (s : State) (k : LaneId) (cause : EndCause) (r : StepResult) :
    s.intake.Shrinks (endByCause s k cause r).1.intake := by
  unfold endByCause
  split
  · exact stepEnd_shrinks s k r
  all_goals exact stepEndsSlot_shrinks s k r _ _

theorem completeHalfPair_shrinks (s : State) (k : LaneId) (count : Nat) :
    s.intake.Shrinks (completeHalfPair s k count).intake :=
  shrinks_of_writes (completeHalfPair_intake s k count) (completeHalfPair_writes _ s k count)

theorem endStepNow_shrinks (s : State) (k : LaneId) (cause : EndCause) :
    s.intake.Shrinks (endStepNow s k cause).1.intake := by
  have h : s.intake.Shrinks (settleHalfPair s k cause).intake := by
    unfold settleHalfPair
    split
    · exact completeHalfPair_shrinks s k _
    · exact .refl _
  exact h.trans (.after (stopServing_intake _ k) (endByCause_shrinks _ k cause _))

theorem endWindDown_shrinks (s : State) (k : LaneId) (cause : EndCause) :
    s.intake.Shrinks (endWindDown s k cause).1.intake :=
  .after (releaseLink_intake s) (endByCause_shrinks _ k cause _)

theorem windDown_shrinks (s : State) (k : LaneId) (cause : EndCause) : s.intake.Shrinks (windDown s k cause).1.intake := by
  have h : (wound s k cause).intake = s.intake := by
    have h := setLane_keeps_intake (s := s) (k := k)
      (l := { s.lane k with state := .winding, stepTimer := none, cause := some cause }) rfl
    exact h
  by_cases hs : s.link.phase = .start ∧ s.linkWaitOver = false
  · rw [windDown_start s k cause hs.1 hs.2]
    dsimp only
    split
    · exact .of_eq h
    · have g := endWindDown_shrinks { wound s k cause with freeIndex := s.freeIndex + 1 } k cause
      exact Intake.Shrinks.trans (.of_eq h) g
  · rw [windDown_marks s k cause (by rw [← Bool.not_eq_false]; tauto)]
    exact .of_eq h

theorem endWaiting_shrinks (s : State) (k : LaneId) (cause : EndCause) :
    s.intake.Shrinks (endWaiting s k cause).1.intake := by
  unfold endWaiting
  split
  · exact .refl _
  · rename_i n hr
    exact skip_endSlot_shrinks (s := { s with waitList := s.waitList.filter fun w => w.lane != k }) (k := k) hr 0
      cause.slotEnding.1 cause.slotEnding.2 0xFF#8

theorem cutLane_shrinks (s : State) (k : LaneId) (cause : EndCause) : s.intake.Shrinks (cutLane s k cause).1.intake := by
  unfold cutLane
  split
  · exact .refl _
  · exact endWaiting_shrinks s k cause
  · exact endWaiting_shrinks s k cause
  · split
    · exact windDown_shrinks s k cause
    · exact endStepNow_shrinks s k cause
  · unfold recause
    split
    · exact .of_eq (setLane_keeps_intake rfl)
    · exact .refl _

theorem timeOutStep_shrinks (s : State) (k : LaneId) : s.intake.Shrinks (timeOutStep s k).1.intake := by
  unfold timeOutStep
  split
  · exact windDown_shrinks s k _
  · exact endStepNow_shrinks s k _

end Sys2Proof.Machine
end

