-- ==== Sys2Proof/Proofs/IntakeSteps.lean ====
section
/-! SUPPORT. Each operation of the units, the ticks and the Abort shrinks the intake's view or leaves it. -/

namespace Sys2Proof.Machine

/-! ### Events of time -/

theorem safeLanes_shrinks (s : State) : s.intake.Shrinks (safeLanes s).intake :=
  foldl_induct (fun t => s.intake.Shrinks t.intake) safeLane
    (fun t k h => h.trans (act_shrinks (cutLane_shrinks t k _))) _ s (.refl _)

/-- A slot that ends without having run joins FINISHED, and nothing but memory differs besides (R24). -/
theorem endUnrun_eq (reason : EndReason) (s : State) (n : SlotId) :
    endUnrun reason s n = { s with mem := (endUnrun reason s n).mem, finished := s.finished ||| (1#22 <<< n.val) } := by
  have h : skipFrom s n 0 = { s with mem := (skipFrom s n 0).mem } := (writeResults_spec s n 0 _).1.1
  unfold endUnrun
  generalize skipFrom s n 0 = u at h ⊢
  generalize u.mem = m at h
  subst h
  rfl

/-- Slots that end without having run, one after another. -/
theorem foldl_endUnrun (reason : EndReason) (ns : List SlotId) (s : State) :
    ns.foldl (endUnrun reason) s = { s with mem := (ns.foldl (endUnrun reason) s).mem,
                                            finished := (ns.foldl (endUnrun reason) s).finished } ∧
    SlotWrites (· ∈ ns) s.mem (ns.foldl (endUnrun reason) s).mem ∧
    ∀ m : SlotId, (ns.foldl (endUnrun reason) s).isFinished m = (s.isFinished m || decide (m ∈ ns)) := by
  induction ns generalizing s with
  | nil => exact ⟨rfl, SlotWrites.refl _ _, fun m => by simp⟩
  | cons n ns ih =>
    obtain ⟨h1, h2, h3⟩ := ih (endUnrun reason s n)
    have hf : (endUnrun reason s n).isFinished = fun m => s.isFinished m || decide (m = n) := by
      funext m
      rw [endUnrun_eq]
      exact getLsbD_or_slot s.finished n m
    rw [List.foldl_cons]
    refine ⟨?_, ?_, fun m => ?_⟩
    · rw [h1, endUnrun_eq]
    · exact SlotWrites.trans (endUnrun_writes (List.mem_cons_self) s reason) (h2.mono fun _ => List.mem_cons_of_mem n)
    · rw [h3, hf]
      simp [Bool.or_assoc]

theorem safeIntake_shrinks (s : State) : s.intake.Shrinks (safeIntake s).intake := by
  obtain ⟨hrest, hwrites, hfin⟩ := foldl_endUnrun .safeAbort (allLanes.flatMap s.queue ++ s.parked) s
  have hqueue : ∀ k, (safeIntake s).queue k = [] := vec4_get fun _ => []
  have hrun : ∀ k, ((safeIntake s).lane k).running = (s.lane k).running := fun k => by
    show (State.lane ((allLanes.flatMap s.queue ++ s.parked).foldl (endUnrun .safeAbort) s) k).running = _
    rw [hrest]
    rfl
  have hcount : ∀ m, (safeIntake s).heldList.count m + (allLanes.flatMap s.queue ++ s.parked).count m =
      s.heldList.count m := by
    intro m
    have hheld : (safeIntake s).heldList = allLanes.filterMap fun k => (s.lane k).running := by
      unfold State.heldList
      rw [funext hrun, funext hqueue]
      rfl
    rw [hheld]
    simp only [State.heldList, List.count_append]
    omega
  refine ⟨hwrites.mono fun n hn => List.mem_append_left _ hn, fun m => Nat.le.intro (hcount m), fun m hm => ?_, fun k => ?_⟩
  · have hm : (safeIntake s).isFinished m = true := hm
    rw [show (safeIntake s).isFinished m = _ from hfin m, Bool.or_eq_true, decide_eq_true_eq] at hm
    refine hm.imp_right fun hm => ?_
    have := hcount m
    have := List.one_le_count_iff.mpr hm
    show (safeIntake s).heldList.count m < s.heldList.count m
    omega
  · show ((safeIntake s).queue k).Sublist (s.queue k)
    rw [hqueue]
    exact List.nil_sublist _

theorem monitorExpiry_shrinks (s : State) : s.intake.Shrinks (monitorExpiry s).intake := by
  unfold monitorExpiry
  split
  · have h : (enterSafe s).clearClaims.intake = s.intake := (clearClaims_spec (enterSafe s)).1.intake
    refine .before (foldl_safeLineOn _).1.intake (.before (foldl_safeOn _).1.intake ?_)
    exact .after h ((safeLanes_shrinks _).trans (safeIntake_shrinks _))
  · exact .refl _

theorem tickBoundary_intake (s : State) : (tickBoundary s).intake = s.intake := by
  have h : (fun k => ((tickBoundary s).lane k).running) = fun k => (s.lane k).running := by
    funext k
    have hk : (tickBoundary s).lane k = (s.lane k).atTick := vec4_get (fun k => (s.lane k).atTick) k
    rw [hk]
    rfl
  exact congrArg (Intake.mk s.mem s.queue s.parked s.finished) h

theorem tick_shrinks (s : State) : s.intake.Shrinks (tick s).intake :=
  .before (tickBoundary_intake _) (monitorExpiry_shrinks s)

theorem rampMove_shrinks (s : State) : s.intake.Shrinks (rampMove s).intake := by
  unfold rampMove
  split
  · exact .refl _
  · exact act_shrinks (.of_eq (reported_intake (fun s c => changeChan_chansOnly s c _) allChans
      { s with rampMovesDue := s.rampMovesDue - 1 }))

theorem stepTimeout_shrinks (k : LaneId) (s : State) : s.intake.Shrinks (stepTimeout k s).intake := by
  unfold stepTimeout
  split
  · exact act_shrinks (timeOutStep_shrinks s k)
  · exact .refl _

theorem planTimeout_shrinks (k : LaneId) (s : State) : s.intake.Shrinks (planTimeout k s).intake := by
  unfold planTimeout
  split
  · have h : (s.setLane k { s.lane k with planTimer := none }).intake = s.intake := setLane_keeps_intake rfl
    exact act_shrinks (.after h (cutLane_shrinks _ k _))
  · exact .refl _

theorem delayExpiry_shrinks (k : LaneId) (s : State) : s.intake.Shrinks (delayExpiry k s).intake := by
  unfold delayExpiry
  split
  · exact act_shrinks (stepEnd_shrinks s k _)
  · exact .refl _

theorem stopInterval_intake (s : State) (k : LaneId) : (stopInterval s k).intake = s.intake := by
  unfold stopInterval
  exact setLane_keeps_intake rfl

theorem triggerDelayExpiry_intake (k : LaneId) (s : State) : (triggerDelayExpiry k s).intake = s.intake := by
  unfold triggerDelayExpiry
  split
  · exact (requestConverter_intake _ k).trans (stopInterval_intake s k)
  · rfl

theorem confirmationExpiry_intake (k : LaneId) (s : State) : (confirmationExpiry k s).intake = s.intake := by
  unfold confirmationExpiry
  split
  · split
    · exact (requestConverter_intake _ k).trans (stopInterval_intake s k)
    · exact (setPhase_intake _ k _).trans (stopInterval_intake s k)
  · rfl

theorem pollIntervalExpiry_intake (k : LaneId) (s : State) : (pollIntervalExpiry k s).intake = s.intake := by
  unfold pollIntervalExpiry
  split
  · exact (requestLink_intake _ k).trans (stopInterval_intake s k)
  · rfl

/-! ### Events of conversions and lines -/

theorem nextConversion_intake (s : State) (k : LaneId) (p : CycleParams) : (nextConversion s k p).intake = s.intake := rfl

theorem beginSampleWait_intake (s : State) (k : LaneId) (p : CycleParams) :
    (beginSampleWait s k p).intake = s.intake := by
  unfold beginSampleWait
  split
  · exact nextConversion_intake s k p
  · rfl

theorem endCycle_shrinks (s : State) (k : LaneId) (v : StepOutcome × StepDetail) :
    s.intake.Shrinks (endCycle s k v).1.intake :=
  (completeHalfPair_shrinks s k _).trans (.after (releaseConverter_intake _) (stepEnd_shrinks _ k _))

theorem recordConversion_shrinks (s : State) (k : LaneId) (p : CycleParams) (code : Duty) :
    s.intake.Shrinks (recordConversion s k p code).1.intake := by
  have h : s.intake.Shrinks (storeSample { s with converter := s.converter.record code } k s.converter.count code).intake :=
    shrinks_of_writes (storeSample_intake { s with converter := s.converter.record code } k _ code)
      (storeSample_writes _ { s with converter := s.converter.record code } k _ code)
  unfold recordConversion
  dsimp only
  generalize storeSample { s with converter := s.converter.record code } k s.converter.count code = t at h ⊢
  refine h.trans ?_
  split
  · exact endCycle_shrinks t k _
  · split
    · exact endCycle_shrinks t k _
    · split
      · exact endCycle_shrinks t k _
      · exact .of_eq (beginSampleWait_intake t k p)

theorem conversionEnd_shrinks (code : Duty) (s : State) : s.intake.Shrinks (conversionEnd code s).intake := by
  unfold conversionEnd
  split
  · exact act_shrinks (recordConversion_shrinks s _ _ code)
  · exact .refl _

theorem sampleWaitExpiry_intake (s : State) : (sampleWaitExpiry s).intake = s.intake := by
  unfold sampleWaitExpiry
  split
  · exact nextConversion_intake s _ _
  · rfl

theorem handLevel_intake (s : State) (l : LineId) (k : LaneId) : (handLevel s l k).intake = s.intake := by
  unfold handLevel
  split
  · rfl
  · split
    · split
      · unfold confirmTrigger
        split
        · exact requestConverter_intake s k
        · exact setLane_keeps_intake rfl
      · split <;> rfl
      · rfl
    · rfl

theorem levelChange_intake (l : LineId) (s : State) : (levelChange l s).intake = s.intake := by
  unfold levelChange
  dsimp only
  split
  · exact handLevel_intake _ l _
  · rfl

/-! ### Period starts and measurements -/

theorem groupPeriodStart_intake (g : GroupId) (s : State) : (groupPeriodStart g s).intake = s.intake := by
  have ha : ∀ (cs : List ChanId) (s : State), (cs.foldl awaitStart s).intake = s.intake :=
    foldl_keep State.intake awaitStart fun _ _ => rfl
  have hc : ∀ (cs : List ChanId) (s : State), (cs.foldl cutPeriod s).intake = s.intake :=
    foldl_keep State.intake cutPeriod fun _ _ => rfl
  unfold groupPeriodStart
  dsimp only
  split
  · exact ha _ s
  · exact (ha _ _).trans (hc _ _)

theorem channelPeriodStart_intake (c : ChanId) (high low : Nat) (s : State) :
    (channelPeriodStart c high low s).intake = s.intake := by
  unfold channelPeriodStart
  dsimp only
  split
  · rfl
  · split <;> rfl

theorem measurementEnd_shrinks (s : State) : s.intake.Shrinks (measurementEnd s).intake := by
  have h : ∀ k c mask, s.intake.Shrinks (endMeasurement s k c mask).1.intake := by
    intro k c mask
    have h : ∀ (w : Watch) (d : Duty) (x : DutyMonitor),
        State.intake { (s.putVerified c (some d)).putWatch k w with monitor := x } = s.intake := fun _ _ _ => rfl
    unfold endMeasurement
    dsimp only
    split
    · exact .of_eq (h _ _ _)
    · exact .after ((releaseMonitor_intake _).trans (h _ _ _)) (stepEnd_shrinks _ k _)
  unfold measurementEnd
  split
  · split
    · exact .refl _
    · split
      · exact act_shrinks (h _ _ _)
      · exact .refl _
  · exact .refl _

/-! ### Events of the link -/

theorem registersSent_intake (s : State) (k : LaneId) (p : LinkParams) : (registersSent s k p).intake = s.intake := by
  unfold registersSent
  split <;> rfl

theorem linkByteSent_intake (ack : Bool) (s : State) : (linkByteSent ack s).intake = s.intake := by
  have ha : ∀ p, (addressSent s p ack).intake = s.intake := by
    intro p
    unfold addressSent
    dsimp only
    split_ifs <;> rfl
  have hr : ∀ k p, (registerSent s k p ack).intake = s.intake := by
    intro k p
    unfold registerSent
    split_ifs
    · rfl
    · rfl
    · exact registersSent_intake s k p
  have hd : ∀ k p, (dataSent s k p ack).intake = s.intake := by
    intro k p
    unfold dataSent
    dsimp only
    split_ifs <;> rfl
  unfold linkByteSent
  split
  · rfl
  · split
    · split
      · rfl
      · exact ha _
    · split
      · rfl
      · exact hr _ _
    · split
      · rfl
      · exact hd _ _
    · rfl

theorem linkByteRead_shrinks (b : Byte) (s : State) : s.intake.Shrinks (linkByteRead b s).intake := by
  unfold linkByteRead
  split
  · exact .refl _
  · split
    · split
      · exact .refl _
      · exact shrinks_of_writes (t := s.storeWindow _ _ [b]) (storeWindow_intake s _ _ [b]) (storeWindow_writes _ s _ _ [b])
    · exact .refl _

theorem linkReadAckBitEnd_intake (s : State) : (linkReadAckBitEnd s).intake = s.intake := by
  unfold linkReadAckBitEnd
  split
  · rfl
  · split_ifs <;> rfl

theorem linkStartDone_intake (s : State) : (linkStartDone s).intake = s.intake := by
  unfold linkStartDone
  split
  · rfl
  · split_ifs <;> rfl

theorem linkRestartDone_intake (s : State) : (linkRestartDone s).intake = s.intake := by
  unfold linkRestartDone
  split
  · rfl
  · split_ifs <;> rfl

theorem reportWindDown_shrinks (s : State) (k : LaneId) : s.intake.Shrinks (reportWindDown s k).1.intake := by
  unfold reportWindDown
  split
  · exact endWindDown_shrinks s k _
  · exact .refl _

theorem endTransfer_shrinks (s : State) (k : LaneId) (o : StepOutcome) (d : StepDetail) :
    s.intake.Shrinks (endTransfer s k o d).1.intake :=
  .after (releaseLink_intake s) (stepEnd_shrinks _ k _)

theorem beginPollInterval_intake (s : State) (k : LaneId) : (beginPollInterval s k).intake = s.intake := by
  unfold beginPollInterval
  dsimp only
  rw [setLane_keeps_intake (by rfl)]
  exact releaseLink_intake s

theorem closeTransfer_shrinks (s : State) (k : LaneId) (p : LinkParams) :
    s.intake.Shrinks (closeTransfer s k p).1.intake := by
  unfold closeTransfer
  split
  · exact endTransfer_shrinks s k _ _
  · exact endTransfer_shrinks s k _ _
  · exact endTransfer_shrinks s k _ _
  · split
    · exact .of_eq (beginPollInterval_intake s k)
    · exact endTransfer_shrinks s k _ _

theorem recoveryComplete_shrinks (s : State) : s.intake.Shrinks (recoveryComplete s).intake := by
  unfold recoveryComplete
  split
  · exact .refl _
  · dsimp only
    split
    · split
      · exact act_shrinks (reportWindDown_shrinks (s.setLink { s.link with busUncertain := false }) _)
      · exact .refl _
    · exact .refl _

theorem linkStopComplete_shrinks (s : State) : s.intake.Shrinks (linkStopComplete s).intake := by
  unfold linkStopComplete
  split
  · exact .refl _
  · split
    · refine act_shrinks ?_
      split
      · exact reportWindDown_shrinks s _
      · exact closeTransfer_shrinks s _ _
    · exact .refl _

theorem busStuck_shrinks (s : State) : s.intake.Shrinks (busStuck s).intake := by
  unfold busStuck
  split
  · exact .refl _
  · dsimp only
    split
    · refine act_shrinks ?_
      split
      · exact reportWindDown_shrinks (s.setLink { s.link with busUncertain := true }) _
      · exact endTransfer_shrinks (s.setLink { s.link with busUncertain := true }) _ _ _
    · exact .refl _

end Sys2Proof.Machine
end

