-- ==== Sys2Proof/Proofs/IntakeCommands.lean ====
section
/-! SUPPORT. The commands of the exchange port: which bytes they write, and which slots they post, renew or give up. -/

namespace Sys2Proof.Machine

/-! ### Host commands but POST -/

theorem endUnrun_intake (reason : EndReason) (s : State) (n : SlotId) :
    (endUnrun reason s n).intake =
      ⟨(endUnrun reason s n).mem, s.queue, s.parked, s.finished ||| (1#22 <<< n.val), s.intake.running⟩ := by
  have h := congrArg State.intake (endUnrun_eq reason s n)
  exact h

theorem abortAt_shrinks {s : State} {n : SlotId} {p : Place} (hp : s.place n = some p) :
    s.intake.Shrinks (abortAt s n p).1.intake := by
  cases p with
  | queued k =>
    have hn := queued_of_place hp
    have h : (endUnrun .hostAbort (s.setQueue k ((s.queue k).erase n)) n).intake =
        (s.intake.withMem (endUnrun .hostAbort (s.setQueue k ((s.queue k).erase n)) n).mem).dropQueued k n := by
      have hq : (fun j => if j = k then (s.queue k).erase n else s.queue j) =
          fun j => if j = k then (s.queue j).erase n else s.queue j := by
        funext j
        split
        · rename_i e; rw [e]
        · rfl
      have hs := congrArg Intake.queue (setQueue_intake s k ((s.queue k).erase n))
      rw [endUnrun_intake]
      exact congrArg (fun q => Intake.mk _ q s.parked _ _) (hs.trans hq)
    have hw := endUnrun_writes (H := (· ∈ s.heldList)) (mem_heldList_of_queue hn) (s.setQueue k ((s.queue k).erase n))
      .hostAbort
    refine .before (t := endUnrun .hostAbort (s.setQueue k ((s.queue k).erase n)) n) rfl ?_
    rw [h]
    exact (Intake.Shrinks.of_writes (v := s.intake) hw).trans (Intake.shrinks_dropQueued hn)
  | parked =>
    have hn := parked_of_place hp
    have hw := endUnrun_writes (H := (· ∈ s.heldList)) (mem_heldList_of_parked hn) { s with parked := s.parked.erase n }
      .hostAbort
    refine .before (t := endUnrun .hostAbort { s with parked := s.parked.erase n } n) rfl ?_
    rw [endUnrun_intake]
    exact (Intake.Shrinks.of_writes (v := s.intake) hw).trans (Intake.shrinks_dropParked hn)
  | running k => exact cutLane_shrinks (s.answer codeAbort _ _) k _

theorem abort_shrinks (slot : Byte) (s : State) : s.intake.Shrinks (abort slot s).intake := by
  unfold abort
  split
  · exact .refl _
  · split
    · exact .refl _
    · rename_i hp
      exact act_shrinks (abortAt_shrinks hp)

theorem go_shrinks (lanes : BitVec 4) (apply : Bool) (s : State) : s.intake.Shrinks (go lanes apply s).intake := by
  unfold go
  dsimp only
  refine act_shrinks (.of_eq ?_)
  show State.intake (if apply then applyPart s lanes else (s, [])).1 = s.intake
  split
  · exact reported_intake applyOn_chansOnly _ s
  · rfl

theorem renewed_intake (s : State) : s.renewed.intake = s.intake := by
  unfold State.renewed
  split <;> rfl

theorem renew_intake (s : State) : (renew s).intake = s.intake := by
  unfold renew
  split
  · exact renewed_intake s
  · rfl
  · rfl

theorem turnMonitorOn_intake (s : State) : (turnMonitorOn s).intake = s.intake := by
  unfold turnMonitorOn
  split <;> rfl

theorem resume_intake (s : State) : (resume s).intake = s.intake := by
  unfold resume
  split_ifs <;> rfl

theorem retime_intake (cfg : ConfigSet) (s : State) (g : GroupId) : (retime cfg s g).intake = s.intake := by
  unfold retime
  dsimp only
  split <;> rfl

theorem loadConfig_intake (s : State) : (loadConfig s).intake = s.intake := by
  unfold loadConfig
  split
  · rfl
  · split
    · rfl
    · have hd := (foldl_disableOn (configOfPage s.mem).enable
        { s with config := configOfPage s.mem, configDefault := false }).1.intake
      dsimp only
      generalize allChans.foldl (disableOn (configOfPage s.mem).enable)
        { s with config := configOfPage s.mem, configDefault := false } = t at hd ⊢
      have hr := foldl_keep State.intake (retime (configOfPage s.mem)) (retime_intake _) allGroups t
      generalize allGroups.foldl (retime (configOfPage s.mem)) t = u at hr ⊢
      exact hr.trans hd

/-- Sets that are emptied, memory kept. -/
theorem Intake.shrinks_of_cleared {v w : Intake} (hm : w.mem = v.mem) (hq : ∀ k, w.queue k = []) (hp : w.parked = [])
    (hf : w.finished = 0) (hr : ∀ k, w.running k = none) : v.Shrinks w := by
  have hh : w.held = [] := List.eq_nil_iff_forall_not_mem.mpr fun n hn => by
    simpa [hq, hp, hr] using (Intake.mem_held w n).mp hn
  refine ⟨hm ▸ SlotWrites.refl _ _, fun m => by simp [hh], fun m h => ?_, fun k => hq k ▸ List.nil_sublist _⟩
  simp [Intake.isFinished, hf] at h

theorem resetBlocks_shrinks (s : State) : s.intake.Shrinks s.resetBlocks.intake := by
  rw [(resetBlocks_spec s).1]
  refine Intake.shrinks_of_cleared rfl (vec4_get fun _ => []) rfl rfl fun k => ?_
  exact congrArg Lane.running (vec4_get (fun _ => Lane.idle) k)

theorem engineReset_shrinks (s : State) : s.intake.Shrinks (engineReset s).intake := by
  have h := resetBlocks_shrinks s
  unfold engineReset
  generalize s.resetBlocks = t at h ⊢
  exact h

theorem beginReset_shrinks (s : State) : s.intake.Shrinks (beginReset s).intake := by
  have h := resetBlocks_shrinks s
  unfold beginReset
  generalize s.resetBlocks = t at h ⊢
  exact h

/-- FINISHED only loses slots by an acknowledgement (R19). -/
theorem acknowledge_shrinks (mask : Word) (s : State) : s.intake.Shrinks (acknowledge mask s).intake := by
  refine ⟨SlotWrites.refl _ _, fun _ => Nat.le_refl _, fun m h => .inl ?_, fun _ => List.Sublist.refl _⟩
  have h : (s.finished &&& ~~~(mask.extractLsb' 0 22)).getLsbD m.val = true := h
  rw [BitVec.getLsbD_and, Bool.and_eq_true] at h
  exact h.1

/-! ### POST -/

theorem slotOfByte_eq_some (b : Byte) (n : SlotId) : slotOfByte b = some n ↔ b = numberOf n := by
  have hn := n.isLt
  unfold slotOfByte numberOf
  constructor
  · intro h
    split at h
    · obtain rfl := Option.some.inj h
      simp
    · cases h
  · rintro rfl
    have hv : (BitVec.ofNat 8 n.val).toNat = n.val := by simp; omega
    rw [dif_pos (by omega)]
    exact congrArg some (Fin.ext hv)

/-- A POST that gets past checks 1–4 names a slot that is neither held nor finished (R9). -/
theorem takeable_eq_ok (s : State) (b : Byte) (n : SlotId) :
    takeable s b = .ok n ↔ b = numberOf n ∧ s.postable n := by
  unfold takeable State.postable
  rw [← slotOfByte_eq_some]
  cases s.safe with
  | true => simp
  | false =>
    cases hb : slotOfByte b with
    | none => simp
    | some m =>
      simp only [Bool.false_eq_true, if_false, Option.some.injEq, true_and]
      cases hp : s.place m with
      | some p =>
        simp only [reduceCtorEq, false_iff]
        rintro ⟨rfl, h, _⟩
        rw [hp] at h
        cases h
      | none =>
        cases hf : s.isFinished m with
        | true =>
          simp only [if_true, reduceCtorEq, false_iff]
          rintro ⟨rfl, _, h⟩
          rw [hf] at h
          cases h
        | false =>
          simp only [Bool.false_eq_true, if_false, Except.ok.injEq]
          constructor
          · rintro rfl
            exact ⟨rfl, hp, hf⟩
          · exact fun h => h.1

/-- A POST that no check refuses and that is not to be parked finds room in its queue (R12). -/
theorem queue_room_of_headerFault {s : State} {n : SlotId} (h : headerFault s n = none) (hp : s.parkFlag n = false) :
    (s.queue (s.slotLane n)).length < 8 := by
  unfold headerFault at h
  iterate 4 (split at h; · cases h)
  split at h
  · cases h
  · split at h
    · cases h
    · split at h
      · cases h
      · rename_i hn
        by_contra hc
        exact hn ⟨hp, Nat.le_of_not_lt hc⟩

/-- The bytes that the acceptance writes can touch (R14). -/
def acceptRange (n : SlotId) (count a : Nat) : Prop :=
  inHeader n 0x01 3 a ∨ inHeader n 0x0B 3 a ∨ inHeader n 0x18 8 a ∨ inResults n 0 count a

/-- The header's part of the acceptance writes. -/
def acceptHeader (s : State) (n : SlotId) : State :=
  ((writeVerdict s n (if s.parkFlag n then .parked else .queued) 0 0xFF#8).store (slotBase n + 0x0B) [0, 0, 0xFF#8]).store
    (slotBase n + 0x18) [0, 0, 0, 0, 0, 0, 0, 0]

theorem store_header_memOutside {P : Nat → Prop} (s : State) (n : SlotId) (off : Nat) (bs : List Byte)
    (h : ∀ a, inHeader n off bs.length a → P a) : MemOutside P s (s.store (slotBase n + off) bs) :=
  (store_memOutside s _ bs).mono h

theorem acceptHeader_memOutside (s : State) (n : SlotId) (count : Nat) :
    MemOutside (acceptRange n count) s (acceptHeader s n) :=
  ((store_header_memOutside s n 0x01 _ fun _ h => .inl h).trans
    (store_header_memOutside _ n 0x0B [0, 0, 0xFF#8] fun _ h => .inr (.inl h))).trans
    (store_header_memOutside _ n 0x18 [0, 0, 0, 0, 0, 0, 0, 0] fun _ h => .inr (.inr (.inl h)))

theorem acceptHeader_writes {H : SlotId → Prop} {n : SlotId} (hn : H n) (s : State) :
    SlotWrites H s.mem (acceptHeader s n).mem := by
  unfold acceptHeader
  generalize (if s.parkFlag n then SlotState.parked else .queued) = st
  have h := writeVerdict_writes hn s st 0 0xFF#8
  generalize writeVerdict s n st 0 0xFF#8 = u at h ⊢
  exact (h.trans (header_writes hn u.mem 0x0B [0, 0, 0xFF#8] (by simp))).trans
    (header_writes hn _ 0x18 [0, 0, 0, 0, 0, 0, 0, 0] (by simp))

theorem acceptWrites_writes {H : SlotId → Prop} {n : SlotId} (hn : H n) (s : State) :
    SlotWrites H s.mem (acceptWrites s n).mem :=
  (acceptHeader_writes hn s).trans (writeResults_writes hn (acceptHeader s n) 0 (plainResult .pending .none 0))

theorem acceptHeader_stepCount (s : State) (n : SlotId) : (acceptHeader s n).stepCount n = s.stepCount n := by
  have h := (acceptHeader_memOutside s n 0).hdr n 0x06 (by
    rintro (h | h | h | ⟨i, _, h, _⟩)
    · unfold inHeader at h; omega
    · unfold inHeader at h; omega
    · unfold inHeader at h; omega
    · exact absurd h (Nat.not_lt_zero _))
  exact congrArg BitVec.toNat h

theorem acceptWrites_memOutside (s : State) (n : SlotId) :
    MemOutside (acceptRange n (s.stepCount n)) s (acceptWrites s n) := by
  have h := (writeResults_spec (acceptHeader s n) n 0 (plainResult .pending .none 0)).1
  rw [acceptHeader_stepCount] at h
  exact (acceptHeader_memOutside s n _).trans (h.mono fun a h => .inr (.inr (.inr h)))

theorem acceptWrites_intake (s : State) (n : SlotId) :
    (acceptWrites s n).intake = s.intake.withMem (acceptWrites s n).mem := by
  have h := (acceptWrites_memOutside s n).1
  generalize acceptWrites s n = t at h ⊢
  exact intake_of_mem h

/-- Slot n joins a queue with room, or the parked set (R14). -/
structure Intake.Posted (v : Intake) (n : SlotId) (w : Intake) : Prop where
  fresh : n ∉ v.held
  unfinished : v.isFinished n = false
  writes : SlotWrites (· = n) v.mem w.mem
  counts : ∀ m, w.held.count m = v.held.count m + if m = n then 1 else 0
  finished : w.finished = v.finished
  queues : ∀ k, w.queue k = v.queue k ∨ w.queue k = v.queue k ++ [n] ∧ (v.queue k).length < 8

theorem Intake.posted_park {v : Intake} {n : SlotId} {m : Memory} (hh : n ∉ v.held) (hf : v.isFinished n = false)
    (hw : SlotWrites (· = n) v.mem m) : v.Posted n ⟨m, v.queue, v.parked ++ [n], v.finished, v.running⟩ where
  fresh := hh
  unfinished := hf
  writes := hw
  counts x := by
    simp only [Intake.count_held, List.count_append, List.count_singleton, beq_iff_eq, eq_comm (a := n)]
    omega
  finished := rfl
  queues _ := .inl rfl

theorem Intake.posted_queue {v : Intake} {n : SlotId} {m : Memory} {k : LaneId} (hh : n ∉ v.held)
    (hf : v.isFinished n = false) (hw : SlotWrites (· = n) v.mem m) (hl : (v.queue k).length < 8) :
    v.Posted n ⟨m, fun j => if j = k then v.queue k ++ [n] else v.queue j, v.parked, v.finished, v.running⟩ where
  fresh := hh
  unfinished := hf
  writes := hw
  counts x := by
    have h := sum_queue_change v.queue k (fun _ => v.queue k ++ [n]) x
    simp only [List.count_append, List.count_singleton, beq_iff_eq, eq_comm (a := n)] at h
    simp only [Intake.count_held]
    omega
  finished := rfl
  queues j := by
    by_cases e : j = k
    · subst e
      exact .inr ⟨if_pos rfl, hl⟩
    · exact .inl (if_neg e)

/-- The state of an accepted POST before the take: its slot has joined its queue, or the parked set (R14). -/
theorem acceptPost_intake (s : State) (n : SlotId) :
    (acceptPost s n).1.intake =
      if s.parkFlag n = true then
        ⟨(acceptWrites s n).mem, s.queue, s.parked ++ [n], s.finished, s.intake.running⟩
      else
        ⟨(acceptWrites s n).mem, fun j => if j = s.slotLane n then s.queue (s.slotLane n) ++ [n] else s.queue j,
          s.parked, s.finished, s.intake.running⟩ := by
  have ht : (acceptWrites s n).renewed.intake = s.intake.withMem (acceptWrites s n).mem := by
    rw [renewed_intake, acceptWrites_intake]
  unfold acceptPost
  generalize (acceptWrites s n).renewed = t at ht ⊢
  generalize (acceptWrites s n).mem = m at ht ⊢
  have hmem : t.mem = m := congrArg Intake.mem ht
  have hqueue : t.queue = s.queue := congrArg Intake.queue ht
  have hparked : t.parked = s.parked := congrArg Intake.parked ht
  have hfinished : t.finished = s.finished := congrArg Intake.finished ht
  have hrun : t.intake.running = s.intake.running := by
    rw [ht]
    rfl
  rw [← hmem, ← hqueue, ← hparked, ← hfinished, ← hrun]
  dsimp only
  split
  · rfl
  · exact setQueue_intake t _ _

theorem acceptPost_posted {s : State} {n : SlotId} (hp : s.postable n) (h : headerFault s n = none) :
    s.intake.Posted n (acceptPost s n).1.intake := by
  obtain ⟨_, hplace, hfin⟩ := hp
  have hfresh := (place_eq_none_iff s n).mp hplace
  have hw := acceptWrites_writes (H := (· = n)) rfl s
  rw [acceptPost_intake]
  split
  · exact Intake.posted_park hfresh hfin hw
  · rename_i hpark
    exact Intake.posted_queue hfresh hfin hw (queue_room_of_headerFault h (Bool.not_eq_true _ ▸ hpark))

/-! ### Every command -/

/-- What a command can make of the intake: it gives slots up; a POST it carries writes its verdict into a slot of `posts`,
or that slot joins a queue or the parked set before slots are given up; a frame's bytes are stored where `stores` says so. -/
inductive Intake.Change (posts : SlotId → Prop) (stores : Prop) (v w : Intake) : Prop
  | gives (h : v.Shrinks w)
  | rejects (n : SlotId) (m : Memory) (hn : posts n) (hm : SlotWrites (· = n) v.mem m) (h : w = v.withMem m)
  | posts (n : SlotId) (u : Intake) (hn : posts n) (hu : v.Posted n u) (h : u.Shrinks w)
  | stores (hs : stores) (hm : v.mem.wf → w.mem.wf) (h : v.Shrinks (w.withMem v.mem))

section
variable {posts : SlotId → Prop} {stores : Prop}

theorem post_change {b : Byte} (hb : ∀ n, b = numberOf n → posts n) (s : State) :
    Intake.Change posts stores s.intake (post b s).intake := by
  unfold post
  split
  · exact .gives (.refl _)
  · rename_i n ht
    obtain ⟨hn, hp⟩ := (takeable_eq_ok s b n).mp ht
    split
    · rename_i code detail hf
      have hw := writeVerdict_writes (H := (· = n)) rfl s .rejected code.code detail
      exact .rejects n _ (hb n hn) hw rfl
    · rename_i hf
      exact .posts n _ (hb n hn) (acceptPost_posted hp hf) (finishAct_shrinks _)

end

end Sys2Proof.Machine
end

