-- ==== Sys2Proof/Proofs/IntakeLaws.lean ====
section
/-! The laws of the slots that every step keeps (O6, O8, O9), and the bytes a command may write (O5). -/

namespace Sys2Proof.Machine

section
variable {posts : SlotId → Prop} {stores : Prop}

theorem dispatchWord_change (hb : ∀ n, posts n) (w : Word) (s : State) :
    Intake.Change posts stores s.intake (dispatchWord w s).intake := by
  unfold dispatchWord
  dsimp only
  split
  · exact post_change (fun n _ => hb n) s
  · exact .gives (abort_shrinks _ s)
  · exact .gives (go_shrinks _ _ s)
  · exact .gives (.of_eq (renew_intake s))
  · exact .gives (.of_eq (loadConfig_intake s))
  · exact .gives (engineReset_shrinks s)
  · exact .gives (.of_eq (turnMonitorOn_intake s))
  · exact .gives (.of_eq (resume_intake s))
  · exact .gives (.refl _)
  · exact .gives (.refl _)

/-- Memory alone is stored into. -/
theorem Intake.Change.of_store {v : Intake} {m : Memory} (hs : stores) (hm : v.mem.wf → m.wf) :
    v.Change posts stores (v.withMem m) := .stores hs hm (.refl v)

theorem storeFrame_change (hs : stores) (a : Nat) (data : List Byte) (s : State) :
    Intake.Change posts stores s.intake (s.storeFrame a data).intake := by
  unfold State.storeFrame
  split
  · exact .of_store hs fun h => Memory.wf_writeBytes h a data
  · exact .of_store hs fun h => Memory.wf_writeBytes h a _

theorem applyWrite_change (hb : ∀ n, posts n) (hs : stores) (addr : Half) (data : List Byte) (s : State) :
    Intake.Change posts stores s.intake (applyWrite addr data s).intake := by
  unfold applyWrite
  dsimp only
  split
  · exact storeFrame_change hs _ data s
  · exact storeFrame_change hs _ data s
  · split
    · exact .gives (.refl _)
    · exact storeFrame_change hs _ data s
  · exact .gives (.refl _)
  · unfold writeRegisters
    split
    · exact dispatchWord_change hb _ s
    · split
      · exact .gives (acknowledge_shrinks _ s)
      · exact .gives (.refl _)
  · exact .gives (.refl _)

theorem endReset_change (hs : stores) (strap : Bool) (levels : BitVec 8) (s : State) :
    Intake.Change posts stores s.intake (endReset strap levels s).intake := by
  refine .stores hs (fun _ => State.reset_memory.2) (Intake.shrinks_of_cleared rfl (vec4_get fun _ => []) rfl rfl fun k => ?_)
  exact congrArg Lane.running (vec4_get (fun _ => Lane.idle) k)

end

/-- The command may post slot n: it is the POST that names it, or a WRITE frame, which may carry any command word. -/
def commandPosts (c : Instr) (n : SlotId) : Prop :=
  c = .post (numberOf n) ∨ ∃ addr data crc, c = .writeFrame addr data crc

/-- The command may store bytes anywhere in exchange memory: a WRITE frame, and the end of a device reset (R168, R181). -/
def commandStores (c : Instr) : Prop :=
  (∃ addr data crc, c = .writeFrame addr data crc) ∨ ∃ strap levels, c = .deviceResetEnd strap levels

section
variable {posts : SlotId → Prop} {stores : Prop}

/-- An act that takes place only outside device reset. -/
theorem whenReady_change {f : State → State} {s : State} (h : Intake.Change posts stores s.intake (f s).intake) :
    Intake.Change posts stores s.intake (whenReady f s).intake := by
  unfold whenReady
  split
  · exact h
  · exact .gives (.refl _)

theorem whenReady_shrinks {f : State → State} (h : ∀ s : State, s.intake.Shrinks (f s).intake) (s : State) :
    Intake.Change posts stores s.intake (whenReady f s).intake := whenReady_change (.gives (h s))

theorem whenReady_keeps {f : State → State} (h : ∀ s : State, (f s).intake = s.intake) (s : State) :
    Intake.Change posts stores s.intake (whenReady f s).intake := whenReady_shrinks (fun s => .of_eq (h s)) s

/-- A host command in its frame. -/
theorem asCommand_change {f : State → State} {s : State}
    (h : ∀ s, Intake.Change posts stores s.intake (f s).intake) :
    Intake.Change posts stores s.intake (asCommand f s).intake :=
  whenReady_change (h (s.judged (frameBits 4) []))

theorem asCommand_shrinks {f : State → State} (h : ∀ s : State, s.intake.Shrinks (f s).intake) (s : State) :
    Intake.Change posts stores s.intake (asCommand f s).intake := asCommand_change fun s => .gives (h s)

theorem asCommand_keeps {f : State → State} (h : ∀ s : State, (f s).intake = s.intake) (s : State) :
    Intake.Change posts stores s.intake (asCommand f s).intake := asCommand_shrinks (fun s => .of_eq (h s)) s

end

theorem clearFlags_intake (s : State) : (clearFlags s).intake = s.intake := rfl
theorem refuseUnknown_intake (code : Byte) (s : State) : (refuseUnknown code s).intake = s.intake := rfl

/-- The state after a command. -/
theorem next_inj {s t : State} (h : (Host.Outcome.next s : Host.Outcome State Fault Refusal) = .next t) : s = t :=
  Host.Outcome.next.inj h

/-- What every command makes of the intake. -/
theorem exec_change {c : Instr} {s t : State} (h : exec c s = .next t) :
    Intake.Change (commandPosts c) (commandStores c) s.intake t.intake := by
  cases c with
  | post b =>
    obtain rfl := next_inj h
    exact asCommand_change fun s => post_change (fun n hn => .inl (hn ▸ rfl)) s
  | abort b => obtain rfl := next_inj h; exact asCommand_shrinks (abort_shrinks b) s
  | go lanes apply => obtain rfl := next_inj h; exact asCommand_shrinks (go_shrinks lanes apply) s
  | renew => obtain rfl := next_inj h; exact asCommand_keeps renew_intake s
  | loadConfig => obtain rfl := next_inj h; exact asCommand_keeps loadConfig_intake s
  | engineReset => obtain rfl := next_inj h; exact asCommand_shrinks engineReset_shrinks s
  | monitorOn => obtain rfl := next_inj h; exact asCommand_keeps turnMonitorOn_intake s
  | resume => obtain rfl := next_inj h; exact asCommand_keeps resume_intake s
  | clearFlags => obtain rfl := next_inj h; exact asCommand_keeps clearFlags_intake s
  | unknownCommand code =>
    obtain rfl := next_inj h
    split
    · exact .gives (.refl _)
    · exact asCommand_keeps (refuseUnknown_intake code) s
  | finishedWrite mask =>
    obtain rfl := next_inj h
    exact whenReady_shrinks (fun s => acknowledge_shrinks mask (s.judged (frameBits 4) [])) s
  | readOnlyRegisterWrite addr data =>
    obtain rfl := next_inj h
    exact whenReady_keeps (fun s => by split <;> rfl) s
  | writeFrame addr data crc =>
    obtain rfl := next_inj h
    refine whenReady_change ?_
    split
    · unfold receiveWrite inWriteFrame
      split
      · exact applyWrite_change (fun n => .inr ⟨addr, data, crc, rfl⟩) (.inl ⟨addr, data, crc, rfl⟩) addr data
          (s.judged (frameBits data.length) [])
      · exact .gives (.refl _)
    · exact .gives (.refl _)
  | readFrame addr l crc =>
    obtain rfl := next_inj h
    refine whenReady_keeps (fun s => ?_) s
    unfold receiveRead
    dsimp only
    split
    · split <;> rfl
    · rfl
  | badOperationByte op =>
    obtain rfl := next_inj h
    exact whenReady_keeps (fun s => by split <;> rfl) s
  | earlyNcsRise bits =>
    obtain rfl := next_inj h
    exact whenReady_keeps (fun s => by split <;> rfl) s
  | deviceReset => obtain rfl := next_inj h; exact .gives (beginReset_shrinks s)
  | deviceResetEnd strap levels =>
    obtain rfl := next_inj h
    split
    · exact .gives (.refl _)
    · exact endReset_change (.inr ⟨strap, levels, rfl⟩) strap levels s
  | tick => obtain rfl := next_inj h; exact whenReady_shrinks tick_shrinks s
  | rampMove => obtain rfl := next_inj h; exact whenReady_shrinks rampMove_shrinks s
  | stepTimeout k => obtain rfl := next_inj h; exact whenReady_shrinks (stepTimeout_shrinks k) s
  | planTimeout k => obtain rfl := next_inj h; exact whenReady_shrinks (planTimeout_shrinks k) s
  | delayExpiry k => obtain rfl := next_inj h; exact whenReady_shrinks (delayExpiry_shrinks k) s
  | triggerDelayExpiry k => obtain rfl := next_inj h; exact whenReady_keeps (triggerDelayExpiry_intake k) s
  | confirmationExpiry k => obtain rfl := next_inj h; exact whenReady_keeps (confirmationExpiry_intake k) s
  | sampleWaitExpiry => obtain rfl := next_inj h; exact whenReady_keeps sampleWaitExpiry_intake s
  | conversionEnd code => obtain rfl := next_inj h; exact whenReady_shrinks (conversionEnd_shrinks code) s
  | levelChange l => obtain rfl := next_inj h; exact whenReady_keeps (levelChange_intake l) s
  | groupPeriodStart g => obtain rfl := next_inj h; exact whenReady_keeps (groupPeriodStart_intake g) s
  | channelPeriodStart c hi lo => obtain rfl := next_inj h; exact whenReady_keeps (channelPeriodStart_intake c hi lo) s
  | measurementEnd => obtain rfl := next_inj h; exact whenReady_shrinks measurementEnd_shrinks s
  | linkStartDone => obtain rfl := next_inj h; exact whenReady_keeps linkStartDone_intake s
  | linkByteSent ack => obtain rfl := next_inj h; exact whenReady_keeps (linkByteSent_intake ack) s
  | linkByteRead b => obtain rfl := next_inj h; exact whenReady_shrinks (linkByteRead_shrinks b) s
  | linkRestartDone => obtain rfl := next_inj h; exact whenReady_keeps linkRestartDone_intake s
  | recoveryComplete => obtain rfl := next_inj h; exact whenReady_shrinks recoveryComplete_shrinks s
  | linkStopComplete => obtain rfl := next_inj h; exact whenReady_shrinks linkStopComplete_shrinks s
  | busStuck => obtain rfl := next_inj h; exact whenReady_shrinks busStuck_shrinks s
  | pollIntervalExpiry k => obtain rfl := next_inj h; exact whenReady_keeps (pollIntervalExpiry_intake k) s
  | monitorExpiry => obtain rfl := next_inj h; exact whenReady_shrinks monitorExpiry_shrinks s
  | linkReadAckBitEnd => obtain rfl := next_inj h; exact whenReady_keeps linkReadAckBitEnd_intake s

/-! ### The laws of the slots -/

/-- The third law, and the first and second law, of the view. -/
def Intake.bounded (v : Intake) : Prop := ∀ k, (v.queue k).length ≤ 8 ∧ (v.queue k).Nodup
def Intake.apart (v : Intake) : Prop := v.held.Nodup ∧ ∀ n ∈ v.held, v.isFinished n = false

namespace Intake.Shrinks
variable {v w : Intake} (h : v.Shrinks w)
include h

theorem keeps_bounded (hv : v.bounded) : w.bounded := fun k =>
  ⟨(h.queues k).length_le.trans (hv k).1, (h.queues k).nodup (hv k).2⟩

theorem keeps_apart (hv : v.apart) : w.apart := by
  obtain ⟨hn, hf⟩ := hv
  rw [List.nodup_iff_count_le_one] at hn
  refine ⟨List.nodup_iff_count_le_one.mpr fun m => (h.counts m).trans (hn m), fun n hw => ?_⟩
  by_contra hc
  rcases h.finished n (Bool.not_eq_false _ ▸ hc) with hfin | hlt
  · exact absurd (hf n (h.held_subset hw)) (by simp [hfin])
  · have := List.one_le_count_iff.mpr hw
    have := hn n
    omega

end Intake.Shrinks

namespace Intake.Posted
variable {v w : Intake} {n : SlotId} (h : v.Posted n w)
include h

theorem mem_held (m : SlotId) : m ∈ w.held ↔ m ∈ v.held ∨ m = n := by
  have hc := h.counts m
  rw [← List.one_le_count_iff, ← List.one_le_count_iff, hc]
  by_cases e : m = n
  · simp [e]
  · simp [e]

theorem keeps_bounded (hv : v.bounded) : w.bounded := by
  intro k
  rcases h.queues k with e | ⟨e, hl⟩
  · exact e ▸ hv k
  · have hk : n ∉ v.queue k := fun hn => h.fresh ((Intake.mem_held v n).mpr (.inl ⟨k, hn⟩))
    rw [e, List.length_append, List.nodup_append]
    refine ⟨hl, (hv k).2, List.nodup_singleton n, fun a ha b hb => ?_⟩
    rw [List.mem_singleton.mp hb]
    exact fun e => hk (e ▸ ha)

theorem keeps_apart (hv : v.apart) : w.apart := by
  obtain ⟨hn, hf⟩ := hv
  rw [List.nodup_iff_count_le_one] at hn
  have hfin : ∀ m, w.isFinished m = v.isFinished m := fun m => by unfold Intake.isFinished; rw [h.finished]
  refine ⟨List.nodup_iff_count_le_one.mpr fun m => ?_, fun m hm => ?_⟩
  · rw [h.counts m]
    by_cases e : m = n
    · rw [e, List.count_eq_zero_of_not_mem h.fresh, if_pos rfl]
    · rw [if_neg e]
      exact hn m
  · rw [hfin]
    rcases (h.mem_held m).mp hm with hm | rfl
    · exact hf m hm
    · exact h.unfinished

end Intake.Posted

namespace Intake.Change
variable {posts : SlotId → Prop} {stores : Prop} {v w : Intake} (h : v.Change posts stores w)
include h

theorem keeps_wf (hv : v.mem.wf) : w.mem.wf := by
  cases h with
  | gives h => exact h.writes.wf hv
  | rejects n m _ hm e => exact e ▸ hm.wf hv
  | posts n u _ hu h => exact h.writes.wf (hu.writes.wf hv)
  | stores _ hm _ => exact hm hv

theorem keeps_bounded (hv : v.bounded) : w.bounded := by
  cases h with
  | gives h => exact h.keeps_bounded hv
  | rejects n m _ _ e => exact e ▸ hv
  | posts n u _ hu h => exact h.keeps_bounded (hu.keeps_bounded hv)
  | stores _ _ h => exact h.keeps_bounded hv

theorem keeps_apart (hv : v.apart) : w.apart := by
  cases h with
  | gives h => exact h.keeps_apart hv
  | rejects n m _ _ e => exact e ▸ hv
  | posts n u _ hu h => exact h.keeps_apart (hu.keeps_apart hv)
  | stores _ _ h => exact h.keeps_apart hv

/-- Where no frame's bytes are stored, memory is written in held and posted slots and in capture windows (R2, R3, R7). -/
theorem writes (hs : ¬stores) : SlotWrites (fun n => n ∈ v.held ∨ posts n) v.mem w.mem := by
  cases h with
  | gives h => exact h.writes.mono fun _ => .inl
  | rejects n m hn hm e => exact e ▸ hm.mono fun x hx => .inr (hx ▸ hn)
  | posts n u hn hu h =>
    refine (hu.writes.mono fun x hx => .inr (hx ▸ hn)).trans (h.writes.mono fun x hx => ?_)
    rcases (hu.mem_held x).mp hx with hx | rfl
    · exact .inl hx
    · exact .inr hn
  | stores h _ _ => exact absurd h hs

end Intake.Change

/-- What is so of the intake and every command keeps, every step keeps. -/
theorem step_keeps {P : Intake → Prop}
    (hp : ∀ {posts : SlotId → Prop} {stores : Prop} {v w : Intake}, v.Change posts stores w → P v → P w) {s t : State}
    (hs : P s.intake) (h : step s = .next t) : P t.intake := by
  unfold step at h
  split at h
  · obtain rfl := next_inj h
    exact hs
  · rename_i c rest _
    exact hp (exec_change h) hs

end Sys2Proof.Machine

open Sys2Proof Sys2Proof.Machine

/-- Settles O6: a change of the intake keeps the canonical form. -/
theorem everyStepKeepsMemoryCanonical : Obligations.EveryStepKeepsMemoryCanonical := fun _ _ hs h =>
  step_keeps (P := fun v => v.mem.wf) Intake.Change.keeps_wf hs h

/-- Settles O8: slots only leave queues, but for a POST, which joins one with room and is not held before. -/
theorem everyStepKeepsQueuesBounded : Obligations.EveryStepKeepsQueuesBounded := fun _ _ hs h =>
  step_keeps (P := Intake.bounded) Intake.Change.keeps_bounded hs h

/-- Settles O9: no slot is held more often than before but one that a POST places, and a slot that joins FINISHED is held
less often. -/
theorem everyStepKeepsSlotsApart : Obligations.EveryStepKeepsSlotsApart := fun _ _ hs h =>
  step_keeps (P := Intake.apart) Intake.Change.keeps_apart hs h

/-- Settles O5: the commands excluded are those that may store anywhere. -/
theorem commandsWriteOnlyTheirBytes : Obligations.CommandsWriteOnlyTheirBytes := by
  intro c s t h hframe hreset a ha hwindow
  have hstores : ¬commandStores c := by
    rintro (⟨addr, data, crc, e⟩ | ⟨strap, levels, e⟩)
    · exact hframe addr data crc e
    · exact hreset strap levels e
  refine ((exec_change h).writes hstores).frame a (fun n hn => ha n ?_) hwindow
  refine hn.imp_right fun hp => hp.resolve_right ?_
  rintro ⟨addr, data, crc, e⟩
  exact hframe addr data crc e
end

