-- ==== Sys2Proof/Proofs/PostChecks.lean ====
section
/-! The checks of POST: what each one answers when those before it have passed, and the verdict a refused POST writes (O16, O17,
O18). -/

namespace Sys2Proof.Machine

/-! ### The first in ascending order -/

/-- A search upward through an ascending list answers at the least element that has an answer. -/
theorem findSome?_of_least {α β : Type} [LinearOrder α] {f : α → Option β} {c : α} {b : β} {l : List α}
    (hl : l.Pairwise (· < ·)) (hc : c ∈ l) (hf : f c = some b) (hmin : ∀ d ∈ l, d < c → f d = none) :
    l.findSome? f = some b := by
  induction l with
  | nil => cases hc
  | cons a l ih =>
    obtain ⟨ha, hl⟩ := List.pairwise_cons.mp hl
    rw [List.findSome?_cons]
    rcases List.mem_cons.mp hc with rfl | hc
    · rw [hf]
    · rw [hmin a List.mem_cons_self (ha c hc)]
      exact ih hl hc fun d hd => hmin d (List.mem_cons_of_mem a hd)

theorem lowestChan_eq_some {m : BitVec 16} {c : ChanId} (hc : inChans m c = true)
    (hmin : ∀ d : ChanId, d < c → inChans m d = false) : lowestChan m = some c := by
  unfold lowestChan
  rw [List.find?_eq_findSome?_guard]
  refine findSome?_of_least (by decide) (mem_allChans c) (by simp [hc]) fun d _ hd => ?_
  simp [hmin d hd]

theorem inChans_disabled (s : State) (n : SlotId) (c : ChanId) :
    inChans (s.chanClaim n &&& ~~~s.config.enable) c = (inChans (s.chanClaim n) c && !inChans s.config.enable c) := by
  unfold inChans
  rw [BitVec.getLsbD_and, BitVec.getLsbD_not, decide_eq_true c.isLt, Bool.true_and]

/-- Check 9 passes exactly when no claimed channel is disabled. -/
theorem disabledClaim_of_enabled {s : State} {n : SlotId} (h : s.claimsEnabled n) : s.disabledClaim n = none := by
  unfold State.disabledClaim lowestChan
  refine List.find?_eq_none.mpr fun c _ => ?_
  have hc := h c
  rw [inChans_disabled, Bool.and_eq_true, Bool.not_eq_true']
  rintro ⟨h1, h2⟩
  rw [hc h1] at h2
  cases h2

/-! ### What each check answers -/

section
variable {s : State} {n : SlotId}

theorem headerFault_of_badFormat (h : s.hdr n 0x00 ≠ 1 ∨ s.hdrFlags n &&& 0xF8#8 ≠ 0) :
    headerFault s n = some (.badFormat, s.hdr n 0x00) := if_pos h

section
variable (hv : s.hdr n 0x00 = 1) (hf : s.hdrFlags n &&& 0xF8#8 = 0)
include hv hf

theorem headerFault_of_badLane (h : 4 ≤ (s.hdr n 0x04).toNat) : headerFault s n = some (.badLane, s.hdr n 0x04) := by
  unfold headerFault
  rw [if_neg (by simp [hv, hf]), if_pos h]

variable (hl : (s.hdr n 0x04).toNat ≤ 3)
include hl

theorem headerFault_of_badStepCount (h : s.stepCount n = 0 ∨ 12 < s.stepCount n) :
    headerFault s n = some (.badStepCount, s.hdr n 0x06) := by
  unfold headerFault
  rw [if_neg (by simp [hv, hf]), if_neg (by omega), if_pos h]

theorem headerFault_of_badContinuation (hc : ¬(s.stepCount n = 0 ∨ 12 < s.stepCount n))
    (h : badContinuation n (s.continuation n) = true) :
    headerFault s n = some (.badContinuation, s.continuation n) := by
  unfold headerFault
  rw [if_neg (by simp [hv, hf]), if_neg (by omega), if_neg hc, if_pos h]

end

theorem badContinuation_iff (b : Byte) :
    badContinuation n b = true ↔ b ≠ 0xFF#8 ∧ (22 ≤ b.toNat ∨ b.toNat = n.val) := by
  simp [badContinuation]

/-- Checks 10 and 11: the first failing step, then the room in the queue. -/
def stepsThenRoom (s : State) (n : SlotId) : Option (ResultCode × Byte) :=
  match stepsFault s n with
  | some (code, i) => some (code, BitVec.ofNat 8 i.val)
  | none => if s.parkFlag n = false ∧ 8 ≤ (s.queue (s.slotLane n)).length then some (.queueFull, s.hdr n 0x04) else none

section
variable (hw : s.headerWellFormed n)
include hw

theorem goodContinuation : ¬badContinuation n (s.continuation n) = true := by
  obtain ⟨_, _, _, _, _, hc⟩ := hw
  rw [badContinuation_iff]
  rintro ⟨h1, h2⟩
  rcases hc with hc | ⟨hc1, hc2⟩
  · exact h1 hc
  · omega

theorem headerFault_of_disabledClaim {c : ChanId} (h : s.disabledClaim n = some c) :
    headerFault s n = some (.channelDisabled, BitVec.ofNat 8 c.val) := by
  have hb := goodContinuation hw
  obtain ⟨hv, hf, hl, h1, h12, _⟩ := hw
  unfold headerFault
  rw [if_neg (by simp [hv, hf]), if_neg (by omega), if_neg (by omega), if_neg hb, h]

theorem headerFault_of_enabled (h : s.disabledClaim n = none) : headerFault s n = stepsThenRoom s n := by
  have hb := goodContinuation hw
  obtain ⟨hv, hf, hl, h1, h12, _⟩ := hw
  unfold headerFault
  rw [if_neg (by simp [hv, hf]), if_neg (by omega), if_neg (by omega), if_neg hb, h]
  rfl

end

theorem stepsFault_eq_some {i : StepId} {code : ResultCode} (hi : i.val < s.stepCount n)
    (hf : stepFault s.mem n (s.chanClaim n) (s.lineClaim n) i = some code) (hmin : ∀ j : StepId, j < i → s.stepPasses n j) :
    stepsFault s n = some (code, i) := by
  unfold stepsFault
  refine findSome?_of_least (c := i) (List.Pairwise.filter _ (by decide)) ?_ (by rw [hf]; rfl) fun j _ hj => ?_
  · exact List.mem_filter.mpr ⟨mem_allSteps i, decide_eq_true hi⟩
  · rw [hmin j hj]
    rfl

theorem stepsFault_eq_none (h : ∀ i : StepId, i.val < s.stepCount n → s.stepPasses n i) : stepsFault s n = none := by
  unfold stepsFault
  refine List.findSome?_eq_none_iff.mpr fun i hi => ?_
  rw [h i (of_decide_eq_true (List.mem_filter.mp hi).2)]
  rfl

/-- A step that fails check 10 does so with one of its two codes (R11). -/
theorem code_of_stepFault {m : Memory} {chans : BitVec 16} {lines : BitVec 8} {i : StepId} {code : ResultCode}
    (h : stepFault m n chans lines i = some code) : code = .stepInvalid ∨ code = .stepOutsideClaim := by
  unfold stepFault at h
  split at h
  · exact .inl (Option.some.inj h).symm
  · split at h
    · cases h
    · exact .inr (Option.some.inj h).symm

theorem stepFault_of_stepsFault {code : ResultCode} {i : StepId} (h : stepsFault s n = some (code, i)) :
    stepFault s.mem n (s.chanClaim n) (s.lineClaim n) i = some code := by
  obtain ⟨j, _, hj⟩ := List.exists_of_findSome?_eq_some h
  cases hf : stepFault s.mem n (s.chanClaim n) (s.lineClaim n) j with
  | none => rw [hf] at hj; cases hj
  | some c =>
    rw [hf] at hj
    obtain ⟨rfl, rfl⟩ := Prod.mk.inj (Option.some.inj hj)
    exact hf

theorem code_of_stepsThenRoom {code : ResultCode} {detail : Byte} (h : stepsThenRoom s n = some (code, detail)) :
    code = .stepInvalid ∨ code = .stepOutsideClaim ∨ code = .queueFull := by
  unfold stepsThenRoom at h
  split at h
  · rename_i c i hf
    obtain ⟨rfl, _⟩ := Prod.mk.inj (Option.some.inj h)
    rcases code_of_stepFault (stepFault_of_stepsFault hf) with h | h
    · exact .inl h
    · exact .inr (.inl h)
  · split at h
    · exact .inr (.inr (Prod.mk.inj (Option.some.inj h)).1.symm)
    · cases h

end

/-! ### The verdict of a refused POST -/

section
variable {s : State} {b : Byte}

theorem exec_post (h : s.ready = true) (b : Byte) : exec (.post b) s = .next (post b (s.judged 80 [])) :=
  congrArg Host.Outcome.next (asCommand_ready (post b) s h)

theorem post_of_takeable_error {code : ResultCode} {detail : Byte} (h : takeable s b = .error (code, detail)) :
    post b s = s.answer codePost code detail := by
  unfold post
  rw [h]

theorem post_of_headerFault {n : SlotId} {code : ResultCode} {detail : Byte} (h : takeable s b = .ok n)
    (hf : headerFault s n = some (code, detail)) :
    post b s = (writeVerdict s n .rejected code.code detail).answer codePost code detail := by
  unfold post
  rw [h]
  dsimp only
  rw [hf]

theorem post_of_accepted {n : SlotId} (h : takeable s b = .ok n) (hf : headerFault s n = none) :
    post b s = finishAct (acceptPost s n) := by
  unfold post
  rw [h]
  dsimp only
  rw [hf]

theorem takeable_safe (b : Byte) (h : s.safe = true) : takeable s b = .error (.safeActive, 0xFF#8) := if_pos h

variable (h : s.safe = false)
include h

theorem takeable_noSlot (hb : 22 ≤ b.toNat) : takeable s b = .error (.noSlot, 0xFF#8) := by
  have hn : slotOfByte b = none := dif_neg (by omega)
  unfold takeable
  rw [if_neg (by simp [h]), hn]

theorem takeable_held {n : SlotId} {p : Place} (hp : s.place n = some p) :
    takeable s (numberOf n) = .error (.slotHeld, p.slotState.code) := by
  unfold takeable
  rw [if_neg (by simp [h]), (slotOfByte_eq_some _ n).mpr rfl]
  dsimp only
  rw [hp]

theorem takeable_finished {n : SlotId} (hp : s.place n = none) (hf : s.isFinished n = true) :
    takeable s (numberOf n) = .error (.notAcknowledged, 0xFF#8) := by
  unfold takeable
  rw [if_neg (by simp [h]), (slotOfByte_eq_some _ n).mpr rfl]
  dsimp only
  rw [hp]
  exact if_pos hf

end

end Sys2Proof.Machine

open Sys2Proof Sys2Proof.Machine

/-- Settles O16: the frame alone is judged before the checks, and none of them reads it. -/
theorem refusedPostWritesItsVerdict : Obligations.RefusedPostWritesItsVerdict := by
  intro b s hr answers
  have refused : ∀ {code : ResultCode} {detail : Byte}, takeable (s.judged 80 []) b = .error (code, detail) →
      answers { s with result := ⟨code, 0x01#8, detail⟩ } := fun h =>
    ⟨⟨80, []⟩, (exec_post hr b).trans (congrArg Host.Outcome.next (post_of_takeable_error h))⟩
  refine ⟨fun hs => refused (takeable_safe b hs), fun hs hb => refused (takeable_noSlot hs hb), ?_, ?_, ?_⟩
  · rintro n p hs rfl hp
    exact refused (takeable_held (s := s.judged 80 []) hs hp)
  · rintro n hs rfl hp hf
    exact refused (takeable_finished (s := s.judged 80 []) hs hp hf)
  · intro n code detail hb hp hf
    have ht : takeable (s.judged 80 []) b = .ok n := (takeable_eq_ok _ b n).mpr ⟨hb, hp⟩
    exact ⟨⟨80, []⟩, (exec_post hr b).trans (congrArg Host.Outcome.next (post_of_headerFault ht hf))⟩

/-- Settles O17, check by check. -/
theorem postJudgesTheHeaderInOrder : Obligations.PostJudgesTheHeaderInOrder := by
  refine fun s n => ⟨headerFault_of_badFormat, fun hv hf => ⟨headerFault_of_badLane hv hf, fun hl =>
    ⟨headerFault_of_badStepCount hv hf hl, fun h1 h12 hne hc => ?_⟩⟩, fun hw c hc he hmin => ?_, fun hw he code detail h => ?_⟩
  · exact headerFault_of_badContinuation hv hf hl (by omega) ((badContinuation_iff _).mpr ⟨hne, hc⟩)
  · refine headerFault_of_disabledClaim hw (lowestChan_eq_some ?_ fun d hd => ?_)
    · rw [inChans_disabled, hc, he]
      rfl
    · rw [inChans_disabled]
      cases hcl : inChans (s.chanClaim n) d with
      | false => rfl
      | true => rw [hmin d hd hcl]; rfl
  · rw [headerFault_of_enabled hw (disabledClaim_of_enabled he)] at h
    exact code_of_stepsThenRoom h

/-- Settles O18: the steps are searched in ascending order, and the queue is looked at when none fails. -/
theorem postJudgesStepsThenQueueRoom : Obligations.PostJudgesStepsThenQueueRoom := by
  intro s n hw he
  rw [headerFault_of_enabled hw (disabledClaim_of_enabled he)]
  refine ⟨fun i code hi hf hmin => ?_, fun hpass => ?_⟩
  · unfold stepsThenRoom
    rw [stepsFault_eq_some hi hf hmin]
  · unfold stepsThenRoom
    rw [stepsFault_eq_none hpass]
    exact ⟨fun hp => if_neg (by simp [hp]), fun hp hl => if_neg (by omega), fun hp hl => if_pos ⟨hp, hl⟩⟩
end

