-- ==== Sys2Proof/Proofs/AcceptedPost.lean ====
section
/-! What an accepted POST writes and where it puts the slot (O20). -/

namespace Sys2Proof.Machine

/-! ### The acceptance writes -/

theorem bytes_store {s : State} (h : Memory.wf s.mem) (a n : Nat) (bs : List Byte) (hn : bs.length = n) :
    Memory.bytes (s.store a bs).mem a n = bs := hn ▸ Memory.bytes_writeBytes h a bs

theorem bytes_store_out (s : State) (a b n : Nat) (bs : List Byte) (h : b + n ≤ a ∨ a + bs.length ≤ b) :
    Memory.bytes (s.store a bs).mem b n = Memory.bytes s.mem b n := Memory.bytes_writeBytes_out s.mem a b n bs h

theorem acceptHeader_wf {s : State} (h : Memory.wf s.mem) (n : SlotId) : Memory.wf (acceptHeader s n).mem :=
  State.wf_store (State.wf_store (State.wf_store h _ _) _ _) _ _

section
variable {s : State} (h : Memory.wf s.mem) (n : SlotId)

include h in
theorem acceptHeader_bytes :
    Memory.bytes (acceptHeader s n).mem (slotBase n + 0x01) 3 =
      [(if s.parkFlag n then SlotState.parked else .queued).code, 0x00#8, 0xFF#8] ∧
    Memory.bytes (acceptHeader s n).mem (slotBase n + 0x0B) 3 = [0x00#8, 0x00#8, 0xFF#8] ∧
    Memory.bytes (acceptHeader s n).mem (slotBase n + 0x18) 8 = List.replicate 8 0x00#8 := by
  unfold acceptHeader writeVerdict
  generalize (if s.parkFlag n then SlotState.parked else .queued) = st
  have h1 := State.wf_store h (slotBase n + 0x01) [st.code, 0, 0xFF#8]
  have h2 := State.wf_store h1 (slotBase n + 0x0B) [0, 0, 0xFF#8]
  refine ⟨?_, ?_, bytes_store h2 _ _ _ rfl⟩
  · rw [bytes_store_out _ _ _ _ _ (.inl (by omega)), bytes_store_out _ _ _ _ _ (.inl (by omega)),
      bytes_store h _ 3 _ rfl]
    rfl
  · rw [bytes_store_out _ _ _ _ _ (.inl (by omega)), bytes_store h1 _ 3 _ rfl]
    rfl

/-- The results of the steps are written after the header, and apart from it. -/
theorem acceptWrites_headerBytes (off size : Nat) (hs : off + size ≤ 0x20) :
    Memory.bytes (acceptWrites s n).mem (slotBase n + off) size =
      Memory.bytes (acceptHeader s n).mem (slotBase n + off) size :=
  Memory.bytes_congr fun _ h1 h2 => (writeResults_spec (acceptHeader s n) n 0 (plainResult .pending .none 0)).1.2 _
    (inResults_not_header ⟨h1, h2⟩ hs)

include h in
theorem acceptWrites_results (i : StepId) (hi : i.val < s.stepCount n) :
    Memory.bytes (acceptWrites s n).mem (stepBase n i + 0x1C) 12 = List.replicate 12 0x00#8 :=
  ((writeResults_spec (acceptHeader s n) n 0 (plainResult .pending .none 0)).2 (acceptHeader_wf h n)).2 i (Nat.zero_le _)
    (by rw [acceptHeader_stepCount]; exact hi)

end

theorem bytes_head {m : Memory} {a n : Nat} {b : Byte} {bs : List Byte} (h : Memory.bytes m a (n + 1) = b :: bs) :
    m.read a = b ∧ Memory.bytes m (a + 1) n = bs := by
  unfold Memory.bytes at h ⊢
  rw [List.range_succ_eq_map, List.map_cons, List.map_map] at h
  obtain ⟨h1, h2⟩ := List.cons.inj h
  refine ⟨h1, (List.map_congr_left fun i _ => ?_).trans h2⟩
  rw [Function.comp_apply, Nat.succ_eq_add_one, Nat.add_right_comm, Nat.add_assoc a i 1]

/-! ### The state of an accepted POST before the take -/

/-- A renewal changes the hold-safe monitor alone (R159). -/
theorem renewed_eq (s : State) : s.renewed = { s with holdSafe := s.renewed.holdSafe } := by
  unfold State.renewed
  split
  · rfl
  · rfl

theorem renewed_holdSafe (s : State) : s.renewed.holdSafe =
    if s.holdSafe.state = .watching then { s.holdSafe with count := 0, expiryDue := false } else s.holdSafe := by
  unfold State.renewed
  split
  · rfl
  · rfl

theorem acceptWrites_renewed_eq (s : State) (n : SlotId) :
    (acceptWrites s n).renewed =
      { s with mem := (acceptWrites s n).mem, holdSafe := s.renewed.holdSafe } := by
  have h := (acceptWrites_memOutside s n).1
  generalize acceptWrites s n = t at h ⊢
  rw [renewed_eq, renewed_holdSafe, renewed_holdSafe, h]

/-- The state of an accepted POST, its slot parked or queued: memory and monitor given (R14). -/
def State.postedParked (s : State) (n : SlotId) (m : Memory) (w : HoldSafe) : State :=
  { s with mem := m, holdSafe := w, parked := s.parked ++ [n], result := ⟨.accepted, 0x01#8, 0xFF#8⟩ }
def State.postedQueued (s : State) (n : SlotId) (m : Memory) (w : HoldSafe) : State :=
  { s with mem := m, holdSafe := w, queues := (s.setQueue (s.slotLane n) (s.queue (s.slotLane n) ++ [n])).queues,
           result := ⟨.accepted, 0x01#8, BitVec.ofNat 8 ((s.queue (s.slotLane n)).length + 1)⟩ }

theorem acceptPost_park {s : State} {n : SlotId} (h : s.parkFlag n = true) :
    acceptPost s n = (s.postedParked n (acceptWrites s n).mem s.renewed.holdSafe, []) := by
  unfold acceptPost
  rw [acceptWrites_renewed_eq, if_pos h]
  generalize (acceptWrites s n).mem = m
  generalize s.renewed.holdSafe = w
  rfl

theorem acceptPost_queue {s : State} {n : SlotId} (h : s.parkFlag n = false) :
    acceptPost s n =
      (s.postedQueued n (acceptWrites s n).mem s.renewed.holdSafe, [Task.take (s.slotLane n)]) := by
  unfold acceptPost
  rw [acceptWrites_renewed_eq, if_neg (by simp [h])]
  dsimp only
  rw [List.length_append]
  generalize (acceptWrites s n).mem = m
  generalize s.renewed.holdSafe = w
  unfold State.postedQueued
  generalize s.slotLane n = k
  rfl

theorem postedQueued_queue (s : State) (n : SlotId) (m : Memory) (w : HoldSafe) (k : LaneId) :
    (s.postedQueued n m w).queue k = if k = s.slotLane n then s.queue k ++ [n] else s.queue k := by
  refine (State.setQueue_get s _ k _).trans ?_
  by_cases e : k = s.slotLane n
  · rw [if_pos e, if_pos e.symm, e]
  · rw [if_neg e, if_neg fun h => e h.symm]

/-- A lane that is not IDLE takes nothing (R32). -/
theorem finishAct_take_of_busy {s : State} {k : LaneId} (h : (s.lane k).state ≠ .idle) : finishAct (s, [Task.take k]) = s := by
  have hr : runTask (Task.take k) s = (s, []) := by
    show takeHead s k = _
    unfold takeHead
    exact if_neg fun hc => h hc.1
  have hd : ∀ fuel, (drain fuel [] s).1 = s := fun fuel => by cases fuel <;> rfl
  show (drain (17 * s.reserve) ((runTask (Task.take k) s).2 ++ []) (runTask (Task.take k) s).1).1 = s
  rw [hr]
  exact hd _

end Sys2Proof.Machine

open Sys2Proof Sys2Proof.Machine

/-- Settles O20: the state before the take is the writes, the place, the renewal and the verdict. -/
theorem acceptedPostIsPlaced : Obligations.AcceptedPostIsPlaced := by
  intro n s hr hw hp hf
  have ht : takeable (s.judged 80 []) (numberOf n) = .ok n := (takeable_eq_ok _ _ n).mpr ⟨rfl, hp⟩
  have hexec : exec (.post (numberOf n)) s = .next (finishAct (acceptPost (s.judged 80 []) n)) :=
    (exec_post hr _).trans (congrArg Host.Outcome.next (post_of_accepted ht hf))
  obtain ⟨hverdict, hprogress, hticks⟩ := acceptHeader_bytes (s := s.judged 80 []) hw n
  have hbytes := acceptWrites_headerBytes (s := s.judged 80 []) n
  rw [← hbytes _ _ (by omega)] at hverdict hprogress hticks
  obtain ⟨hstate, hverdict⟩ := bytes_head hverdict
  have hsteps := acceptWrites_results (s := s.judged 80 []) hw n
  have hout := (acceptWrites_memOutside (s.judged 80 []) n).2
  have hmem : ∀ a, ¬inHeader n 0x01 3 a → ¬inHeader n 0x0B 3 a → ¬inHeader n 0x18 8 a → ¬inResults n 0 (s.stepCount n) a →
      Memory.read (acceptWrites (s.judged 80 []) n).mem a = Memory.read s.mem a := fun a h1 h2 h3 h4 =>
    hout a (by rintro (h | h | h | h); exacts [h1 h, h2 h, h3 h, h4 h])
  have hhold := renewed_holdSafe (s.judged 80 [])
  cases hpark : s.parkFlag n with
  | true =>
    have hpark : (s.judged 80 []).parkFlag n = true := hpark
    rw [if_pos hpark] at hstate
    rw [acceptPost_park hpark, finishAct_nil] at hexec
    generalize (acceptWrites (s.judged 80 []) n).mem = m at *
    generalize (s.judged 80 []).renewed.holdSafe = w at *
    exact ⟨(s.judged 80 []).postedParked n m w, rfl, hhold, hverdict, hprogress, hticks, hsteps, hmem,
      fun _ => ⟨hexec, hstate, rfl, rfl, rfl⟩, nofun⟩
  | false =>
    have hpark : (s.judged 80 []).parkFlag n = false := hpark
    rw [hpark] at hstate
    rw [acceptPost_queue hpark] at hexec
    generalize (acceptWrites (s.judged 80 []) n).mem = m at *
    generalize (s.judged 80 []).renewed.holdSafe = w at *
    refine ⟨(s.judged 80 []).postedQueued n m w, rfl, hhold, hverdict, hprogress, hticks, hsteps, hmem, nofun,
      fun _ => ⟨hexec, fun hb => ?_, hstate, rfl, postedQueued_queue _ n _ _, rfl⟩⟩
    exact hexec.trans (congrArg Host.Outcome.next (finishAct_take_of_busy hb))
end

