-- ==== Sys2Proof/Proofs/StepRecords.lean ====
section
/-! Reading a step record, kind by kind, and the claims it is held against (O19). -/

namespace Sys2Proof.Machine

/-! ### Fields and codes -/

/-- No flag bit besides CONTINUE and the kind's own is set (R11). -/
def onlyFlags (flags kindFlags : Byte) : Prop := flags &&& ~~~(kindFlags ||| 0x01#8) = 0

theorem flagsWithin_iff (flags kindFlags : Byte) : flagsWithin flags kindFlags = true ↔ onlyFlags flags kindFlags :=
  beq_iff_eq

theorem dutyField_of_fits {h : Half} (hf : h.toNat ≤ 4095) : dutyField h = some (h.setWidth 12) := if_pos hf

theorem dutyField_eq_some {h : Half} {d : Duty} (hd : dutyField h = some d) : h.toNat ≤ 4095 ∧ d = h.setWidth 12 := by
  unfold dutyField at hd
  split at hd
  · exact ⟨‹_›, (Option.some.inj hd).symm⟩
  · cases hd

/-- Among fields of at most 4095 the order is the same on the duties read from them. -/
theorem duty_le_iff {a b : Half} (ha : a.toNat ≤ 4095) (hb : b.toNat ≤ 4095) :
    (a.setWidth 12 : Duty) ≤ b.setWidth 12 ↔ a ≤ b := by
  rw [BitVec.le_def, BitVec.le_def, BitVec.toNat_setWidth, BitVec.toNat_setWidth, Nat.mod_eq_of_lt (by omega),
    Nat.mod_eq_of_lt (by omega)]

theorem LineMode.ofByte_eq (b : Byte) :
    LineMode.ofByte b = [LineMode.input, .inputPullup, .inputEdge, .outputOpenDrain, .outputPushPull][b.toNat]? := by
  unfold LineMode.ofByte
  generalize b.toNat = v
  rcases v with _ | _ | _ | _ | _ | v <;> rfl

theorem TriggerMode.ofByte_eq (b : Byte) :
    TriggerMode.ofByte b = [TriggerMode.immediate, .timed, .edgeRise, .edgeFall][b.toNat]? := by
  unfold TriggerMode.ofByte
  generalize b.toNat = v
  rcases v with _ | _ | _ | _ | v <;> rfl

theorem JudgeStat.ofByte_eq (b : Byte) :
    JudgeStat.ofByte b = [JudgeStat.none, .min, .max, .avg, .last][b.toNat]? := by
  unfold JudgeStat.ofByte
  generalize b.toNat = v
  rcases v with _ | _ | _ | _ | _ | v <;> rfl

theorem Packing.ofByte_eq (b : Byte) : Packing.ofByte b = [Packing.wordLow, .wordHigh, .pairLow, .pairHigh][b.toNat]? := by
  unfold Packing.ofByte
  generalize b.toNat = v
  rcases v with _ | _ | _ | _ | v <;> rfl

theorem LinkMode.ofByte_eq (b : Byte) :
    LinkMode.ofByte b = [LinkMode.store, .point, .fetchHere, .fetchAt, .probe, .probeUntil][b.toNat]? := by
  unfold LinkMode.ofByte
  generalize b.toNat = v
  rcases v with _ | _ | _ | _ | _ | _ | v <;> rfl

/-! ### Kinds without a table of modes -/

section
variable {m : Memory} {p : Nat} {flags : Byte}

theorem decodeSet_valid (hf : onlyFlags flags 0x06#8) (hm : m.read16 p ≠ 0) (ht : (m.read16 (p + 2)).toNat ≤ 4095)
    (hr : (m.read16 (p + 4)).toNat ≤ 4095) :
    decodeSet m p flags = some (.set (m.read16 p) ((m.read16 (p + 2)).setWidth 12) ((m.read16 (p + 4)).setWidth 12)
      (flags.getLsbD 1) (flags.getLsbD 2)) := by
  unfold decodeSet
  rw [dutyField_of_fits ht, dutyField_of_fits hr]
  exact if_pos (by rw [Bool.and_eq_true, bne_iff_ne]; exact ⟨(flagsWithin_iff _ _).mpr hf, hm⟩)

theorem valid_of_decodeSet {c : StepCmd} (h : decodeSet m p flags = some c) :
    onlyFlags flags 0x06#8 ∧ m.read16 p ≠ 0 ∧ (m.read16 (p + 2)).toNat ≤ 4095 ∧ (m.read16 (p + 4)).toNat ≤ 4095 := by
  unfold decodeSet at h
  dsimp only at h
  split at h
  · rename_i ht hr
    split at h
    · rename_i hc
      rw [Bool.and_eq_true, bne_iff_ne] at hc
      exact ⟨(flagsWithin_iff _ _).mp hc.1, hc.2, (dutyField_eq_some ht).1, (dutyField_eq_some hr).1⟩
    · cases h
  · cases h

theorem decodeOff_valid (hf : onlyFlags flags 0) (hm : m.read16 p ≠ 0) (hr : (m.read16 (p + 2)).toNat ≤ 4095) :
    decodeOff m p flags = some (.off (m.read16 p) ((m.read16 (p + 2)).setWidth 12)) := by
  unfold decodeOff
  rw [dutyField_of_fits hr]
  exact if_pos (by rw [Bool.and_eq_true, bne_iff_ne]; exact ⟨(flagsWithin_iff _ _).mpr hf, hm⟩)

theorem valid_of_decodeOff {c : StepCmd} (h : decodeOff m p flags = some c) :
    onlyFlags flags 0 ∧ m.read16 p ≠ 0 ∧ (m.read16 (p + 2)).toNat ≤ 4095 := by
  unfold decodeOff at h
  dsimp only at h
  split at h
  · rename_i hr
    split at h
    · rename_i hc
      rw [Bool.and_eq_true, bne_iff_ne] at hc
      exact ⟨(flagsWithin_iff _ _).mp hc.1, hc.2, (dutyField_eq_some hr).1⟩
    · cases h
  · cases h

/-- A kind whose flags alone are checked. -/
theorem flagsOnly_valid (c : StepCmd) (hf : onlyFlags flags 0) : (if flagsWithin flags 0#8 then some c else none) = some c :=
  if_pos ((flagsWithin_iff _ _).mpr hf)

theorem valid_of_flagsOnly {c d : StepCmd} (h : (if flagsWithin flags 0#8 then some c else none) = some d) :
    onlyFlags flags 0 := by
  split at h
  · exact (flagsWithin_iff _ _).mp ‹_›
  · cases h

/-- What VERIFY checks (R119). -/
def verifyValid (m : Memory) (p : Nat) (flags : Byte) : Prop :=
  onlyFlags flags 0 ∧ m.read16 p ≠ 0 ∧ 1 ≤ (m.read (p + 2)).toNat ∧ (m.read (p + 2)).toNat ≤ 64

theorem decodeVerify_condition :
    (flagsWithin flags 0#8 && m.read16 p != 0#16 && decide (1 ≤ (m.read (p + 2)).toNat) &&
      decide ((m.read (p + 2)).toNat ≤ 64)) = true ↔ verifyValid m p flags := by
  rw [Bool.and_eq_true, Bool.and_eq_true, Bool.and_eq_true, flagsWithin_iff, bne_iff_ne, decide_eq_true_iff,
    decide_eq_true_iff, and_assoc, and_assoc]
  rfl

theorem decodeVerify_valid (h : verifyValid m p flags) :
    decodeVerify m p flags = some (.verify (m.read16 p) (m.read (p + 2)).toNat) := if_pos (decodeVerify_condition.mpr h)

theorem valid_of_decodeVerify {c : StepCmd} (h : decodeVerify m p flags = some c) : verifyValid m p flags := by
  unfold decodeVerify at h
  dsimp only at h
  split at h
  · exact decodeVerify_condition.mp ‹_›
  · cases h

/-! ### LINES and LINK -/

theorem decodeLines_valid (hf : onlyFlags flags 0) (hm : m.read p ≠ 0) {mode : LineMode}
    (h : LineMode.ofByte (m.read (p + 1)) = some mode) :
    decodeLines m p flags = some (.lines (m.read p) mode (m.read (p + 2))) := by
  unfold decodeLines
  rw [h]
  exact if_pos (by rw [Bool.and_eq_true, bne_iff_ne]; exact ⟨(flagsWithin_iff _ _).mpr hf, hm⟩)

theorem valid_of_decodeLines {c : StepCmd} (h : decodeLines m p flags = some c) :
    onlyFlags flags 0 ∧ m.read p ≠ 0 ∧ ∃ mode, LineMode.ofByte (m.read (p + 1)) = some mode := by
  unfold decodeLines at h
  dsimp only at h
  split at h
  · rename_i mode hmode
    split at h
    · rename_i hc
      rw [Bool.and_eq_true, bne_iff_ne] at hc
      exact ⟨(flagsWithin_iff _ _).mp hc.1, hc.2, mode, hmode⟩
    · cases h
  · cases h

/-- What LINK checks besides its mode (R143). -/
def linkValid (m : Memory) (p : Nat) (flags : Byte) : Prop :=
  let byte (off : Nat) : Nat := (m.read (p + off)).toNat
  onlyFlags flags 0 ∧ byte 1 ≤ 127 ∧
  (byte 0 = 0 ∨ byte 0 = 1 ∨ byte 0 = 3 → (byte 2 = 1 ∧ (m.read16 (p + 4)).toNat ≤ 255) ∨ byte 2 = 2) ∧
  (byte 0 = 0 ∨ byte 0 = 2 ∨ byte 0 = 3 →
    1 ≤ byte 3 ∧ byte 3 ≤ 16 ∧ (m.read16 (p + 6)).toNat ≤ 1023 ∧ (m.read16 (p + 6)).toNat + byte 3 ≤ 1024)

/-- The modes that use a register, and those that move data, by their codes. -/
theorem LinkMode.uses_iff {b : Byte} {mode : LinkMode} (h : LinkMode.ofByte b = some mode) :
    (mode.usesRegister = true ↔ b.toNat = 0 ∨ b.toNat = 1 ∨ b.toNat = 3) ∧
    (mode.movesData = true ↔ b.toNat = 0 ∨ b.toNat = 2 ∨ b.toNat = 3) := by
  rw [LinkMode.ofByte_eq] at h
  generalize b.toNat = v at h ⊢
  rcases v with _ | _ | _ | _ | _ | _ | v <;> cases h <;> decide

theorem not_or_eq_true_iff {a b : Bool} {P Q : Prop} (ha : a = true ↔ P) (hb : b = true ↔ Q) :
    (!a || b) = true ↔ (P → Q) := by
  rw [Bool.or_eq_true, Bool.not_eq_true', ← ha, ← hb]
  cases a <;> simp

/-- The condition of `decodeLink` once its mode is read. -/
theorem decodeLink_condition {mode : LinkMode} (h : LinkMode.ofByte (m.read p) = some mode) :
    (flagsWithin flags 0#8 && decide ((m.read (p + 1)).toNat ≤ 127) &&
      (!mode.usesRegister || (((m.read (p + 2)).toNat == 1 && decide ((m.read16 (p + 4)).toNat ≤ 255)) ||
        (m.read (p + 2)).toNat == 2)) &&
      (!mode.movesData || (decide (1 ≤ (m.read (p + 3)).toNat) && decide ((m.read (p + 3)).toNat ≤ 16) &&
        decide ((m.read16 (p + 6)).toNat ≤ 1023) &&
        decide ((m.read16 (p + 6)).toNat + (m.read (p + 3)).toNat ≤ 1024)))) = true ↔ linkValid m p flags := by
  obtain ⟨hreg, hdata⟩ := LinkMode.uses_iff h
  rw [Bool.and_eq_true, Bool.and_eq_true, Bool.and_eq_true, flagsWithin_iff, decide_eq_true_iff,
    not_or_eq_true_iff hreg (Q := ((m.read (p + 2)).toNat = 1 ∧ (m.read16 (p + 4)).toNat ≤ 255) ∨ (m.read (p + 2)).toNat = 2)
      (by simp),
    not_or_eq_true_iff hdata (Q := 1 ≤ (m.read (p + 3)).toNat ∧ (m.read (p + 3)).toNat ≤ 16 ∧
      (m.read16 (p + 6)).toNat ≤ 1023 ∧ (m.read16 (p + 6)).toNat + (m.read (p + 3)).toNat ≤ 1024) (by simp [and_assoc]),
    and_assoc, and_assoc]
  rfl

theorem decodeLink_valid {mode : LinkMode} (h : LinkMode.ofByte (m.read p) = some mode) (hv : linkValid m p flags) :
    decodeLink m p flags =
      some (.link ⟨mode, BitVec.ofNat 7 (m.read (p + 1)).toNat, (m.read (p + 2)).toNat, m.read16 (p + 4), (m.read (p + 3)).toNat,
        (m.read16 (p + 6)).toNat⟩) := by
  unfold decodeLink
  rw [h, BitVec.ofNat_toNat]
  exact if_pos ((decodeLink_condition h).mpr hv)

theorem valid_of_decodeLink {c : StepCmd} (h : decodeLink m p flags = some c) :
    linkValid m p flags ∧ ∃ mode, LinkMode.ofByte (m.read p) = some mode := by
  unfold decodeLink at h
  dsimp only at h
  split at h
  · rename_i mode hmode
    split at h
    · exact ⟨(decodeLink_condition hmode).mp ‹_›, mode, hmode⟩
    · cases h
  · cases h

/-! ### MEASURE and CAPTURE -/

/-- What the judge's parameters have to meet (R94). -/
def judgeValid (m : Memory) (p : Nat) : Prop :=
  (m.read (p + 0x10)).toNat ≤ 4 ∧ ((m.read (p + 0x10)).toNat ≠ 0 →
    (m.read16 (p + 0x12)).toNat ≤ 4095 ∧ (m.read16 (p + 0x14)).toNat ≤ 4095 ∧ m.read16 (p + 0x12) ≤ m.read16 (p + 0x14))

/-- The bytes a packing code needs for a number of samples (R107). -/
def neededBytes (code samples : Nat) : Nat := if code ≤ 1 then 2 * samples else 3 * ((samples + 1) / 2)

/-- What a CAPTURE's storage parameters have to meet (R94). -/
def storageValid (m : Memory) (p samples : Nat) : Prop :=
  (m.read (p + 0x11)).toNat ≤ 3 ∧ (m.read16 (p + 0x16)).toNat ≤ 1023 ∧
  (m.read16 (p + 0x16)).toNat + neededBytes (m.read (p + 0x11)).toNat samples ≤ 1024

/-- What MEASURE and CAPTURE check besides the judge and the storage (R94). -/
def cycleValid (m : Memory) (p : Nat) (flags : Byte) : Prop :=
  let byte (off : Nat) : Nat := (m.read (p + off)).toNat
  let edge : Prop := byte 2 = 2 ∨ byte 2 = 3
  onlyFlags flags 0x08#8 ∧ byte 0 ≤ 9 ∧ byte 2 ≤ 3 ∧ (edge → byte 3 ≤ 7) ∧ (flags.getLsbD 3 = true → edge) ∧
  (m.read16 (p + 0x0C)).toNat ≤ 4095 ∧ (m.read16 (p + 0x0E)).toNat ≤ 4095 ∧ m.read16 (p + 0x0C) ≤ m.read16 (p + 0x0E)

theorem decodeJudge_valid (h : judgeValid m p) :
    ∃ st, [JudgeStat.none, .min, .max, .avg, .last][(m.read (p + 0x10)).toNat]? = some st ∧
      decodeJudge m p = some (st, (m.read16 (p + 0x12)).setWidth 12, (m.read16 (p + 0x14)).setWidth 12) := by
  obtain ⟨h4, hfits⟩ := h
  have hlt : (m.read (p + 0x10)).toNat < [JudgeStat.none, .min, .max, .avg, .last].length := Nat.lt_succ_of_le h4
  refine ⟨_, List.getElem?_eq_getElem hlt, ?_⟩
  have hst := (JudgeStat.ofByte_eq (m.read (p + 0x10))).trans (List.getElem?_eq_getElem hlt)
  unfold decodeJudge
  rw [hst]
  by_cases h0 : (m.read (p + 0x10)).toNat = 0
  · simp only [h0, List.getElem_cons_zero]
  · obtain ⟨hlo, hhi, hle⟩ := hfits h0
    have hne : [JudgeStat.none, .min, .max, .avg, .last][(m.read (p + 0x10)).toNat] ≠ .none := by
      generalize (m.read (p + 0x10)).toNat = v at *
      rcases v with _ | _ | _ | _ | _ | v
      · exact absurd rfl h0
      all_goals simp
      omega
    generalize [JudgeStat.none, .min, .max, .avg, .last][(m.read (p + 0x10)).toNat] = st at hne ⊢
    dsimp only
    rw [dutyField_of_fits hlo, dutyField_of_fits hhi]
    cases st
    · exact absurd rfl hne
    all_goals exact if_pos ((duty_le_iff hlo hhi).mpr hle)

theorem valid_of_decodeJudge {v : JudgeStat × Duty × Duty} (h : decodeJudge m p = some v) : judgeValid m p := by
  unfold decodeJudge at h
  rw [JudgeStat.ofByte_eq] at h
  dsimp only at h
  unfold judgeValid
  split at h
  · cases h
  · rename_i hst
    generalize (m.read (p + 0x10)).toNat = v at *
    rcases v with _ | _ | _ | _ | _ | v <;> simp at hst ⊢
  · rename_i hst
    have h4 : (m.read (p + 0x10)).toNat ≤ 4 := Nat.le_of_lt_succ (List.getElem?_eq_some_iff.mp hst).1
    split at h
    · rename_i hlo hhi
      obtain ⟨flo, rfl⟩ := dutyField_eq_some hlo
      obtain ⟨fhi, rfl⟩ := dutyField_eq_some hhi
      split at h
      · rename_i hle
        exact ⟨h4, fun _ => ⟨flo, fhi, (duty_le_iff flo fhi).mp hle⟩⟩
      · cases h
    · cases h

theorem bytesNeeded_eq {b : Byte} {pk : Packing} (h : Packing.ofByte b = some pk) (n : Nat) :
    bytesNeeded pk n = neededBytes b.toNat n := by
  rw [Packing.ofByte_eq] at h
  generalize b.toNat = v at h ⊢
  rcases v with _ | _ | _ | _ | v <;> cases h <;> rfl

theorem decodeStorage_valid {samples : Nat} (h : storageValid m p samples) :
    ∃ pk, [Packing.wordLow, .wordHigh, .pairLow, .pairHigh][(m.read (p + 0x11)).toNat]? = some pk ∧
      decodeStorage m p samples = some ⟨(m.read16 (p + 0x16)).toNat, pk⟩ := by
  obtain ⟨h3, hoff, hroom⟩ := h
  have hlt : (m.read (p + 0x11)).toNat < [Packing.wordLow, .wordHigh, .pairLow, .pairHigh].length := Nat.lt_succ_of_le h3
  refine ⟨_, List.getElem?_eq_getElem hlt, ?_⟩
  have hpk := (Packing.ofByte_eq (m.read (p + 0x11))).trans (List.getElem?_eq_getElem hlt)
  have hneed := bytesNeeded_eq hpk samples
  unfold decodeStorage
  rw [hpk]
  exact if_pos (by rw [Bool.and_eq_true, decide_eq_true_iff, decide_eq_true_iff, hneed]; exact ⟨hoff, hroom⟩)

theorem valid_of_decodeStorage {samples : Nat} {c : CaptureParams} (h : decodeStorage m p samples = some c) :
    storageValid m p samples := by
  unfold decodeStorage at h
  dsimp only at h
  split at h
  · rename_i pk hpk
    split at h
    · rename_i hc
      rw [Bool.and_eq_true, decide_eq_true_iff, decide_eq_true_iff, bytesNeeded_eq hpk] at hc
      rw [Packing.ofByte_eq] at hpk
      exact ⟨Nat.le_of_lt_succ (List.getElem?_eq_some_iff.mp hpk).1, hc⟩
    · cases h
  · cases h

theorem TriggerMode.isEdge_iff {b : Byte} {mode : TriggerMode} (h : TriggerMode.ofByte b = some mode) :
    mode.isEdge = true ↔ b.toNat = 2 ∨ b.toNat = 3 := by
  rw [TriggerMode.ofByte_eq] at h
  generalize b.toNat = v at h ⊢
  rcases v with _ | _ | _ | _ | v <;> cases h <;> decide

/-- The parameters of MEASURE and CAPTURE as their bytes give them (R93). -/
def cycleOf (m : Memory) (p : Nat) (flags : Byte) (mode : TriggerMode) (st : JudgeStat) (cap : Option CaptureParams) :
    CycleParams where
  input := Fin.ofNat 10 (m.read p).toNat
  samples := (m.read (p + 1)).toNat + 1
  mode := mode
  line := Fin.ofNat 8 (m.read (p + 3)).toNat
  delay := (m.read32 (p + 0x04)).toNat
  wait := (m.read32 (p + 0x08)).toNat
  holdoff := flags.getLsbD 3
  abortLo := (m.read16 (p + 0x0C)).setWidth 12
  abortHi := (m.read16 (p + 0x0E)).setWidth 12
  stat := st
  judgeLo := (m.read16 (p + 0x12)).setWidth 12
  judgeHi := (m.read16 (p + 0x14)).setWidth 12
  capture := cap

/-- The condition of `decodeCycle` once its fields are read. -/
theorem decodeCycle_condition {mode : TriggerMode} (h : TriggerMode.ofByte (m.read (p + 2)) = some mode)
    (hlo : (m.read16 (p + 0x0C)).toNat ≤ 4095) (hhi : (m.read16 (p + 0x0E)).toNat ≤ 4095) :
    (flagsWithin flags flagHoldoff && decide ((m.read p).toNat ≤ 9) &&
      (!mode.isEdge || decide ((m.read (p + 3)).toNat ≤ 7)) && (!flags.getLsbD 3 || mode.isEdge) &&
      decide (((m.read16 (p + 0x0C)).setWidth 12 : Duty) ≤ (m.read16 (p + 0x0E)).setWidth 12)) = true ↔
    cycleValid m p flags := by
  have hedge := TriggerMode.isEdge_iff h
  rw [TriggerMode.ofByte_eq] at h
  have h3 : (m.read (p + 2)).toNat ≤ 3 := Nat.le_of_lt_succ (List.getElem?_eq_some_iff.mp h).1
  rw [Bool.and_eq_true, Bool.and_eq_true, Bool.and_eq_true, Bool.and_eq_true, flagsWithin_iff,
    not_or_eq_true_iff hedge decide_eq_true_iff, not_or_eq_true_iff Iff.rfl hedge, decide_eq_true_iff, decide_eq_true_iff,
    duty_le_iff hlo hhi]
  constructor
  · rintro ⟨⟨⟨⟨hf, h9⟩, hline⟩, hhold⟩, hle⟩
    exact ⟨hf, h9, h3, hline, hhold, hlo, hhi, hle⟩
  · rintro ⟨hf, h9, _, hline, hhold, _, _, hle⟩
    exact ⟨⟨⟨⟨hf, h9⟩, hline⟩, hhold⟩, hle⟩

theorem decodeCycle_valid (h : cycleValid m p flags) (hj : judgeValid m p) :
    ∃ mode st, [TriggerMode.immediate, .timed, .edgeRise, .edgeFall][(m.read (p + 2)).toNat]? = some mode ∧
      [JudgeStat.none, .min, .max, .avg, .last][(m.read (p + 0x10)).toNat]? = some st ∧
      decodeCycle m p flags false = some (.cycle (cycleOf m p flags mode st none)) ∧
      (storageValid m p ((m.read (p + 1)).toNat + 1) →
        ∃ pk, [Packing.wordLow, .wordHigh, .pairLow, .pairHigh][(m.read (p + 0x11)).toNat]? = some pk ∧
          decodeCycle m p flags true =
            some (.cycle (cycleOf m p flags mode st (some ⟨(m.read16 (p + 0x16)).toNat, pk⟩)))) := by
  obtain ⟨_, _, h3, _, _, hlo, hhi, _⟩ := id h
  have hlt : (m.read (p + 2)).toNat < [TriggerMode.immediate, .timed, .edgeRise, .edgeFall].length := Nat.lt_succ_of_le h3
  have hmode := (TriggerMode.ofByte_eq (m.read (p + 2))).trans (List.getElem?_eq_getElem hlt)
  have hcond := (decodeCycle_condition hmode hlo hhi).mpr h
  obtain ⟨st, hst, hjudge⟩ := decodeJudge_valid hj
  refine ⟨_, st, List.getElem?_eq_getElem hlt, hst, ?_, fun hs => ?_⟩
  · unfold decodeCycle
    rw [hmode, dutyField_of_fits hlo, dutyField_of_fits hhi, hjudge]
    exact if_pos hcond
  · obtain ⟨pk, hpk, hstore⟩ := decodeStorage_valid hs
    refine ⟨pk, hpk, ?_⟩
    unfold decodeCycle
    rw [hmode, dutyField_of_fits hlo, dutyField_of_fits hhi, hjudge]
    refine (if_pos hcond).trans ?_
    rw [hstore]
    rfl

theorem valid_of_decodeCycle {cap : Bool} {c : StepCmd} (h : decodeCycle m p flags cap = some c) :
    cycleValid m p flags ∧ judgeValid m p ∧ (cap = true → storageValid m p ((m.read (p + 1)).toNat + 1)) := by
  unfold decodeCycle at h
  dsimp only at h
  split at h
  · rename_i mode lo hi st jlo jhi hmode hlo hhi hj
    obtain ⟨flo, rfl⟩ := dutyField_eq_some hlo
    obtain ⟨fhi, rfl⟩ := dutyField_eq_some hhi
    split at h
    · rename_i hc
      refine ⟨(decodeCycle_condition hmode flo fhi).mp hc, valid_of_decodeJudge hj, fun hcap => ?_⟩
      subst hcap
      simp only [if_true] at h
      split at h
      · exact valid_of_decodeStorage ‹_›
      · cases h
    · cases h
  · cases h

end

/-! ### A step record -/

section
variable {m : Memory} {n : SlotId} {i : StepId}

/-- The command part of a step record whose kind and parameters are read (section 11.4). -/
theorem decodeStep_eq_some {cmd : StepCmd}
    (h : decodeCmd m (m.read (stepBase n i)) (m.read (stepBase n i + 1)) (stepBase n i + 4) = some cmd) :
    decodeStep m n i =
      some ⟨(m.read (stepBase n i + 1)).getLsbD 0, (m.read16 (stepBase n i + 2)).toNat, cmd⟩ := by
  unfold decodeStep
  dsimp only
  rw [h]

theorem decodeStep_eq_none {P : Prop}
    (h : ∀ c, decodeCmd m (m.read (stepBase n i)) (m.read (stepBase n i + 1)) (stepBase n i + 4) = some c → P) (hp : ¬P) :
    decodeStep m n i = none := by
  have hnone : decodeCmd m (m.read (stepBase n i)) (m.read (stepBase n i + 1)) (stepBase n i + 4) = none :=
    Option.eq_none_iff_forall_ne_some.mpr fun c hc => hp (h c hc)
  unfold decodeStep
  dsimp only
  rw [hnone]

section
variable {kind flags : Byte} {p : Nat}

theorem decodeCmd_set (h : kind.toNat = 1) : decodeCmd m kind flags p = decodeSet m p flags := by
  unfold decodeCmd
  rw [h]
  rfl

theorem decodeCmd_apply (h : kind.toNat = 2) : decodeCmd m kind flags p = decodeApply m p flags := by
  unfold decodeCmd
  rw [h]
  rfl

theorem decodeCmd_off (h : kind.toNat = 3) : decodeCmd m kind flags p = decodeOff m p flags := by
  unfold decodeCmd
  rw [h]
  rfl

theorem decodeCmd_delay (h : kind.toNat = 4) : decodeCmd m kind flags p = decodeDelay m p flags := by
  unfold decodeCmd
  rw [h]
  rfl

theorem decodeCmd_measure (h : kind.toNat = 5) : decodeCmd m kind flags p = decodeCycle m p flags false := by
  unfold decodeCmd
  rw [h]
  rfl

theorem decodeCmd_capture (h : kind.toNat = 6) : decodeCmd m kind flags p = decodeCycle m p flags true := by
  unfold decodeCmd
  rw [h]
  rfl

theorem decodeCmd_verify (h : kind.toNat = 7) : decodeCmd m kind flags p = decodeVerify m p flags := by
  unfold decodeCmd
  rw [h]
  rfl

theorem decodeCmd_link (h : kind.toNat = 8) : decodeCmd m kind flags p = decodeLink m p flags := by
  unfold decodeCmd
  rw [h]
  rfl

theorem decodeCmd_lines (h : kind.toNat = 9) : decodeCmd m kind flags p = decodeLines m p flags := by
  unfold decodeCmd
  rw [h]
  rfl

theorem decodeCmd_awaitGo (h : kind.toNat = 10) : decodeCmd m kind flags p = decodeAwaitGo flags := by
  unfold decodeCmd
  rw [h]
  rfl

/-- A code of kind that the table does not have (section 11.5). -/
theorem decodeCmd_unknown (h : kind.toNat = 0 ∨ 11 ≤ kind.toNat) : decodeCmd m kind flags p = none := by
  unfold decodeCmd
  split
  case h_11 => rfl
  all_goals omega

end

/-! ### Claims -/

theorem within16_iff (mask claim : BitVec 16) :
    within16 mask claim = true ↔ ∀ c, inChans mask c = true → inChans claim c = true := by
  unfold within16 inChans
  rw [beq_iff_eq]
  constructor
  · intro h c hc
    have hb := congrArg (BitVec.getLsbD · c.val) h
    simpa [hc] using hb
  · intro h
    refine BitVec.eq_of_getLsbD_eq fun c hc => ?_
    have hb := h ⟨c, hc⟩
    simpa [hc] using hb

theorem within8_iff (mask claim : BitVec 8) :
    within8 mask claim = true ↔ ∀ l, inLines mask l = true → inLines claim l = true := by
  unfold within8 inLines
  rw [beq_iff_eq]
  constructor
  · intro h c hc
    have hb := congrArg (BitVec.getLsbD · c.val) h
    simpa [hc] using hb
  · intro h
    refine BitVec.eq_of_getLsbD_eq fun c hc => ?_
    have hb := h ⟨c, hc⟩
    simpa [hc] using hb

/-- The one line of a trigger's mask. -/
theorem inLines_one (k l : LineId) : inLines (1#8 <<< k.val) l = true ↔ k = l := by revert k l; decide

theorem inLines_zero (l : LineId) : ¬inLines 0 l = true := by simp [inLines]
theorem inChans_zero (c : ChanId) : ¬inChans 0 c = true := by simp [inChans]

theorem TriggerMode.isEdge_eq_true (mode : TriggerMode) : mode.isEdge = true ↔ mode = .edgeRise ∨ mode = .edgeFall := by
  cases mode <;> decide

/-- The line a MEASURE or CAPTURE names (R11). -/
theorem inLines_trigger (p : CycleParams) (l : LineId) :
    inLines (StepCmd.cycle p).lineMask l = true ↔ (p.mode = .edgeRise ∨ p.mode = .edgeFall) ∧ p.line = l := by
  rw [← TriggerMode.isEdge_eq_true]
  unfold StepCmd.lineMask
  dsimp only
  split
  · rw [inLines_one]
    simp [*]
  · simp [*, inLines]

theorem stepFault_of_record {chans : BitVec 16} {lines : BitVec 8} {r : StepRecord} (h : decodeStep m n i = some r) :
    stepFault m n chans lines i =
      if within16 r.cmd.chans chans && within8 r.cmd.lineMask lines then none else some .stepOutsideClaim := by
  unfold stepFault
  rw [h]

end

end Sys2Proof.Machine

open Sys2Proof Sys2Proof.Machine

/-- Settles O19, kind by kind: what is valid is read, and what is read was valid. -/
theorem stepRecordsAreReadOrRefused : Obligations.StepRecordsAreReadOrRefused := by
  intro m n i chans lines a kind flags only byte half duty fits ticks reads invalid
  refine ⟨fun hk => ?_, fun hk => ?_, fun hk => ?_, fun hk => ?_, fun hk => ?_, fun hk => ?_, fun hk => ?_, fun hk => ?_,
    fun hk => ?_, fun hk => ?_, fun hinv => ?_, ?_⟩
  · exact decodeStep_eq_none (P := False) (fun c hc => by rw [decodeCmd_unknown hk] at hc; cases hc) id
  · have hcmd := decodeCmd_set (m := m) (flags := flags) (p := a + 4) hk
    intro valid
    refine ⟨?_, decodeStep_eq_none fun c hc => valid_of_decodeSet (hcmd.symm.trans hc)⟩
    rintro ⟨hf, hm, ht, hr⟩
    exact decodeStep_eq_some (hcmd.trans (decodeSet_valid hf hm ht hr))
  · have hcmd := decodeCmd_apply (m := m) (flags := flags) (p := a + 4) hk
    exact ⟨fun hf => decodeStep_eq_some (hcmd.trans (flagsOnly_valid _ hf)),
      decodeStep_eq_none fun c hc => valid_of_flagsOnly (hcmd.symm.trans hc)⟩
  · have hcmd := decodeCmd_off (m := m) (flags := flags) (p := a + 4) hk
    intro valid
    refine ⟨?_, decodeStep_eq_none fun c hc => valid_of_decodeOff (hcmd.symm.trans hc)⟩
    rintro ⟨hf, hm, hr⟩
    exact decodeStep_eq_some (hcmd.trans (decodeOff_valid hf hm hr))
  · have hcmd := decodeCmd_delay (m := m) (flags := flags) (p := a + 4) hk
    exact ⟨fun hf => decodeStep_eq_some (hcmd.trans (flagsOnly_valid _ hf)),
      decodeStep_eq_none fun c hc => valid_of_flagsOnly (hcmd.symm.trans hc)⟩
  · intro samples edge needed valid
    have hvalid : valid ↔ cycleValid m (a + 4) flags ∧ judgeValid m (a + 4) ∧ (kind = 6 → storageValid m (a + 4) samples) := by
      constructor
      · rintro ⟨hf, h9, h3, hline, hhold, hlo, hhi, hle, h4, hj, hs⟩
        exact ⟨⟨hf, h9, h3, hline, hhold, hlo, hhi, hle⟩, ⟨h4, hj⟩, hs⟩
      · rintro ⟨⟨hf, h9, h3, hline, hhold, hlo, hhi, hle⟩, ⟨h4, hj⟩, hs⟩
        exact ⟨hf, h9, h3, hline, hhold, hlo, hhi, hle, h4, hj, hs⟩
    refine ⟨decodeStep_eq_none fun c hc => hvalid.mpr ?_, fun hv => ?_⟩
    · rcases hk with hk | hk
      · obtain ⟨hc, hj, _⟩ := valid_of_decodeCycle ((decodeCmd_measure hk).symm.trans hc)
        exact ⟨hc, hj, fun h6 => absurd (hk.symm.trans h6) (by decide)⟩
      · obtain ⟨hc, hj, hs⟩ := valid_of_decodeCycle ((decodeCmd_capture hk).symm.trans hc)
        exact ⟨hc, hj, fun _ => hs rfl⟩
    · obtain ⟨hc, hj, hs⟩ := hvalid.mp hv
      obtain ⟨mode, st, hmode, hst, hmeasure, hcapture⟩ := decodeCycle_valid hc hj
      obtain ⟨_, h9, _, hline, _⟩ := hc
      have hinput := Nat.mod_eq_of_lt (Nat.lt_succ_of_le h9)
      have hline := fun h => Nat.mod_eq_of_lt (Nat.lt_succ_of_le (hline h))
      rcases hk with hk | hk
      · exact ⟨cycleOf m (a + 4) flags mode st none, decodeStep_eq_some ((decodeCmd_measure hk).trans hmeasure),
          hinput, rfl, hmode, hline, rfl, rfl, rfl, rfl, rfl, hst, fun _ => ⟨rfl, rfl⟩, fun _ => rfl,
          fun h6 => absurd (hk.symm.trans h6) (by decide)⟩
      · obtain ⟨pk, hpk, hcap⟩ := hcapture (hs hk)
        exact ⟨cycleOf m (a + 4) flags mode st _, decodeStep_eq_some ((decodeCmd_capture hk).trans hcap),
          hinput, rfl, hmode, hline, rfl, rfl, rfl, rfl, rfl, hst, fun _ => ⟨rfl, rfl⟩,
          fun h5 => absurd (hk.symm.trans h5) (by decide), fun _ => ⟨pk, rfl, hpk⟩⟩
  · have hcmd := decodeCmd_verify (m := m) (flags := flags) (p := a + 4) hk
    intro valid
    exact ⟨fun h => decodeStep_eq_some (hcmd.trans (decodeVerify_valid h)),
      decodeStep_eq_none fun c hc => valid_of_decodeVerify (hcmd.symm.trans hc)⟩
  · have hcmd := decodeCmd_link (m := m) (flags := flags) (p := a + 4) hk
    intro register data valid
    refine ⟨decodeStep_eq_none fun c hc => ?_, ?_⟩
    · obtain ⟨⟨hf, h127, hreg, hdata⟩, mode, hmode⟩ := valid_of_decodeLink (hcmd.symm.trans hc)
      rw [LinkMode.ofByte_eq] at hmode
      exact ⟨hf, Nat.le_of_lt_succ (List.getElem?_eq_some_iff.mp hmode).1, h127, hreg, hdata⟩
    · rintro ⟨hf, h5, h127, hreg, hdata⟩
      have hmode := List.getElem?_eq_getElem
        (l := [LinkMode.store, .point, .fetchHere, .fetchAt, .probe, .probeUntil]) (Nat.lt_succ_of_le h5)
      exact ⟨_, hmode, decodeStep_eq_some (hcmd.trans (decodeLink_valid ((LinkMode.ofByte_eq _).trans hmode)
        ⟨hf, h127, hreg, hdata⟩))⟩
  · have hcmd := decodeCmd_lines (m := m) (flags := flags) (p := a + 4) hk
    intro valid
    refine ⟨decodeStep_eq_none fun c hc => ?_, ?_⟩
    · obtain ⟨hf, hm, mode, hmode⟩ := valid_of_decodeLines (hcmd.symm.trans hc)
      rw [LineMode.ofByte_eq] at hmode
      exact ⟨hf, fun h => hm (BitVec.eq_of_toNat_eq h), Nat.le_of_lt_succ (List.getElem?_eq_some_iff.mp hmode).1⟩
    · rintro ⟨hf, hm, h4⟩
      have hmode := List.getElem?_eq_getElem
        (l := [LineMode.input, .inputPullup, .inputEdge, .outputOpenDrain, .outputPushPull]) (Nat.lt_succ_of_le h4)
      exact ⟨_, hmode, decodeStep_eq_some (hcmd.trans (decodeLines_valid hf (fun h => hm (congrArg BitVec.toNat h))
        ((LineMode.ofByte_eq _).trans hmode)))⟩
  · have hcmd := decodeCmd_awaitGo (m := m) (flags := flags) (p := a + 4) hk
    exact ⟨fun hf => decodeStep_eq_some (hcmd.trans (flagsOnly_valid _ hf)),
      decodeStep_eq_none fun c hc => valid_of_flagsOnly (hcmd.symm.trans hc)⟩
  · unfold stepFault
    rw [show decodeStep m n i = none from hinv]
  · intro r hr names namesLine inside
    have hchans : ∀ c, names c ↔ inChans r.cmd.chans c = true := by
      obtain ⟨cont, timeout, cmd⟩ := r
      intro c
      cases cmd
      case set => exact Iff.rfl
      case apply => exact Iff.rfl
      case off => exact Iff.rfl
      case verify => exact Iff.rfl
      all_goals exact (iff_of_false id (inChans_zero c))
    have hlines : ∀ l, namesLine l ↔ inLines r.cmd.lineMask l = true := by
      obtain ⟨cont, timeout, cmd⟩ := r
      intro l
      cases cmd
      case lines => exact Iff.rfl
      case cycle p => exact (inLines_trigger p l).symm
      all_goals exact (iff_of_false id (inLines_zero l))
    have hin : inside ↔ (within16 r.cmd.chans chans && within8 r.cmd.lineMask lines) = true := by
      rw [Bool.and_eq_true, within16_iff, within8_iff]
      exact and_congr (forall_congr' fun c => imp_congr_left (hchans c)) (forall_congr' fun l => imp_congr_left (hlines l))
    rw [stepFault_of_record hr]
    exact ⟨fun h => if_pos (hin.mp h), fun h => if_neg fun hc => h (hin.mpr hc)⟩

end

