-- ==== Sys2Proof/Proofs/Abort.lean ====
section
/-! ABORT of a slot that is queued or parked, of one that runs, and of one that is not held (O43, O44). -/

namespace Sys2Proof.Machine

/-! ### A slot that ends without having run -/

theorem skipFrom_memOutside (s : State) (n : SlotId) :
    MemOutside (inResults n 0 (s.stepCount n)) s (skipFrom s n 0) := (writeResults_spec s n 0 _).1

theorem skipFrom_bytes {s : State} (h : Memory.wf s.mem) (n : SlotId) :
    Memory.wf (skipFrom s n 0).mem ∧ ∀ i : StepId, i.val < s.stepCount n →
      Memory.bytes (skipFrom s n 0).mem (stepBase n i + 0x1C) 12 = 0x06#8 :: List.replicate 11 0x00#8 := by
  obtain ⟨hw, hb⟩ := (writeResults_spec s n 0 (plainResult .skipped .none 0)).2 h
  exact ⟨hw, fun i hi => hb i (Nat.zero_le _) hi⟩

/-- What `finishSlot` writes: the state, the reason and the detail, and the end tick (R17). -/
theorem finishSlot_bytes {s : State} (h : Memory.wf s.mem) (n : SlotId) (st : SlotState) (reason : EndReason) (detail : Byte) :
    Memory.bytes (finishSlot s n st reason detail).mem (slotBase n + 0x01) 3 = [st.code, reason.code, detail] ∧
    Memory.bytes (finishSlot s n st reason detail).mem (slotBase n + 0x1C) 4 = wordBytes s.tick := by
  have h1 := State.wf_store h (slotBase n + 0x01) [st.code, reason.code, detail]
  refine ⟨(bytes_store_out (writeVerdict s n st reason.code detail) _ _ _ _ (.inl (by omega))).trans ?_, ?_⟩
  · exact bytes_store h _ _ _ rfl
  · exact bytes_store h1 _ _ (wordBytes s.tick) rfl

theorem finishSlot_read (s : State) (n : SlotId) (st : SlotState) (reason : EndReason) (detail : Byte) (a : Nat)
    (h1 : ¬inHeader n 0x01 3 a) (h2 : ¬inHeader n 0x1C 4 a) :
    Memory.read (finishSlot s n st reason detail).mem a = Memory.read s.mem a :=
  ((store_memOutside (writeVerdict s n st reason.code detail) _ (wordBytes s.tick)).2 a h2).trans
    ((store_memOutside s _ [st.code, reason.code, detail]).2 a h1)

/-- Memory m after a slot of memory m₀ has ended ABORTED without having run (R24, R25): its verdict, its end tick, every step
SKIPPED, and nothing else. -/
structure EndedUnrun (m₀ : Memory) (tick : Word) (n : SlotId) (reason : Byte) (m : Memory) : Prop where
  verdict : Memory.bytes m (slotBase n + 0x01) 3 = [0x07#8, reason, 0xFF#8]
  endTick : Memory.bytes m (slotBase n + 0x1C) 4 = wordBytes tick
  results : ∀ i : StepId, i.val < (Memory.read m₀ (slotBase n + 0x06)).toNat →
    Memory.bytes m (stepBase n i + 0x1C) 12 = 0x06#8 :: List.replicate 11 0x00#8
  others : ∀ a, ¬inHeader n 0x01 3 a → ¬inHeader n 0x1C 4 a →
    ¬inResults n 0 (Memory.read m₀ (slotBase n + 0x06)).toNat a → Memory.read m a = Memory.read m₀ a

theorem endUnrun_ended {s : State} (h : Memory.wf s.mem) (n : SlotId) (reason : EndReason) :
    EndedUnrun s.mem s.tick n reason.code (endUnrun reason s n).mem := by
  obtain ⟨hverdict, htick⟩ := finishSlot_bytes (skipFrom_bytes h n).1 n .aborted reason 0xFF#8
  have ht : (skipFrom s n 0).tick = s.tick := by rw [(skipFrom_memOutside s n).1]
  refine ⟨hverdict, ht ▸ htick, fun i hi => ?_, fun a h1 h2 h3 => ?_⟩
  · refine (Memory.bytes_congr fun b h1 h2 => ?_).trans ((skipFrom_bytes h n).2 i hi)
    have := stepBase_bounds n i
    exact finishSlot_read (skipFrom s n 0) n _ _ _ b (by unfold inHeader; omega) (by unfold inHeader; omega)
  · exact (finishSlot_read (skipFrom s n 0) n _ _ _ a h1 h2).trans ((skipFrom_memOutside s n).2 a h3)

/-! ### What ABORT does, case by case -/

section
variable {s : State}

theorem exec_abort (h : s.ready = true) (b : Byte) : exec (.abort b) s = .next (abort b (s.judged 80 [])) :=
  congrArg Host.Outcome.next (asCommand_ready (abort b) s h)

theorem abort_noSlot {b : Byte} (hb : 22 ≤ b.toNat) (s : State) : abort b s = s.answer codeAbort .noSlot 0xFF#8 := by
  have hn : slotOfByte b = none := dif_neg (by omega)
  unfold abort
  rw [hn]

theorem abort_notHeld {n : SlotId} (h : s.place n = none) :
    abort (numberOf n) s = s.answer codeAbort .notHeld 0xFF#8 := by
  unfold abort
  rw [(slotOfByte_eq_some _ n).mpr rfl]
  dsimp only
  rw [h]

theorem abort_held {n : SlotId} {p : Place} (h : s.place n = some p) :
    abort (numberOf n) s = finishAct (abortAt s n p) := by
  unfold abort
  rw [(slotOfByte_eq_some _ n).mpr rfl]
  dsimp only
  rw [h]

/-- The state after ABORT of a slot that has not run, with the memory, the queues and the parked set given (R24, R25). -/
def State.abortedUnrun (s : State) (n : SlotId) (m : Memory) (queues : Vector (List SlotId) 4) (parked : List SlotId)
    (detail : Byte) : State :=
  { s with mem := m, queues := queues, parked := parked, finished := s.finished ||| (1#22 <<< n.val),
           result := ⟨.accepted, 0x02#8, detail⟩ }

theorem abort_queued (hw : Memory.wf s.mem) {n : SlotId} {k : LaneId} (h : s.place n = some (.queued k)) :
    ∃ m, EndedUnrun s.mem s.tick n 0x35#8 m ∧
      abort (numberOf n) s = s.abortedUnrun n m (s.setQueue k ((s.queue k).erase n)).queues s.parked 0x01#8 := by
  have hend := endUnrun_ended (s := s.setQueue k ((s.queue k).erase n)) hw n .hostAbort
  rw [abort_held h]
  unfold abortAt
  rw [finishAct_nil, endUnrun_eq]
  generalize (endUnrun .hostAbort (s.setQueue k ((s.queue k).erase n)) n).mem = m at hend ⊢
  exact ⟨m, hend, rfl⟩

theorem abort_parked (hw : Memory.wf s.mem) {n : SlotId} (h : s.place n = some .parked) :
    ∃ m, EndedUnrun s.mem s.tick n 0x35#8 m ∧
      abort (numberOf n) s = s.abortedUnrun n m s.queues (s.parked.erase n) 0x02#8 := by
  have hend := endUnrun_ended (s := { s with parked := s.parked.erase n }) hw n .hostAbort
  rw [abort_held h]
  unfold abortAt
  rw [finishAct_nil, endUnrun_eq]
  generalize (endUnrun .hostAbort { s with parked := s.parked.erase n } n).mem = m at hend ⊢
  exact ⟨m, hend, rfl⟩

theorem abort_running {n : SlotId} {k : LaneId} (h : s.place n = some (.running k)) {code : ResultCode}
    (hc : (if (s.lane k).state == .winding || ((s.lane k).state == .stepping && (s.lane k).phase == .linking)
      then .acceptedPending else .accepted) = code) :
    abort (numberOf n) s = finishAct (cutLane (s.answer codeAbort code SlotState.running.code) k .hostAbort) := by
  rw [abort_held h]
  unfold abortAt
  dsimp only
  rw [hc]

end

end Sys2Proof.Machine

open Sys2Proof Sys2Proof.Machine

/-- Settles O43, from what a slot that ends without having run writes. -/
theorem abortEndsAnUnrunSlot : Obligations.AbortEndsAnUnrunSlot := by
  refine ⟨fun b s hr => ?_, fun n s hr hw hp => ?_⟩
  · intro answers
    refine ⟨fun hb => ⟨⟨80, []⟩, (exec_abort hr b).trans (congrArg Host.Outcome.next (abort_noSlot hb _))⟩, ?_⟩
    rintro n rfl hp
    exact ⟨⟨80, []⟩, (exec_abort hr _).trans (congrArg Host.Outcome.next (abort_notHeld (s := s.judged 80 []) hp))⟩
  · have hexec := exec_abort hr (numberOf n)
    rcases hp with hp | ⟨k, hp⟩
    · obtain ⟨m, hend, hm⟩ := abort_parked (s := s.judged 80 []) hw hp
      rw [hm] at hexec
      exact ⟨(s.judged 80 []).abortedUnrun n m s.queues (s.parked.erase n) 0x02#8, hexec, rfl, rfl, hend.verdict, hend.endTick,
        hend.results, hend.others, fun _ => ⟨rfl, rfl, rfl⟩, fun k hk => by rw [hp] at hk; cases hk⟩
    · obtain ⟨m, hend, hm⟩ := abort_queued (s := s.judged 80 []) hw hp
      rw [hm] at hexec
      refine ⟨(s.judged 80 []).abortedUnrun n m (s.setQueue k ((s.queue k).erase n)).queues s.parked 0x01#8, hexec, rfl, rfl,
        hend.verdict, hend.endTick, hend.results, hend.others, fun hk => (by rw [hp] at hk; cases hk), fun j hj => ?_⟩
      obtain rfl : k = j := by
        rw [hp] at hj
        exact Place.queued.inj (Option.some.inj hj)
      refine ⟨fun j => (State.setQueue_get s k j _).trans ?_, rfl, rfl⟩
      by_cases e : j = k
      · rw [if_pos e, if_pos e.symm, e]
      · rw [if_neg e, if_neg fun h => e h.symm]

/-- Settles O44: the verdict's code is the one the lane's state asks for. -/
theorem abortReachesTheRunningLane : Obligations.AbortReachesTheRunningLane := by
  intro n k s hr hp winds answered
  have hexec {code : ResultCode} hc := (exec_abort hr (numberOf n)).trans
    (congrArg Host.Outcome.next (abort_running (s := s.judged 80 []) hp (code := code) hc))
  have hwinds : winds ↔ ((s.lane k).state == .winding || ((s.lane k).state == .stepping && (s.lane k).phase == .linking)) =
      true := by
    rw [Bool.or_eq_true, Bool.and_eq_true, beq_iff_eq, beq_iff_eq, beq_iff_eq]
  exact ⟨fun h => hexec (if_pos (hwinds.mp h)), fun h => hexec (if_neg fun hc => h (hwinds.mpr hc))⟩
end

