-- ==== Sys2Proof/Proofs/EngineReset.lean ====
section
/-! What ENGINE_RESET clears and what it keeps (O52). -/

namespace Sys2Proof.Machine

theorem Channel.cutOff_eq (x : Channel) : x.cutOff = { Channel.reset with started := x.started } := rfl

theorem Line.setTo_pullup (x : Line) :
    x.setTo false .inputPullup = { mode := .inputPullup, latch := false, level := x.level, detector := none } := rfl

/-- The state after ENGINE_RESET, its lines given (R178). -/
def State.engineCleared (s : State) (lines : Vector Line 8) : State :=
  { s with
    queues := vec4 fun _ => [], parked := [], finished := 0, lanes := vec4 fun _ => Lane.idle,
    chanOwner := vec16 fun _ => none, lineOwner := vec8 fun _ => none, waitList := [], converter := Converter.reset,
    monitor := DutyMonitor.reset, watches := vec4 fun _ => Watch.empty, lastVerified := vec16 fun _ => none,
    link := Link.reset, channels := vec16 fun c => (s.chan c).cutOff, lines := lines,
    holdSafe := s.holdSafe.engineReset, result := ⟨.accepted, 0x06#8, 0⟩ }

theorem engineReset_eq (s : State) :
    ∃ lines, engineReset s = s.engineCleared lines ∧ ∀ l : LineId, lines[l] = (s.line l).setTo false .inputPullup := by
  obtain ⟨h, hl⟩ := resetBlocks_spec s
  refine ⟨s.resetBlocks.lines, ?_, hl⟩
  unfold engineReset
  generalize s.resetBlocks = t at h ⊢
  rw [h]
  rfl

/-- ATTN is low where no slot is in FINISHED and the monitor is not in SAFE (R175). -/
theorem attn_eq_false {s : State} (hf : s.finished = 0) (hs : s.holdSafe.state ≠ .safe) : s.attn = false := by
  unfold State.attn State.safe
  simp [hf, hs]

theorem HoldSafe.engineReset_ne_safe (h : HoldSafe) : h.engineReset.state ≠ .safe := by
  unfold HoldSafe.engineReset
  dsimp only
  split <;> decide

end Sys2Proof.Machine

open Sys2Proof Sys2Proof.Machine

/-- Settles O52, entry by entry of what the reset has cleared. -/
theorem engineResetClearsTheEngine : Obligations.EngineResetClearsTheEngine := by
  intro s hr
  obtain ⟨lines, ht, hlines⟩ := engineReset_eq (s.judged 80 [])
  refine ⟨(s.judged 80 []).engineCleared lines, ?_, rfl, fun k => ⟨?_, ?_, ?_⟩, fun c => ⟨?_, ?_, ?_⟩, fun l => ⟨?_, ?_⟩,
    rfl, attn_eq_false rfl (HoldSafe.engineReset_ne_safe _)⟩
  · exact congrArg Host.Outcome.next ((asCommand_ready engineReset s hr).trans ht)
  · exact vec4_get _ k
  · exact vec4_get _ k
  · exact vec4_get _ k
  · exact vec16_get _ c
  · exact vec16_get _ c
  · exact (vec16_get _ c).trans (Channel.cutOff_eq _)
  · exact vec8_get _ l
  · exact (hlines l).trans (Line.setTo_pullup _)
end

