-- ==== Sys2Proof/Proofs/Frames.lean ====
section
/-! The frames of the exchange port: what a good WRITE stores, what latches PORT_FAULT, and what a READ answers (O55, O56, O58). -/

namespace Sys2Proof.Machine

/-! ### The frame's act -/

section
variable {s : State} (h : s.ready = true)
include h

theorem whenReady_ready (f : State → State) : whenReady f s = f s := if_pos h

theorem exec_writeFrame {addr : Half} {data : List Byte} (h1 : 1 ≤ data.length) (h2 : data.length ≤ 256) :
    exec (.writeFrame addr data (writeCrc addr data)) s =
      .next (applyWrite addr data (s.judged (8 * (6 + data.length)) [])) := by
  have hl : frameLengthOk data = true := by
    unfold frameLengthOk
    rw [Bool.and_eq_true, decide_eq_true_iff, decide_eq_true_iff]
    exact ⟨h1, h2⟩
  exact congrArg Host.Outcome.next ((whenReady_ready h _).trans ((if_pos hl).trans (congrFun (if_pos rfl) _)))

theorem exec_readFrame (addr : Half) (l : Byte) :
    exec (.readFrame addr l (readCrc addr l)) s =
      .next (if readable addr.toNat (l.toNat + 1)
        then s.judged 48 (answerBytes (s.snapshot addr.toNat (l.toNat + 1)))
        else (s.judged 48 (refusedBytes (l.toNat + 1))).fault) := by
  exact congrArg Host.Outcome.next ((whenReady_ready h _).trans (if_pos rfl))

theorem exec_finishedWrite (mask : Word) :
    exec (.finishedWrite mask) s = .next (acknowledge mask (s.judged 80 [])) := by
  exact congrArg Host.Outcome.next (whenReady_ready h _)

theorem exec_readOnlyRegisterWrite {addr : Half} {data : List Byte} (hn : namesReadOnly addr data = true) :
    exec (.readOnlyRegisterWrite addr data) s = .next (s.judged (8 * (6 + data.length)) []).fault := by
  exact congrArg Host.Outcome.next ((whenReady_ready h _).trans (if_pos hn))

theorem exec_badOperationByte {op : Byte} (hw : op ≠ 0xA5#8) (hr : op ≠ 0x5A#8) :
    exec (.badOperationByte op) s = .next (s.judged 8 []).fault := by
  have ho : ¬isOperation op = true := by
    unfold isOperation
    rw [Bool.or_eq_true, beq_iff_eq, beq_iff_eq]
    exact not_or.mpr ⟨hw, hr⟩
  exact congrArg Host.Outcome.next ((whenReady_ready h _).trans (if_neg ho))

theorem exec_earlyNcsRise {bits : Nat} (hb : 0 < bits) :
    exec (.earlyNcsRise bits) s = .next (s.judged bits []).fault := by
  exact congrArg Host.Outcome.next ((whenReady_ready h _).trans (if_neg (by omega)))

end

/-! ### Words and their bytes -/

theorem wordOf_wordBytes (w : Word) : wordOf (wordBytes w) = w := by
  refine BitVec.eq_of_getLsbD_eq fun i hi => ?_
  show (w.extractLsb' 24 8 ++ w.extractLsb' 16 8 ++ w.extractLsb' 8 8 ++ w.extractLsb' 0 8).getLsbD i = w.getLsbD i
  simp only [BitVec.getLsbD_append, BitVec.getLsbD_extractLsb']
  split
  · rename_i h; simp [h]
  · split
    · rename_i h
      rw [decide_eq_true h, Bool.true_and]
      exact congrArg w.getLsbD (by omega)
    · split
      · rename_i h
        rw [decide_eq_true h, Bool.true_and]
        exact congrArg w.getLsbD (by omega)
      · rw [decide_eq_true (by omega), Bool.true_and]
        exact congrArg w.getLsbD (by omega)

theorem acknowledge_eq (mask : Word) (s : State) :
    acknowledge mask s = { s with finished := s.finished &&& ~~~(mask.setWidth 22) } := by
  unfold acknowledge
  rw [BitVec.setWidth_eq_extractLsb' (by decide)]

/-! ### What a WRITE stores and what it refuses -/

/-- A range in the slot area touches a held slot (R21). -/
theorem touchesHeld_iff (s : State) (a n : Nat) (hn : 1 ≤ n) :
    s.touchesHeld a n = true ↔ ∃ m, s.place m ≠ none ∧ ∃ x, a ≤ x ∧ x < a + n ∧ inSlot m x := by
  unfold State.touchesHeld State.held
  rw [List.any_eq_true]
  refine ⟨?_, ?_⟩
  · rintro ⟨m, _, hm⟩
    rw [Bool.and_eq_true, decide_eq_true_iff, Option.isSome_iff_ne_none] at hm
    obtain ⟨hp, h1, h2⟩ := hm
    refine ⟨m, hp, max a (slotBase m), Nat.le_max_left _ _, Nat.max_lt.mpr ⟨by omega, h2⟩, Nat.le_max_right _ _, ?_⟩
    exact Nat.max_lt.mpr ⟨h1, by unfold Config.slotSize; omega⟩
  · rintro ⟨m, hp, x, h1, h2, h3, h4⟩
    refine ⟨m, mem_allSlots m, ?_⟩
    rw [Bool.and_eq_true, decide_eq_true_iff, Option.isSome_iff_ne_none]
    exact ⟨hp, by omega, by omega⟩

/-- The range of a WRITE that is stored (R1, R21). -/
def writeStored (s : State) (a e : Nat) : Prop :=
  e ≤ 0x0200 ∨ (0x3000 ≤ a ∧ e ≤ 0x4000) ∨
    (0x0200 ≤ a ∧ e ≤ 0x2E00 ∧ ∀ n, s.place n ≠ none → ∀ x, a ≤ x → x < e → ¬inSlot n x)

/-- The range of a WRITE that R21 or R171 refuses. -/
def writeRefused (s : State) (a n : Nat) : Prop :=
  (∃ m x, s.place m ≠ none ∧ a ≤ x ∧ x < a + n ∧ inSlot m x ∧ 0x0200 ≤ a ∧ a + n ≤ 0x2E00) ∨
  (a < 0x3000 ∧ 0x2E00 < a + n) ∨ (a < 0x0200 ∧ 0x0200 < a + n) ∨ (a < 0x2E00 ∧ 0x2E00 < a + n) ∨
  (a < 0x4000 ∧ 0x4000 < a + n) ∨ (0x4000 ≤ a ∧ a < 0x7F00) ∨ (0x7F00 ≤ a ∧ 0x7F1C < a + n) ∨
  (0x7F00 ≤ a ∧ (a % 4 ≠ 0 ∨ n % 4 ≠ 0)) ∨ (0x7F00 ≤ a ∧ ((a ≠ 0x7F08 ∧ a ≠ 0x7F10) ∨ n ≠ 4))

section
variable {s : State} {addr : Half} {data : List Byte} (hn : 1 ≤ data.length)
include hn

theorem applyWrite_stored (h : writeStored s addr.toNat (addr.toNat + data.length)) :
    applyWrite addr data s = s.storeFrame addr.toNat data := by
  unfold applyWrite
  dsimp only
  rcases h with h | h | ⟨h1, h2, h⟩
  · rw [(areaOfRange_eq_some _ _ hn .config).mpr ⟨Nat.zero_le _, h⟩]
  · rw [(areaOfRange_eq_some _ _ hn .capture).mpr h]
  · rw [(areaOfRange_eq_some _ _ hn .slots).mpr ⟨h1, h2⟩]
    refine if_neg fun hc => ?_
    obtain ⟨m, hm, x, hx1, hx2, hx⟩ := (touchesHeld_iff s _ _ hn).mp hc
    exact h m hm x hx1 hx2 hx

theorem applyWrite_refused (h : writeRefused s addr.toNat data.length) : applyWrite addr data s = s.fault := by
  unfold applyWrite
  dsimp only
  cases hx : areaOfRange addr.toNat data.length with
  | none => rfl
  | some x =>
    obtain ⟨hlo, hhi⟩ := (areaOfRange_eq_some _ _ hn x).mp hx
    cases x with
    | status => rfl
    | config =>
      simp only [Area.lo, Area.hi] at hlo hhi
      rcases h with ⟨_, _, _, _, _, _, _, _⟩ | h <;> omega
    | capture =>
      simp only [Area.lo, Area.hi] at hlo hhi
      rcases h with ⟨_, _, _, _, _, _, _, _⟩ | h <;> omega
    | slots =>
      simp only [Area.lo, Area.hi] at hlo hhi
      rcases h with ⟨m, x, hm, h1, h2, h3, _⟩ | h
      · exact if_pos ((touchesHeld_iff s _ _ hn).mpr ⟨m, hm, x, h1, h2, h3⟩)
      · omega
    | registers =>
      simp only [Area.lo, Area.hi] at hlo hhi
      have hr : ¬((addr.toNat = 0x7F08 ∨ addr.toNat = 0x7F10) ∧ data.length = 4) := by
        rcases h with ⟨_, _, _, _, _, _, _, _⟩ | h <;> omega
      show writeRegisters addr.toNat data s = s.fault
      unfold writeRegisters
      rw [if_neg fun hc => hr ⟨.inl hc.1, hc.2⟩, if_neg fun hc => hr ⟨.inr hc.1, hc.2⟩]

end

theorem applyWrite_finished {s : State} {addr : Half} (h : addr.toNat = 0x7F10) (mask : Word) :
    applyWrite addr (wordBytes mask) s = acknowledge mask s := by
  have hx : areaOfRange 0x7F10 (wordBytes mask).length = some .registers :=
    (areaOfRange_eq_some _ _ (Nat.le_add_left 1 3) .registers).mpr (by decide)
  unfold applyWrite
  rw [h]
  dsimp only
  rw [hx]
  show writeRegisters 0x7F10 (wordBytes mask) s = _
  unfold writeRegisters
  rw [if_neg (by omega), if_pos ⟨rfl, rfl⟩, wordOf_wordBytes]

/-- A frame of the format's length is stored; of a longer one the bytes are free values (log 10). -/
theorem storeFrame_short {s : State} {a : Nat} {data : List Byte} (h : data.length ≤ 64) :
    s.storeFrame a data = s.store a data := if_pos h

theorem storeFrame_long {s : State} {a : Nat} {data : List Byte} (h : 64 < data.length) :
    s.storeFrame a data =
      { s with mem := Memory.writeBytes s.mem a ((List.range data.length).map (Config.longFrameByte s.freeIndex)),
               portFault := s.portFault || Config.longFrameFaults s.freeIndex, freeIndex := s.freeIndex + 1 } :=
  if_neg (Nat.not_le_of_lt h)

/-! ### What a READ answers -/

theorem readable_iff (a n : Nat) (hn : 1 ≤ n) :
    readable a n = true ↔ a + n ≤ 0x0200 ∨ (0x0200 ≤ a ∧ a + n ≤ 0x2E00) ∨ (0x2E00 ≤ a ∧ a + n ≤ 0x3000) ∨
      (0x3000 ≤ a ∧ a + n ≤ 0x4000) ∨ (0x7F00 ≤ a ∧ a + n ≤ 0x7F1C ∧ a % 4 = 0 ∧ n % 4 = 0) := by
  unfold readable
  cases hx : areaOfRange a n with
  | none =>
    have h := (areaOfRange_eq_none a n hn).mp hx
    have h1 := h .config
    have h2 := h .slots
    have h3 := h .status
    have h4 := h .capture
    have h5 := h .registers
    simp only [Area.lo, Area.hi] at h1 h2 h3 h4 h5
    simp only [Bool.false_eq_true, false_iff]
    omega
  | some x =>
    obtain ⟨hlo, hhi⟩ := (areaOfRange_eq_some a n hn x).mp hx
    cases x with
    | registers =>
      simp only [Area.lo, Area.hi] at hlo hhi
      rw [Bool.and_eq_true, beq_iff_eq, beq_iff_eq]
      omega
    | config => exact iff_of_true rfl (.inl hhi)
    | slots => exact iff_of_true rfl (.inr (.inl ⟨hlo, hhi⟩))
    | status => exact iff_of_true rfl (.inr (.inr (.inl ⟨hlo, hhi⟩)))
    | capture => exact iff_of_true rfl (.inr (.inr (.inr (.inl ⟨hlo, hhi⟩))))

/-- A byte of exchange memory reads as memory holds it (R1, R22). -/
theorem portByte_memory (s : State) (x : Nat) (h : x < 0x2E00 ∨ (0x3000 ≤ x ∧ x < 0x4000)) :
    s.portByte x = Memory.read s.mem x := by
  unfold State.portByte
  rcases h with h | h
  · by_cases hc : x < 0x0200
    · rw [(areaOf_eq_some x .config).mpr ⟨Nat.zero_le _, hc⟩]
    · rw [(areaOf_eq_some x .slots).mpr ⟨Nat.le_of_not_lt hc, h⟩]
  · rw [(areaOf_eq_some x .capture).mpr h]

end Sys2Proof.Machine

open Sys2Proof Sys2Proof.Machine

/-- Settles O55: the range decides the store, and a long frame's bytes are the free values. -/
theorem goodWriteIsAppliedWhole : Obligations.GoodWriteIsAppliedWhole := by
  intro addr data s hr h1 h2 a e f sends stored
  have hexec := exec_writeFrame hr (addr := addr) h1 h2
  have hstored : stored → writeStored (s.judged (8 * (6 + data.length)) []) addr.toNat (addr.toNat + data.length) := id
  refine ⟨fun hs hl => ?_, fun hs hl => ?_, fun mask ha hd => ?_, fun mask => ?_⟩
  · refine hexec.trans (congrArg Host.Outcome.next ?_)
    rw [applyWrite_stored h1 (hstored hs), storeFrame_short hl]
    rfl
  · refine ⟨(List.range data.length).map (Config.longFrameByte s.freeIndex), Config.longFrameFaults s.freeIndex, by simp,
      hexec.trans (congrArg Host.Outcome.next ?_)⟩
    rw [applyWrite_stored h1 (hstored hs), storeFrame_long hl]
    rfl
  · refine hexec.trans (congrArg Host.Outcome.next ?_)
    subst hd
    rw [applyWrite_finished ha, acknowledge_eq]
    rfl
  · rw [exec_finishedWrite hr, acknowledge_eq]
    rfl

/-- Settles O56: each refused range leads past every store to the fault. -/
theorem faultyFrameOnlyLatchesPortFault : Obligations.FaultyFrameOnlyLatchesPortFault := by
  intro s hr
  refine ⟨fun addr data h1 h2 => ?_, fun addr data hw => ?_, fun op hw ho => exec_badOperationByte hr hw ho,
    fun bits hb => exec_earlyNcsRise hr hb⟩
  · intro a e h
    have hx : writeRefused (s.judged (8 * (6 + data.length)) []) addr.toNat data.length := h
    exact (exec_writeFrame hr h1 h2).trans (congrArg Host.Outcome.next (applyWrite_refused h1 hx))
  · exact exec_readOnlyRegisterWrite hr (Bool.and_eq_true_iff.mp hw).2

/-- Settles O58: the answer is the snapshot where the header's checks let it through. -/
theorem readAnswersWithASnapshot : Obligations.ReadAnswersWithASnapshot := by
  refine ⟨portByte_memory, fun s i => ⟨?_, fun hr => ?_, fun hr => ?_⟩, fun addr l s hr => ?_⟩
  · unfold State.sdo
    rw [Bool.and_false]
    rfl
  · unfold State.sdo
    rw [hr]
    rfl
  · unfold State.sdo
    rw [hr]
    rfl
  · intro a n answered
    have hiff : readable a n = true ↔ answered := readable_iff a n (Nat.le_add_left 1 _)
    rw [exec_readFrame hr]
    exact ⟨fun h => congrArg Host.Outcome.next (if_pos (hiff.mpr h)),
      fun h => congrArg Host.Outcome.next (if_neg fun hc => h (hiff.mp hc))⟩
end

