-- ==== Sys2Proof/Proofs/Views.lean ====
section
/-! The views of the port: the status page record by record, the register block, and the codes (O59). -/

namespace Sys2Proof.Machine

/-! ### Snapshots of a list laid out in parts -/

theorem map_getD_middle (p r t : List Byte) :
    (List.range r.length).map (fun i => (p ++ r ++ t).getD (p.length + i) 0) = r := by
  refine List.ext_getElem (by simp) fun i h1 h2 => ?_
  rw [List.getElem_map, List.getElem_range, List.append_assoc, List.getD_append_right _ _ _ _ (Nat.le_add_right _ _),
    Nat.add_sub_cancel_left, List.getD_append _ _ _ _ h2, List.getD_eq_getElem _ _ h2]

/-- The snapshot of the place of a part of the status page is that part. -/
theorem snapshot_status {s : State} {p r t : List Byte} (h : s.statusPage = p ++ r ++ t) {a n : Nat}
    (ha : a = 0x2E00 + p.length) (hn : n = r.length) (he : a + n ≤ 0x3000) : s.snapshot a n = r := by
  subst ha hn
  refine (List.map_congr_left fun i hi => ?_).trans (map_getD_middle p r t)
  have hi := List.mem_range.mp hi
  unfold State.portByte
  rw [(areaOf_eq_some _ .status).mpr ⟨by simp only [Area.lo]; omega, by simp only [Area.hi]; omega⟩, ← h]
  exact congrArg (fun k => s.statusPage.getD k 0) (by unfold Config.statusPageBase; omega)

theorem snapshot_registers {s : State} {r : List Byte} (h : s.registerBytes = r) (hn : r.length = 0x1C) :
    s.snapshot 0x7F00 0x1C = r := by
  rw [← hn]
  refine (List.map_congr_left fun i hi => ?_).trans (map_getD_middle [] r [])
  have hi := List.mem_range.mp hi
  unfold State.portByte
  rw [(areaOf_eq_some _ .registers).mpr ⟨by simp only [Area.lo]; omega, by simp only [Area.hi]; omega⟩, h,
    List.append_nil, List.nil_append]
  exact congrArg (fun k => r.getD k 0) (by unfold Config.registerBase; simp)

/-- Records of one length stand one after another. -/
theorem length_flatMap_records {α : Type} {f : α → List Byte} {w : Nat} (h : ∀ x, (f x).length = w) (l : List α) :
    (l.flatMap f).length = l.length * w := by
  rw [List.length_flatMap, List.map_congr_left (fun x _ => h x), List.map_const', List.sum_replicate, smul_eq_mul]

theorem flatMap_split {α : Type} {f : α → List Byte} {l l₁ l₂ : List α} {x : α} (h : l = l₁ ++ x :: l₂) :
    l.flatMap f = l₁.flatMap f ++ f x ++ l₂.flatMap f := by
  rw [h, List.flatMap_append, List.flatMap_cons, List.append_assoc]

theorem allChans_split (c : ChanId) : allChans = allChans.take c.val ++ c :: allChans.drop (c.val + 1) := by
  revert c; decide
theorem allLines_split (l : LineId) : allLines = allLines.take l.val ++ l :: allLines.drop (l.val + 1) := by
  revert l; decide
theorem allLanes_split (k : LaneId) : allLanes = allLanes.take k.val ++ k :: allLanes.drop (k.val + 1) := by
  revert k; decide
theorem length_takeChans (c : ChanId) : (allChans.take c.val).length = c.val := by revert c; decide
theorem length_takeLines (l : LineId) : (allLines.take l.val).length = l.val := by revert l; decide
theorem length_takeLanes (k : LaneId) : (allLanes.take k.val).length = k.val := by revert k; decide

/-! ### The records -/

theorem length_optDutyBytes (d : Option Duty) : (optDutyBytes d).length = 2 := by cases d <;> rfl

theorem length_channelRecord (s : State) (c : ChanId) : (s.channelRecord c).length = 0x10 := by
  unfold State.channelRecord
  simp only [List.length_append, length_optDutyBytes]
  rfl

theorem length_lineRecord (s : State) (l : LineId) : (s.lineRecord l).length = 0x08 := rfl

theorem length_places (n : Nat) (bs : List Byte) : (places n bs).length = n := by simp [places]

/-- The places of a queue that has room for what it holds: its entries, then FFh. -/
theorem places_eq {n : Nat} {bs : List Byte} (h : bs.length ≤ n) :
    places n bs = bs ++ List.replicate (n - bs.length) 0xFF#8 := by
  unfold places
  rw [List.take_append, List.take_of_length_le h, List.take_replicate, Nat.min_eq_left (Nat.sub_le _ _)]

theorem length_laneRecord (s : State) (k : LaneId) : (s.laneRecord k).length = 0x20 := by
  unfold State.laneRecord
  simp only [List.length_append, length_places]
  rfl

theorem length_unitBytes (g : Option LaneId) (q : List LaneId) : (unitBytes g q).length = 5 := by
  unfold unitBytes
  rw [List.length_cons, length_places]

theorem length_unitRegion (s : State) : s.unitRegion.length = 0x40 := by
  unfold State.unitRegion
  simp only [List.length_append, length_unitBytes, length_places]
  rfl

section
variable (s : State)

theorem snapshot_channelRecord (c : ChanId) : s.snapshot (0x2E00 + 0x10 * c.val) 0x10 = s.channelRecord c := by
  have hc := c.isLt
  have hpage : s.statusPage = (allChans.take c.val).flatMap s.channelRecord ++ s.channelRecord c ++
      ((allChans.drop (c.val + 1)).flatMap s.channelRecord ++
        (allLines.flatMap s.lineRecord ++ (allLanes.flatMap s.laneRecord ++ s.unitRegion))) := by
    unfold State.statusPage
    rw [flatMap_split (allChans_split c)]
    simp only [List.append_assoc]
  refine snapshot_status hpage ?_ (length_channelRecord s c).symm (by omega)
  rw [length_flatMap_records (length_channelRecord s), length_takeChans, Nat.mul_comm]

theorem snapshot_lineRecord (l : LineId) : s.snapshot (0x2F00 + 0x08 * l.val) 0x08 = s.lineRecord l := by
  have hl := l.isLt
  have hpage : s.statusPage = (allChans.flatMap s.channelRecord ++ (allLines.take l.val).flatMap s.lineRecord) ++
      s.lineRecord l ++ ((allLines.drop (l.val + 1)).flatMap s.lineRecord ++
        (allLanes.flatMap s.laneRecord ++ s.unitRegion)) := by
    unfold State.statusPage
    rw [flatMap_split (allLines_split l)]
    simp only [List.append_assoc]
  refine snapshot_status hpage ?_ (length_lineRecord s l).symm (by omega)
  rw [List.length_append, length_flatMap_records (length_channelRecord s), length_flatMap_records (length_lineRecord s),
    length_takeLines, Nat.mul_comm l.val, show allChans.length = 16 from rfl]
  omega

theorem snapshot_laneRecord (k : LaneId) : s.snapshot (0x2F40 + 0x20 * k.val) 0x20 = s.laneRecord k := by
  have hk := k.isLt
  have hpage : s.statusPage = (allChans.flatMap s.channelRecord ++ allLines.flatMap s.lineRecord ++
      (allLanes.take k.val).flatMap s.laneRecord) ++ s.laneRecord k ++
        ((allLanes.drop (k.val + 1)).flatMap s.laneRecord ++ s.unitRegion) := by
    unfold State.statusPage
    rw [flatMap_split (allLanes_split k)]
    simp only [List.append_assoc]
  refine snapshot_status hpage ?_ (length_laneRecord s k).symm (by omega)
  rw [List.length_append, List.length_append, length_flatMap_records (length_channelRecord s),
    length_flatMap_records (length_lineRecord s), length_flatMap_records (length_laneRecord s), length_takeLanes,
    Nat.mul_comm k.val, show allChans.length = 16 from rfl, show allLines.length = 8 from rfl]
  omega

theorem snapshot_unitRegion : s.snapshot 0x2FC0 0x40 = s.unitRegion := by
  have hpage : s.statusPage = (allChans.flatMap s.channelRecord ++ allLines.flatMap s.lineRecord ++
      allLanes.flatMap s.laneRecord) ++ s.unitRegion ++ [] := (List.append_nil _).symm
  refine snapshot_status hpage ?_ (length_unitRegion s).symm (by omega)
  rw [List.length_append, List.length_append, length_flatMap_records (length_channelRecord s),
    length_flatMap_records (length_lineRecord s), length_flatMap_records (length_laneRecord s)]
  rfl

end

/-! ### The registers -/

theorem wordBytes_word (a b c d : Byte) : wordBytes (word a b c d) = [a, b, c, d] := by
  unfold wordBytes word
  simp only [List.cons.injEq, and_true]
  refine ⟨BitVec.eq_of_getLsbD_eq fun i hi => ?_, BitVec.eq_of_getLsbD_eq fun i hi => ?_,
    BitVec.eq_of_getLsbD_eq fun i hi => ?_, BitVec.eq_of_getLsbD_eq fun i hi => ?_⟩ <;>
    simp only [BitVec.getLsbD_extractLsb', BitVec.getLsbD_append, hi, decide_true, Bool.true_and]
  · rw [if_pos (by omega), Nat.zero_add]
  · rw [if_neg (by omega), if_pos (by omega)]
    exact congrArg b.getLsbD (by omega)
  · rw [if_neg (by omega), if_neg (by omega), if_pos (by omega)]
    exact congrArg c.getLsbD (by omega)
  · rw [if_neg (by omega), if_neg (by omega), if_neg (by omega)]
    exact congrArg d.getLsbD (by omega)

theorem zeroExtend_eq_word (b : Byte) : b.zeroExtend 32 = word b 0 0 0 := by
  have := b.isLt
  refine BitVec.eq_of_toNat_eq ?_
  simp only [word, BitVec.toNat_append, BitVec.toNat_setWidth, Nat.mod_eq_of_lt (show b.toNat < 2 ^ 32 by omega)]
  simp

theorem registerBytes_eq (s : State) : s.registerBytes =
    wordBytes 0x00DF1601#32 ++ wordBytes s.statusReg ++ wordBytes 0x00000000#32 ++
      [s.result.code.code, s.result.echo, s.result.detail, 0x00#8] ++ wordBytes s.finishedReg ++ wordBytes s.tick ++
      [s.crcCount, 0x00#8, 0x00#8, 0x00#8] := by
  unfold State.registerBytes State.resultReg State.crcCountReg
  rw [zeroExtend_eq_word, wordBytes_word, wordBytes_word]
  rfl

theorem getLsbD_flagBit (b : Bool) {n : Nat} (hn : n < 32) (i : Nat) :
    (flagBit b n).getLsbD i = (b && decide (i = n)) := by
  unfold flagBit
  cases b with
  | false => simp
  | true =>
    rw [Bool.eq_iff_iff]
    simp
    omega

theorem safe_eq_decide (s : State) : s.safe = decide (s.holdSafe.state = .safe) := beq_eq_decide _ _

theorem monitorOn_eq_decide (s : State) : s.monitorOn = decide (s.holdSafe.state ≠ .disabled) := by
  unfold State.monitorOn
  rw [bne, beq_eq_decide, decide_not]

theorem attn_eq_decide (s : State) :
    s.attn = (s.ready && (decide (s.finished ≠ 0) || decide (s.holdSafe.state = .safe))) := by
  unfold State.attn
  rw [bne, beq_eq_decide, decide_not, safe_eq_decide]

/-- STATUS, bit by bit. -/
theorem getLsbD_statusReg (s : State) (i : Nat) : s.statusReg.getLsbD i =
    ((s.ready && decide (i = 0)) || (s.safe && decide (i = 1)) || (s.monitorOn && decide (i = 2)) ||
      (s.configDefault && decide (i = 3)) || (s.crcFlag && decide (i = 4)) || (s.portFault && decide (i = 5)) ||
      (s.attn && decide (i = 6))) := by
  unfold State.statusReg
  simp only [BitVec.getLsbD_or, getLsbD_flagBit _ (show 0 < 32 by decide), getLsbD_flagBit _ (show 1 < 32 by decide),
    getLsbD_flagBit _ (show 2 < 32 by decide), getLsbD_flagBit _ (show 3 < 32 by decide),
    getLsbD_flagBit _ (show 4 < 32 by decide), getLsbD_flagBit _ (show 5 < 32 by decide),
    getLsbD_flagBit _ (show 6 < 32 by decide)]

theorem getLsbD_finishedReg (s : State) (i : Nat) : s.finishedReg.getLsbD i = s.finished.getLsbD i := by
  unfold State.finishedReg
  rw [BitVec.getLsbD_setWidth]
  by_cases h : i < 32
  · rw [decide_eq_true h, Bool.true_and]
  · rw [decide_eq_false h, Bool.false_and, BitVec.getLsbD_of_ge _ _ (by omega)]

/-! ### What a lane shows -/

theorem shownStep_of_waiting {l : Lane} (h : l.state = .idle ∨ l.state = .claiming ∨ l.state = .gated) :
    l.shownStep = none ∧ l.waitReason = .none := by
  unfold Lane.shownStep Lane.waitReason
  rcases h with h | h | h <;> rw [h] <;> exact ⟨rfl, rfl⟩

theorem shownStep_of_winding {l : Lane} (h : l.state = .winding) : l.shownStep = l.step ∧ l.waitReason = .linking := by
  unfold Lane.shownStep Lane.waitReason
  rw [h]
  exact ⟨rfl, rfl⟩

theorem shownStep_of_stepping {l : Lane} (h : l.state = .stepping) :
    l.shownStep = l.step ∧ l.waitReason = l.phase.waitReason := by
  unfold Lane.shownStep Lane.waitReason
  rw [h]
  exact ⟨rfl, rfl⟩

end Sys2Proof.Machine

open Sys2Proof Sys2Proof.Machine

/-- Settles O59: the records by their places in the page, the registers by their bytes and bits, the codes by their tables. -/
theorem viewsShowTheStateAtTheirOffsets : Obligations.ViewsShowTheStateAtTheirOffsets := by
  intro s
  refine ⟨fun c => ?_, fun l => snapshot_lineRecord s l, fun l => ?_, fun k hk => ?_, fun hc hm hl hw => ?_,
    snapshot_registers (registerBytes_eq s) rfl, fun i => ?_, fun n => getLsbD_finishedReg s n.val, fun i hi => ?_,
    fun l => ⟨shownStep_of_waiting, shownStep_of_winding, fun h => ?_⟩, ?_⟩
  · rw [snapshot_channelRecord]
    unfold State.channelRecord
    dsimp only
    cases (s.chan c).pending <;> cases s.verified c <;> rfl
  · intro x
    refine ⟨?_, fun h => ?_, fun h => ?_, ?_⟩
    · rintro (h | h | h) <;> unfold Line.drive <;> rw [h]
    · unfold Line.drive
      rw [h]
    · unfold Line.drive
      rw [h]
    · unfold Line.pullUp
      cases x.mode <;> decide
  · rw [snapshot_laneRecord]
    unfold State.laneRecord
    dsimp only
    rw [places_eq (by rwa [List.length_map]), List.length_map, ← List.append_assoc]
    rfl
  · intro lanes
    rw [snapshot_unitRegion]
    unfold State.unitRegion unitBytes
    rw [places_eq (by rwa [List.length_map]), places_eq (by rwa [List.length_map]), places_eq (by rwa [List.length_map]),
      places_eq (by rwa [List.length_map])]
    simp only [List.length_map, lanes, List.map_map]
    rfl
  · rw [getLsbD_statusReg, safe_eq_decide, monitorOn_eq_decide, attn_eq_decide]
    split_ifs with h0 h1 h2 h3 h4 h5 h6
    case neg => simp [h0, h1, h2, h3, h4, h5, h6]
    all_goals
      subst i
      simp
  · rw [getLsbD_finishedReg, BitVec.getLsbD_of_ge _ _ hi]
  · obtain ⟨hstep, hreason⟩ := shownStep_of_stepping h
    refine ⟨hstep, ?_⟩
    rw [hreason]
    cases l.phase <;> decide
  · decide
end

