-- ==== Sys2Proof/Proofs/StepEnds.lean ====
section
/-! What the take of a slot, the start of a step and its end leave (O21, O25, O26, O29): the writes read back, the
lane after them, and what follows. -/

namespace Sys2Proof.Machine

/-! ### Outcomes -/

theorem StepOutcome.counted_iff (o : StepOutcome) :
    o.counted = true ↔ o = .pass ∨ o = .fail ∨ o = .timeout ∨ o = .error := by
  cases o <;> decide

theorem StepOutcome.isFault_iff (o : StepOutcome) : o.isFault = true ↔ o = .fail ∨ o = .timeout ∨ o = .error := by
  cases o <;> decide

theorem State.completedState_code (s : State) (n : SlotId) :
    (s.completedState n).code = if s.faultCount n = 0 then 0x04#8 else 0x05#8 := by
  unfold State.completedState
  split <;> rfl

/-! ### Bytes of slots and steps -/

theorem slotByte_some (n : SlotId) : slotByte (some n) = numberOf n := rfl

theorem numberOf_ne_none (n : SlotId) : numberOf n ≠ 0xFF#8 := by revert n; decide

theorem slotOfByte_numberOf (n : SlotId) : slotOfByte (numberOf n) = some n := (slotOfByte_eq_some _ n).mpr rfl

/-- The result part of a SKIPPED step. -/
theorem skipped_bytes : (plainResult .skipped .none 0).bytes = 0x06#8 :: List.replicate 11 0x00#8 := rfl

/-- SKIPPED steps are written whole, and nothing else is (R17). -/
theorem skipFrom_spec (s : State) (n : SlotId) (first : Nat) :
    MemOutside (inResults n first (s.stepCount n)) s (skipFrom s n first) ∧
    (Memory.wf s.mem → Memory.wf (skipFrom s n first).mem ∧
      ∀ i : StepId, first ≤ i.val → i.val < s.stepCount n →
        Memory.bytes (skipFrom s n first).mem (stepBase n i + 0x1C) 12 = 0x06#8 :: List.replicate 11 0x00#8) :=
  writeResults_spec s n first _

/-! ### The step after a step -/

theorem nextStep_eq_some {i j : StepId} {count : Nat} (hj : j.val = i.val + 1) (hc : j.val < count) :
    nextStep i count = some j := by
  have := j.isLt
  unfold nextStep
  rw [dif_pos (by omega), if_pos (by omega)]
  exact congrArg some (Fin.ext hj.symm)

theorem nextStep_eq_none {i : StepId} {count : Nat} (h : count ≤ i.val + 1) : nextStep i count = none := by
  unfold nextStep
  split_ifs
  · omega
  · rfl
  · rfl

/-- A step whose outcome lets the slot go on is followed by the next step (R37). -/
theorem afterStep_next {s : State} {n : SlotId} {i j : StepId} {cont : Bool} {o : StepOutcome} (k : LaneId)
    (h : o = .pass ∨ cont = true) (hj : nextStep i (s.stepCount n) = some j) :
    afterStep s k n i cont o = (s, [Task.startStep k j]) := by
  unfold afterStep
  rw [if_pos h, hj]

/-- After the last step it is followed by judgement (R38). -/
theorem afterStep_last {s : State} {n : SlotId} {i : StepId} {cont : Bool} {o : StepOutcome} (k : LaneId)
    (h : o = .pass ∨ cont = true) (hj : nextStep i (s.stepCount n) = none) :
    afterStep s k n i cont o = judgeSlot s k n := by
  unfold afterStep
  rw [if_pos h, hj]

/-- A step whose outcome does not ends the slot (R37). -/
theorem afterStep_failing (s : State) (k : LaneId) (n : SlotId) (i : StepId) (cont : Bool) (o : StepOutcome)
    (h : o ≠ .pass) (hc : cont = false) :
    afterStep s k n i cont o =
      endSlot (skipFrom s n (i.val + 1)) k n .failed .stepFailed (BitVec.ofNat 8 i.val) := by
  unfold afterStep
  rw [if_neg (by simp [h, hc])]
  rfl

theorem judgeSlot_last (s : State) (k : LaneId) (n : SlotId) (h : s.continuation n = 0xFF#8) :
    judgeSlot s k n = endSlot s k n (s.completedState n) .normal 0xFF#8 := if_pos h

theorem judgeSlot_continues (s : State) (k : LaneId) (n c : SlotId) (h : s.continuation n = numberOf c) :
    judgeSlot s k n = continueWith s k n c := by
  unfold judgeSlot
  rw [h, if_neg (numberOf_ne_none c), slotOfByte_numberOf]

/-- A step in progress ends by its result and what follows it (R35, R37). -/
theorem stepEnd_of_stepping {s : State} {k : LaneId} {n : SlotId} {i : StepId} {rec : StepRecord}
    (h : s.stepping k n i rec) (r : StepResult) :
    stepEnd s k r = afterStep (recordResult s k n i r) k n i rec.cont r.outcome := by
  obtain ⟨-, hn, hi, hr⟩ := h
  unfold stepEnd Lane.continues
  rw [hn, hi, hr]

/-- A step in progress ends with its slot (R43, R47, R49). -/
theorem stepEndsSlot_of_stepping {s : State} {k : LaneId} {n : SlotId} {i : StepId}
    (hn : (s.lane k).running = some n) (hi : (s.lane k).step = some i) (r : StepResult) (st : SlotState)
    (reason : EndReason) :
    stepEndsSlot s k r st reason =
      endSlot (skipFrom (recordResult s k n i r) n (i.val + 1)) k n st reason (BitVec.ofNat 8 i.val) := by
  unfold stepEndsSlot
  rw [hn, hi]
  rfl

/-! ### Ends of slots and chains -/

/-- A slot's ending writes its verdict and end tick, and puts it in FINISHED (R17, R18). -/
theorem finishSlot_eq (s : State) (n : SlotId) (st : SlotState) (reason : EndReason) (detail : Byte) :
    finishSlot s n st reason detail = { s with
      mem := Memory.writeBytes (Memory.writeBytes s.mem (slotBase n + 0x01) [st.code, reason.code, detail])
        (slotBase n + 0x1C) (wordBytes s.tick),
      finished := s.finished ||| (1#22 <<< n.val) } := rfl

/-- The ending does not touch the header's flags. -/
theorem finishSlot_offAtEnd (s : State) (n : SlotId) (st : SlotState) (reason : EndReason) (detail : Byte) :
    (finishSlot s n st reason detail).offAtEnd n = s.offAtEnd n := by
  have h : (finishSlot s n st reason detail).hdr n 0x05 = s.hdr n 0x05 := by
    unfold State.hdr
    rw [finishSlot_eq, Memory.read_writeBytes_out _ _ _ _ (.inl (by omega)),
      Memory.read_writeBytes_out _ _ _ _ (.inr (by simp only [List.length_cons, List.length_nil]; omega))]
  unfold State.offAtEnd State.hdrFlags
  rw [h]

/-- The marks of a watch follow a change of channels made from a state that watches the same. -/
theorem marksDisturbed_of_mem {s t u : State} {app : ChanId → Prop} (h : t.marksDisturbed u app)
    (ho : t.chanOwner = s.chanOwner) (hl : t.lanes = s.lanes) (hw : t.watches = s.watches)
    (hc : t.channels = s.channels) : s.marksDisturbed u app := by
  intro k
  have hwatch : ∀ j, t.watch j = s.watch j := fun j => by unfold State.watch; rw [hw]
  have hchan : ∀ c, t.chan c = s.chan c := fun c => by unfold State.chan; rw [hc]
  obtain ⟨h1, h2⟩ := h k
  refine ⟨h1.trans (by rw [hwatch]), fun c => ?_⟩
  rw [h2, hwatch, hchan, watching_congr ho hl (fun j => by rw [hwatch])]

/-- Turning channels off marks those whose state changes (R73, R82). -/
theorem onChans_turnOffOn_marks (m : BitVec 16) (s : State) :
    s.marksDisturbed (onChans m turnOffOn s) fun _ => False := by
  have h := foldl_marks turnOffOn (fun _ _ => False) (fun s c => changeChan_chansOnly s c _)
    (fun s c d hd => by rw [turnOffOn, changeChan_chan, if_neg hd])
    (fun s c => by simpa only [and_false, turnOffOn] using changeChan_marks s c (s.chan c).turnOff)
    (fun _ _ _ _ => Iff.rfl) _ (nodup_allChans.filter (inChans m)) s
  simp only [and_false] at h
  exact h

/-- The channels' part of a chain end (R52): OFF_AT_END turns the lane's channels off. -/
def offAtChainEnd (s : State) (k : LaneId) (n : SlotId) : State :=
  if s.offAtEnd n then onChans (s.chansHeld k) turnOffOn s else s

theorem offAtChainEnd_chansOnly (s : State) (k : LaneId) (n : SlotId) : ChansOnly s (offAtChainEnd s k n) := by
  unfold offAtChainEnd
  split
  · exact (onChans_turnOffOn _ s).1
  · exact ChansOnly.refl s

theorem offAtChainEnd_chan (s : State) (k : LaneId) (n : SlotId) (c : ChanId) :
    (offAtChainEnd s k n).chan c =
      if s.offAtEnd n = true ∧ s.ownerOf c = some k then (s.chan c).turnOff else s.chan c := by
  unfold offAtChainEnd
  by_cases h : s.offAtEnd n = true
  · rw [if_pos h, (onChans_turnOffOn _ s).2]
    simp [h]
  · rw [if_neg h, if_neg fun hc => h hc.1]

theorem offAtChainEnd_marks (s : State) (k : LaneId) (n : SlotId) :
    s.marksDisturbed (offAtChainEnd s k n) fun _ => False := by
  unfold offAtChainEnd
  split
  · exact onChans_turnOffOn_marks _ s
  · intro j
    simp

/-- A chain end: the channels' part, the release with its walk, IDLE, then the grants and the take (R52, R59). -/
theorem chainEnd_eq (s : State) (k : LaneId) (n : SlotId) :
    chainEnd s k n =
      ((walk ((offAtChainEnd s k n).releaseClaims k 0 0)).1.setLane k Lane.idle,
        (walk ((offAtChainEnd s k n).releaseClaims k 0 0)).2.map Task.enter ++ [Task.take k]) := rfl

/-- The switch trims the claims and walks only if that releases something (R60). -/
theorem trimThenEnter_eq (s : State) (k : LaneId) (c : SlotId) :
    trimThenEnter s k c =
      let u := s.releaseClaims k (s.chanClaim c) (s.lineClaim c)
      if within16 (s.chansHeld k) (s.chanClaim c) && within8 (s.linesHeld k) (s.lineClaim c)
      then (u, [Task.enter k])
      else ((walk u).1, (walk u).2.map Task.enter ++ [Task.enter k]) := by
  unfold trimThenEnter State.trims
  cases within16 (s.chansHeld k) (s.chanClaim c) && within8 (s.linesHeld k) (s.lineClaim c) <;> rfl

/-! ### Takes and starts -/

/-- The lane at the start of a step, written out. -/
theorem Lane.atStep_some (l : Lane) (i : StepId) (r : StepRecord) :
    l.atStep i (some r) = { Lane.idle with
      state := .stepping, running := l.running, step := some i, record := some r,
      stepTimer := if r.timeout = 0 then none else some (r.timeout * 100), planTimer := l.planTimer,
      entered := l.entered } := by
  have ht : startTimer (r.timeout * Config.ticksPerMillisecond) =
      if r.timeout = 0 then none else some (r.timeout * 100) := by
    unfold startTimer Config.ticksPerMillisecond
    by_cases h : r.timeout = 0 <;> simp [h]
  unfold Lane.atStep Lane.stepOver
  simp only [ht]
  rfl

/-- The start of a step whose record decodes (R34). -/
theorem startStep_decoded {s : State} {k : LaneId} {n : SlotId} {i : StepId} {r : StepRecord}
    (hn : (s.lane k).running = some n)
    (hr : decodeStep (Memory.writeBytes s.mem (slotBase n + 0x0D) [BitVec.ofNat 8 i.val]) n i = some r) :
    startStep s k i =
      serveStep ((s.store (slotBase n + 0x0D) [BitVec.ofNat 8 i.val]).setLane k ((s.lane k).atStep i (some r))) k r.cmd := by
  unfold startStep
  rw [hn]
  dsimp only
  rw [show decodeStep (s.store (slotBase n + 0x0D) [stepByte (some i)]).mem n i = some r from hr]
  rfl

/-- A slot becomes RUNNING with its start tick (R32, R51). -/
theorem startSlot_eq (s : State) (n : SlotId) :
    startSlot s n = { s with
      mem := Memory.writeBytes (Memory.writeBytes s.mem (slotBase n + 0x01) [0x03#8]) (slotBase n + 0x18)
        (wordBytes s.tick) } := rfl

/-- The four writes of a switch: the verdict and end tick of the slot that ends, the start of the one that runs. -/
theorem continued_mem (s : State) (k : LaneId) (n c : SlotId) :
    (continued s k n c).mem = Memory.writeBytes (Memory.writeBytes (Memory.writeBytes (Memory.writeBytes s.mem
        (slotBase n + 0x01) [if s.faultCount n = 0 then 0x04#8 else 0x05#8, 0x30#8, 0xFF#8])
        (slotBase n + 0x1C) (wordBytes s.tick)) (slotBase c + 0x01) [0x03#8]) (slotBase c + 0x18)
      (wordBytes s.tick) := by
  unfold continued
  simp only [State.setLane_mem, startSlot_eq, finishSlot_eq, State.completedState_code]
  rfl

/-- A switch changes memory, FINISHED, the parked set and the lane (R51). -/
theorem continued_eq (s : State) (k : LaneId) (n c : SlotId) :
    continued s k n c = { s with
      mem := (continued s k n c).mem, finished := s.finished ||| (1#22 <<< n.val), parked := s.parked.erase c,
      lanes := (continued s k n c).lanes } := by
  have h : ∀ u : State, startSlot u c = { u with mem := (startSlot u c).mem } := fun _ => rfl
  unfold continued
  dsimp only
  rw [h, finishSlot_eq]
  generalize State.mem (startSlot _ c) = m
  generalize State.startedLane _ c .stepping = l
  rfl

theorem continued_lane (s : State) (k : LaneId) (n c : SlotId) (j : LaneId) :
    (continued s k n c).lane j = if j = k then (continued s k n c).startedLane c .stepping else s.lane j := by
  unfold continued
  rw [State.setLane_at]
  rfl

end Sys2Proof.Machine

open Sys2Proof Sys2Proof.Machine

/-- Settles O21: the take writes the slot's header, then the lane. -/
theorem takeStartsTheHeadSlot : Obligations.TakeStartsTheHeadSlot := by
  unfold Obligations.TakeStartsTheHeadSlot
  intro s k
  constructor
  · intro n q hidle hsafe hq
    refine ⟨(startSlot (s.setQueue k q) n).setLane k ((startSlot (s.setQueue k q) n).startedLane n .claiming),
      ?_, rfl, rfl, fun j => ?_, fun j => ?_⟩
    · show takeHead s k = _
      unfold takeHead
      rw [if_pos ⟨hidle, hsafe⟩, hq]
    · show (s.setQueue k q).queue j = _
      rw [State.setQueue_get]
      simp only [eq_comm]
    · rw [State.setLane_at]
      rfl
  · intro h
    show takeHead s k = _
    unfold takeHead
    split
    · rename_i hc
      rcases h with h | h | h
      · exact absurd hc.1 h
      · rw [hc.2] at h
        cases h
      · rw [h]
    · rfl

/-- Settles O25, from the specification of the recording act. -/
theorem stepResultIsRecordedWhole : Obligations.StepResultIsRecordedWhole := by
  unfold Obligations.StepResultIsRecordedWhole
  intro s k n i r hwf
  obtain ⟨heq, hmem, hlane, hwatch⟩ := recordResult_spec s k n i r
  have hb := stepBase_bounds n i
  have hcount (off : Nat) (hoff : off < 2) : Memory.read (recordResult s k n i r).mem (slotBase n + 0x0B + off) =
      [if r.outcome.counted then s.stepsDone n + 1 else s.stepsDone n,
       if r.outcome.isFault then s.faultCount n + 1 else s.faultCount n][off] := by
    rw [hmem]
    exact Memory.read_writeBytes_in (Memory.wf_writeBytes hwf _ _) _ _ off (by simpa using hoff)
  refine ⟨heq, ?_, ?_, ?_, ?_, ?_, ?_, ?_, ?_⟩
  · rw [hmem, Memory.bytes_writeBytes_out _ _ _ _ _ (.inr (by simp only [List.length_cons, List.length_nil]; omega))]
    exact Memory.bytes_writeBytes hwf _ r.bytes
  · refine (hcount 0 (by omega)).trans ?_
    simp only [← StepOutcome.counted_iff]
    rfl
  · refine (hcount 1 (by omega)).trans ?_
    simp only [← StepOutcome.isFault_iff]
    rfl
  · intro a hres hhdr
    rw [hmem, Memory.read_writeBytes_out, Memory.read_writeBytes_out]
    · rw [StepResult.bytes_length]
      by_contra hc
      exact hres ⟨i, Nat.le_refl _, Nat.lt_succ_self _, by omega, by omega⟩
    · simp only [List.length_cons, List.length_nil]
      by_contra hc
      exact hhdr ⟨by omega, by omega⟩
  · rw [hlane, if_pos rfl]
    rfl
  · rw [hlane, if_pos rfl]
    rfl
  · rw [hlane, if_pos rfl]
    rfl
  · intro j hj
    rw [hlane, hwatch, if_neg hj, if_neg hj]
    exact ⟨rfl, rfl⟩

/-- Settles O26, branch by branch of R37. -/
theorem stepOutcomeDecidesWhatFollows : Obligations.StepOutcomeDecidesWhatFollows := by
  unfold Obligations.StepOutcomeDecidesWhatFollows
  intro s k n i cont o
  refine ⟨fun hgo => ⟨?_, ?_, ?_⟩, fun ho hc => ?_, fun rec r h => stepEnd_of_stepping h r⟩
  · intro j hj hcount
    exact afterStep_next k hgo (nextStep_eq_some hj hcount)
  · intro hcount hlast
    rw [afterStep_last k hgo (nextStep_eq_none hcount)]
    exact judgeSlot_last s k n hlast
  · intro c hcount hcont
    rw [afterStep_last k hgo (nextStep_eq_none hcount)]
    exact judgeSlot_continues s k n c hcont
  · obtain ⟨⟨heq, hframe⟩, hskip⟩ := skipFrom_spec s n (i.val + 1)
    exact ⟨skipFrom s n (i.val + 1), heq, afterStep_failing s k n i cont o ho hc,
      fun hwf => ⟨fun j hj hcount => (hskip hwf).2 j hj hcount, hframe⟩⟩

/-- Settles O29: the write of the current step, the lane at the step, and the step's serving block. -/
theorem stepStartsWithItsTimer : Obligations.StepStartsWithItsTimer := by
  unfold Obligations.StepStartsWithItsTimer
  intro s k n i r hn hr
  refine ⟨(s.store (slotBase n + 0x0D) [BitVec.ofNat 8 i.val]).setLane k ((s.lane k).atStep i (some r)),
    startStep_decoded hn hr, rfl, rfl, fun j => ?_⟩
  rw [State.setLane_at, Lane.atStep_some, hn]
  rfl

/-- Settles O27: the two refusals, and the switch with its trim. -/
theorem continuationIsCheckedThenTaken : Obligations.ContinuationIsCheckedThenTaken := by
  unfold Obligations.ContinuationIsCheckedThenTaken
  intro s k n c
  have hparked : s.parked.contains c = true ↔ c ∈ s.parked := by simp
  have heq := continued_eq s k n c
  refine ⟨fun hc => ?_, fun hc hw => ?_, fun hc hw => ⟨continued s k n c, heq, continued_mem s k n c,
    congrArg State.finished heq, congrArg State.parked heq, continued_lane s k n c, ?_⟩⟩
  · unfold continueWith
    rw [if_neg (mt hparked.mp hc)]
    rfl
  · unfold continueWith
    rw [if_pos (hparked.mpr hc), hw]
    rfl
  · unfold continueWith switchTo
    rw [if_pos (hparked.mpr hc), if_pos hw]
    exact trimThenEnter_eq _ k c

/-- Settles O28: the slot's ending, then the chain's. -/
theorem chainEndRunsItsActionsInOrder : Obligations.ChainEndRunsItsActionsInOrder := by
  unfold Obligations.ChainEndRunsItsActionsInOrder
  intro s k n st reason detail
  have hf := finishSlot_eq s n st reason detail
  have ho := finishSlot_offAtEnd s n st reason detail
  have hend : endSlot s k n st reason detail = chainEnd (finishSlot s n st reason detail) k n := rfl
  rw [hend]
  generalize finishSlot s n st reason detail = u at hf ho ⊢
  have hchans := offAtChainEnd_chansOnly u k n
  have hmarks := offAtChainEnd_marks u k n
  have hchan := offAtChainEnd_chan u k n
  have heq := chainEnd_eq u k n
  generalize offAtChainEnd u k n = t at hchans hmarks hchan heq
  have ⟨hmem, _, _, _, _, _, _, hfin, _⟩ := hchans.keeps
  refine ⟨t, ?_, ?_, ?_, fun c => ?_, ?_, heq⟩
  · unfold ChansOnly at hchans
    rw [hchans, hf]
  · rw [hmem, hf]
  · rw [hfin, hf]
  · rw [hchan, ho, hf]
    rfl
  · exact marksDisturbed_of_mem hmarks (by rw [hf]) (by rw [hf]) (by rw [hf]) (by rw [hf])

end

