-- ==== Sys2Proof/Proofs/Waits.lean ====
section
/-! The waits of a step (O31), and what a cause from outside makes of a lane that waits or steps (O45, O46, O47). -/

namespace Sys2Proof.Machine

/-! ### Waits -/

theorem allHolding_iff (s : State) (mask : BitVec 16) :
    s.allHolding mask = true ↔ ∀ c, inChans mask c = true → (s.chan c).state = .holding := by
  unfold State.allHolding
  simp only [List.all_eq_true, Bool.or_eq_true, Bool.not_eq_true', beq_iff_eq]
  constructor
  · intro h c hc
    rcases h c (mem_allChans c) with h | h
    · rw [hc] at h
      cases h
    · exact h
  · intro h c _
    cases hc : inChans mask c
    · exact .inl rfl
    · exact .inr (h c hc)

theorem allSteady_iff (s : State) (mask : BitVec 16) :
    s.allSteady mask = true ↔ ∀ c, inChans mask c = true → (s.chan c).state ≠ .ramping := by
  unfold State.allSteady
  simp only [List.all_eq_true, Bool.or_eq_true, Bool.not_eq_true', bne_iff_ne]
  constructor
  · intro h c hc
    rcases h c (mem_allChans c) with h | h
    · rw [hc] at h
      cases h
    · exact h
  · intro h c _
    cases hc : inChans mask c
    · exact .inl rfl
    · exact .inr (h c hc)

theorem allHolding_eq_false {s : State} {mask : BitVec 16} {c : ChanId} (hc : inChans mask c = true)
    (h : (s.chan c).state ≠ .holding) : s.allHolding mask = false :=
  Bool.eq_false_iff.mpr fun ha => h ((allHolding_iff s mask).mp ha c hc)

theorem allSteady_eq_false {s : State} {mask : BitVec 16} {c : ChanId} (hc : inChans mask c = true)
    (h : (s.chan c).state = .ramping) : s.allSteady mask = false :=
  Bool.eq_false_iff.mpr fun ha => (allSteady_iff s mask).mp ha c hc h

/-- A SET that is not staged goes on by its SETTLE flag (R77, R79). -/
theorem serveStep_set (s : State) (k : LaneId) (mask : BitVec 16) (t r : Duty) (settle : Bool) :
    serveStep s k (.set mask t r false settle) =
      if settle && !(onChans mask (setOn t r) s).allHolding mask
      then ((onChans mask (setOn t r) s).setPhase k .settle, []) else stepPass (onChans mask (setOn t r) s) k := rfl

theorem serveStep_verify (s : State) (k : LaneId) (mask : BitVec 16) (p : Nat) :
    serveStep s k (.verify mask p) =
      if s.allSteady mask then (endSettle s k, []) else (s.setPhase k .verifySettle, []) := rfl

theorem judgeWait_settle {s : State} {k : LaneId} {cont : Bool} {timeout : Nat} {mask : BitVec 16} {x r : Duty}
    {staged settle : Bool} (hr : (s.lane k).record = some ⟨cont, timeout, .set mask x r staged settle⟩)
    (hp : (s.lane k).phase = .settle) :
    judgeWait s k = if s.allHolding mask then (s.setPhase k .none, [Task.settled k]) else (s, []) := by
  unfold judgeWait
  rw [hp, hr]
  rfl

theorem judgeWait_verifySettle {s : State} {k : LaneId} {cont : Bool} {timeout : Nat} {mask : BitVec 16} {p : Nat}
    (hr : (s.lane k).record = some ⟨cont, timeout, .verify mask p⟩) (hp : (s.lane k).phase = .verifySettle) :
    judgeWait s k = if s.allSteady mask then (endSettle s k, []) else (s, []) := by
  unfold judgeWait
  rw [hp, hr]
  rfl

/-! ### What serving a step changes -/

/-- Nothing but the shared units and the lanes' phases differs. -/
def PhasesOnly (s t : State) : Prop :=
  t = { s with lanes := t.lanes, converter := t.converter, monitor := t.monitor, link := t.link } ∧
    ∀ j, t.lane j = { s.lane j with phase := (t.lane j).phase }

theorem PhasesOnly.refl (s : State) : PhasesOnly s s := ⟨rfl, fun _ => rfl⟩

theorem PhasesOnly.trans {s t u : State} (h : PhasesOnly s t) (g : PhasesOnly t u) : PhasesOnly s u := by
  refine ⟨?_, fun j => ?_⟩
  · rw [g.1, h.1]
  · rw [g.2 j, h.2 j]

theorem withConverter_phasesOnly (s : State) (x : Converter) : PhasesOnly s { s with converter := x } :=
  ⟨rfl, fun _ => rfl⟩

theorem withMonitor_phasesOnly (s : State) (x : DutyMonitor) : PhasesOnly s { s with monitor := x } :=
  ⟨rfl, fun _ => rfl⟩

theorem withLink_phasesOnly (s : State) (x : Link) : PhasesOnly s { s with link := x } := ⟨rfl, fun _ => rfl⟩

theorem setPhase_phasesOnly (s : State) (k : LaneId) (p : Phase) : PhasesOnly s (s.setPhase k p) := by
  refine ⟨rfl, fun j => ?_⟩
  unfold State.setPhase
  rw [State.setLane_at]
  split
  · rename_i h
    rw [h]
  · rfl

theorem grantConverter_phasesOnly (s : State) (k : LaneId) : PhasesOnly s (grantConverter s k) :=
  (withConverter_phasesOnly s _).trans (setPhase_phasesOnly _ k _)

theorem releaseConverter_phasesOnly (s : State) : PhasesOnly s (releaseConverter s) := by
  unfold releaseConverter
  split
  · exact withConverter_phasesOnly s _
  · exact (withConverter_phasesOnly s _).trans (grantConverter_phasesOnly _ _)

theorem grantMonitor_phasesOnly (s : State) (k : LaneId) : PhasesOnly s (grantMonitor s k) := by
  have h := (withMonitor_phasesOnly s { s.monitor with grantee := some k }).trans (setPhase_phasesOnly _ k .measuring)
  unfold grantMonitor
  dsimp only
  split
  · exact h.trans (withMonitor_phasesOnly _ _)
  · exact h.trans (withMonitor_phasesOnly _ _)

theorem releaseMonitor_phasesOnly (s : State) : PhasesOnly s (releaseMonitor s) := by
  unfold releaseMonitor
  split
  · exact withMonitor_phasesOnly s _
  · exact (withMonitor_phasesOnly s _).trans (grantMonitor_phasesOnly _ _)

theorem grantLink_phasesOnly (s : State) (k : LaneId) : PhasesOnly s (grantLink s k) :=
  (withLink_phasesOnly s _).trans (setPhase_phasesOnly _ k _)

theorem releaseLink_phasesOnly (s : State) : PhasesOnly s (releaseLink s) := by
  unfold releaseLink
  split
  · exact withLink_phasesOnly s _
  · exact (withLink_phasesOnly s _).trans (grantLink_phasesOnly _ _)

theorem stopServing_phasesOnly (s : State) (k : LaneId) : PhasesOnly s (stopServing s k) := by
  unfold stopServing
  split
  case h_1 => exact withConverter_phasesOnly s _
  case h_2 => exact releaseConverter_phasesOnly s
  case h_3 => exact withMonitor_phasesOnly s _
  case h_4 => exact releaseMonitor_phasesOnly s
  case h_5 => exact withLink_phasesOnly s _
  all_goals exact PhasesOnly.refl s

/-! ### What a half pair changes -/

/-- Nothing but memory and lane k's half pair differs. -/
def HalfPairOnly (k : LaneId) (s t : State) : Prop :=
  t = { s with mem := t.mem, lanes := t.lanes } ∧
    ∀ j, t.lane j = if j = k then { s.lane k with halfPair := (t.lane k).halfPair } else s.lane j

theorem HalfPairOnly.of_mem {k : LaneId} {s t : State} (h : t = { s with mem := t.mem }) : HalfPairOnly k s t := by
  rw [h]
  refine ⟨rfl, fun j => ?_⟩
  split
  · rename_i hj
    rw [hj]
    rfl
  · rfl

theorem storeWindow_mem (s : State) (k : LaneId) (off : Nat) (bs : List Byte) :
    s.storeWindow k off bs = { s with mem := (s.storeWindow k off bs).mem } := by
  induction bs generalizing s off with
  | nil => rfl
  | cons b bs ih => exact (ih (s.store (windowAddr k off) [b]) (off + 1)).trans rfl

theorem HalfPairOnly.setHalfPair {k : LaneId} {s t : State} (h : t = { s with mem := t.mem }) (x : Option Duty) :
    HalfPairOnly k s (t.setLane k { t.lane k with halfPair := x }) := by
  rw [h]
  refine ⟨rfl, fun j => ?_⟩
  rw [State.setLane_at, State.setLane_get_self]
  rfl

theorem storeSample_halfPairOnly (s : State) (k : LaneId) (n : Nat) (code : Duty) :
    HalfPairOnly k s (storeSample s k n code) := by
  unfold storeSample
  split
  · rename_i cp _
    have hpair (high : Bool) : HalfPairOnly k s (match (s.lane k).halfPair with
        | none => s.setLane k { s.lane k with halfPair := some code }
        | some a =>
          let t := s.storeWindow k (cp.offset + 3 * (n / 2)) (pairBytes high a code)
          t.setLane k { t.lane k with halfPair := none }) := by
      split
      · exact .setHalfPair (t := s) rfl _
      · exact .setHalfPair (storeWindow_mem s k _ _) _
    dsimp only
    split
    · exact .of_mem (storeWindow_mem s k _ _)
    · exact .of_mem (storeWindow_mem s k _ _)
    · exact hpair false
    · exact hpair true
  · exact .of_mem rfl

theorem completeHalfPair_halfPairOnly (s : State) (k : LaneId) (count : Nat) :
    HalfPairOnly k s (completeHalfPair s k count) := by
  unfold completeHalfPair
  split
  · exact .of_mem rfl
  · exact storeSample_halfPairOnly s k _ _

/-! ### Causes on a stepping lane -/

/-- What a cause leaves of the block that serves the lane: the half pair settled, the request or unit given up. -/
theorem endStepNow_rest (s : State) (k : LaneId) (cause : EndCause) :
    ((stopServing (settleHalfPair s k cause) k).lane k).running = (s.lane k).running ∧
    ((stopServing (settleHalfPair s k cause) k).lane k).step = (s.lane k).step ∧
    ((settleHalfPair s k cause).lane k).phase = (s.lane k).phase := by
  have hs := (stopServing_phasesOnly (settleHalfPair s k cause) k).2 k
  have hp : (settleHalfPair s k cause).lane k =
      { s.lane k with halfPair := ((settleHalfPair s k cause).lane k).halfPair } := by
    unfold settleHalfPair
    split
    · exact ((completeHalfPair_halfPairOnly s k s.converter.count).2 k).trans (if_pos rfl)
    · rfl
  refine ⟨?_, ?_, ?_⟩
  · rw [hs, hp]
  · rw [hs, hp]
  · rw [hp]

/-- A cause other than a step timeout ends the step of a lane that holds no transfer, and its slot (R43, R47, R49). -/
theorem cutLane_stepping {s : State} {k : LaneId} {n : SlotId} {i : StepId} {cause : EndCause}
    (hstate : (s.lane k).state = .stepping) (hn : (s.lane k).running = some n) (hi : (s.lane k).step = some i)
    (hp : (s.lane k).phase ≠ .linking) (hc : cause ≠ .stepTimeout) :
    cutLane s k cause =
      endSlot (skipFrom (recordResult (stopServing (settleHalfPair s k cause) k) k n i (s.resultBy k cause)) n
        (i.val + 1)) k n cause.slotEnding.1 cause.slotEnding.2 (BitVec.ofNat 8 i.val) := by
  obtain ⟨hrun, hstep, -⟩ := endStepNow_rest s k cause
  have hcut : cutLane s k cause = endStepNow s k cause := by
    unfold cutLane
    rw [hstate]
    exact if_neg hp
  rw [hcut]
  unfold endStepNow endByCause
  cases cause with
  | stepTimeout => exact absurd rfl hc
  | planTimeout => exact stepEndsSlot_of_stepping (hrun.trans hn) (hstep.trans hi) _ _ _
  | hostAbort => exact stepEndsSlot_of_stepping (hrun.trans hn) (hstep.trans hi) _ _ _
  | safeOrder => exact stepEndsSlot_of_stepping (hrun.trans hn) (hstep.trans hi) _ _ _
  | safeRace => exact stepEndsSlot_of_stepping (hrun.trans hn) (hstep.trans hi) _ _ _

/-- A cause other than a step timeout ends the slot of a transfer wound down (R48, R152). -/
theorem endWindDown_ends {s : State} {k : LaneId} {n : SlotId} {i : StepId} {cause : EndCause}
    (hn : (s.lane k).running = some n) (hi : (s.lane k).step = some i) (hc : cause ≠ .stepTimeout) :
    endWindDown s k cause =
      endSlot (skipFrom (recordResult (releaseLink s) k n i (s.resultBy k cause)) n (i.val + 1)) k n
        cause.slotEnding.1 cause.slotEnding.2 (BitVec.ofNat 8 i.val) := by
  have hlane := (releaseLink_phasesOnly s).2 k
  have hrun : ((releaseLink s).lane k).running = some n := by
    rw [hlane]
    exact hn
  have hstep : ((releaseLink s).lane k).step = some i := by
    rw [hlane]
    exact hi
  unfold endWindDown endByCause
  cases cause with
  | stepTimeout => exact absurd rfl hc
  | planTimeout => exact stepEndsSlot_of_stepping hrun hstep _ _ _
  | hostAbort => exact stepEndsSlot_of_stepping hrun hstep _ _ _
  | safeOrder => exact stepEndsSlot_of_stepping hrun hstep _ _ _
  | safeRace => exact stepEndsSlot_of_stepping hrun hstep _ _ _

/-- What a transfer in progress has reached (R149). -/
theorem partialResult_linking {s : State} {k : LaneId} {cont : Bool} {timeout : Nat} {p : LinkParams}
    (hr : (s.lane k).record = some ⟨cont, timeout, .link p⟩) (hp : (s.lane k).phase = .linking) (o : StepOutcome)
    (d : StepDetail) :
    s.partialResult k o d =
      ⟨o, d, (s.lane k).ticks, BitVec.ofNat 16 s.link.bytes, BitVec.ofNat 16 s.link.attempts, 0, 0⟩ := by
  unfold State.partialResult
  dsimp only
  rw [hr]
  exact if_pos hp

/-- A cause on a lane that holds a transfer winds the transfer down (R48). -/
theorem cutLane_linking {s : State} {k : LaneId} {cause : EndCause} (hstate : (s.lane k).state = .stepping)
    (hp : (s.lane k).phase = .linking) : cutLane s k cause = windDown s k cause := by
  unfold cutLane
  rw [hstate]
  exact if_pos hp

theorem timeOutStep_linking {s : State} {k : LaneId} (hp : (s.lane k).phase = .linking) :
    timeOutStep s k = windDown s k .stepTimeout := if_pos hp

theorem cutLane_winding {s : State} {k : LaneId} {cause : EndCause} (hstate : (s.lane k).state = .winding) :
    cutLane s k cause = recause s k cause := by
  unfold cutLane
  rw [hstate]

/-- The link serves a lane before its wait has run out. -/
theorem linkServed_of_serves {s : State} {k : LaneId} {p : LinkParams} {ph : LinkPhase} (h : s.linkServes k p ph)
    (hw : s.linkWaitOver = false) : s.linkServed = some (k, p) := by
  obtain ⟨hg, hp, -⟩ := h
  rw [linkServed_of_waiting s hw]
  unfold State.linkHolder
  rw [hg]
  dsimp only
  rw [hp]
  rfl

/-- A byte sent under a wind-down ends by the wind-down's rule (R152). -/
theorem linkByteSent_winding {s : State} {k : LaneId} {p : LinkParams} {ph : LinkPhase} (h : s.linkServes k p ph)
    (hover : s.linkWaitOver = false) (hw : s.link.windDown = true)
    (hph : ph = .address ∨ ph = .register ∨ ph = .write) (ack : Bool) :
    linkByteSent ack s = s.setLink (windingSent s.link p ack) := by
  have hp := h.2.2
  unfold linkByteSent
  rw [linkServed_of_serves h hover, hp, hw]
  rcases hph with rfl | rfl | rfl <;> rfl

theorem LinkMode.probes_iff (m : LinkMode) : m.probes = true ↔ m = .probe ∨ m = .probeUntil := by
  cases m <;> decide

/-- An address byte of a probe goes to STOP with its attempt counted (R151, R152). -/
theorem windingSent_probe {x : Link} {p : LinkParams} (hx : x.phase = .address) (hp : p.mode.probes = true) (ack : Bool) :
    windingSent x p ack = x.countAttempt.beginStop .normal := by
  unfold windingSent
  rw [hx]
  exact if_pos hp

/-- An acknowledged address byte that asked for a read is followed by one byte more (R152). -/
theorem windingSent_read {x : Link} {p : LinkParams} (hx : x.phase = .address) (hp : p.mode.probes = false)
    (hr : x.readBit = true) : windingSent x p true = x.beginRead true := by
  unfold windingSent
  rw [hx, hp, hr]
  rfl

/-- Any other address byte goes to STOP (R152). -/
theorem windingSent_address {x : Link} {p : LinkParams} {ack : Bool} (hx : x.phase = .address)
    (hp : p.mode.probes = false) (hr : ack = false ∨ x.readBit = false) :
    windingSent x p ack = x.beginStop .normal := by
  have hn : (ack && x.readBit) = false := by rcases hr with hr | hr <;> simp [hr]
  unfold windingSent
  rw [hx, hp]
  dsimp only
  rw [hn]
  rfl

theorem windingSent_register {x : Link} {p : LinkParams} (hx : x.phase = .register) (ack : Bool) :
    windingSent x p ack = x.beginStop .normal := by
  unfold windingSent
  rw [hx]

theorem windingSent_write {x : Link} {p : LinkParams} (hx : x.phase = .write) (ack : Bool) :
    windingSent x p ack = { x with bytes := if ack then x.bytes + 1 else x.bytes }.beginStop .normal := by
  unfold windingSent
  rw [hx]

/-- A byte of a window that lies whole in it. -/
theorem storeWindow_byte (s : State) (k : LaneId) {off : Nat} (h : off < 1024) (b : Byte) :
    s.storeWindow k off [b] = s.store (0x3000 + 0x400 * k.val + off) [b] := by
  have ha : windowAddr k off = 0x3000 + 0x400 * k.val + off := by
    unfold windowAddr Config.captureBase Config.windowSize
    omega
  unfold State.storeWindow State.storeWindow
  rw [ha]

end Sys2Proof.Machine

open Sys2Proof Sys2Proof.Machine

/-- Settles O31, kind by kind. -/
theorem waitingStepsSetTheirWait : Obligations.WaitingStepsSetTheirWait := by
  unfold Obligations.WaitingStepsSetTheirWait
  intro s k
  refine ⟨fun n hn => ?delay, rfl, fun mask x r => ⟨fun h => ?set, fun c hc h => ?settle⟩,
    fun mask p c hc h => ?unsteady, fun mask p h => ?steady, fun p => rfl, fun p => ⟨fun h => ?accepted, fun h hd => ?timed,
    fun h => ⟨fun hl => ?edge, fun hl => ?wrongMode⟩⟩, fun cont timeout mask x r settle hr hp =>
      ⟨fun h => ?held, fun c hc h => ?notHeld⟩, rfl, fun cont timeout mask p hr hp =>
      ⟨fun h => ?settled, fun c hc h => ?notSettled⟩, fun c => ⟨fun h => ?owned, fun h => ?free⟩⟩
  case delay => exact if_neg (Nat.ne_of_gt hn)
  case set => rw [serveStep_set, (allHolding_iff _ mask).mpr h]; rfl
  case settle => rw [serveStep_set, allHolding_eq_false hc h]; rfl
  case unsteady => rw [serveStep_verify, allSteady_eq_false hc h]; rfl
  case steady => rw [serveStep_verify, (allSteady_iff _ mask).mpr h]; rfl
  case accepted =>
    show beginTrigger s k p = _
    unfold beginTrigger
    rcases h with h | ⟨h, hd⟩
    · rw [h]
      rfl
    · rw [h]
      exact if_pos hd
  case timed =>
    show beginTrigger s k p = _
    unfold beginTrigger
    rw [h]
    exact if_neg (Nat.ne_of_gt hd)
  case edge =>
    show beginTrigger s k p = _
    unfold beginTrigger
    rcases h with h | h <;> rw [h] <;> exact if_pos hl
  case wrongMode =>
    show beginTrigger s k p = _
    unfold beginTrigger
    rcases h with h | h <;> rw [h] <;> exact if_neg hl
  case held => rw [judgeWait_settle hr hp, (allHolding_iff _ mask).mpr h]; rfl
  case notHeld => rw [judgeWait_settle hr hp, allHolding_eq_false hc h]; rfl
  case settled => rw [judgeWait_verifySettle hr hp, (allSteady_iff _ mask).mpr h]; rfl
  case notSettled => rw [judgeWait_verifySettle hr hp, allSteady_eq_false hc h]; rfl
  case owned =>
    unfold reportChan
    rw [h]
  case free =>
    unfold reportChan
    rw [h]

/-- Settles O45: a waiting lane leaves the wait list and its slot ends unrun. -/
theorem causeEndsAWaitingLane : Obligations.CauseEndsAWaitingLane := by
  unfold Obligations.CauseEndsAWaitingLane
  intro s k n cause hwf hstate hn
  let s₁ : State := { s with waitList := s.waitList.filter fun w => w.lane != k }
  obtain ⟨⟨heq, hframe⟩, hskip⟩ := skipFrom_spec s₁ n 0
  have hcut : cutLane s k cause =
      endSlot (skipFrom s₁ n 0) k n cause.slotEnding.1 cause.slotEnding.2 0xFF#8 := by
    have hw : cutLane s k cause = endWaiting s k cause := by
      unfold cutLane
      rcases hstate with h | h <;> rw [h]
    rw [hw]
    unfold endWaiting
    rw [hn]
  refine ⟨skipFrom s₁ n 0, ?_, fun i hi => (hskip hwf).2 i (Nat.zero_le _) hi, hframe, ?_, ?_, ?_⟩
  · rw [heq]
  · rintro rfl
    exact hcut
  · rintro rfl
    exact hcut
  · rintro (rfl | rfl) <;> exact hcut

/-- Settles O46: the block that serves the step is given up, then the step ends with what it has reached. -/
theorem causeEndsASteppingLane : Obligations.CauseEndsASteppingLane := by
  unfold Obligations.CauseEndsASteppingLane
  intro s k n i r cause hs hp kept rest result ends
  obtain ⟨hstate, hn, hi, hr⟩ := hs
  have hkept : settleHalfPair s k cause = kept := by
    unfold settleHalfPair
    cases cause <;> rfl
  have hrest : stopServing (settleHalfPair s k cause) k = rest := by
    obtain ⟨-, -, hphase⟩ := endStepNow_rest s k cause
    unfold stopServing
    rw [hphase, hkept]
    dsimp only [rest]
    cases (s.lane k).phase <;> rfl
  have hresult (o : StepOutcome) (d : StepDetail) : s.partialResult k o d = result o d := by
    unfold State.partialResult
    dsimp only
    rw [hr]
    obtain ⟨cont, timeout, cmd⟩ := r
    cases cmd with
    | link p => exact if_neg hp
    | _ => rfl
  refine ⟨?_, ?_, ?_, ?_, ?_⟩
  · rintro rfl
    unfold timeOutStep
    rw [if_neg hp, ← hresult, ← hrest]
    rfl
  · rintro rfl
    rw [cutLane_stepping hstate hn hi hp (by decide), hrest, resultBy_partial _ _ _ (by decide), hresult]
    rfl
  · rintro rfl
    rw [cutLane_stepping hstate hn hi hp (by decide), hrest, resultBy_partial _ _ _ (by decide), hresult]
    rfl
  · rintro rfl
    rw [cutLane_stepping hstate hn hi hp (by decide), hrest, resultBy_partial _ _ _ (by decide), hresult]
    rfl
  · rintro rfl
    rw [cutLane_stepping hstate hn hi hp (by decide), hrest]
    rfl

/-- Settles O47: the order, its cause, its end, and what it makes of each element of the transfer. -/
theorem windDownGoesToTheNextStop : Obligations.WindDownGoesToTheNextStop := by
  unfold Obligations.WindDownGoesToTheNextStop
  intro s k cause w limit
  have hlimit : limit ↔ s.linkWaitOver = true := (linkWaitOver_eq_true s).symm
  refine ⟨fun hstate hp h => ?marks, fun hstate hp hl hn => ?start, fun hstate hc => ?recaused, fun hstate hc => ?kept,
    fun n i cont timeout p hn hi hr hp => ?ended, fun p hready hw hn => ?elements⟩
  case marks =>
    have h' : s.link.phase ≠ .start ∨ s.linkWaitOver = true := h.imp_right hlimit.mp
    refine ⟨(cutLane_linking hstate hp).trans (windDown_marks s k cause h'), ?_⟩
    rintro rfl
    exact (timeOutStep_linking hp).trans (windDown_marks s k .stepTimeout h')
  case start =>
    have hcut := (cutLane_linking (cause := cause) hstate hp).trans
      (windDown_start s k cause hl (Bool.eq_false_iff.mpr (mt hlimit.mpr hn)))
    refine ⟨?_, fun hd => hcut.trans (if_pos hd), fun hd => hcut.trans (if_neg (Bool.eq_false_iff.mp hd))⟩
    rintro rfl
    rw [timeOutStep_linking hp, cutLane_linking hstate hp]
  case recaused => exact (cutLane_winding hstate).trans (if_pos hc)
  case kept => exact (cutLane_winding hstate).trans (if_neg hc)
  case ended =>
    intro result ends
    have hresult (hc : cause ≠ .safeRace) : s.resultBy k cause = result cause.outcome.1 cause.outcome.2 :=
      (resultBy_partial s k cause hc).trans (partialResult_linking hr hp _ _)
    refine ⟨?_, ?_, ?_, ?_, ?_⟩
    · rintro rfl
      rw [← show s.resultBy k .stepTimeout = result .timeout .step from hresult (by decide)]
      rfl
    all_goals rintro rfl
    · rw [endWindDown_ends hn hi (by decide), hresult (by decide)]
      rfl
    · rw [endWindDown_ends hn hi (by decide), hresult (by decide)]
      rfl
    · rw [endWindDown_ends hn hi (by decide), hresult (by decide)]
      rfl
    · rw [endWindDown_ends hn hi (by decide)]
      rfl
  case elements =>
    intro x stops
    have hover : s.linkWaitOver = false := Bool.eq_false_iff.mpr (mt hlimit.mpr hn)
    have hexec (c : Instr) (f : State → State) (hc : exec c s = .next (whenReady f s)) : exec c s = .next (f s) := by
      rw [hc, whenReady_ready hready]
    refine ⟨fun h => ?startDone, fun h => ?restartDone, fun h => ⟨fun hm ack => ?probe, fun hm hm' => ?address⟩,
      fun h ack => ?register, fun h => ?write, fun h => ⟨fun hn he b => ?extra, fun hn he ho b => ?byte, fun hn => ?ack⟩⟩
    case startDone =>
      refine (hexec _ linkStartDone rfl).trans (congrArg _ ?_)
      unfold linkStartDone
      rw [linkServed_of_serves h hover]
      exact (if_pos h.2.2).trans (if_pos hw)
    case restartDone =>
      refine (hexec _ linkRestartDone rfl).trans (congrArg _ ?_)
      unfold linkRestartDone
      rw [linkServed_of_serves h hover]
      exact (if_pos h.2.2).trans (if_pos hw)
    case probe =>
      refine (hexec _ (linkByteSent ack) rfl).trans (congrArg _ ?_)
      rw [linkByteSent_winding h hover hw (.inl rfl), windingSent_probe h.2.2 ((LinkMode.probes_iff _).mpr hm)]
      rfl
    case address =>
      have hprobe : p.mode.probes = false := Bool.eq_false_iff.mpr fun hc => by
        rcases (LinkMode.probes_iff _).mp hc with hc | hc
        · exact hm hc
        · exact hm' hc
      have hsent (ack : Bool) : exec (.linkByteSent ack) s = .next (s.setLink (windingSent x p ack)) :=
        (hexec _ (linkByteSent ack) rfl).trans (congrArg _ (linkByteSent_winding h hover hw (.inl rfl) ack))
      refine ⟨fun hr => ?_, fun hr => ?_, ?_⟩
      · rw [hsent, windingSent_read h.2.2 hprobe hr]
        rfl
      · exact (hsent true).trans (by rw [windingSent_address h.2.2 hprobe (.inr hr)]; rfl)
      · exact (hsent false).trans (by rw [windingSent_address h.2.2 hprobe (.inl rfl)]; rfl)
    case register =>
      refine (hexec _ (linkByteSent ack) rfl).trans (congrArg _ ?_)
      rw [linkByteSent_winding h hover hw (.inr (.inl rfl)), windingSent_register h.2.2]
      rfl
    case write =>
      have hsent (ack : Bool) : exec (.linkByteSent ack) s =
          .next (s.setLink ({ x with bytes := if ack then x.bytes + 1 else x.bytes }.beginStop .normal)) := by
        refine (hexec _ (linkByteSent ack) rfl).trans (congrArg _ ?_)
        rw [linkByteSent_winding h hover hw (.inr (.inr rfl)), windingSent_write h.2.2]
      exact ⟨hsent true, hsent false⟩
    case extra =>
      refine (hexec _ (linkByteRead b) rfl).trans (congrArg _ ?_)
      unfold linkByteRead
      rw [linkServed_of_serves h hover]
      exact (if_pos ⟨h.2.2, hn⟩).trans (if_pos he)
    case byte =>
      refine (hexec _ (linkByteRead b) rfl).trans (congrArg _ ?_)
      unfold linkByteRead
      rw [linkServed_of_serves h hover]
      refine (if_pos ⟨h.2.2, hn⟩).trans ((if_neg (Bool.eq_false_iff.mp he)).trans ?_)
      rw [storeWindow_byte s k ho]
      rfl
    case ack =>
      refine (hexec _ linkReadAckBitEnd rfl).trans (congrArg _ ?_)
      unfold linkReadAckBitEnd
      rw [linkServed_of_serves h hover]
      refine (if_pos ⟨h.2.2, hn⟩).trans (if_pos ?_)
      rw [hw]
      rfl

end

