-- ==== Sys2Proof/Proofs/Go.lean ====
section
/-! GO (O48): which lanes it releases, which channels its apply part acts on, and the marks that part sets. -/

namespace Sys2Proof.Machine

/-- The lanes released are the named ones that wait for a GO (R41). -/
theorem released_eq (s : State) (lanes : BitVec 4) :
    s.released lanes = allLanes.filter fun k =>
      inLanes lanes k && ((s.lane k).state == .gated || ((s.lane k).state == .stepping && (s.lane k).phase == .awaitGo)) := by
  unfold State.released lanesOf
  rw [List.filter_filter]
  refine List.filter_congr fun k _ => ?_
  rw [Bool.and_comm]
  rfl

/-- The channels of the apply part, by their owners (R81). -/
theorem appliedChans_eq (s : State) (lanes : BitVec 4) :
    s.appliedChans lanes =
      (allLanes.filter (inLanes lanes)).flatMap fun k => allChans.filter fun c => s.ownerOf c == some k := by
  unfold State.appliedChans lanesOf
  congr 1
  funext k
  refine List.filter_congr fun c _ => ?_
  rw [inChans_chansHeld, Bool.eq_iff_iff]
  simp

theorem mem_appliedChans (s : State) (lanes : BitVec 4) (c : ChanId) :
    c ∈ s.appliedChans lanes ↔ ∃ k, inLanes lanes k = true ∧ s.ownerOf c = some k := by
  rw [appliedChans_eq]
  simp [mem_allLanes, mem_allChans]

/-- Each claimed channel has one owner, so the apply part acts on it once. -/
theorem nodup_appliedChans (s : State) (lanes : BitVec 4) : (s.appliedChans lanes).Nodup := by
  rw [appliedChans_eq, List.nodup_flatMap]
  refine ⟨fun k _ => nodup_allChans.filter _, (nodup_allLanes.filter _).imp ?_⟩
  intro j k hjk c hj hk
  simp only [List.mem_filter, beq_iff_eq] at hj hk
  exact hjk (Option.some.inj (hj.2.symm.trans hk.2))

/-- What the apply part leaves (R73, R81). -/
theorem applyPart_spec (s : State) (lanes : BitVec 4) :
    ReportedOnly s (applyPart s lanes).1 ∧
      ∀ c, (applyPart s lanes).1.chan c =
        if c ∈ s.appliedChans lanes then (s.chan c).applied else s.chan c :=
  reported_spec applyOn (fun s c => (s.chan c).applied) applyOn_chansOnly applyOn_chan
    (fun s c d h => by simp only [applyOn_chan, if_neg (Ne.symm h)]) (fun _ _ d h => by simp only [h.chan d]) _
    (nodup_appliedChans s lanes) s

/-- A channel without an owner is not applied. -/
theorem applyPart_chan_free {s : State} (lanes : BitVec 4) {c : ChanId} (h : s.ownerOf c = none) :
    (applyPart s lanes).1.chan c = s.chan c := by
  rw [(applyPart_spec s lanes).2, if_neg]
  rw [mem_appliedChans, h]
  simp

/-- A claimed channel is applied when its owner is named. -/
theorem applyPart_chan_owned {s : State} (lanes : BitVec 4) {c : ChanId} {k : LaneId} (h : s.ownerOf c = some k) :
    (applyPart s lanes).1.chan c = if inLanes lanes k = true then (s.chan c).applied else s.chan c := by
  rw [(applyPart_spec s lanes).2]
  refine if_congr ?_ rfl rfl
  rw [mem_appliedChans, h]
  simp

/-- Applies on channels one after another mark those that had a pending target (R121, R124). -/
theorem foldl_applyOn_marks (cs : List ChanId) (hn : cs.Nodup) (s : State) :
    s.marksDisturbed (cs.foldl applyOn s) fun c => (s.chan c).pending ≠ none ∧ c ∈ cs := by
  have h := foldl_marks applyOn (fun s c => (s.chan c).pending ≠ none) applyOn_chansOnly
    (fun s c d hd => by rw [applyOn_chan, if_neg hd]) (fun s c => applyOn_marks s c)
    (fun s c d h => by rw [applyOn_chan, if_neg (Ne.symm h)]) cs hn s
  simpa only [and_comm] using h

/-- What GO answers and does outside device reset. -/
theorem exec_go {s : State} (h : s.ready = true) (lanes : BitVec 4) (apply : Bool) :
    exec (.go lanes apply) s = .next (go lanes apply (s.judged 80 [])) := by
  show Host.Outcome.next (asCommand (go lanes apply) s) = _
  rw [asCommand_ready _ s h]

end Sys2Proof.Machine

open Sys2Proof Sys2Proof.Machine

/-- Settles O48: the release part, the apply part, one apply, and the release of one lane. -/
theorem goAppliesThenReleases : Obligations.GoAppliesThenReleases := by
  unfold Obligations.GoAppliesThenReleases
  intro s lanes waits ks verdict framed
  have hks : framed.released lanes = ks := released_eq framed lanes
  refine ⟨fun hready => ?_, fun hready => ?_, fun c => ?_, fun k => ⟨fun h => if_pos h, fun hs hp => ?_⟩⟩
  · rw [exec_go hready]
    show Host.Outcome.next (go lanes false framed) = _
    unfold go
    rw [hks]
    rfl
  · intro cs
    have hcs : framed.appliedChans lanes = cs := appliedChans_eq framed lanes
    have hpart : applyPart framed lanes = reported applyOn cs framed := by
      unfold applyPart
      rw [hcs]
    have hn : cs.Nodup := hcs ▸ nodup_appliedChans framed lanes
    have honly := (applyPart_spec framed lanes).1
    rw [hpart] at honly
    refine ⟨(reported applyOn cs framed).1, (reported applyOn cs framed).2, rfl, honly, fun c => ?_, ?_, fun hq => ?_⟩
    · rw [← hpart]
      cases ho : s.ownerOf c with
      | none => exact applyPart_chan_free lanes ho
      | some k =>
        refine (applyPart_chan_owned (s := framed) lanes ho).trans ?_
        show (if inLanes lanes k = true then (s.chan c).applied else s.chan c) = _
        unfold Channel.applied
        cases (s.chan c).pending with
        | none => exact ite_self _
        | some p => rfl
    · rw [exec_go hready]
      show Host.Outcome.next (go lanes true framed) = _
      unfold go
      dsimp only
      rw [hks, if_pos rfl, hpart]
      rfl
    · have hquiet := reported_quiet applyOn applyOn_chansOnly cs framed hq
      have hkeeps := (foldl_applyOn cs hn framed).1.keeps
      obtain ⟨-, hlanes, -, -, -, -, -, -, -, -, hmon, -⟩ := hkeeps
      rw [hquiet]
      exact ⟨rfl, hlanes, hmon, marksDisturbed_of_mem (foldl_applyOn_marks cs hn framed) rfl rfl rfl rfl⟩
  · refine ⟨applyOn s c, rfl, applyOn_chansOnly s c, fun d hd => ?_, applyOn_marks s c⟩
    rw [applyOn_chan, if_neg hd]
  · have hgo : (s.lane k).awaitsGo = true := by
      unfold Lane.awaitsGo
      rw [hs, hp]
      rfl
    show releaseGo s k = _
    unfold releaseGo
    rw [if_neg (by rw [hs]; decide), if_pos hgo]
    rfl

end

