-- ==== Sys2Proof/Proofs/Ticks.lean ====
section
/-! A tick boundary and the expiries of the lanes' timers (O34, O35), and the device reset (O60). -/

namespace Sys2Proof.Machine

/-! ### The monitor's expiry, as far as TICK needs it -/

/-- The intake's part of the safe order changes the engine alone. -/
theorem safeIntake_engine (s : State) : EngineOnly s (safeIntake s) := by
  have h := (foldl_endUnrun .safeAbort (allLanes.flatMap s.queue ++ s.parked) s).1
  unfold safeIntake
  dsimp only
  generalize (allLanes.flatMap s.queue ++ s.parked).foldl (endUnrun .safeAbort) s = t at h ⊢
  rw [h]
  rfl

/-- An expiry that is due enters SAFE and changes nothing else but the engine (R160). -/
theorem monitorExpiry_engine {s : State} (h : s.holdSafe.state = .watching ∧ s.holdSafe.expiryDue = true) :
    EngineOnly (enterSafe s) (monitorExpiry s) := by
  unfold monitorExpiry
  rw [if_pos h]
  exact ((((clearClaims_spec (enterSafe s)).1.engine.trans (safeLanes_engine _)).trans (safeIntake_engine _)).trans
    (foldl_safeOn _).1.engine).trans (foldl_safeLineOn _).1.engine

theorem monitorExpiry_holdSafe {s : State} (h : s.holdSafe.state = .watching ∧ s.holdSafe.expiryDue = true) :
    (monitorExpiry s).holdSafe = ⟨.safe, s.holdSafe.count, false⟩ := by
  obtain ⟨-, -, -, -, -, -, -, -, -, -, -, -, -, hs⟩ := (monitorExpiry_engine h).keeps
  exact hs

theorem monitorExpiry_ready (s : State) : (monitorExpiry s).ready = s.ready := by
  by_cases h : s.holdSafe.state = .watching ∧ s.holdSafe.expiryDue = true
  · exact (monitorExpiry_engine h).keeps.2.1
  · rw [monitorExpiry_not_due s h]

/-! ### The boundary -/

theorem tickTimer_eq_map (timer : Option Nat) : tickTimer timer = timer.map fun n => n - 1 := by
  cases timer <;> rfl

theorem tickBoundary_lane (s : State) (k : LaneId) : (tickBoundary s).lane k = (s.lane k).atTick :=
  vec4_get (fun k => (s.lane k).atTick) k

theorem Lane.atTick_eq (l : Lane) :
    l.atTick = { l with
      stepTimer := l.stepTimer.map fun n => n - 1, planTimer := l.planTimer.map fun n => n - 1,
      interval := l.interval.map fun n => n - 1,
      ticks := if (l.state = .stepping ∨ l.state = .winding) ∧ l.ticks < 65535 then l.ticks + 1 else l.ticks,
      entered := false } := by
  unfold Lane.atTick
  rw [tickTimer_eq_map, tickTimer_eq_map, tickTimer_eq_map]
  rfl

/-- While the wire is waited for, its free value decides what is counted (R142; log 13). -/
theorem Link.atTick_waited {x : Link} {stretch : Nat} (hg : x.grantee ≠ none) (hw : x.waited < stretch) (wire : WireWait) :
    (wire = .none → (x.atTick wire stretch).waited = 0) ∧ (wire = .begun → (x.atTick wire stretch).waited = 1) ∧
      (wire = .goesOn → (x.atTick wire stretch).waited = x.waited + 1) := by
  have h : ¬(x.grantee = none ∨ stretch ≤ x.waited) := fun h => h.elim hg (Nat.not_le.mpr hw)
  unfold Link.atTick
  rw [if_neg h]
  refine ⟨?_, ?_, ?_⟩ <;> rintro rfl <;> rfl

/-- A WATCHING monitor at a boundary (R158). -/
theorem HoldSafe.atTick_watching {h : HoldSafe} {window : Nat} (hs : h.state = .watching) :
    (h.count + 1 < window → h.atTick window = ⟨.watching, h.count + 1, false⟩) ∧
    (h.count + 1 = window → h.atTick window = ⟨.watching, window, true⟩) ∧
    (window ≤ h.count → h.atTick window = ⟨.watching, h.count, true⟩) := by
  unfold HoldSafe.atTick
  rw [if_pos hs]
  dsimp only
  rw [hs]
  refine ⟨fun hc => ?_, fun hc => ?_, fun hc => ?_⟩
  · rw [if_pos (by omega), decide_eq_false (by omega)]
  · rw [if_pos (by omega), decide_eq_true (by omega), hc]
  · rw [if_neg (by omega), decide_eq_true (by omega)]

/-! ### Expiries -/

theorem Lane.due_eq_true {l : Lane} {p : Phase} (hp : l.phase = p) (hi : l.interval = some 0) : l.due p = true := by
  unfold Lane.due
  rw [hp, hi]
  simp

theorem Lane.due_eq_false {l : Lane} (p : Phase) (hi : l.interval ≠ some 0) : l.due p = false := by
  unfold Lane.due
  simp [hi]

/-- The trigger line of an EDGE cycle is at the active level when it is high for a rising edge, low for a falling one. -/
theorem triggerActive_iff {s : State} {k : LaneId} {p : CycleParams} (hp : (s.lane k).cycleParams = some p)
    (hm : p.mode = .edgeRise ∨ p.mode = .edgeFall) :
    s.triggerActive k = true ↔ (p.mode = .edgeRise ↔ (s.line p.line).level = true) := by
  unfold State.triggerActive
  rw [hp]
  rcases hm with hm | hm <;> simp [CycleParams.activeLevel, hm]

/-! ### The end of a device reset -/

/-- The registers after it (section 11.2): READY and CONFIG_DEFAULT, with MONITOR_ON under a high strap. -/
theorem endReset_registers (strap : Bool) (levels : BitVec 8) (s : State) :
    (endReset strap levels s).statusReg = (if strap then 0x0D#32 else 0x09#32) ∧
    (endReset strap levels s).resultReg = 0 ∧ (endReset strap levels s).finishedReg = 0 ∧
    (endReset strap levels s).tick = 0 ∧ (endReset strap levels s).crcCountReg = 0 := by
  refine ⟨?_, ?_, ?_, rfl, ?_⟩
  · show (flagBit true 0 ||| flagBit ((HoldSafe.reset strap).state == .safe) 1 |||
      flagBit ((HoldSafe.reset strap).state != .disabled) 2 ||| flagBit true 3 ||| flagBit false 4 ||| flagBit false 5 |||
      flagBit (true && ((0#22 != 0) || ((HoldSafe.reset strap).state == .safe))) 6 : Word) = _
    cases strap <;> decide
  · show word 0 0 0 0 = 0#32
    decide
  · show BitVec.zeroExtend 32 0#22 = 0#32
    decide
  · show BitVec.zeroExtend 32 0#8 = 0#32
    decide

end Sys2Proof.Machine

open Sys2Proof Sys2Proof.Machine

/-- Settles O34: the expiry that comes before the boundary, and the boundary block by block. -/
theorem tickCountsOnce : Obligations.TickCountsOnce := by
  unfold Obligations.TickCountsOnce
  intro s hready h left due
  have hexec {u : State} (hu : u.ready = true) : exec .tick u = .next (tick u) :=
    congrArg Host.Outcome.next (whenReady_ready hu tick)
  refine ⟨fun hdue => ?_, fun hdue => ?_⟩
  · have hhold := monitorExpiry_holdSafe hdue
    have hsafe : (monitorExpiry s).safe = true := by
      rw [safe_eq_decide, hhold]
      rfl
    refine ⟨monitorExpiry s, congrArg Host.Outcome.next (whenReady_ready hready monitorExpiry), hsafe, ?_⟩
    rw [hexec hready, hexec ((monitorExpiry_ready s).trans hready), tick_not_due (monitorExpiry s)]
    · rfl
    · rw [hhold]
      simp
  · refine ⟨tickBoundary s, ?_, ?_, fun k => ?_, fun hl => ?_, fun hg hw => ?_, fun hs => ?_,
      fun hs => (HoldSafe.atTick_watching hs).1, fun hs => (HoldSafe.atTick_watching hs).2.1,
      fun hs => (HoldSafe.atTick_watching hs).2.2⟩
    · rw [hexec hready, tick_not_due s hdue]
    · show tickBoundary s = _
      unfold tickBoundary Converter.atTick
      rw [tickTimer_eq_map, Link.atTick_keeps]
    · rw [tickBoundary_lane, Lane.atTick_eq]
    · exact congrArg Link.waited (Link.atTick_over s.link _ _ hl)
    · exact Link.atTick_waited hg hw _
    · exact HoldSafe.atTick_still h _ hs

/-- Settles O35, timer by timer. -/
theorem expiriesReachTheirLane : Obligations.ExpiriesReachTheirLane := by
  unfold Obligations.ExpiriesReachTheirLane
  intro s k hready
  have hexec {c : Instr} (f : State → State) (hc : exec c s = .next (whenReady f s)) : exec c s = .next (f s) := by
    rw [hc, whenReady_ready hready]
  refine ⟨fun hs ht => ?_, fun ht => ?_, fun ht => ?_, fun ht => ?_, fun hi => ⟨?_, ?_, ?_, ?_⟩, fun hi => ?_⟩
  · exact (hexec (stepTimeout k) rfl).trans (congrArg _ (if_pos ⟨hs, ht⟩))
  · exact (hexec (stepTimeout k) rfl).trans (congrArg _ (if_neg fun h => ht h.2))
  · exact (hexec (planTimeout k) rfl).trans (congrArg _ (if_pos ht))
  · exact (hexec (planTimeout k) rfl).trans (congrArg _ (if_neg ht))
  · exact (hexec (delayExpiry k) rfl).trans (congrArg _ (if_neg (Bool.eq_false_iff.mp (Lane.due_eq_false _ hi))))
  · exact (hexec (triggerDelayExpiry k) rfl).trans (congrArg _ (if_neg (Bool.eq_false_iff.mp (Lane.due_eq_false _ hi))))
  · exact (hexec (confirmationExpiry k) rfl).trans (congrArg _ (if_neg (Bool.eq_false_iff.mp (Lane.due_eq_false _ hi))))
  · exact (hexec (pollIntervalExpiry k) rfl).trans (congrArg _ (if_neg (Bool.eq_false_iff.mp (Lane.due_eq_false _ hi))))
  · intro u
    refine ⟨fun cont timeout n hr hp => ?_, fun hp => ?_, fun p hc hp hm => ⟨fun ha => ?_, fun ha => ?_⟩, fun hp => ?_⟩
    · have hcount : (s.lane k).delayCount = n := by
        unfold Lane.delayCount
        rw [hr]
        rfl
      refine (hexec (delayExpiry k) rfl).trans (congrArg _ ?_)
      unfold delayExpiry
      rw [if_pos (Lane.due_eq_true hp hi), hcount]
      exact congrArg (fun m => finishAct (stepEnd s k (plainResult .pass .none m))) Nat.min_def
    · exact (hexec (triggerDelayExpiry k) rfl).trans (congrArg _ (if_pos (Lane.due_eq_true hp hi)))
    · refine (hexec (confirmationExpiry k) rfl).trans (congrArg _ ?_)
      exact (if_pos (Lane.due_eq_true hp hi)).trans (if_pos ((triggerActive_iff hc hm).mpr ha))
    · refine (hexec (confirmationExpiry k) rfl).trans (congrArg _ ?_)
      refine (if_pos (Lane.due_eq_true hp hi)).trans ((if_neg (mt (triggerActive_iff hc hm).mp ha)).trans ?_)
      exact State.setLane_setPhase s k _ _
    · exact (hexec (pollIntervalExpiry k) rfl).trans (congrArg _ (if_pos (Lane.due_eq_true hp hi)))

/-- Settles O60: the blocks as the reset's beginning clears them, and the state its end gives. -/
theorem deviceResetCutsThenClears : Obligations.DeviceResetCutsThenClears := by
  unfold Obligations.DeviceResetCutsThenClears
  intro s
  refine ⟨⟨beginReset s, rfl, ?_⟩, fun hr strap levels => ⟨endReset strap levels s, ?_, ?_⟩⟩
  · obtain ⟨hblocks, hlines⟩ := resetBlocks_spec s
    unfold beginReset
    generalize s.resetBlocks = t at hblocks hlines ⊢
    rw [hblocks]
    refine ⟨rfl, rfl, rfl, fun k => ⟨vec4_get _ k, vec4_get _ k⟩, rfl, ⟨vec16_get _, vec8_get _, rfl⟩, vec16_get _,
      hlines, rfl, rfl, rfl, rfl⟩
  · exact congrArg Host.Outcome.next (if_neg (Bool.eq_false_iff.mp hr))
  · obtain ⟨hstatus, hresult, hfinished, htick, hcrc⟩ := endReset_registers strap levels s
    refine ⟨rfl, rfl, fun a => rfl, hstatus, hresult, hfinished, htick, hcrc,
      fun c => ⟨vec16_get _ c, vec16_get _ c, vec16_get _ c⟩, fun l => ⟨vec8_get _ l, vec8_get _ l⟩,
      fun k => ⟨vec4_get _ k, vec4_get _ k⟩, rfl, rfl, rfl, fun g => ?_, rfl, rfl, rfl, rfl, rfl, rfl⟩
    have hg : (endReset strap levels s).group g = { running := Timing.default, pending := none } := vec4_get _ g
    rw [hg]
    exact ⟨rfl, rfl⟩

end

