-- ==== Sys2Proof/Proofs/EventsKeep.lean ====
section
/-! What no event inside the part touches, and that no command touches the queue of commands (O4). -/

namespace Sys2Proof.Machine

/-! ### Elements of a transfer -/

/-- Nothing but memory and the link differs, and the link serves and queues the same lanes, winding down or not. -/
def ElementOnly (s t : State) : Prop :=
  t = { s with mem := t.mem, link := t.link } ∧ t.link.grantee = s.link.grantee ∧ t.link.queue = s.link.queue ∧
    t.link.windDown = s.link.windDown

theorem ElementOnly.refl (s : State) : ElementOnly s s := ⟨rfl, rfl, rfl, rfl⟩

theorem setLink_elementOnly (s : State) {x : Link} (hg : x.grantee = s.link.grantee) (hq : x.queue = s.link.queue)
    (hw : x.windDown = s.link.windDown) : ElementOnly s (s.setLink x) := ⟨rfl, hg, hq, hw⟩

theorem linkStartDone_elementOnly (s : State) : ElementOnly s (linkStartDone s) := by
  unfold linkStartDone
  split
  · exact .refl s
  · split_ifs
    · exact setLink_elementOnly s rfl rfl rfl
    · exact setLink_elementOnly s rfl rfl rfl
    · exact .refl s

theorem linkRestartDone_elementOnly (s : State) : ElementOnly s (linkRestartDone s) := by
  unfold linkRestartDone
  split
  · exact .refl s
  · split_ifs
    · exact setLink_elementOnly s rfl rfl rfl
    · exact setLink_elementOnly s rfl rfl rfl
    · exact .refl s

theorem linkReadAckBitEnd_elementOnly (s : State) : ElementOnly s (linkReadAckBitEnd s) := by
  unfold linkReadAckBitEnd
  split
  · exact .refl s
  · split_ifs
    · exact setLink_elementOnly s rfl rfl rfl
    · exact setLink_elementOnly s rfl rfl rfl
    · exact .refl s

theorem linkByteRead_elementOnly (b : Byte) (s : State) : ElementOnly s (linkByteRead b s) := by
  unfold linkByteRead
  split
  · exact .refl s
  · split_ifs
    · exact setLink_elementOnly s rfl rfl rfl
    · rw [storeWindow_mem]
      exact ⟨rfl, rfl, rfl, rfl⟩
    · exact .refl s

theorem addressSent_elementOnly (s : State) (p : LinkParams) (ack : Bool) : ElementOnly s (addressSent s p ack) := by
  unfold addressSent
  dsimp only
  split_ifs <;> exact setLink_elementOnly s rfl rfl rfl

theorem registerSent_elementOnly (s : State) (k : LaneId) (p : LinkParams) (ack : Bool) :
    ElementOnly s (registerSent s k p ack) := by
  unfold registerSent registersSent
  split_ifs
  · exact setLink_elementOnly s rfl rfl rfl
  · exact setLink_elementOnly s rfl rfl rfl
  · split <;> exact setLink_elementOnly s rfl rfl rfl

theorem dataSent_elementOnly (s : State) (k : LaneId) (p : LinkParams) (ack : Bool) :
    ElementOnly s (dataSent s k p ack) := by
  unfold dataSent
  dsimp only
  split_ifs <;> exact setLink_elementOnly s rfl rfl rfl

theorem windingSent_elementOnly (s : State) (p : LinkParams) (ack : Bool) :
    ElementOnly s (s.setLink (windingSent s.link p ack)) := by
  unfold windingSent
  split
  · split_ifs <;> exact setLink_elementOnly s rfl rfl rfl
  · exact setLink_elementOnly s rfl rfl rfl
  · exact setLink_elementOnly s rfl rfl rfl

theorem linkByteSent_elementOnly (ack : Bool) (s : State) : ElementOnly s (linkByteSent ack s) := by
  unfold linkByteSent
  split
  · exact .refl s
  · split
    · split_ifs
      · exact windingSent_elementOnly s _ ack
      · exact addressSent_elementOnly s _ ack
    · split_ifs
      · exact windingSent_elementOnly s _ ack
      · exact registerSent_elementOnly s _ _ ack
    · split_ifs
      · exact windingSent_elementOnly s _ ack
      · exact dataSent_elementOnly s _ _ ack
    · exact .refl s

/-! ### Events -/

/-- Nothing but the engine, the ramp moves due and the last verified duties differs. -/
def EventOnly (s t : State) : Prop :=
  t = { s with mem := t.mem, queues := t.queues, parked := t.parked, finished := t.finished, lanes := t.lanes,
               chanOwner := t.chanOwner, lineOwner := t.lineOwner, waitList := t.waitList, channels := t.channels,
               converter := t.converter, monitor := t.monitor, watches := t.watches, lines := t.lines, link := t.link,
               freeIndex := t.freeIndex, rampMovesDue := t.rampMovesDue, lastVerified := t.lastVerified }

theorem EventOnly.refl (s : State) : EventOnly s s := rfl

theorem EventOnly.trans {s t u : State} (h : EventOnly s t) (g : EventOnly t u) : EventOnly s u := by
  unfold EventOnly at *
  rw [g, h]

theorem EngineOnly.event {s t : State} (h : EngineOnly s t) : EventOnly s t := by
  unfold EngineOnly at h
  unfold EventOnly
  rw [h]

theorem PhasesOnly.engine {s t : State} (h : PhasesOnly s t) : EngineOnly s t := by
  obtain ⟨h, -⟩ := h
  unfold EngineOnly
  rw [h]

theorem ElementOnly.engine {s t : State} (h : ElementOnly s t) : EngineOnly s t := by
  obtain ⟨h, -⟩ := h
  unfold EngineOnly
  rw [h]

theorem EventOnly.keeps {s t : State} (h : EventOnly s t) :
    t.pending = s.pending ∧ t.ready = s.ready ∧ t.configDefault = s.configDefault ∧ t.crcFlag = s.crcFlag ∧
    t.portFault = s.portFault ∧ t.crcCount = s.crcCount ∧ t.result = s.result ∧ t.frame = s.frame ∧
    t.config = s.config ∧ t.tick = s.tick ∧ t.groups = s.groups ∧ t.holdSafe = s.holdSafe := by
  unfold EventOnly at h
  rw [h]
  simp

/-- An act carried out after a change that an event may make. -/
theorem finishAct_eventOnly {s : State} {a : Act} (h : EventOnly s a.1) : EventOnly s (finishAct a) :=
  h.trans (finishAct_engine a).event

theorem rampMove_eventOnly (s : State) : EventOnly s (rampMove s) := by
  unfold rampMove
  split
  · exact .refl s
  · have h : EventOnly s { s with rampMovesDue := s.rampMovesDue - 1 } := rfl
    exact finishAct_eventOnly
      (h.trans (reported_engine (fun s c => (changeChan_chansOnly s c _).engine) allChans _).event)

theorem endCycle_engine (s : State) (k : LaneId) (v : StepOutcome × StepDetail) : EngineOnly s (endCycle s k v).1 :=
  ((completeHalfPair_engine s k _).trans (releaseConverter_engine _)).trans (stepEnd_engine _ k _)

theorem beginSampleWait_engine (s : State) (k : LaneId) (p : CycleParams) : EngineOnly s (beginSampleWait s k p) := by
  unfold beginSampleWait nextConversion
  split <;> rfl

theorem recordConversion_engine (s : State) (k : LaneId) (p : CycleParams) (code : Duty) :
    EngineOnly s (recordConversion s k p code).1 := by
  have h := (withConverter_engine s (s.converter.record code)).trans
    (storeSample_engine { s with converter := s.converter.record code } k s.converter.count code)
  unfold recordConversion
  dsimp only
  generalize storeSample { s with converter := s.converter.record code } k s.converter.count code = u at h ⊢
  split_ifs
  · exact h.trans (endCycle_engine u k _)
  · exact h.trans (endCycle_engine u k _)
  · exact h.trans (endCycle_engine u k _)
  · exact h.trans (beginSampleWait_engine u k p)

theorem conversionEnd_eventOnly (code : Duty) (s : State) : EventOnly s (conversionEnd code s) := by
  unfold conversionEnd
  split
  · exact finishAct_eventOnly (recordConversion_engine s _ _ code).event
  · exact .refl s

theorem sampleWaitExpiry_eventOnly (s : State) : EventOnly s (sampleWaitExpiry s) := by
  unfold sampleWaitExpiry
  split <;> rfl

theorem confirmTrigger_engine (s : State) (k : LaneId) (p : CycleParams) : EngineOnly s (confirmTrigger s k p) := by
  unfold confirmTrigger
  split
  · exact requestConverter_engine s k
  · rfl

theorem handLevel_engine (s : State) (l : LineId) (k : LaneId) : EngineOnly s (handLevel s l k) := by
  unfold handLevel
  split
  · rfl
  · split
    · split
      · exact confirmTrigger_engine s k _
      · split <;> rfl
      · rfl
    · rfl

theorem levelChange_eventOnly (l : LineId) (s : State) : EventOnly s (levelChange l s) := by
  have hline : EngineOnly s (s.putLine l (s.line l).levelChanged) := rfl
  unfold levelChange
  dsimp only
  split
  · exact (hline.trans (handLevel_engine _ l _)).event
  · exact hline.event

theorem channelPeriodStart_eventOnly (c : ChanId) (high low : Nat) (s : State) :
    EventOnly s (channelPeriodStart c high low s) := by
  unfold channelPeriodStart
  dsimp only
  split_ifs <;> rfl

theorem measurementEnd_eventOnly (s : State) : EventOnly s (measurementEnd s) := by
  have hend : ∀ k c mask, EventOnly s (endMeasurement s k c mask).1 := fun k c mask => by
    have hw : ∀ (d : Duty) (w : Watch) (x : DutyMonitor),
        EventOnly s { (s.putVerified c (some d)).putWatch k w with monitor := x } := fun _ _ _ => rfl
    unfold endMeasurement
    dsimp only
    split
    · exact (hw _ _ _).trans (selectChannel_engine _ _).event
    · exact (hw _ _ _).trans ((releaseMonitor_engine _).trans (stepEnd_engine _ _ _)).event
  unfold measurementEnd
  split
  · split
    · exact .refl s
    · split
      · exact (finishAct_eventOnly (hend _ _ _)).trans rfl
      · exact .refl s
  · exact .refl s

theorem reportWindDown_engine (s : State) (k : LaneId) : EngineOnly s (reportWindDown s k).1 := by
  unfold reportWindDown
  split
  · exact endWindDown_engine s k _
  · rfl

theorem endTransfer_engine (s : State) (k : LaneId) (o : StepOutcome) (d : StepDetail) :
    EngineOnly s (endTransfer s k o d).1 := (releaseLink_engine s).trans (stepEnd_engine _ k _)

theorem closeTransfer_engine (s : State) (k : LaneId) (p : LinkParams) : EngineOnly s (closeTransfer s k p).1 := by
  unfold closeTransfer
  split
  · exact endTransfer_engine s k _ _
  · exact endTransfer_engine s k _ _
  · exact endTransfer_engine s k _ _
  · split_ifs
    · exact (releaseLink_engine s).trans (setLane_engine _ k _)
    · exact endTransfer_engine s k _ _

theorem recoveryComplete_eventOnly (s : State) : EventOnly s (recoveryComplete s) := by
  unfold recoveryComplete
  split
  · exact .refl s
  · dsimp only
    split_ifs
    · exact finishAct_eventOnly ((withLink_engine s _).trans (reportWindDown_engine _ _)).event
    · rfl
    · exact .refl s

theorem linkStopComplete_eventOnly (s : State) : EventOnly s (linkStopComplete s) := by
  unfold linkStopComplete
  split
  · exact .refl s
  · split_ifs
    · exact finishAct_eventOnly (reportWindDown_engine s _).event
    · exact finishAct_eventOnly (closeTransfer_engine s _ _).event
    · exact .refl s

theorem busStuck_eventOnly (s : State) : EventOnly s (busStuck s) := by
  unfold busStuck
  split
  · exact .refl s
  · dsimp only
    split_ifs
    · exact finishAct_eventOnly ((withLink_engine s _).trans (reportWindDown_engine _ _)).event
    · exact finishAct_eventOnly ((withLink_engine s _).trans (endTransfer_engine _ _ _ _)).event
    · exact .refl s

theorem stepTimeout_eventOnly (k : LaneId) (s : State) : EventOnly s (stepTimeout k s) := by
  unfold stepTimeout
  split
  · exact finishAct_eventOnly (timeOutStep_engine s k).event
  · exact .refl s

theorem planTimeout_eventOnly (k : LaneId) (s : State) : EventOnly s (planTimeout k s) := by
  unfold planTimeout
  split
  · exact finishAct_eventOnly ((setLane_engine s k _).trans (cutLane_engine _ k _)).event
  · exact .refl s

theorem delayExpiry_eventOnly (k : LaneId) (s : State) : EventOnly s (delayExpiry k s) := by
  unfold delayExpiry
  split
  · exact finishAct_eventOnly (stepEnd_engine s k _).event
  · exact .refl s

theorem triggerDelayExpiry_eventOnly (k : LaneId) (s : State) : EventOnly s (triggerDelayExpiry k s) := by
  unfold triggerDelayExpiry
  split
  · exact ((setLane_engine s k _).trans (requestConverter_engine _ k)).event
  · exact .refl s

theorem confirmationExpiry_eventOnly (k : LaneId) (s : State) : EventOnly s (confirmationExpiry k s) := by
  unfold confirmationExpiry
  split_ifs
  · exact ((setLane_engine s k _).trans (requestConverter_engine _ k)).event
  · exact ((setLane_engine s k _).trans (setLane_engine _ k _)).event
  · exact .refl s

theorem pollIntervalExpiry_eventOnly (k : LaneId) (s : State) : EventOnly s (pollIntervalExpiry k s) := by
  unfold pollIntervalExpiry
  split
  · exact ((setLane_engine s k _).trans (requestLink_engine _ k)).event
  · exact .refl s

/-- What an act leaves, and what doing nothing leaves, `whenReady` leaves. -/
theorem whenReady_kept {f : State → State} (R : State → State → Prop) (h : ∀ s, R s (f s)) (hr : ∀ s, R s s) (s : State) :
    R s (whenReady f s) := by
  unfold whenReady
  split
  · exact h s
  · exact hr s

theorem whenReady_eventOnly {f : State → State} (h : ∀ s, EventOnly s (f s)) (s : State) : EventOnly s (whenReady f s) :=
  whenReady_kept EventOnly h EventOnly.refl s

/-- What an event other than TICK, MONITOR_EXPIRY and GROUP_PERIOD_START changes. -/
theorem exec_eventOnly {c : Instr} {s t : State} (hc : c.isEvent = true) (h : exec c s = .next t) (htick : c ≠ .tick)
    (hexp : c ≠ .monitorExpiry) (hgroup : ∀ g, c ≠ .groupPeriodStart g) : EventOnly s t := by
  cases c with
  | tick => exact absurd rfl htick
  | monitorExpiry => exact absurd rfl hexp
  | groupPeriodStart g => exact absurd rfl (hgroup g)
  | rampMove => obtain rfl := next_inj h; exact whenReady_eventOnly rampMove_eventOnly s
  | stepTimeout k => obtain rfl := next_inj h; exact whenReady_eventOnly (stepTimeout_eventOnly k) s
  | planTimeout k => obtain rfl := next_inj h; exact whenReady_eventOnly (planTimeout_eventOnly k) s
  | delayExpiry k => obtain rfl := next_inj h; exact whenReady_eventOnly (delayExpiry_eventOnly k) s
  | triggerDelayExpiry k => obtain rfl := next_inj h; exact whenReady_eventOnly (triggerDelayExpiry_eventOnly k) s
  | confirmationExpiry k => obtain rfl := next_inj h; exact whenReady_eventOnly (confirmationExpiry_eventOnly k) s
  | pollIntervalExpiry k => obtain rfl := next_inj h; exact whenReady_eventOnly (pollIntervalExpiry_eventOnly k) s
  | sampleWaitExpiry => obtain rfl := next_inj h; exact whenReady_eventOnly sampleWaitExpiry_eventOnly s
  | conversionEnd code => obtain rfl := next_inj h; exact whenReady_eventOnly (conversionEnd_eventOnly code) s
  | levelChange l => obtain rfl := next_inj h; exact whenReady_eventOnly (levelChange_eventOnly l) s
  | channelPeriodStart ch high low =>
    obtain rfl := next_inj h; exact whenReady_eventOnly (channelPeriodStart_eventOnly ch high low) s
  | measurementEnd => obtain rfl := next_inj h; exact whenReady_eventOnly measurementEnd_eventOnly s
  | linkStartDone =>
    obtain rfl := next_inj h; exact whenReady_eventOnly (fun s => (linkStartDone_elementOnly s).engine.event) s
  | linkByteSent ack =>
    obtain rfl := next_inj h; exact whenReady_eventOnly (fun s => (linkByteSent_elementOnly ack s).engine.event) s
  | linkByteRead b =>
    obtain rfl := next_inj h; exact whenReady_eventOnly (fun s => (linkByteRead_elementOnly b s).engine.event) s
  | linkRestartDone =>
    obtain rfl := next_inj h; exact whenReady_eventOnly (fun s => (linkRestartDone_elementOnly s).engine.event) s
  | linkReadAckBitEnd =>
    obtain rfl := next_inj h; exact whenReady_eventOnly (fun s => (linkReadAckBitEnd_elementOnly s).engine.event) s
  | recoveryComplete => obtain rfl := next_inj h; exact whenReady_eventOnly recoveryComplete_eventOnly s
  | linkStopComplete => obtain rfl := next_inj h; exact whenReady_eventOnly linkStopComplete_eventOnly s
  | busStuck => obtain rfl := next_inj h; exact whenReady_eventOnly busStuck_eventOnly s
  | _ => cases hc

/-! ### The three events with more to change -/

/-- Nothing but channels and groups differs after a group period start (R67). -/
theorem groupPeriodStart_keeps (g : GroupId) (s : State) :
    groupPeriodStart g s = { s with channels := (groupPeriodStart g s).channels, groups := (groupPeriodStart g s).groups } := by
  have hput (f : State → ChanId → State) (hf : ∀ u c, f u c = { u with channels := (f u c).channels }) (cs : List ChanId)
      (u : State) : cs.foldl f u = { u with channels := (cs.foldl f u).channels } :=
    foldl_induct (fun v => v = { u with channels := v.channels }) f (fun v c hv => by rw [hf v c, hv]) cs u rfl
  unfold groupPeriodStart
  dsimp only
  split
  · rw [hput awaitStart (fun _ _ => rfl)]
  · rw [hput awaitStart (fun _ _ => rfl), hput cutPeriod (fun _ _ => rfl)]
    rfl

/-- What MONITOR_EXPIRY leaves of the port, whether it is due or not. -/
theorem monitorExpiry_keeps (s : State) :
    EventOnly s { monitorExpiry s with holdSafe := s.holdSafe } := by
  by_cases h : s.holdSafe.state = .watching ∧ s.holdSafe.expiryDue = true
  · have he := monitorExpiry_engine h
    unfold EngineOnly at he
    unfold EventOnly
    rw [he]
    rfl
  · rw [monitorExpiry_not_due s h]
    rfl

/-- What TICK leaves of the port. -/
theorem tick_keeps (s : State) :
    EventOnly s { tick s with holdSafe := s.holdSafe, tick := s.tick } := by
  have h := monitorExpiry_keeps s
  unfold EventOnly at *
  unfold tick tickBoundary
  generalize monitorExpiry s = u at h ⊢
  have hu : u = { s with
      holdSafe := u.holdSafe, mem := u.mem, queues := u.queues, parked := u.parked, finished := u.finished,
      lanes := u.lanes, chanOwner := u.chanOwner, lineOwner := u.lineOwner, waitList := u.waitList,
      channels := u.channels, converter := u.converter, monitor := u.monitor, watches := u.watches, lines := u.lines,
      link := u.link, freeIndex := u.freeIndex, rampMovesDue := u.rampMovesDue, lastVerified := u.lastVerified } :=
    (congrArg (fun v : State => { v with holdSafe := u.holdSafe }) h).trans rfl
  rw [hu]

/-! ### The queue of commands -/

theorem finishAct_pending (a : Act) : (finishAct a).pending = a.1.pending := (finishAct_engine a).keeps.1

theorem renewed_pending (s : State) : s.renewed.pending = s.pending := by
  unfold State.renewed
  split <;> rfl

theorem acceptPost_pending (s : State) (n : SlotId) : (acceptPost s n).1.pending = s.pending := by
  have h : (acceptWrites s n).renewed.pending = s.pending := by
    rw [renewed_pending, (acceptWrites_memOutside s n).1]
  unfold acceptPost
  generalize (acceptWrites s n).renewed = t at h ⊢
  dsimp only
  split <;> exact h

theorem post_pending (b : Byte) (s : State) : (post b s).pending = s.pending := by
  unfold post
  split
  · rfl
  · split
    · rfl
    · rw [finishAct_pending, acceptPost_pending]

theorem abortAt_pending (s : State) (n : SlotId) (p : Place) : (abortAt s n p).1.pending = s.pending := by
  unfold abortAt
  split
  · rw [endUnrun_eq]
    rfl
  · rw [endUnrun_eq]
    rfl
  · exact (cutLane_engine _ _ _).keeps.1

theorem abort_pending (b : Byte) (s : State) : (abort b s).pending = s.pending := by
  unfold abort
  split
  · rfl
  · split
    · rfl
    · rw [finishAct_pending, abortAt_pending]

theorem go_pending (lanes : BitVec 4) (apply : Bool) (s : State) : (go lanes apply s).pending = s.pending := by
  unfold go
  rw [finishAct_pending]
  cases apply with
  | false => rfl
  | true => exact (reported_engine (fun s c => (applyOn_chansOnly s c).engine) _ s).keeps.1

theorem renew_pending (s : State) : (renew s).pending = s.pending := by
  unfold renew
  split
  · exact renewed_pending s
  · rfl
  · rfl

theorem turnMonitorOn_pending (s : State) : (turnMonitorOn s).pending = s.pending := by
  unfold turnMonitorOn
  split <;> rfl

theorem resume_pending (s : State) : (resume s).pending = s.pending := by
  unfold resume
  split_ifs <;> rfl

theorem loadConfig_pending (s : State) : (loadConfig s).pending = s.pending := by
  have hretime (cfg : ConfigSet) (u : State) : (allGroups.foldl (retime cfg) u).pending = u.pending :=
    foldl_keep State.pending (retime cfg) (fun u g => by unfold retime; dsimp only; split <;> rfl) _ u
  unfold loadConfig
  split
  · rfl
  · split
    · rfl
    · generalize configOfPage s.mem = cfg
      have hoff := (foldl_disableOn cfg.enable { s with config := cfg, configDefault := false }).1.engine.keeps.1
      dsimp only
      rw [State.answer_pending, hretime, hoff]

theorem engineReset_pending (s : State) : (engineReset s).pending = s.pending := by
  obtain ⟨lines, h, -⟩ := engineReset_eq s
  rw [h]
  rfl

theorem dispatchWord_pending (w : Word) (s : State) : (dispatchWord w s).pending = s.pending := by
  unfold dispatchWord
  dsimp only
  split
  · exact post_pending _ s
  · exact abort_pending _ s
  · exact go_pending _ _ s
  · exact renew_pending s
  · exact loadConfig_pending s
  · exact engineReset_pending s
  · exact turnMonitorOn_pending s
  · exact resume_pending s
  · rfl
  · rfl

theorem applyWrite_pending (addr : Half) (data : List Byte) (s : State) :
    (applyWrite addr data s).pending = s.pending := by
  have hstore (a : Nat) : (s.storeFrame a data).pending = s.pending := by
    unfold State.storeFrame
    split <;> rfl
  unfold applyWrite writeRegisters
  dsimp only
  split
  · exact hstore _
  · exact hstore _
  · split
    · rfl
    · exact hstore _
  · rfl
  · split_ifs
    · exact dispatchWord_pending _ s
    · rfl
    · rfl
  · rfl

theorem receiveWrite_pending (addr : Half) (data : List Byte) (crc : Half) (s : State) :
    (receiveWrite addr data crc s).pending = s.pending := by
  unfold receiveWrite inWriteFrame
  split_ifs
  · exact applyWrite_pending addr data _
  · rfl

theorem receiveRead_pending (addr : Half) (l : Byte) (crc : Half) (s : State) :
    (receiveRead addr l crc s).pending = s.pending := by
  unfold receiveRead
  dsimp only
  split_ifs <;> rfl

theorem whenReady_pending {f : State → State} (h : ∀ s, (f s).pending = s.pending) (s : State) :
    (whenReady f s).pending = s.pending :=
  whenReady_kept (fun s t => t.pending = s.pending) h (fun _ => rfl) s

theorem asCommand_pending {f : State → State} (h : ∀ s, (f s).pending = s.pending) (s : State) :
    (asCommand f s).pending = s.pending := whenReady_pending (fun s => h (s.judged _ [])) s

theorem beginReset_pending (s : State) : (beginReset s).pending = s.pending := by
  have h := (resetBlocks_spec s).1
  unfold beginReset
  generalize s.resetBlocks = t at h ⊢
  rw [h]

/-- No command touches the queue of commands. -/
theorem exec_pending {c : Instr} {s t : State} (h : exec c s = .next t) : t.pending = s.pending := by
  cases c with
  | tick => obtain rfl := next_inj h; exact whenReady_pending (f := tick) (fun s => (tick_keeps s).keeps.1) s
  | monitorExpiry => obtain rfl := next_inj h; exact whenReady_pending (f := monitorExpiry) (fun s => (monitorExpiry_keeps s).keeps.1) s
  | groupPeriodStart g =>
    obtain rfl := next_inj h; exact whenReady_pending (fun s => by rw [groupPeriodStart_keeps]) s
  | post b => obtain rfl := next_inj h; exact asCommand_pending (post_pending b) s
  | abort b => obtain rfl := next_inj h; exact asCommand_pending (abort_pending b) s
  | go lanes apply => obtain rfl := next_inj h; exact asCommand_pending (go_pending lanes apply) s
  | renew => obtain rfl := next_inj h; exact asCommand_pending renew_pending s
  | loadConfig => obtain rfl := next_inj h; exact asCommand_pending loadConfig_pending s
  | engineReset => obtain rfl := next_inj h; exact asCommand_pending engineReset_pending s
  | monitorOn => obtain rfl := next_inj h; exact asCommand_pending turnMonitorOn_pending s
  | resume => obtain rfl := next_inj h; exact asCommand_pending resume_pending s
  | clearFlags => obtain rfl := next_inj h; exact asCommand_pending (f := clearFlags) (fun _ => rfl) s
  | unknownCommand code =>
    obtain rfl := next_inj h
    split
    · rfl
    · exact asCommand_pending (f := refuseUnknown code) (fun _ => rfl) s
  | finishedWrite mask => obtain rfl := next_inj h; exact whenReady_pending (f := inWriteFrame 4 (acknowledge mask)) (fun _ => rfl) s
  | readOnlyRegisterWrite addr data =>
    obtain rfl := next_inj h; exact whenReady_pending (fun s => by split_ifs <;> rfl) s
  | writeFrame addr data crc =>
    obtain rfl := next_inj h
    exact whenReady_pending (fun s => by split_ifs; exacts [receiveWrite_pending addr data crc s, rfl]) s
  | readFrame addr l crc => obtain rfl := next_inj h; exact whenReady_pending (receiveRead_pending addr l crc) s
  | badOperationByte op => obtain rfl := next_inj h; exact whenReady_pending (fun s => by split_ifs <;> rfl) s
  | earlyNcsRise bits => obtain rfl := next_inj h; exact whenReady_pending (fun s => by split_ifs <;> rfl) s
  | deviceReset => obtain rfl := next_inj h; exact beginReset_pending s
  | deviceResetEnd strap levels =>
    obtain rfl := next_inj h
    split <;> rfl
  | _ => exact (exec_eventOnly rfl h (by simp) (by simp) (by simp)).keeps.1

end Sys2Proof.Machine

open Sys2Proof Sys2Proof.Machine

/-- Settles O4: TICK, MONITOR_EXPIRY and GROUP_PERIOD_START each by what it leaves, every other event by what it changes. -/
theorem eventsLeaveThePortAlone : Obligations.EventsLeaveThePortAlone := by
  unfold Obligations.EventsLeaveThePortAlone
  refine ⟨fun c s t h => exec_pending h, fun c s t hc h => ?_⟩
  by_cases htick : c = .tick
  · subst htick
    obtain rfl := next_inj h
    have ht := whenReady_kept (fun s t => EventOnly s { t with holdSafe := s.holdSafe, tick := s.tick }) tick_keeps
      (fun s => rfl) s
    obtain ⟨-, h1, h2, h3, h4, h5, h6, h7, h8, -, h10, -⟩ := ht.keeps
    exact ⟨h1, h2, h3, h4, h5, h6, h7, h8, fun hn => absurd rfl hn, fun _ => h10, fun hn => absurd rfl hn⟩
  by_cases hexp : c = .monitorExpiry
  · subst hexp
    obtain rfl := next_inj h
    have ht := whenReady_kept (fun s t => EventOnly s { t with holdSafe := s.holdSafe }) monitorExpiry_keeps
      (fun s => rfl) s
    obtain ⟨-, h1, h2, h3, h4, h5, h6, h7, h8, h9, h10, -⟩ := ht.keeps
    exact ⟨h1, h2, h3, h4, h5, h6, h7, h8, fun _ => h9, fun _ => h10, fun _ hn => absurd rfl hn⟩
  by_cases hgroup : ∃ g, c = .groupPeriodStart g
  · obtain ⟨g, rfl⟩ := hgroup
    obtain rfl := next_inj h
    have ht := whenReady_kept (fun s t => t = { s with channels := t.channels, groups := t.groups })
      (groupPeriodStart_keeps g) (fun s => rfl) s
    rw [ht]
    exact ⟨rfl, rfl, rfl, rfl, rfl, rfl, rfl, rfl, fun _ => rfl, fun hn => absurd rfl (hn g), fun _ _ => rfl⟩
  · have ht := exec_eventOnly hc h htick hexp fun g hg => hgroup ⟨g, hg⟩
    obtain ⟨-, h1, h2, h3, h4, h5, h6, h7, h8, h9, h10, h11⟩ := ht.keeps
    exact ⟨h1, h2, h3, h4, h5, h6, h7, h8, fun _ => h9, fun _ => h10, fun _ _ => h11⟩

end

