-- ==== Sys2Proof/Proofs/ActsEnd.lean ====
section
/-! SUPPORT. An act comes to its end: every task lowers the bound on the work still to be done, so `finishAct` carries every
task out, and what each task keeps, together with the tasks left, holds of the state it ends in. -/

namespace Sys2Proof.Machine

/-! ### Requests -/

theorem requestConverter_phasesOnly (s : State) (k : LaneId) : PhasesOnly s (requestConverter s k) := by
  unfold requestConverter
  split
  · exact grantConverter_phasesOnly s k
  · exact (withConverter_phasesOnly s _).trans (setPhase_phasesOnly _ k _)

theorem requestMonitor_phasesOnly (s : State) (k : LaneId) : PhasesOnly s (requestMonitor s k) := by
  unfold requestMonitor
  split
  · exact grantMonitor_phasesOnly s k
  · exact (withMonitor_phasesOnly s _).trans (setPhase_phasesOnly _ k _)

theorem requestLink_phasesOnly (s : State) (k : LaneId) : PhasesOnly s (requestLink s k) := by
  unfold requestLink
  split
  · exact grantLink_phasesOnly s k
  · exact (withLink_phasesOnly s _).trans (setPhase_phasesOnly _ k _)

/-! ### The walk -/

/-- A walk grants a lane or leaves it waiting, each lane once. -/
theorem walkList_perm (ws kept : List Waiting) (s : State) :
    ((kept ++ ws).map Waiting.lane).Perm
      ((walkList ws kept s).2.1.map Waiting.lane ++ (walkList ws kept s).2.2) := by
  induction ws generalizing kept s with
  | nil => simp [walkList]
  | cons w ws ih =>
    unfold walkList
    split
    · have h := ih kept (s.giveClaims w.lane w.chans w.lines)
      dsimp only
      refine List.Perm.trans ?_ List.perm_middle.symm
      refine List.Perm.trans ?_ (h.cons w.lane)
      simp
    · have h := ih (kept ++ [w]) s
      simpa using h

/-- The lanes of the wait list before a walk are those still waiting and those granted. -/
theorem walk_perm (s : State) :
    (s.waitList.map Waiting.lane).Perm ((walk s).1.waitList.map Waiting.lane ++ (walk s).2) :=
  walkList_perm s.waitList [] s

/-! ### The work still to be done -/

/-- What an act can still lead to. -/
def Act.cost (a : Act) : Nat := workBound a.1 a.2

theorem reserve_congr {s t : State} (hq : t.queues = s.queues) (hp : t.parked = s.parked)
    (hw : t.waitList = s.waitList) : t.reserve = s.reserve := by
  unfold State.reserve State.queue
  rw [hq, hp, hw]

theorem PhasesOnly.reserve {s t : State} (h : PhasesOnly s t) : t.reserve = s.reserve := by
  obtain ⟨h, -⟩ := h
  rw [h]
  rfl

theorem ChansOnly.reserve {s t : State} (h : ChansOnly s t) : t.reserve = s.reserve := by
  unfold ChansOnly at h
  rw [h]
  rfl

theorem MemOutside.reserve {P : Nat → Prop} {s t : State} (h : MemOutside P s t) : t.reserve = s.reserve := by
  obtain ⟨h, -⟩ := h
  rw [h]
  rfl

theorem HalfPairOnly.reserve {k : LaneId} {s t : State} (h : HalfPairOnly k s t) : t.reserve = s.reserve := by
  obtain ⟨h, -⟩ := h
  rw [h]
  rfl

theorem recordResult_reserve (s : State) (k : LaneId) (n : SlotId) (i : StepId) (r : StepResult) :
    (recordResult s k n i r).reserve = s.reserve := by
  have h := (recordResult_spec s k n i r).1
  exact reserve_congr (by rw [h]) (by rw [h]) (by rw [h])

theorem releaseClaims_reserve (s : State) (k : LaneId) (chans : BitVec 16) (lines : BitVec 8) :
    (s.releaseClaims k chans lines).reserve = s.reserve := by
  have h := (releaseClaims_spec s k chans lines).1
  exact reserve_congr (by rw [h]) (by rw [h]) (by rw [h])

theorem weight_enter_sum (ks : List LaneId) : ((ks.map Task.enter).map Task.weight).sum = 16 * ks.length := by
  induction ks with
  | nil => rfl
  | cons k ks ih =>
    simp only [List.map_cons, List.sum_cons, ih, List.length_cons, Task.weight]
    omega

/-- A walk's grants are paid for by the lanes that leave the wait list. -/
theorem walk_cost (s : State) : (walk s).1.reserve + (walk s).2.length = s.reserve := by
  have hl := (walk_perm s).length_eq
  have hc := walk_claimsOnly s
  have hq : (walk s).1.queues = s.queues := by rw [hc]
  have hp : (walk s).1.parked = s.parked := by rw [hc]
  simp only [List.length_append, List.length_map] at hl
  unfold State.reserve State.queue
  rw [hq, hp, hl]
  omega

theorem chainEnd_cost (s : State) (k : LaneId) (n : SlotId) : Act.cost (chainEnd s k n) ≤ 17 * s.reserve + 1 := by
  have hw := walk_cost ((offAtChainEnd s k n).releaseClaims k 0 0)
  rw [releaseClaims_reserve, (offAtChainEnd_chansOnly s k n).reserve] at hw
  have he := weight_enter_sum (walk ((offAtChainEnd s k n).releaseClaims k 0 0)).2
  have hr : ∀ u : State, (u.setLane k Lane.idle).reserve = u.reserve := fun _ => rfl
  rw [chainEnd_eq]
  unfold Act.cost workBound
  dsimp only
  rw [hr, List.map_append, List.sum_append, he]
  simp only [List.map_cons, List.map_nil, List.sum_cons, List.sum_nil, Task.weight]
  omega

theorem endSlot_cost (s : State) (k : LaneId) (n : SlotId) (st : SlotState) (reason : EndReason) (detail : Byte) :
    Act.cost (endSlot s k n st reason detail) ≤ 17 * s.reserve + 1 :=
  chainEnd_cost (finishSlot s n st reason detail) k n

theorem switchTo_cost (s : State) (k : LaneId) (n : SlotId) {c : SlotId} (hc : c ∈ s.parked) :
    Act.cost (switchTo s k n c) ≤ 17 * s.reserve := by
  have hpos : 1 ≤ s.parked.length := List.length_pos_of_mem hc
  have hcont : (continued s k n c).reserve + 1 = s.reserve := by
    have h := continued_eq s k n c
    have hq : (continued s k n c).queues = s.queues := by rw [h]
    have hp : (continued s k n c).parked = s.parked.erase c := by rw [h]
    have hw : (continued s k n c).waitList = s.waitList := by rw [h]
    unfold State.reserve State.queue
    rw [hq, hp, hw, List.length_erase_of_mem hc]
    omega
  unfold switchTo
  rw [trimThenEnter_eq]
  generalize continued s k n c = t at hcont ⊢
  have hr := releaseClaims_reserve t k (t.chanClaim c) (t.lineClaim c)
  generalize t.releaseClaims k (t.chanClaim c) (t.lineClaim c) = u at hr ⊢
  have hw := walk_cost u
  have he := weight_enter_sum (walk u).2
  dsimp only
  unfold Act.cost workBound
  split
  · simp only [List.map_cons, List.map_nil, List.sum_cons, List.sum_nil, Task.weight]
    omega
  · dsimp only
    rw [List.map_append, List.sum_append, he]
    simp only [List.map_cons, List.map_nil, List.sum_cons, List.sum_nil, Task.weight]
    omega

theorem continueWith_cost (s : State) (k : LaneId) (n c : SlotId) :
    Act.cost (continueWith s k n c) ≤ 17 * s.reserve + 1 := by
  unfold continueWith
  split
  · rename_i hc
    split
    · exact Nat.le_succ_of_le (switchTo_cost s k n (by simpa using hc))
    · exact endSlot_cost s k n _ _ _
  · exact endSlot_cost s k n _ _ _

theorem judgeSlot_cost (s : State) (k : LaneId) (n : SlotId) : Act.cost (judgeSlot s k n) ≤ 17 * s.reserve + 1 := by
  unfold judgeSlot
  split
  · exact endSlot_cost s k n _ _ _
  · split
    · exact continueWith_cost s k n _
    · exact endSlot_cost s k n _ _ _

/-- The step after step i weighs less than step i, and so does the end of a slot. -/
theorem afterStep_cost (s : State) (k : LaneId) (n : SlotId) (i : StepId) (cont : Bool) (o : StepOutcome) :
    Act.cost (afterStep s k n i cont o) ≤ 17 * s.reserve + (14 - i.val) := by
  have hi := i.isLt
  unfold afterStep
  split
  · split
    · rename_i j hj
      have hj : j.val = i.val + 1 := by
        unfold nextStep at hj
        split_ifs at hj
        rw [← Option.some.inj hj]
      unfold Act.cost workBound
      simp only [List.map_cons, List.map_nil, List.sum_cons, List.sum_nil, Task.weight]
      omega
    · have := judgeSlot_cost s k n
      omega
  · have h := endSlot_cost (skipFrom s n (i.val + 1)) k n .failed .stepFailed (stepByte (some i))
    rw [(skipFrom_spec s n (i.val + 1)).1.reserve] at h
    omega

/-- The end of step i weighs less than step i. -/
theorem stepEnd_cost {s : State} {k : LaneId} {i : StepId} (hi : (s.lane k).step = some i) (r : StepResult) :
    Act.cost (stepEnd s k r) ≤ 17 * s.reserve + (14 - i.val) := by
  unfold stepEnd
  rw [hi]
  split
  · rename_i n j _ hj
    obtain rfl := Option.some.inj hj
    rw [← recordResult_reserve s k n i r]
    exact afterStep_cost _ k n i _ _
  · exact Nat.le_add_right _ _

theorem stepEnd_cost_le (s : State) (k : LaneId) (r : StepResult) : Act.cost (stepEnd s k r) ≤ 17 * s.reserve + 14 := by
  cases hi : (s.lane k).step with
  | some i =>
    have := stepEnd_cost hi r
    omega
  | none =>
    unfold stepEnd
    rw [hi]
    split
    · rename_i h
      cases h
    · exact Nat.le_add_right _ _

/-- What serving step i leads to weighs less than step i. -/
theorem serveStep_cost {s : State} {k : LaneId} {i : StepId} (hi : (s.lane k).step = some i) (c : StepCmd) :
    Act.cost (serveStep s k c) ≤ 17 * s.reserve + (14 - i.val) := by
  have hend {t : State} (ht : t.reserve = s.reserve) (hl : t.lanes = s.lanes) (r : StepResult) :
      Act.cost (stepEnd t k r) ≤ 17 * s.reserve + (14 - i.val) := by
    have hlane : (t.lane k).step = some i := by
      unfold State.lane at *
      rw [hl]
      exact hi
    have := stepEnd_cost hlane r
    omega
  have hwait {t : State} (ht : t.reserve = s.reserve) : Act.cost (t, []) ≤ 17 * s.reserve + (14 - i.val) := by
    unfold Act.cost workBound
    simp only [List.map_nil, List.sum_nil]
    omega
  cases c with
  | set mask x r staged settle =>
    have hset := (onChans_setOn mask x r s).1
    cases staged with
    | true => exact hend (onChans_stageOn mask x r s).1.reserve (onChans_stageOn mask x r s).1.keeps.2.1 _
    | false =>
      rw [serveStep_set]
      split
      · exact hwait hset.reserve
      · exact hend hset.reserve hset.keeps.2.1 _
  | apply mask =>
    exact hend (onChans_applyOn _ s).1.reserve (onChans_applyOn _ s).1.keeps.2.1 _
  | off mask r => exact hend (onChans_offOn mask r s).1.reserve (onChans_offOn mask r s).1.keeps.2.1 _
  | delay n =>
    show Act.cost (if n = 0 then _ else _) ≤ _
    split
    · exact hend rfl rfl _
    · exact hwait rfl
  | cycle p =>
    show Act.cost (beginTrigger s k p) ≤ _
    have haccept : Act.cost (acceptTrigger s k, []) ≤ 17 * s.reserve + (14 - i.val) :=
      hwait (requestConverter_phasesOnly s k).reserve
    unfold beginTrigger
    split
    · exact haccept
    · split
      · exact haccept
      · exact hwait rfl
    · split
      · exact hwait rfl
      · exact hend rfl rfl _
    · split
      · exact hwait rfl
      · exact hend rfl rfl _
  | verify mask p =>
    rw [serveStep_verify]
    split
    · exact hwait (requestMonitor_phasesOnly _ k).reserve
    · exact hwait rfl
  | link p => exact hwait (requestLink_phasesOnly s k).reserve
  | lines mask mode levels =>
    have h := (onLines_lineSetOn mask mode levels s).1
    exact hend (by rw [h]; rfl) (by rw [h]) _
  | awaitGo => exact hwait rfl

theorem startStep_cost (s : State) (k : LaneId) (i : StepId) :
    Act.cost (startStep s k i) < 17 * s.reserve + (15 - i.val) := by
  have hi := i.isLt
  unfold startStep
  split
  · unfold Act.cost workBound
    simp only [List.map_nil, List.sum_nil]
    omega
  · dsimp only
    split
    · rename_i r _
      have h := fun (t : State) (ht : (t.lane k).step = some i) => serveStep_cost ht r.cmd
      refine Nat.lt_of_le_of_lt (h _ ?_) ?_
      · rw [State.setLane_get_self]
        rfl
      · show 17 * s.reserve + _ < _
        omega
    · show 17 * s.reserve + 0 < _
      omega

theorem requestClaims_cost (s : State) (k : LaneId) (n : SlotId) :
    Act.cost (requestClaims s k n) ≤ 17 * s.reserve + 17 := by
  unfold requestClaims
  dsimp only
  split
  · have h : (s.giveClaims k (s.chanClaim n) (s.lineClaim n)).reserve = s.reserve := by
      rw [(giveClaims_spec s k _ _).1]
      rfl
    unfold Act.cost workBound
    simp only [List.map_cons, List.map_nil, List.sum_cons, List.sum_nil, Task.weight]
    omega
  · unfold Act.cost workBound State.reserve State.queue
    simp only [List.map_nil, List.sum_nil, List.length_append, List.length_cons, List.length_nil]
    omega

theorem sum_allLanes (f : LaneId → Nat) : (allLanes.map f).sum = ∑ k, f k := by
  simp [allLanes, Fin.sum_univ_four]
  omega

/-- The state in which a lane that takes slot n requests its claims (R32). -/
def takenHead (s : State) (k : LaneId) (n : SlotId) (q : List SlotId) : State :=
  (startSlot (s.setQueue k q) n).setLane k ((startSlot (s.setQueue k q) n).startedLane n .claiming)

theorem takenHead_queue (s : State) (k : LaneId) (n : SlotId) (q : List SlotId) (j : LaneId) :
    (takenHead s k n q).queue j = if j = k then q else s.queue j := by
  show (s.setQueue k q).queue j = _
  rw [State.setQueue_get]
  simp only [eq_comm]

theorem takenHead_reserve {s : State} {k : LaneId} {n : SlotId} {q : List SlotId} (hq : s.queue k = n :: q) :
    (takenHead s k n q).reserve + 1 = s.reserve := by
  have hsum := sum_lanes_change (f := fun j => (s.queue j).length) (g := fun j => ((takenHead s k n q).queue j).length) k
    (fun j hj => by rw [takenHead_queue, if_neg hj])
  have hk : (takenHead s k n q).queue k = q := by rw [takenHead_queue, if_pos rfl]
  have hl := congrArg List.length hq
  rw [hk] at hsum
  simp only [List.length_cons] at hl
  unfold State.reserve
  rw [sum_allLanes, sum_allLanes]
  show _ + s.parked.length + s.waitList.length + 1 = _
  omega

theorem takeHead_cost (s : State) (k : LaneId) : Act.cost (takeHead s k) < 17 * s.reserve + 1 := by
  have hstay : Act.cost (s, []) < 17 * s.reserve + 1 := Nat.lt_succ_self _
  unfold takeHead
  split
  · split
    · exact hstay
    · rename_i n q hq
      dsimp only
      have hres := takenHead_reserve hq
      unfold takenHead at hres
      have h := requestClaims_cost
        ((startSlot (s.setQueue k q) n).setLane k ((startSlot (s.setQueue k q) n).startedLane n .claiming)) k n
      omega
  · exact hstay

theorem enterSlot_cost (s : State) (k : LaneId) : Act.cost (enterSlot s k) < 17 * s.reserve + 16 := by
  have hstay (t : State) (ht : t.reserve = s.reserve) : Act.cost (t, []) < 17 * s.reserve + 16 := by
    show 17 * t.reserve + 0 < _
    omega
  unfold enterSlot
  split
  · exact hstay s rfl
  · dsimp only
    split
    · exact hstay _ rfl
    · show 17 * s.reserve + (15 + 0) < _
      omega

theorem releaseGo_cost (s : State) (k : LaneId) : Act.cost (releaseGo s k) < 17 * s.reserve + 16 := by
  unfold releaseGo
  split
  · show 17 * s.reserve + (15 + 0) < _
    omega
  · split
    · have := stepEnd_cost_le s k (plainResult .pass .none (s.lane k).ticks)
      unfold stepPass
      omega
    · show 17 * s.reserve + 0 < _
      omega

/-- Every task lowers the bound on what is left to be done. -/
theorem runTask_cost (t : Task) (s : State) : Act.cost (runTask t s) < 17 * s.reserve + t.weight := by
  cases t with
  | startStep k i => exact startStep_cost s k i
  | enter k => exact enterSlot_cost s k
  | take k => exact takeHead_cost s k
  | release k => exact releaseGo_cost s k
  | settled k =>
    have := stepEnd_cost_le s k (plainResult .pass .none (s.lane k).ticks)
    show Act.cost (stepPass s k) < 17 * s.reserve + 16
    unfold stepPass
    omega

theorem workBound_cons (t : Task) (ts : List Task) (s : State) :
    workBound (runTask t s).1 ((runTask t s).2 ++ ts) < workBound s (t :: ts) := by
  have h := runTask_cost t s
  unfold Act.cost workBound at h
  unfold workBound
  simp only [List.map_append, List.sum_append, List.map_cons, List.sum_cons]
  omega

/-! ### Acts carried out -/

/-- Fuel up to the bound carries every task out (R59). -/
theorem drain_done (fuel : Nat) (ts : List Task) (s : State) (h : workBound s ts ≤ fuel) : (drain fuel ts s).2 = [] := by
  induction fuel generalizing ts s with
  | zero =>
    cases ts with
    | nil => rfl
    | cons t ts =>
      have := workBound_cons t ts s
      omega
  | succ n ih =>
    cases ts with
    | nil => rfl
    | cons t ts =>
      have := workBound_cons t ts s
      exact ih _ _ (by omega)

/-- A property of a state with the tasks left that every task keeps holds, with no task left, after the act. -/
theorem finishAct_acting (P : List Task → State → Prop)
    (h : ∀ t ts s, P (t :: ts) s → P ((runTask t s).2 ++ ts) (runTask t s).1) (a : Act) (ha : P a.2 a.1) :
    P [] (finishAct a) := by
  have hd : ∀ (fuel : Nat) (ts : List Task) (s : State), P ts s → P (drain fuel ts s).2 (drain fuel ts s).1 := by
    intro fuel
    induction fuel with
    | zero => intro ts s hs; cases ts <;> exact hs
    | succ n ih =>
      intro ts s hs
      cases ts with
      | nil => exact hs
      | cons t ts => exact ih _ _ (h t ts s hs)
  have hend := drain_done _ a.2 a.1 (Nat.le_refl _)
  have := hd (workBound a.1 a.2) a.2 a.1 ha
  rw [hend] at this
  exact this

end Sys2Proof.Machine
end

