-- ==== Sys2Proof/Proofs/Standing.lean ====
section
/-! SUPPORT. How a lane stands toward the shared units, the wait list and the claim table: the law of the lanes lane by lane
(`State.Fits`), the standing of a lane in the middle of an act, and what keeps a lane's standing as it is. -/

namespace Sys2Proof.Machine

/-! ### The shared units -/

/-- The shared units (R63). -/
inductive SharedUnit where
  | converter | monitor | link

/-- The phase of the lane that holds a unit, and of a lane in its queue (R31). -/
def SharedUnit.hold : SharedUnit → Phase
  | .converter => .converting
  | .monitor => .measuring
  | .link => .linking
def SharedUnit.wait : SharedUnit → Phase
  | .converter => .converterQueue
  | .monitor => .monitorQueue
  | .link => .linkQueue

/-- A unit's grantee and queue (R63). -/
def State.grantee (s : State) : SharedUnit → Option LaneId
  | .converter => s.converter.grantee
  | .monitor => s.monitor.grantee
  | .link => s.link.grantee
def State.queueFor (s : State) : SharedUnit → List LaneId
  | .converter => s.converter.queue
  | .monitor => s.monitor.queue
  | .link => s.link.queue

/-- The lane holds the link, which winds down. -/
def State.woundBy (s : State) (k : LaneId) : Prop := s.link.grantee = some k ∧ s.link.windDown = true

/-- The lane waits for its claims. -/
def State.waits (s : State) (k : LaneId) : Prop := k ∈ s.waitList.map Waiting.lane

/-- The lane owns a channel or a line. -/
def State.owns (s : State) (k : LaneId) : Prop := (∃ c, s.ownerOf c = some k) ∨ ∃ l, s.lineOwnerOf l = some k

theorem SharedUnit.hold_ne_none (u : SharedUnit) : u.hold ≠ .none := by cases u <;> decide
theorem SharedUnit.wait_ne_none (u : SharedUnit) : u.wait ≠ .none := by cases u <;> decide
theorem SharedUnit.hold_ne_wait (u v : SharedUnit) : u.hold ≠ v.wait := by cases u <;> cases v <;> decide
theorem SharedUnit.hold_inj {u v : SharedUnit} : u.hold = v.hold ↔ u = v := by
  constructor
  · cases u <;> cases v <;> simp [SharedUnit.hold]
  · rintro rfl
    rfl
theorem SharedUnit.wait_inj {u v : SharedUnit} : u.wait = v.wait ↔ u = v := by
  constructor
  · cases u <;> cases v <;> simp [SharedUnit.wait]
  · rintro rfl
    rfl

/-! ### The law of the lanes, lane by lane -/

/-- The lane and the units agree on lane k. -/
structure State.Seated (s : State) (k : LaneId) : Prop where
  ordered : (s.lane k).ordered
  holds : ∀ u : SharedUnit, (s.lane k).phase = u.hold ↔ s.grantee u = some k
  queued : ∀ u : SharedUnit, (s.lane k).phase = u.wait ↔ k ∈ s.queueFor u
  winds : (s.lane k).state = .winding ↔ s.woundBy k

/-- The lane, the units, the wait list and the claim table agree on lane k. -/
structure State.Fits (s : State) (k : LaneId) : Prop extends s.Seated k where
  waits : (s.lane k).state = .claiming ↔ s.waits k
  owns : s.owns k → (s.lane k).mayHoldClaims

/-- No lane stands twice in a queue or in the wait list. -/
def State.noneTwice (s : State) : Prop :=
  (∀ u : SharedUnit, (s.queueFor u).Nodup) ∧ (s.waitList.map Waiting.lane).Nodup

theorem lanesServed_iff (s : State) : s.lanesServed ↔ s.noneTwice ∧ ∀ k, s.Fits k := by
  have hwaits : ∀ k, s.waits k ↔ ∃ w ∈ s.waitList, w.lane = k := fun k => by simp [State.waits]
  constructor
  · rintro ⟨hord, hc, hcq, hcn, hm, hmq, hmn, hl, hlq, hln, hw, hcl, hwn, ho⟩
    refine ⟨⟨fun u => by cases u <;> assumption, hwn⟩, fun k => ⟨⟨hord k, fun u => ?_, fun u => ?_, hw k⟩, ?_, ?_⟩⟩
    · cases u
      · exact hc k
      · exact hm k
      · exact hl k
    · cases u
      · exact hcq k
      · exact hmq k
      · exact hlq k
    · rw [hwaits]
      exact hcl k
    · rintro (⟨c, h⟩ | ⟨l, h⟩)
      · exact ho.1 c k h
      · exact ho.2 l k h
  · rintro ⟨⟨hq, hwn⟩, hf⟩
    exact ⟨fun k => (hf k).ordered, fun k => (hf k).holds .converter, fun k => (hf k).queued .converter, hq .converter,
      fun k => (hf k).holds .monitor, fun k => (hf k).queued .monitor, hq .monitor,
      fun k => (hf k).holds .link, fun k => (hf k).queued .link, hq .link, fun k => (hf k).winds,
      fun k => (hf k).waits.trans (hwaits k), hwn, fun c k h => (hf k).owns (.inl ⟨c, h⟩),
      fun l k h => (hf k).owns (.inr ⟨l, h⟩)⟩

/-! ### Lanes in the middle of an act -/

/-- Lane k holds no unit, stands in no queue and does not wait for its claims. -/
structure State.Free (s : State) (k : LaneId) : Prop where
  holds : ∀ u : SharedUnit, s.grantee u ≠ some k
  queued : ∀ u : SharedUnit, k ∉ s.queueFor u
  waits : ¬s.waits k

/-- Lane k is about to start a step of its running slot. -/
structure State.Between (s : State) (k : LaneId) : Prop extends s.Free k where
  runs : ∃ n, (s.lane k).running = some n
  phase : (s.lane k).phase = .none
  state : (s.lane k).state = .claiming ∨ (s.lane k).state = .gated ∨ (s.lane k).state = .stepping

/-- Lane k is at a step of its running slot, and no unit serves it. -/
structure State.AtStep (s : State) (k : LaneId) : Prop extends s.Free k where
  runs : ∃ n, (s.lane k).running = some n
  steps : ∃ i, (s.lane k).step = some i
  state : (s.lane k).state = .stepping

/-- Lane k is at a step of its running slot and waits for nothing. -/
structure State.Rests (s : State) (k : LaneId) : Prop extends s.AtStep k where
  phase : (s.lane k).phase = .none

theorem State.Rests.between {s : State} {k : LaneId} (h : s.Rests k) : s.Between k :=
  ⟨h.toFree, h.runs, h.phase, .inr (.inr h.state)⟩

/-- A free lane in phase `none` is seated when its own fields belong together and it is not WINDING. -/
theorem State.Free.seated {s : State} {k : LaneId} (h : s.Free k) (ho : (s.lane k).ordered)
    (hp : ∀ u : SharedUnit, (s.lane k).phase ≠ u.hold ∧ (s.lane k).phase ≠ u.wait) (hw : (s.lane k).state ≠ .winding) :
    s.Seated k :=
  ⟨ho, fun u => iff_of_false (hp u).1 (h.holds u), fun u => iff_of_false (hp u).2 (h.queued u),
    iff_of_false hw fun hc => h.holds .link hc.1⟩

/-- A lane at a step that waits for none of the units stands by the law. -/
theorem State.AtStep.fits {s : State} {k : LaneId} (h : s.AtStep k)
    (hp : ∀ u : SharedUnit, (s.lane k).phase ≠ u.hold ∧ (s.lane k).phase ≠ u.wait) : s.Fits k := by
  obtain ⟨n, hn⟩ := h.runs
  have hs := h.state
  have hord : (s.lane k).ordered := by
    refine ⟨?_, fun _ => h.steps, ?_, ?_⟩ <;> simp [hs, hn]
  refine ⟨h.toFree.seated hord hp (by simp [hs]), ?_, fun _ => ⟨⟨n, hn⟩, .inr (.inl hs)⟩⟩
  exact iff_of_false (by simp [hs]) h.waits

theorem phase_none_apart {p : Phase} (h : p = .none) (u : SharedUnit) : p ≠ u.hold ∧ p ≠ u.wait := by
  subst h
  exact ⟨u.hold_ne_none.symm, u.wait_ne_none.symm⟩

theorem State.Rests.fits {s : State} {k : LaneId} (h : s.Rests k) : s.Fits k :=
  h.toAtStep.fits (phase_none_apart h.phase)

/-- A lane that stands by the law and is not WINDING, in a phase that waits for no unit and no claims, is free. -/
theorem State.Fits.free {s : State} {k : LaneId} (h : s.Fits k)
    (hp : ∀ u : SharedUnit, (s.lane k).phase ≠ u.hold ∧ (s.lane k).phase ≠ u.wait)
    (hs : (s.lane k).state ≠ .claiming) : s.Free k :=
  ⟨fun u hu => (hp u).1 ((h.holds u).mpr hu), fun u hu => (hp u).2 ((h.queued u).mpr hu), fun hw => hs (h.waits.mpr hw)⟩

/-! ### What keeps a standing -/

/-- The fields of a lane that its standing rests on are as they were. -/
def Lane.Kept (l l' : Lane) : Prop :=
  l'.state = l.state ∧ l'.running = l.running ∧ l'.step = l.step ∧ l'.phase = l.phase ∧ l'.cause = l.cause

theorem Lane.Kept.refl (l : Lane) : l.Kept l := ⟨rfl, rfl, rfl, rfl, rfl⟩

theorem Lane.Kept.of_eq {l l' : Lane} (h : l' = l) : l.Kept l' := h ▸ .refl l

theorem Lane.Kept.ordered {l l' : Lane} (h : l.Kept l') : l'.ordered ↔ l.ordered := by
  obtain ⟨h1, h2, h3, h4, h5⟩ := h
  unfold Lane.ordered
  rw [h1, h2, h3, h4, h5]

/-- From s to t lane j keeps its standing, but for claims that it may lose. -/
structure Same (s t : State) (j : LaneId) : Prop where
  lane : (s.lane j).Kept (t.lane j)
  holds : ∀ u : SharedUnit, t.grantee u = some j ↔ s.grantee u = some j
  queued : ∀ u : SharedUnit, j ∈ t.queueFor u ↔ j ∈ s.queueFor u
  winds : t.woundBy j ↔ s.woundBy j
  waits : t.waits j ↔ s.waits j
  owns : t.owns j → s.owns j

theorem Same.refl (s : State) (j : LaneId) : Same s s j :=
  ⟨.refl _, fun _ => .rfl, fun _ => .rfl, .rfl, .rfl, id⟩

theorem Same.trans {s t u : State} {j : LaneId} (h : Same s t j) (g : Same t u j) : Same s u j := by
  obtain ⟨h1, h2, h3, h4, h5⟩ := h.lane
  obtain ⟨g1, g2, g3, g4, g5⟩ := g.lane
  exact ⟨⟨g1.trans h1, g2.trans h2, g3.trans h3, g4.trans h4, g5.trans h5⟩, fun u => (g.holds u).trans (h.holds u),
    fun u => (g.queued u).trans (h.queued u), g.winds.trans h.winds, g.waits.trans h.waits, fun ho => h.owns (g.owns ho)⟩

theorem Same.free {s t : State} {j : LaneId} (h : Same s t j) (hf : s.Free j) : t.Free j :=
  ⟨fun u hu => hf.holds u ((h.holds u).mp hu), fun u hu => hf.queued u ((h.queued u).mp hu),
    fun hw => hf.waits (h.waits.mp hw)⟩

theorem Same.between {s t : State} {j : LaneId} (h : Same s t j) (hb : s.Between j) : t.Between j := by
  obtain ⟨h1, h2, h3, h4, h5⟩ := h.lane
  exact ⟨h.free hb.toFree, by rw [h2]; exact hb.runs, h4.trans hb.phase, by rw [h1]; exact hb.state⟩

theorem Same.atStep {s t : State} {j : LaneId} (h : Same s t j) (hb : s.AtStep j) : t.AtStep j := by
  obtain ⟨h1, h2, h3, h4, h5⟩ := h.lane
  exact ⟨h.free hb.toFree, by rw [h2]; exact hb.runs, by rw [h3]; exact hb.steps, h1.trans hb.state⟩

theorem Same.rests {s t : State} {j : LaneId} (h : Same s t j) (hb : s.Rests j) : t.Rests j := by
  obtain ⟨h1, h2, h3, h4, h5⟩ := h.lane
  exact ⟨h.atStep hb.toAtStep, h4.trans hb.phase⟩

theorem Same.seated {s t : State} {j : LaneId} (h : Same s t j) (hb : s.Seated j) : t.Seated j := by
  have hl := h.lane
  obtain ⟨h1, h2, h3, h4, h5⟩ := h.lane
  refine ⟨hl.ordered.mpr hb.ordered, fun u => ?_, fun u => ?_, ?_⟩
  · rw [h4, h.holds]
    exact hb.holds u
  · rw [h4, h.queued]
    exact hb.queued u
  · rw [h1, h.winds]
    exact hb.winds

theorem Same.fits {s t : State} {j : LaneId} (h : Same s t j) (hb : s.Fits j) : t.Fits j := by
  obtain ⟨h1, h2, h3, h4, h5⟩ := h.lane
  refine ⟨h.seated hb.toSeated, ?_, fun ho => ?_⟩
  · rw [h1, h.waits]
    exact hb.waits
  · unfold Lane.mayHoldClaims
    rw [h1, h2]
    exact hb.owns (h.owns ho)

/-- The units' grantees and queues, the wait list and the wind-down mark are as they were, and no lane owns more. -/
structure UnitsKept (s t : State) : Prop where
  grantee : ∀ u, t.grantee u = s.grantee u
  queueFor : ∀ u, t.queueFor u = s.queueFor u
  windDown : t.link.windDown = s.link.windDown
  waitList : t.waitList.map Waiting.lane = s.waitList.map Waiting.lane
  owns : ∀ j, t.owns j → s.owns j

theorem UnitsKept.refl (s : State) : UnitsKept s s := ⟨fun _ => rfl, fun _ => rfl, rfl, rfl, fun _ => id⟩

theorem UnitsKept.trans {s t u : State} (h : UnitsKept s t) (g : UnitsKept t u) : UnitsKept s u :=
  ⟨fun x => (g.grantee x).trans (h.grantee x), fun x => (g.queueFor x).trans (h.queueFor x), g.windDown.trans h.windDown,
    g.waitList.trans h.waitList, fun j ho => h.owns j (g.owns j ho)⟩

theorem UnitsKept.of_eq {s t : State} (hc : t.converter = s.converter) (hm : t.monitor = s.monitor)
    (hl : t.link = s.link) (hw : t.waitList = s.waitList) (hco : t.chanOwner = s.chanOwner)
    (hlo : t.lineOwner = s.lineOwner) : UnitsKept s t := by
  refine ⟨fun u => ?_, fun u => ?_, by rw [hl], by rw [hw], fun j => ?_⟩
  · cases u
    · exact congrArg Converter.grantee hc
    · exact congrArg DutyMonitor.grantee hm
    · exact congrArg Link.grantee hl
  · cases u
    · exact congrArg Converter.queue hc
    · exact congrArg DutyMonitor.queue hm
    · exact congrArg Link.queue hl
  · unfold State.owns State.ownerOf State.lineOwnerOf
    rw [hco, hlo]
    exact id

theorem UnitsKept.noneTwice {s t : State} (h : UnitsKept s t) (hn : s.noneTwice) : t.noneTwice :=
  ⟨fun u => by rw [h.queueFor]; exact hn.1 u, by rw [h.waitList]; exact hn.2⟩

theorem UnitsKept.free {s t : State} (h : UnitsKept s t) {k : LaneId} (hf : s.Free k) : t.Free k :=
  ⟨fun u => by rw [h.grantee]; exact hf.holds u, fun u => by rw [h.queueFor]; exact hf.queued u, by
    unfold State.waits
    rw [h.waitList]
    exact hf.waits⟩

theorem UnitsKept.winds {s t : State} (h : UnitsKept s t) (j : LaneId) : t.woundBy j ↔ s.woundBy j := by
  have hg : t.link.grantee = s.link.grantee := h.grantee .link
  unfold State.woundBy
  rw [hg, h.windDown]

theorem UnitsKept.waits {s t : State} (h : UnitsKept s t) (j : LaneId) : t.waits j ↔ s.waits j := by
  unfold State.waits
  rw [h.waitList]

theorem UnitsKept.same {s t : State} (h : UnitsKept s t) {j : LaneId} (hl : (s.lane j).Kept (t.lane j)) : Same s t j :=
  ⟨hl, fun u => by rw [h.grantee], fun u => by rw [h.queueFor], h.winds j, h.waits j, h.owns j⟩

/-- Where the units and every lane's standing are kept, the law of the lanes is. -/
theorem UnitsKept.lanesServed {s t : State} (h : UnitsKept s t) (hl : ∀ j, (s.lane j).Kept (t.lane j))
    (hs : s.lanesServed) : t.lanesServed := by
  rw [lanesServed_iff] at hs ⊢
  exact ⟨h.noneTwice hs.1, fun k => (h.same (hl k)).fits (hs.2 k)⟩

end Sys2Proof.Machine
end

