-- ==== Sys2Proof/Proofs/UnitMoves.lean ====
section
/-! SUPPORT. The moves of the shared units (section 3.5) on the lanes' standings: a unit passed on to the head of its queue, a
request, a withdrawal, and a wind-down; in each the lanes that do not move keep their standing. -/

namespace Sys2Proof.Machine

/-- Lane j keeps its standing, or it stood in a unit's queue and keeps to the law. -/
def Spared (s t : State) (j : LaneId) : Prop :=
  Same s t j ∨ ((∃ u, j ∈ s.queueFor u) ∧ (s.Seated j → t.Seated j) ∧ (s.Fits j → t.Fits j))

theorem Spared.seated {s t : State} {j : LaneId} (h : Spared s t j) (hs : s.Seated j) : t.Seated j :=
  h.elim (fun h => h.seated hs) fun h => h.2.1 hs

theorem Spared.fits {s t : State} {j : LaneId} (h : Spared s t j) (hs : s.Fits j) : t.Fits j :=
  h.elim (fun h => h.fits hs) fun h => h.2.2 hs

/-- A lane that stands in no queue keeps its standing. -/
theorem Spared.same {s t : State} {j : LaneId} (h : Spared s t j) (hs : ∀ u, j ∉ s.queueFor u) : Same s t j :=
  h.elim id fun h => absurd h.1.choose_spec (hs _)

theorem Spared.trans {s t u : State} {j : LaneId} (h : Spared s t j) (g : Spared t u j) : Spared s u j := by
  rcases h with h | ⟨hq, hs, hf⟩
  · rcases g with g | ⟨⟨x, hx⟩, gs, gf⟩
    · exact .inl (h.trans g)
    · exact .inr ⟨⟨x, (h.queued x).mp hx⟩, fun h' => gs (h.seated h'), fun h' => gf (h.fits h')⟩
  · exact .inr ⟨hq, fun h' => g.seated (hs h'), fun h' => g.fits (hf h')⟩

/-! ### A unit passed on -/

/-- Unit u is passed on to the head of its queue, if there is one (R65). -/
structure Passed (u : SharedUnit) (s t : State) : Prop where
  grantee : t.grantee u = (s.queueFor u).head?
  queueFor : t.queueFor u = (s.queueFor u).tail
  others : ∀ v, v ≠ u → t.grantee v = s.grantee v ∧ t.queueFor v = s.queueFor v
  lane : ∀ j, t.lane j = if (s.queueFor u).head? = some j then { s.lane j with phase := u.hold } else s.lane j
  linkMark : u = .link → t.link.windDown = false
  otherMark : u ≠ .link → t.link.windDown = s.link.windDown
  waitList : t.waitList = s.waitList
  chanOwner : t.chanOwner = s.chanOwner
  lineOwner : t.lineOwner = s.lineOwner

theorem setPhase_lane (s : State) (k : LaneId) (p : Phase) (j : LaneId) :
    (s.setPhase k p).lane j = if some k = some j then { s.lane j with phase := p } else s.lane j := by
  unfold State.setPhase
  rw [State.setLane_at]
  by_cases h : j = k
  · subst h
    simp
  · rw [if_neg h, if_neg fun hc => h (Option.some.inj hc).symm]

/-- An act of one unit leaves the other two as they are. -/
theorem others_converter {s t : State} (hm : t.monitor = s.monitor) (hl : t.link = s.link) (v : SharedUnit)
    (hv : v ≠ .converter) : t.grantee v = s.grantee v ∧ t.queueFor v = s.queueFor v := by
  unfold State.grantee State.queueFor
  rw [hm, hl]
  cases v
  · exact absurd rfl hv
  · exact ⟨rfl, rfl⟩
  · exact ⟨rfl, rfl⟩

theorem others_monitor {s t : State} (hc : t.converter = s.converter) (hl : t.link = s.link) (v : SharedUnit)
    (hv : v ≠ .monitor) : t.grantee v = s.grantee v ∧ t.queueFor v = s.queueFor v := by
  unfold State.grantee State.queueFor
  rw [hc, hl]
  cases v
  · exact ⟨rfl, rfl⟩
  · exact absurd rfl hv
  · exact ⟨rfl, rfl⟩

theorem others_link {s t : State} (hc : t.converter = s.converter) (hm : t.monitor = s.monitor) (v : SharedUnit)
    (hv : v ≠ .link) : t.grantee v = s.grantee v ∧ t.queueFor v = s.queueFor v := by
  unfold State.grantee State.queueFor
  rw [hc, hm]
  cases v
  · exact ⟨rfl, rfl⟩
  · exact ⟨rfl, rfl⟩
  · exact absurd rfl hv

theorem releaseConverter_passed (s : State) : Passed .converter s (releaseConverter s) := by
  unfold releaseConverter
  cases hq : s.converter.queue with
  | nil =>
    refine ⟨?_, ?_, others_converter rfl rfl, fun j => ?_, nofun, fun _ => rfl, rfl, rfl, rfl⟩
    all_goals simp only [State.grantee, State.queueFor, hq, List.head?_nil, List.tail_nil, reduceCtorEq, if_false]
    rfl
  | cons k q =>
    refine ⟨?_, ?_, others_converter rfl rfl, fun j => ?_, nofun, fun _ => rfl, rfl, rfl, rfl⟩
    all_goals simp only [State.queueFor, hq, List.head?_cons, List.tail_cons]
    · rfl
    · rfl
    · exact setPhase_lane _ k _ j

/-- The monitor's grant, apart from the channel it selects. -/
theorem grantMonitor_eq (s : State) (k : LaneId) :
    grantMonitor s k =
      { State.setPhase { s with monitor := { s.monitor with grantee := some k } } k .measuring with
        monitor := (grantMonitor s k).monitor } ∧
    (grantMonitor s k).monitor.grantee = some k ∧ (grantMonitor s k).monitor.queue = s.monitor.queue := by
  unfold grantMonitor
  dsimp only
  split <;> exact ⟨rfl, rfl, rfl⟩

theorem releaseMonitor_passed (s : State) : Passed .monitor s (releaseMonitor s) := by
  unfold releaseMonitor
  cases hq : s.monitor.queue with
  | nil =>
    refine ⟨?_, ?_, others_monitor rfl rfl, fun j => ?_, nofun, fun _ => rfl, rfl, rfl, rfl⟩
    all_goals simp only [State.queueFor, hq, List.head?_nil, List.tail_nil, reduceCtorEq, if_false]
    · rfl
    · rfl
    · rfl
  | cons k q =>
    dsimp only
    obtain ⟨h, hg, hqueue⟩ := grantMonitor_eq { s with monitor := { s.monitor with queue := q } } k
    refine ⟨?_, ?_, others_monitor (by rw [h]; rfl) (by rw [h]; rfl), fun j => ?_, nofun, fun _ => by rw [h]; rfl,
      by rw [h]; rfl, by rw [h]; rfl, by rw [h]; rfl⟩
    all_goals simp only [State.queueFor, hq, List.head?_cons, List.tail_cons]
    · exact hg
    · exact hqueue
    · rw [h]
      exact setPhase_lane _ k _ j

theorem releaseLink_passed (s : State) : Passed .link s (releaseLink s) := by
  unfold releaseLink
  cases hq : s.link.queue with
  | nil =>
    refine ⟨?_, ?_, others_link rfl rfl, fun j => ?_, fun _ => rfl, fun h => absurd rfl h, rfl, rfl, rfl⟩
    all_goals simp only [State.queueFor, hq, List.head?_nil, List.tail_nil, reduceCtorEq, if_false]
    · rfl
    · exact hq
    · rfl
  | cons k q =>
    refine ⟨?_, ?_, others_link rfl rfl, fun j => ?_, fun _ => rfl, fun h => absurd rfl h, rfl, rfl, rfl⟩
    all_goals simp only [State.queueFor, hq, List.head?_cons, List.tail_cons]
    · rfl
    · rfl
    · exact setPhase_lane _ k _ j

theorem Passed.waits {u : SharedUnit} {s t : State} (h : Passed u s t) (j : LaneId) : t.waits j ↔ s.waits j := by
  unfold State.waits
  rw [h.waitList]

theorem Passed.owns {u : SharedUnit} {s t : State} (h : Passed u s t) (j : LaneId) : t.owns j ↔ s.owns j := by
  unfold State.owns State.ownerOf State.lineOwnerOf
  rw [h.chanOwner, h.lineOwner]

theorem Passed.noneTwice {u : SharedUnit} {s t : State} (h : Passed u s t) (hn : s.noneTwice) : t.noneTwice := by
  refine ⟨fun v => ?_, by rw [h.waitList]; exact hn.2⟩
  by_cases hv : v = u
  · subst hv
    rw [h.queueFor]
    exact (hn.1 v).tail
  · rw [(h.others v hv).2]
    exact hn.1 v

/-- A lane that is not the head of the queue is not touched. -/
theorem Passed.lane_of_ne {u : SharedUnit} {s t : State} (h : Passed u s t) {j : LaneId}
    (hj : (s.queueFor u).head? ≠ some j) : t.lane j = s.lane j := by
  rw [h.lane, if_neg hj]

/-- The wind-down mark is set for a lane afterwards as before, if the lane did not give up the link. -/
theorem Passed.winds {u : SharedUnit} {s t : State} (h : Passed u s t) {k j : LaneId} (hg : s.grantee u = some k)
    (hj : j ≠ k) : t.woundBy j ↔ s.woundBy j := by
  unfold State.woundBy
  by_cases hu : u = .link
  · subst hu
    have hk : s.link.grantee = some k := hg
    refine iff_of_false (fun hw => ?_) fun hw => hj (Option.some.inj (hw.1.symm.trans hk))
    rw [h.linkMark rfl] at hw
    cases hw.2
  · rw [h.otherMark hu]
    have := (h.others .link (Ne.symm hu)).1
    show t.grantee .link = _ ∧ _ ↔ _
    rw [this]
    exact Iff.rfl

/-- The lane at the head of the queue holds the unit now, and keeps to the law. -/
theorem Passed.head_seated {u : SharedUnit} {s t : State} (h : Passed u s t) {k j : LaneId} (hg : s.grantee u = some k)
    (hjk : j ≠ k) (hn : (s.queueFor u).Nodup) (hj : (s.queueFor u).head? = some j) (hs : s.Seated j) : t.Seated j := by
  have hmem : j ∈ s.queueFor u := List.mem_of_head? hj
  have hphase : (s.lane j).phase = u.wait := (hs.queued u).mpr hmem
  have hlane : t.lane j = { s.lane j with phase := u.hold } := by rw [h.lane, if_pos hj]
  obtain ⟨hidle, hstep, hquiet, hwind⟩ := hs.ordered
  have hnq : ¬((s.lane j).state = .idle ∨ (s.lane j).state = .claiming ∨ (s.lane j).state = .gated) := fun hc =>
    u.wait_ne_none (hphase.symm.trans (hquiet hc))
  have hnw : (s.lane j).state ≠ .winding := fun hc =>
    SharedUnit.hold_ne_wait .link u ((hwind hc).1.symm.trans hphase)
  refine ⟨?_, fun v => ?_, fun v => ?_, ?_⟩
  · rw [hlane]
    exact ⟨hidle, hstep, fun hc => absurd hc hnq, fun hc => absurd hc hnw⟩
  · rw [hlane]
    by_cases hv : v = u
    · subst hv
      rw [h.grantee, hj]
      exact iff_of_true rfl rfl
    · rw [(h.others v hv).1, ← hs.holds v, hphase]
      exact iff_of_false (fun hc => hv (SharedUnit.hold_inj.mp hc).symm) fun hc => SharedUnit.hold_ne_wait v u hc.symm
  · rw [hlane]
    refine iff_of_false (SharedUnit.hold_ne_wait u v) fun hc => ?_
    by_cases hv : v = u
    · subst hv
      rw [h.queueFor] at hc
      cases hq : s.queueFor v with
      | nil =>
        rw [hq] at hj
        cases hj
      | cons a q =>
        rw [hq] at hj hc hn
        obtain rfl : a = j := Option.some.inj hj
        exact (List.nodup_cons.mp hn).1 hc
    · rw [(h.others v hv).2, ← hs.queued v, hphase] at hc
      exact hv (SharedUnit.wait_inj.mp hc).symm
  · rw [hlane, h.winds hg hjk, ← hs.winds]

/-- A unit passed on by its grantee spares every other lane. -/
theorem Passed.spared {u : SharedUnit} {s t : State} (h : Passed u s t) {k : LaneId} (hg : s.grantee u = some k)
    (hn : s.noneTwice) {j : LaneId} (hj : j ≠ k) : Spared s t j := by
  by_cases hh : (s.queueFor u).head? = some j
  · have hseat := h.head_seated hg hj (hn.1 u) hh
    refine .inr ⟨⟨u, List.mem_of_head? hh⟩, hseat, fun hf => ⟨hseat hf.toSeated, ?_, fun ho => ?_⟩⟩
    · rw [h.lane, if_pos hh, h.waits]
      exact hf.waits
    · rw [h.lane, if_pos hh]
      exact hf.owns ((h.owns j).mp ho)
  · refine .inl ⟨.of_eq (h.lane_of_ne hh), fun v => ?_, fun v => ?_, h.winds hg hj, h.waits j, (h.owns j).mp⟩
    · by_cases hv : v = u
      · subst hv
        rw [h.grantee]
        exact iff_of_false hh fun hc => hj (Option.some.inj (hc.symm.trans hg))
      · rw [(h.others v hv).1]
    · by_cases hv : v = u
      · subst hv
        rw [h.queueFor]
        cases hq : s.queueFor v with
        | nil => simp
        | cons a q =>
          rw [hq] at hh
          have ha : j ≠ a := fun hc => hh (congrArg some hc.symm)
          simp [ha]
      · rw [(h.others v hv).2]

/-- The lane that gave the unit up is free, its own fields as they were. -/
theorem Passed.gave {u : SharedUnit} {s t : State} (h : Passed u s t) {k : LaneId} (hs : s.Seated k)
    (hp : (s.lane k).phase = u.hold) (hw : ¬s.waits k) : t.Free k ∧ t.lane k = s.lane k := by
  have hnq : ∀ v, k ∉ s.queueFor v := fun v hc => SharedUnit.hold_ne_wait u v (hp.symm.trans ((hs.queued v).mpr hc))
  have hh : (s.queueFor u).head? ≠ some k := fun hc => hnq u (List.mem_of_head? hc)
  refine ⟨⟨fun v => ?_, fun v => ?_, fun hc => hw ((h.waits k).mp hc)⟩, h.lane_of_ne hh⟩
  · by_cases hv : v = u
    · subst hv
      rw [h.grantee]
      exact hh
    · rw [(h.others v hv).1]
      exact fun hc => hv (SharedUnit.hold_inj.mp (hp.symm.trans ((hs.holds v).mpr hc))).symm
  · by_cases hv : v = u
    · subst hv
      rw [h.queueFor]
      exact fun hc => hnq v (List.mem_of_mem_tail hc)
    · rw [(h.others v hv).2]
      exact hnq v

/-! ### A request -/

/-- Lane k requests unit u (R64): it is granted when no lane holds the unit, else it joins the queue. -/
structure Requested (u : SharedUnit) (k : LaneId) (s t : State) : Prop where
  granted : s.grantee u = none → t.grantee u = some k ∧ t.queueFor u = s.queueFor u ∧
    t.lane k = { s.lane k with phase := u.hold } ∧ (u = .link → t.link.windDown = false)
  joined : s.grantee u ≠ none → t.grantee u = s.grantee u ∧ t.queueFor u = s.queueFor u ++ [k] ∧
    t.lane k = { s.lane k with phase := u.wait } ∧ (u = .link → t.link.windDown = s.link.windDown)
  others : ∀ v, v ≠ u → t.grantee v = s.grantee v ∧ t.queueFor v = s.queueFor v
  lane : ∀ j, j ≠ k → t.lane j = s.lane j
  otherMark : u ≠ .link → t.link.windDown = s.link.windDown
  waitList : t.waitList = s.waitList
  chanOwner : t.chanOwner = s.chanOwner
  lineOwner : t.lineOwner = s.lineOwner

theorem setPhase_lane_self (s : State) (k : LaneId) (p : Phase) : (s.setPhase k p).lane k = { s.lane k with phase := p } :=
  State.setLane_get_self s k _

theorem setPhase_lane_ne (s : State) {j k : LaneId} (p : Phase) (h : j ≠ k) : (s.setPhase k p).lane j = s.lane j := by
  unfold State.setPhase
  rw [State.setLane_at, if_neg h]

theorem requestConverter_requested (s : State) (k : LaneId) : Requested .converter k s (requestConverter s k) := by
  unfold requestConverter
  cases hg : s.converter.grantee with
  | none =>
    refine ⟨fun _ => ⟨rfl, rfl, setPhase_lane_self _ k _, nofun⟩, fun hc => absurd hg hc, others_converter rfl rfl,
      fun j hj => setPhase_lane_ne _ _ hj, fun _ => rfl, rfl, rfl, rfl⟩
  | some h =>
    refine ⟨fun hc => ?_, fun _ => ⟨rfl, rfl, setPhase_lane_self _ k _, nofun⟩, others_converter rfl rfl,
      fun j hj => setPhase_lane_ne _ _ hj, fun _ => rfl, rfl, rfl, rfl⟩
    cases hg.symm.trans hc

theorem requestMonitor_requested (s : State) (k : LaneId) : Requested .monitor k s (requestMonitor s k) := by
  unfold requestMonitor
  cases hg : s.monitor.grantee with
  | none =>
    dsimp only
    obtain ⟨h, hgr, hq⟩ := grantMonitor_eq s k
    refine ⟨fun _ => ⟨hgr, hq, ?_, nofun⟩, fun hc => absurd hg hc, others_monitor (by rw [h]; rfl) (by rw [h]; rfl),
      fun j hj => ?_, fun _ => by rw [h]; rfl, by rw [h]; rfl, by rw [h]; rfl, by rw [h]; rfl⟩
    · rw [h]
      exact setPhase_lane_self _ k _
    · rw [h]
      exact setPhase_lane_ne _ _ hj
  | some h =>
    refine ⟨fun hc => ?_, fun _ => ⟨rfl, rfl, setPhase_lane_self _ k _, nofun⟩, others_monitor rfl rfl,
      fun j hj => setPhase_lane_ne _ _ hj, fun _ => rfl, rfl, rfl, rfl⟩
    cases hg.symm.trans hc

theorem requestLink_requested (s : State) (k : LaneId) : Requested .link k s (requestLink s k) := by
  unfold requestLink
  cases hg : s.link.grantee with
  | none =>
    refine ⟨fun _ => ⟨rfl, rfl, setPhase_lane_self _ k _, fun _ => rfl⟩, fun hc => absurd hg hc, others_link rfl rfl,
      fun j hj => setPhase_lane_ne _ _ hj, fun h => absurd rfl h, rfl, rfl, rfl⟩
  | some h =>
    refine ⟨fun hc => ?_, fun _ => ⟨rfl, rfl, setPhase_lane_self _ k _, fun _ => rfl⟩, others_link rfl rfl,
      fun j hj => setPhase_lane_ne _ _ hj, fun h => absurd rfl h, rfl, rfl, rfl⟩
    cases hg.symm.trans hc

theorem Requested.waits {u : SharedUnit} {k : LaneId} {s t : State} (h : Requested u k s t) (j : LaneId) :
    t.waits j ↔ s.waits j := by
  unfold State.waits
  rw [h.waitList]

theorem Requested.owns {u : SharedUnit} {k : LaneId} {s t : State} (h : Requested u k s t) (j : LaneId) :
    t.owns j ↔ s.owns j := by
  unfold State.owns State.ownerOf State.lineOwnerOf
  rw [h.chanOwner, h.lineOwner]

theorem Requested.noneTwice {u : SharedUnit} {k : LaneId} {s t : State} (h : Requested u k s t) (hn : s.noneTwice)
    (hk : k ∉ s.queueFor u) : t.noneTwice := by
  refine ⟨fun v => ?_, by rw [h.waitList]; exact hn.2⟩
  by_cases hv : v = u
  · subst hv
    by_cases hg : s.grantee v = none
    · rw [(h.granted hg).2.1]
      exact hn.1 v
    · rw [(h.joined hg).2.1]
      exact (hn.1 v).append (List.nodup_singleton k) (List.disjoint_singleton.mpr hk)
  · rw [(h.others v hv).2]
    exact hn.1 v

/-- A request leaves the standing of every other lane. -/
theorem Requested.same {u : SharedUnit} {k : LaneId} {s t : State} (h : Requested u k s t) {j : LaneId} (hj : j ≠ k) :
    Same s t j := by
  refine ⟨.of_eq (h.lane j hj), fun v => ?_, fun v => ?_, ?_, h.waits j, (h.owns j).mp⟩
  · by_cases hv : v = u
    · subst hv
      by_cases hg : s.grantee v = none
      · rw [(h.granted hg).1, hg]
        exact iff_of_false (fun hc => hj (Option.some.inj hc).symm) (by simp)
      · rw [(h.joined hg).1]
    · rw [(h.others v hv).1]
  · by_cases hv : v = u
    · subst hv
      by_cases hg : s.grantee v = none
      · rw [(h.granted hg).2.1]
      · rw [(h.joined hg).2.1]
        simp [hj]
    · rw [(h.others v hv).2]
  · unfold State.woundBy
    by_cases hu : u = .link
    · subst hu
      by_cases hg : s.grantee .link = none
      · obtain ⟨hg', -, -, hw⟩ := h.granted hg
        refine iff_of_false (fun hc => ?_) fun hc => ?_
        · rw [hw rfl] at hc
          cases hc.2
        · cases hg.symm.trans hc.1
      · obtain ⟨hg', -, -, hw⟩ := h.joined hg
        rw [hw rfl]
        show t.grantee .link = _ ∧ _ ↔ _
        rw [hg']
        exact Iff.rfl
    · rw [h.otherMark hu]
      show t.grantee .link = _ ∧ _ ↔ _
      rw [(h.others .link (Ne.symm hu)).1]
      exact Iff.rfl

/-- The lane that requests stands by the law: it holds the unit, or stands in its queue. -/
theorem Requested.fits {u : SharedUnit} {k : LaneId} {s t : State} (h : Requested u k s t) (hk : s.AtStep k) :
    t.Fits k := by
  obtain ⟨n, hn⟩ := hk.runs
  obtain ⟨i, hi⟩ := hk.steps
  have hs := hk.state
  have hord (p : Phase) : ({ s.lane k with phase := p } : Lane).ordered := by
    refine ⟨?_, fun _ => ⟨i, hi⟩, ?_, ?_⟩ <;> simp [hs, hn]
  have hmay (p : Phase) : ({ s.lane k with phase := p } : Lane).mayHoldClaims := ⟨⟨n, hn⟩, .inr (.inl hs)⟩
  by_cases hg : s.grantee u = none
  · obtain ⟨hgr, hq, hl, hw⟩ := h.granted hg
    refine ⟨⟨?_, fun v => ?_, fun v => ?_, ?_⟩, ?_, fun _ => ?_⟩
    · rw [hl]
      exact hord _
    · rw [hl]
      by_cases hv : v = u
      · subst hv
        exact iff_of_true rfl hgr
      · rw [(h.others v hv).1]
        exact iff_of_false (fun hc => hv (SharedUnit.hold_inj.mp hc).symm) (hk.holds v)
    · rw [hl]
      refine iff_of_false (SharedUnit.hold_ne_wait u v) ?_
      by_cases hv : v = u
      · subst hv
        rw [hq]
        exact hk.queued v
      · rw [(h.others v hv).2]
        exact hk.queued v
    · rw [hl]
      refine iff_of_false (by simp [hs]) fun hc => ?_
      by_cases hu : u = .link
      · rw [State.woundBy, hw hu] at hc
        cases hc.2
      · refine hk.holds .link ?_
        rw [← (h.others .link (Ne.symm hu)).1]
        exact hc.1
    · rw [hl, h.waits]
      exact iff_of_false (by simp [hs]) hk.waits
    · rw [hl]
      exact hmay _
  · obtain ⟨hgr, hq, hl, hw⟩ := h.joined hg
    have hholds : ∀ v, t.grantee v ≠ some k := fun v => by
      by_cases hv : v = u
      · subst hv
        rw [hgr]
        exact hk.holds v
      · rw [(h.others v hv).1]
        exact hk.holds v
    refine ⟨⟨?_, fun v => ?_, fun v => ?_, ?_⟩, ?_, fun _ => ?_⟩
    · rw [hl]
      exact hord _
    · rw [hl]
      exact iff_of_false (fun hc => SharedUnit.hold_ne_wait v u hc.symm) (hholds v)
    · rw [hl]
      by_cases hv : v = u
      · subst hv
        rw [hq]
        exact iff_of_true rfl (by simp)
      · rw [(h.others v hv).2]
        exact iff_of_false (fun hc => hv (SharedUnit.wait_inj.mp hc).symm) (hk.queued v)
    · rw [hl]
      exact iff_of_false (by simp [hs]) fun hc => hholds .link hc.1
    · rw [hl, h.waits]
      exact iff_of_false (by simp [hs]) hk.waits
    · rw [hl]
      exact hmay _

/-! ### A withdrawal -/

/-- Lane k leaves the queue of unit u (R65). -/
structure Withdrawn (u : SharedUnit) (k : LaneId) (s t : State) : Prop where
  grantee : ∀ v, t.grantee v = s.grantee v
  queueFor : t.queueFor u = (s.queueFor u).erase k
  others : ∀ v, v ≠ u → t.queueFor v = s.queueFor v
  rest : t.lanes = s.lanes ∧ t.link.windDown = s.link.windDown ∧ t.waitList = s.waitList ∧
    t.chanOwner = s.chanOwner ∧ t.lineOwner = s.lineOwner

theorem withdrawConverter_withdrawn (s : State) (k : LaneId) : Withdrawn .converter k s (withdrawConverter s k) :=
  ⟨fun v => by cases v <;> rfl, rfl, fun v hv =>
    (others_converter (s := s) (t := withdrawConverter s k) rfl rfl v hv).2, rfl, rfl, rfl, rfl, rfl⟩

theorem withdrawMonitor_withdrawn (s : State) (k : LaneId) : Withdrawn .monitor k s (withdrawMonitor s k) :=
  ⟨fun v => by cases v <;> rfl, rfl, fun v hv =>
    (others_monitor (s := s) (t := withdrawMonitor s k) rfl rfl v hv).2, rfl, rfl, rfl, rfl, rfl⟩

theorem withdrawLink_withdrawn (s : State) (k : LaneId) : Withdrawn .link k s (withdrawLink s k) :=
  ⟨fun v => by cases v <;> rfl, rfl, fun v hv =>
    (others_link (s := s) (t := withdrawLink s k) rfl rfl v hv).2, rfl, rfl, rfl, rfl, rfl⟩

theorem Withdrawn.waits {u : SharedUnit} {k : LaneId} {s t : State} (h : Withdrawn u k s t) (j : LaneId) :
    t.waits j ↔ s.waits j := by
  obtain ⟨-, -, hw, -, -⟩ := h.rest
  unfold State.waits
  rw [hw]

theorem Withdrawn.lane {u : SharedUnit} {k : LaneId} {s t : State} (h : Withdrawn u k s t) (j : LaneId) :
    t.lane j = s.lane j := by
  unfold State.lane
  rw [h.rest.1]

theorem Withdrawn.noneTwice {u : SharedUnit} {k : LaneId} {s t : State} (h : Withdrawn u k s t) (hn : s.noneTwice) :
    t.noneTwice := by
  obtain ⟨-, -, hw, -, -⟩ := h.rest
  refine ⟨fun v => ?_, by rw [hw]; exact hn.2⟩
  by_cases hv : v = u
  · subst hv
    rw [h.queueFor]
    exact (hn.1 v).erase k
  · rw [h.others v hv]
    exact hn.1 v

/-- A withdrawal leaves the standing of every other lane. -/
theorem Withdrawn.same {u : SharedUnit} {k : LaneId} {s t : State} (h : Withdrawn u k s t) {j : LaneId} (hj : j ≠ k) :
    Same s t j := by
  obtain ⟨-, hmark, -, hco, hlo⟩ := h.rest
  refine ⟨.of_eq (h.lane j), fun v => by rw [h.grantee], fun v => ?_, ?_, h.waits j, ?_⟩
  · by_cases hv : v = u
    · subst hv
      rw [h.queueFor, List.mem_erase_of_ne hj]
    · rw [h.others v hv]
  · have hg : t.link.grantee = s.link.grantee := h.grantee .link
    unfold State.woundBy
    rw [hmark, hg]
  · unfold State.owns State.ownerOf State.lineOwnerOf
    rw [hco, hlo]
    exact id

/-- The lane that withdrew is free. -/
theorem Withdrawn.gave {u : SharedUnit} {k : LaneId} {s t : State} (h : Withdrawn u k s t) (hs : s.Seated k)
    (hp : (s.lane k).phase = u.wait) (hn : (s.queueFor u).Nodup) (hw : ¬s.waits k) : t.Free k := by
  refine ⟨fun v hv => ?_, fun v hv => ?_, fun hc => hw ((h.waits k).mp hc)⟩
  · rw [h.grantee] at hv
    exact SharedUnit.hold_ne_wait v u (((hs.holds v).mpr hv).symm.trans hp)
  · by_cases hvu : v = u
    · subst hvu
      rw [h.queueFor] at hv
      exact hn.not_mem_erase hv
    · rw [h.others v hvu] at hv
      exact hvu (SharedUnit.wait_inj.mp (hp.symm.trans ((hs.queued v).mpr hv))).symm

end Sys2Proof.Machine
end

