-- ==== Sys2Proof/Proofs/Acting.lean ====
section
/-! SUPPORT. The invariant of an act in progress: every lane stands by the law but for the lanes that a task is about to move,
and each of those is where its task needs it. A lane's operation is shown to keep it for the others and to leave its own lane
where its tasks need it. -/

namespace Sys2Proof.Machine

/-- The lane a task moves; a take moves its lane only if the lane is IDLE. -/
def Task.goer : Task → Option LaneId
  | .startStep k _ => some k
  | .enter k => some k
  | .take _ => none
  | .release k => some k
  | .settled k => some k

/-- The lanes that tasks are about to move. -/
def goers (ts : List Task) : List LaneId := ts.filterMap Task.goer

theorem mem_goers {ts : List Task} {x : Task} {k : LaneId} (hx : x ∈ ts) (hk : x.goer = some k) : k ∈ goers ts :=
  List.mem_filterMap.mpr ⟨x, hx, hk⟩

theorem goers_enter (ks : List LaneId) (ts : List Task) : goers (ks.map Task.enter ++ ts) = ks ++ goers ts := by
  unfold goers
  rw [List.filterMap_append, List.filterMap_map]
  exact congrArg (· ++ _) List.filterMap_some

/-- The lane of a task is where the task needs it. -/
def Task.Ready (s : State) : Task → Prop
  | .startStep k _ => s.Between k
  | .enter k => s.Between k
  | .take _ => True
  | .release k => s.Fits k ∧ (s.lane k).awaitsGo = true
  | .settled k => s.Rests k

/-- An act in progress, its tasks left (R59). -/
structure Acting (ts : List Task) (s : State) : Prop where
  twice : s.noneTwice
  once : (goers ts).Nodup
  ready : ∀ x ∈ ts, x.Ready s
  fits : ∀ k, k ∉ goers ts → s.Fits k

/-- An act in progress while lane k is being moved. -/
structure ActingBut (k : LaneId) (ts : List Task) (s : State) : Prop where
  twice : s.noneTwice
  once : (goers ts).Nodup
  absent : k ∉ goers ts
  ready : ∀ x ∈ ts, x.Ready s
  fits : ∀ j, j ≠ k → j ∉ goers ts → s.Fits j

theorem acting_nil_iff (s : State) : Acting [] s ↔ s.lanesServed := by
  rw [lanesServed_iff]
  exact ⟨fun h => ⟨h.twice, fun k => h.fits k (by simp [goers])⟩,
    fun h => ⟨h.1, List.nodup_nil, fun x hx => by simp at hx, fun k _ => h.2 k⟩⟩

theorem Acting.perm {ts us : List Task} {s : State} (h : Acting ts s) (hp : ts.Perm us) : Acting us s := by
  have hg : (goers ts).Perm (goers us) := hp.filterMap _
  exact ⟨h.twice, hg.nodup_iff.mp h.once, fun x hx => h.ready x (hp.mem_iff.mpr hx),
    fun k hk => h.fits k fun hc => hk (hg.mem_iff.mp hc)⟩

/-- A lane that is free stands in no queue, so whoever is ready keeps its standing where it is spared. -/
theorem Task.Ready.spared {s t : State} {x : Task} (hx : x.Ready s) (h : ∀ j, x.goer = some j → Spared s t j) :
    x.Ready t := by
  cases x with
  | startStep j i => exact ((h j rfl).same hx.queued).between hx
  | enter j => exact ((h j rfl).same hx.queued).between hx
  | take j => trivial
  | release j =>
    obtain ⟨hf, ha⟩ := hx
    have hq : ∀ u, j ∉ s.queueFor u := fun u hc => by
      have hp := (hf.queued u).mpr hc
      unfold Lane.awaitsGo at ha
      simp only [Bool.or_eq_true, Bool.and_eq_true, beq_iff_eq] at ha
      rcases ha with hg | ⟨-, hg⟩
      · exact u.wait_ne_none (hp.symm.trans (hf.ordered.2.2.1 (.inr (.inr hg))))
      · rw [hp] at hg
        cases u <;> cases hg
    have hs := (h j rfl).same hq
    obtain ⟨h1, -, -, h4, -⟩ := hs.lane
    refine ⟨hs.fits hf, ?_⟩
    unfold Lane.awaitsGo at ha ⊢
    rwa [h1, h4]
  | settled j => exact ((h j rfl).same hx.queued).rests hx

/-- A move of lane k that spares the other lanes goes on with the act. -/
theorem ActingBut.spared {k : LaneId} {ts : List Task} {s t : State} (h : ActingBut k ts s) (hn : t.noneTwice)
    (hs : ∀ j, j ≠ k → Spared s t j) : ActingBut k ts t :=
  ⟨hn, h.once, h.absent, fun x hx => (h.ready x hx).spared fun j hj => hs j fun hjk =>
    h.absent (hjk ▸ mem_goers hx hj), fun j hj hg => (hs j hj).fits (h.fits j hj hg)⟩

/-- A lane moved to a place that the law allows ends its move. -/
theorem ActingBut.settle {k : LaneId} {ts : List Task} {s : State} (h : ActingBut k ts s) (hf : s.Fits k) : Acting ts s := by
  refine ⟨h.twice, h.once, h.ready, fun j hj => ?_⟩
  by_cases hjk : j = k
  · exact hjk ▸ hf
  · exact h.fits j hjk hj

/-- A lane moved to where a task of its own needs it goes on with that task. -/
theorem ActingBut.go {k : LaneId} {ts : List Task} {s : State} (h : ActingBut k ts s) {x : Task} (hx : x.Ready s)
    (hk : x.goer = some k) : Acting (x :: ts) s := by
  have hg : goers (x :: ts) = k :: goers ts := by
    unfold goers
    rw [List.filterMap_cons_some hk]
  refine ⟨h.twice, ?_, fun y hy => ?_, fun j hj => ?_⟩
  · rw [hg]
    exact List.nodup_cons.mpr ⟨h.absent, h.once⟩
  · rcases List.mem_cons.mp hy with rfl | hy
    · exact hx
    · exact h.ready y hy
  · rw [hg, List.mem_cons, not_or] at hj
    exact h.fits j hj.1 hj.2

/-- The first task's lane is moved while the others stand. -/
theorem Acting.but {k : LaneId} {x : Task} {ts : List Task} {s : State} (h : Acting (x :: ts) s) (hk : x.goer = some k) :
    ActingBut k ts s := by
  have hg : goers (x :: ts) = k :: goers ts := by
    unfold goers
    rw [List.filterMap_cons_some hk]
  obtain ⟨hn, ho⟩ := List.nodup_cons.mp (hg ▸ h.once)
  exact ⟨h.twice, ho, hn, fun y hy => h.ready y (List.mem_cons_of_mem _ hy), fun j hj hn' =>
    h.fits j (by rw [hg, List.mem_cons, not_or]; exact ⟨hj, hn'⟩)⟩

/-- A lane that no task is about to move can be moved. -/
theorem Acting.move {ts : List Task} {s : State} (h : Acting ts s) {k : LaneId} (hk : k ∉ goers ts) : ActingBut k ts s :=
  ⟨h.twice, h.once, hk, h.ready, fun j _ hj => h.fits j hj⟩

/-- A take can be added anywhere. -/
theorem Acting.take {ts : List Task} {s : State} (h : Acting ts s) (k : LaneId) : Acting (Task.take k :: ts) s :=
  ⟨h.twice, h.once, fun x hx => by
    rcases List.mem_cons.mp hx with rfl | hx
    · trivial
    · exact h.ready x hx, h.fits⟩

/-! ### Acts on one lane -/

/-- The units are kept, and so is the standing of every lane but k. -/
def Aside (k : LaneId) (s t : State) : Prop := UnitsKept s t ∧ ∀ j, j ≠ k → (s.lane j).Kept (t.lane j)

theorem Aside.trans {k : LaneId} {s t u : State} (h : Aside k s t) (g : Aside k t u) : Aside k s u := by
  refine ⟨h.1.trans g.1, fun j hj => ?_⟩
  obtain ⟨h1, h2, h3, h4, h5⟩ := h.2 j hj
  obtain ⟨g1, g2, g3, g4, g5⟩ := g.2 j hj
  exact ⟨g1.trans h1, g2.trans h2, g3.trans h3, g4.trans h4, g5.trans h5⟩

theorem ActingBut.aside {k : LaneId} {ts : List Task} {s t : State} (h : ActingBut k ts s) (ha : Aside k s t) :
    ActingBut k ts t :=
  h.spared (ha.1.noneTwice h.twice) fun j hj => .inl (ha.1.same (ha.2 j hj))

theorem setLane_aside (s : State) (k : LaneId) (l : Lane) : Aside k s (s.setLane k l) := by
  refine ⟨.of_eq rfl rfl rfl rfl rfl rfl, fun j hj => .of_eq ?_⟩
  rw [State.setLane_at, if_neg hj]

/-- Where the units, the wait list, the claim table and the lanes are as they were. -/
theorem Aside.of_eq {k : LaneId} {s t : State} (hlanes : t.lanes = s.lanes) (hc : t.converter = s.converter)
    (hm : t.monitor = s.monitor) (hl : t.link = s.link) (hw : t.waitList = s.waitList) (hco : t.chanOwner = s.chanOwner)
    (hlo : t.lineOwner = s.lineOwner) : Aside k s t :=
  ⟨.of_eq hc hm hl hw hco hlo, fun j _ => .of_eq (by unfold State.lane; rw [hlanes])⟩

theorem ChansOnly.aside {k : LaneId} {s t : State} (h : ChansOnly s t) : Aside k s t := by
  unfold ChansOnly at h
  rw [h]
  exact .of_eq rfl rfl rfl rfl rfl rfl rfl

theorem LinesOnly.aside {k : LaneId} {s t : State} (h : LinesOnly s t) : Aside k s t := by
  unfold LinesOnly at h
  rw [h]
  exact .of_eq rfl rfl rfl rfl rfl rfl rfl

theorem MemOutside.aside {P : Nat → Prop} {k : LaneId} {s t : State} (h : MemOutside P s t) : Aside k s t := by
  rw [h.1]
  exact .of_eq rfl rfl rfl rfl rfl rfl rfl

theorem finishSlot_aside (k : LaneId) (s : State) (n : SlotId) (st : SlotState) (reason : EndReason) (detail : Byte) :
    Aside k s (finishSlot s n st reason detail) := by
  rw [finishSlot_eq]
  exact .of_eq rfl rfl rfl rfl rfl rfl rfl

/-- A release leaves no lane more claims, and its own lane those of the masks. -/
theorem releaseClaims_aside (s : State) (k : LaneId) (chans : BitVec 16) (lines : BitVec 8) :
    Aside k s (s.releaseClaims k chans lines) := by
  obtain ⟨h, hc, -, hl⟩ := releaseClaims_spec s k chans lines
  generalize s.releaseClaims k chans lines = t at h hc hl ⊢
  have hlanes : t.lanes = s.lanes := by rw [h]
  have hunits : UnitsKept s { t with chanOwner := s.chanOwner, lineOwner := s.lineOwner } :=
    .of_eq (by rw [h]) (by rw [h]) (by rw [h]) (by rw [h]) rfl rfl
  refine ⟨⟨hunits.grantee, hunits.queueFor, hunits.windDown, hunits.waitList, fun j => ?_⟩, fun j _ => .of_eq ?_⟩
  · rintro (⟨c, ho⟩ | ⟨l, ho⟩)
    · rw [hc] at ho
      split at ho
      · cases ho
      · exact .inl ⟨c, ho⟩
    · rw [hl] at ho
      split at ho
      · cases ho
      · exact .inr ⟨l, ho⟩
  · unfold State.lane
    rw [hlanes]

/-- The release of a chain end leaves its lane nothing (R60). -/
theorem releaseClaims_owns (s : State) (k : LaneId) : ¬(s.releaseClaims k 0 0).owns k := by
  obtain ⟨-, hc, -, hl⟩ := releaseClaims_spec s k 0 0
  have h16 : ∀ c, inChans 0 c = false := fun c => by simp [inChans]
  have h8 : ∀ l, inLines 0 l = false := fun l => by simp [inLines]
  rintro (⟨c, ho⟩ | ⟨l, ho⟩)
  · rw [hc] at ho
    by_cases h : s.ownerOf c = some k
    · rw [if_pos ⟨h, h16 c⟩] at ho
      cases ho
    · rw [if_neg fun hc => h hc.1] at ho
      exact h ho
  · rw [hl] at ho
    by_cases h : s.lineOwnerOf l = some k
    · rw [if_pos ⟨h, h8 l⟩] at ho
      cases ho
    · rw [if_neg fun hc => h hc.1] at ho
      exact h ho

end Sys2Proof.Machine
end

