-- ==== Sys2Proof/Proofs/ActingTasks.lean ====
section
/-! SUPPORT. Every task keeps the invariant of an act in progress: walks, ends of chains, switches, steps, takes and the
release part of GO, each from the standing its lane has when it comes to it. -/

namespace Sys2Proof.Machine

/-- An act, with the tasks that come after it, is in progress. -/
def Carries (a : Act) (ts : List Task) : Prop := Acting (a.2 ++ ts) a.1

/-! ### Standings that an act leaves -/

theorem ChansOnly.same {s t : State} (h : ChansOnly s t) (j : LaneId) : Same s t j := by
  have ⟨_, hlanes, hco, hlo, _, _, _, _, hw, hc, hm, _, hl, _⟩ := h.keeps
  exact (UnitsKept.of_eq hc hm hl hw hco hlo).same (.of_eq (by unfold State.lane; rw [hlanes]))

theorem LinesOnly.same {s t : State} (h : LinesOnly s t) (j : LaneId) : Same s t j := by
  unfold LinesOnly at h
  exact (UnitsKept.of_eq (by rw [h]) (by rw [h]) (by rw [h]) (by rw [h]) (by rw [h]) (by rw [h])).same
    (.of_eq (by rw [h]; rfl))

theorem MemOutside.same {P : Nat → Prop} {s t : State} (h : MemOutside P s t) (j : LaneId) : Same s t j := by
  obtain ⟨h, -⟩ := h
  exact (UnitsKept.of_eq (by rw [h]) (by rw [h]) (by rw [h]) (by rw [h]) (by rw [h]) (by rw [h])).same
    (.of_eq (by rw [h]; rfl))

theorem Aside.same {k : LaneId} {s t : State} (h : Aside k s t) (hl : t.lane k = s.lane k) : Same s t k :=
  h.1.same (.of_eq hl)

/-- A free lane that is set IDLE and owns nothing stands by the law. -/
theorem State.Free.idle_fits {s : State} {k : LaneId} (h : s.Free k) (hl : s.lane k = Lane.idle) (ho : ¬s.owns k) :
    s.Fits k := by
  have hord : (s.lane k).ordered := by
    rw [hl]
    exact ⟨iff_of_true rfl rfl, nofun, fun _ => rfl, nofun⟩
  have hphase : (s.lane k).phase = .none := by rw [hl]; rfl
  refine ⟨h.seated hord (phase_none_apart hphase) (by rw [hl]; nofun), ?_, fun hc => absurd hc ho⟩
  exact iff_of_false (by rw [hl]; nofun) h.waits

/-- A lane in a phase of its own that stands by the law is at a step. -/
theorem State.Fits.atStep {s : State} {k : LaneId} (h : s.Fits k) (hn : (s.lane k).phase ≠ .none)
    (hp : ∀ u : SharedUnit, (s.lane k).phase ≠ u.hold ∧ (s.lane k).phase ≠ u.wait) : s.AtStep k := by
  obtain ⟨hruns, hsteps, hquiet, hwind⟩ := h.ordered
  have hs : (s.lane k).state = .stepping := by
    cases hstate : (s.lane k).state with
    | idle => exact absurd (hquiet (.inl hstate)) hn
    | claiming => exact absurd (hquiet (.inr (.inl hstate))) hn
    | gated => exact absurd (hquiet (.inr (.inr hstate))) hn
    | stepping => rfl
    | winding => exact absurd (hwind hstate).1 (hp .link).1
  exact ⟨h.free hp (by rw [hs]; nofun), Option.ne_none_iff_exists'.mp fun hc => (by cases hs.symm.trans (hruns.mpr hc)), hsteps (.inl hs), hs⟩

/-- The phase of a lane that a task is about to move. -/
theorem Acting.goer_phase {ts : List Task} {s : State} (h : Acting ts s) {k : LaneId} (hk : k ∈ goers ts) :
    ((s.lane k).phase = .none ∨ (s.lane k).phase = .awaitGo) ∧ (s.lane k).state ≠ .idle ∧ ¬s.waits k := by
  obtain ⟨x, hx, hxk⟩ := List.mem_filterMap.mp hk
  have hr := h.ready x hx
  have hbetween (hb : s.Between k) :
      ((s.lane k).phase = .none ∨ (s.lane k).phase = .awaitGo) ∧ (s.lane k).state ≠ .idle ∧ ¬s.waits k := by
    refine ⟨.inl hb.phase, fun hc => ?_, hb.waits⟩
    rcases hb.state with hs | hs | hs <;> cases hc.symm.trans hs
  cases x with
  | take j => cases hxk
  | startStep j i => obtain rfl := Option.some.inj hxk; exact hbetween hr
  | enter j => obtain rfl := Option.some.inj hxk; exact hbetween hr
  | settled j => obtain rfl := Option.some.inj hxk; exact hbetween (State.Rests.between hr)
  | release j =>
    obtain rfl := Option.some.inj hxk
    obtain ⟨hf, ha⟩ := hr
    unfold Lane.awaitsGo at ha
    simp only [Bool.or_eq_true, Bool.and_eq_true, beq_iff_eq] at ha
    rcases ha with hg | ⟨hs, hp⟩
    · refine ⟨.inl (hf.ordered.2.2.1 (.inr (.inr hg))), by rw [hg]; nofun, fun hw => ?_⟩
      cases hg.symm.trans (hf.waits.mpr hw)
    · refine ⟨.inr hp, by rw [hs]; nofun, fun hw => ?_⟩
      cases hs.symm.trans (hf.waits.mpr hw)

/-! ### Walks -/

/-- A walk gives claims to the lanes it grants only. -/
theorem walkList_owns (ws kept : List Waiting) (s : State) (j : LaneId) (h : (walkList ws kept s).1.owns j) :
    s.owns j ∨ j ∈ (walkList ws kept s).2.2 := by
  induction ws generalizing kept s with
  | nil => exact .inl h
  | cons w ws ih =>
    unfold walkList at h ⊢
    split at h
    · rename_i hg
      rw [if_pos hg]
      rcases ih kept _ h with ho | hm
      · obtain ⟨-, hc, hl⟩ := giveClaims_spec s w.lane w.chans w.lines
        by_cases hj : j = w.lane
        · exact .inr (List.mem_cons.mpr (.inl hj))
        · left
          rcases ho with ⟨c, ho⟩ | ⟨l, ho⟩
          · rw [hc] at ho
            split at ho
            · exact absurd (Option.some.inj ho).symm hj
            · exact .inl ⟨c, ho⟩
          · rw [hl] at ho
            split at ho
            · exact absurd (Option.some.inj ho).symm hj
            · exact .inr ⟨l, ho⟩
      · exact .inr (List.mem_cons_of_mem _ hm)
    · rename_i hg
      rw [if_neg hg]
      exact ih _ _ h

/-- A lane that a walk does not grant keeps its standing. -/
theorem walk_same (s : State) {j : LaneId} (hj : j ∉ (walk s).2) : Same s (walk s).1 j := by
  have hc := walk_claimsOnly s
  have hp := walk_perm s
  have howns : (walk s).1.owns j → s.owns j := fun ho => (walkList_owns s.waitList [] s j ho).elim id fun hm => absurd hm hj
  generalize walk s = r at hj hc hp howns
  have hlane : r.1.lane j = s.lane j := by rw [hc]; rfl
  have hunits : UnitsKept s { r.1 with waitList := s.waitList, chanOwner := s.chanOwner, lineOwner := s.lineOwner } :=
    .of_eq (by rw [hc]) (by rw [hc]) (by rw [hc]) rfl rfl rfl
  have hs := hunits.same (j := j) (.of_eq hlane)
  refine ⟨hs.lane, hs.holds, hs.queued, hs.winds, ?_, howns⟩
  unfold State.waits
  rw [hp.mem_iff, List.mem_append]
  exact ⟨.inl, fun h => h.elim id fun hm => absurd hm hj⟩

/-- The lanes a walk grants were waiting. -/
theorem waits_of_granted {s : State} {j : LaneId} (hj : j ∈ (walk s).2) : s.waits j :=
  (walk_perm s).mem_iff.mpr (List.mem_append.mpr (.inr hj))

/-- A lane granted goes on with its slot (R59). -/
theorem walk_between {s : State} (hn : s.noneTwice) {j : LaneId} (hj : j ∈ (walk s).2) (hf : s.Fits j) :
    (walk s).1.Between j := by
  have hc := walk_claimsOnly s
  have hp := walk_perm s
  have hstate := hf.waits.mpr (waits_of_granted hj)
  generalize walk s = r at hj hc hp
  have hlane : r.1.lane j = s.lane j := by rw [hc]; rfl
  have hphase := hf.ordered.2.2.1 (.inr (.inl hstate))
  have hunits : UnitsKept s { r.1 with waitList := s.waitList, chanOwner := s.chanOwner, lineOwner := s.lineOwner } :=
    .of_eq (by rw [hc]) (by rw [hc]) (by rw [hc]) rfl rfl rfl
  refine ⟨⟨fun u hu => ?_, fun u hu => ?_, fun hw => ?_⟩, ?_, ?_, ?_⟩
  · exact (phase_none_apart hphase u).1 ((hf.holds u).mpr ((hunits.grantee u).symm.trans hu))
  · exact (phase_none_apart hphase u).2 ((hf.queued u).mpr (hunits.queueFor u ▸ hu))
  · exact (List.nodup_append.mp (hp.nodup_iff.mp hn.2)).2.2 j hw j hj rfl
  · rw [hlane]
    exact Option.ne_none_iff_exists'.mp fun hc => by cases hstate.symm.trans (hf.ordered.1.mpr hc)
  · exact (congrArg Lane.phase hlane).trans hphase
  · exact .inl ((congrArg Lane.state hlane).trans hstate)

/-- A walk while lane k is being moved: the lanes granted go on before the tasks left (R59). -/
theorem ActingBut.on_walk {k : LaneId} {ts : List Task} {s : State} (h : ActingBut k ts s) (hk : ¬s.waits k) :
    ActingBut k ((walk s).2.map Task.enter ++ ts) (walk s).1 := by
  have hgoer : ∀ j, j ∈ goers ts → ¬s.waits j := by
    intro j hj hw
    obtain ⟨x, hx, hxj⟩ := List.mem_filterMap.mp hj
    have hr := h.ready x hx
    cases x with
    | take i => cases hxj
    | startStep i _ => obtain rfl := Option.some.inj hxj; exact hr.waits hw
    | enter i => obtain rfl := Option.some.inj hxj; exact hr.waits hw
    | settled i => obtain rfl := Option.some.inj hxj; exact hr.waits hw
    | release i =>
      obtain rfl := Option.some.inj hxj
      obtain ⟨hf, ha⟩ := hr
      unfold Lane.awaitsGo at ha
      rw [hf.waits.mpr hw] at ha
      cases ha
  have hnodup := List.nodup_append.mp ((walk_perm s).nodup_iff.mp h.twice.2)
  have hgranted : ∀ j ∈ (walk s).2, j ≠ k ∧ j ∉ goers ts := fun j hj =>
    ⟨fun hc => hk (hc ▸ waits_of_granted hj), fun hc => hgoer j hc (waits_of_granted hj)⟩
  have hsame : ∀ j, j ∈ goers ts → Same s (walk s).1 j := fun j hj => walk_same s fun hc => (hgranted j hc).2 hj
  have hc := walk_claimsOnly s
  have hq : ∀ u, (walk s).1.queueFor u = s.queueFor u := fun u => by rw [hc]; cases u <;> rfl
  refine ⟨⟨fun u => by rw [hq]; exact h.twice.1 u, hnodup.1⟩, ?_, ?_, fun x hx => ?_, fun j hjk hj => ?_⟩
  · rw [goers_enter]
    exact hnodup.2.1.append h.once fun j hj hj' => (hgranted j hj).2 hj'
  · rw [goers_enter, List.mem_append]
    exact fun hm => hm.elim (fun hm => (hgranted k hm).1 rfl) h.absent
  · rcases List.mem_append.mp hx with hx | hx
    · obtain ⟨j, hj, rfl⟩ := List.mem_map.mp hx
      obtain ⟨hjk, hjg⟩ := hgranted j hj
      exact walk_between h.twice hj (h.fits j hjk hjg)
    · exact (h.ready x hx).spared fun j hj => .inl (hsame j (mem_goers hx hj))
  · rw [goers_enter, List.mem_append, not_or] at hj
    exact (walk_same s hj.1).fits (h.fits j hjk hj.2)

/-! ### Ends of slots -/

theorem releaseClaims_lane (s : State) (k : LaneId) (chans : BitVec 16) (lines : BitVec 8) (j : LaneId) :
    (s.releaseClaims k chans lines).lane j = s.lane j := by
  have h := (releaseClaims_spec s k chans lines).1
  generalize s.releaseClaims k chans lines = t at h ⊢
  rw [h]
  rfl

/-- The tasks of a walk and one of the lane's own come before the tasks left. -/
theorem Acting.granted_first {ks : List LaneId} {x : Task} {ts : List Task} {s : State}
    (h : Acting (x :: (ks.map Task.enter ++ ts)) s) : Acting ((ks.map Task.enter ++ [x]) ++ ts) s := by
  refine h.perm ?_
  rw [List.append_assoc]
  exact List.perm_middle.symm

theorem ActingBut.on_chainEnd {k : LaneId} {ts : List Task} {s : State} (h : ActingBut k ts s) (hk : s.Free k) (n : SlotId) :
    Carries (chainEnd s k n) ts := by
  rw [chainEnd_eq]
  have ha : Aside k s ((offAtChainEnd s k n).releaseClaims k 0 0) :=
    (offAtChainEnd_chansOnly s k n).aside.trans (releaseClaims_aside _ k 0 0)
  have ho := releaseClaims_owns (offAtChainEnd s k n) k
  generalize (offAtChainEnd s k n).releaseClaims k 0 0 = t at ha ho
  have hfree := ha.1.free hk
  have hnot : k ∉ (walk t).2 := fun hc => hfree.waits (waits_of_granted hc)
  have hsame := walk_same t hnot
  have hidle := setLane_aside (walk t).1 k Lane.idle
  have hfits : ((walk t).1.setLane k Lane.idle).Fits k :=
    (hidle.1.free (hsame.free hfree)).idle_fits (State.setLane_get_self _ k _) fun hc => ho (hsame.owns (hidle.1.owns k hc))
  exact ((((h.aside ha).on_walk hfree.waits).aside hidle).settle hfits).take k |>.granted_first

theorem ActingBut.on_endSlot {k : LaneId} {ts : List Task} {s : State} (h : ActingBut k ts s) (hk : s.Free k) (n : SlotId)
    (st : SlotState) (reason : EndReason) (detail : Byte) : Carries (endSlot s k n st reason detail) ts := by
  have ha := finishSlot_aside k s n st reason detail
  exact (h.aside ha).on_chainEnd (ha.1.free hk) n

theorem ActingBut.on_switchTo {k : LaneId} {ts : List Task} {s : State} (h : ActingBut k ts s) (hk : s.Free k) (n c : SlotId) :
    Carries (switchTo s k n c) ts := by
  have heq := continued_eq s k n c
  have hlane := continued_lane s k n c
  unfold switchTo
  generalize continued s k n c = t at heq hlane
  have ha : Aside k s t :=
    ⟨.of_eq (by rw [heq]) (by rw [heq]) (by rw [heq]) (by rw [heq]) (by rw [heq]) (by rw [heq]), fun j hj =>
      .of_eq (by rw [hlane, if_neg hj])⟩
  have hself : t.lane k = t.startedLane c .stepping := by rw [hlane, if_pos rfl]
  have hb : t.Between k := by
    refine ⟨ha.1.free hk, ⟨c, ?_⟩, ?_, .inr (.inr ?_)⟩ <;> rw [hself] <;> rfl
  unfold trimThenEnter
  have hr := releaseClaims_aside t k (t.chanClaim c) (t.lineClaim c)
  have hrl := releaseClaims_lane t k (t.chanClaim c) (t.lineClaim c) k
  dsimp only
  generalize t.releaseClaims k (t.chanClaim c) (t.lineClaim c) = u at hr hrl
  have hbu := (hr.same hrl).between hb
  have hu := (h.aside ha).aside hr
  split
  · have hnot : k ∉ (walk u).2 := fun hc => hbu.waits (waits_of_granted hc)
    exact ((hu.on_walk hbu.waits).go (x := .enter k) ((walk_same u hnot).between hbu) rfl).granted_first
  · exact hu.go (x := .enter k) hbu rfl

theorem ActingBut.on_judgeSlot {k : LaneId} {ts : List Task} {s : State} (h : ActingBut k ts s) (hk : s.Free k) (n : SlotId) :
    Carries (judgeSlot s k n) ts := by
  unfold judgeSlot continueWith
  split
  · exact h.on_endSlot hk n _ _ _
  · split
    · rename_i c _
      split
      · split
        · exact h.on_switchTo hk n c
        · exact h.on_endSlot hk n _ _ _
      · exact h.on_endSlot hk n _ _ _
    · exact h.on_endSlot hk n _ _ _

/-! ### Ends of steps -/

theorem recordResult_aside (s : State) (k : LaneId) (n : SlotId) (i : StepId) (r : StepResult) :
    Aside k s (recordResult s k n i r) := by
  obtain ⟨h, -, hl, -⟩ := recordResult_spec s k n i r
  generalize recordResult s k n i r = t at h hl
  exact ⟨.of_eq (by rw [h]) (by rw [h]) (by rw [h]) (by rw [h]) (by rw [h]) (by rw [h]), fun j hj =>
    .of_eq (by rw [hl, if_neg hj])⟩

/-- A lane whose step has its result waits for nothing. -/
theorem recordResult_rests {s : State} {k : LaneId} {n : SlotId} {i : StepId} (hk : s.Free k)
    (hn : (s.lane k).running = some n) (hi : (s.lane k).step = some i) (r : StepResult) :
    (recordResult s k n i r).Rests k := by
  have hl := (recordResult_spec s k n i r).2.2.1 k
  rw [if_pos rfl] at hl
  have hf := (recordResult_aside s k n i r).1.free hk
  generalize recordResult s k n i r = t at hl hf
  refine ⟨⟨hf, ⟨n, ?_⟩, ⟨i, ?_⟩, ?_⟩, ?_⟩ <;> rw [hl]
  · exact hn
  · exact hi
  · rfl
  · rfl

theorem skipFrom_aside (k : LaneId) (s : State) (n : SlotId) (first : Nat) : Aside k s (skipFrom s n first) :=
  (skipFrom_spec s n first).1.aside

theorem ActingBut.on_afterStep {k : LaneId} {ts : List Task} {s : State} (h : ActingBut k ts s) (hk : s.Rests k) (n : SlotId)
    (i : StepId) (cont : Bool) (o : StepOutcome) : Carries (afterStep s k n i cont o) ts := by
  unfold afterStep
  split
  · split
    · rename_i j _
      exact h.go (x := .startStep k j) hk.between rfl
    · exact h.on_judgeSlot hk.toFree n
  · have ha := skipFrom_aside k s n (i.val + 1)
    exact (h.aside ha).on_endSlot (ha.1.free hk.toFree) n _ _ _

theorem ActingBut.on_stepEnd {k : LaneId} {ts : List Task} {s : State} (h : ActingBut k ts s) (hk : s.Free k)
    (hr : ∃ n, (s.lane k).running = some n) (hs : ∃ i, (s.lane k).step = some i) (r : StepResult) :
    Carries (stepEnd s k r) ts := by
  obtain ⟨n, hn⟩ := hr
  obtain ⟨i, hi⟩ := hs
  unfold stepEnd
  rw [hn, hi]
  exact (h.aside (recordResult_aside s k n i r)).on_afterStep (recordResult_rests hk hn hi r) n i _ _

theorem ActingBut.on_stepEndsSlot {k : LaneId} {ts : List Task} {s : State} (h : ActingBut k ts s) (hk : s.Free k)
    (hr : ∃ n, (s.lane k).running = some n) (hs : ∃ i, (s.lane k).step = some i) (r : StepResult) (st : SlotState)
    (reason : EndReason) : Carries (stepEndsSlot s k r st reason) ts := by
  obtain ⟨n, hn⟩ := hr
  obtain ⟨i, hi⟩ := hs
  unfold stepEndsSlot
  rw [hn, hi]
  have ha := (recordResult_aside s k n i r).trans (skipFrom_aside k (recordResult s k n i r) n (i.val + 1))
  exact (h.aside ha).on_endSlot (ha.1.free hk) n _ _ _

theorem ActingBut.on_stepPass {k : LaneId} {ts : List Task} {s : State} (h : ActingBut k ts s) (hk : s.AtStep k) :
    Carries (stepPass s k) ts := h.on_stepEnd hk.toFree hk.runs hk.steps _

/-! ### Steps -/

/-- A lane at a step takes a phase in which no unit serves it. -/
theorem ActingBut.park {k : LaneId} {ts : List Task} {s : State} (h : ActingBut k ts s) (hk : s.AtStep k) {l : Lane}
    (hs : l.state = (s.lane k).state) (hr : l.running = (s.lane k).running) (hi : l.step = (s.lane k).step)
    (hp : ∀ u : SharedUnit, l.phase ≠ u.hold ∧ l.phase ≠ u.wait) : Acting ts (s.setLane k l) := by
  have ha := setLane_aside s k l
  have hl : (s.setLane k l).lane k = l := State.setLane_get_self s k l
  refine (h.aside ha).settle (State.AtStep.fits ⟨ha.1.free hk.toFree, ?_, ?_, ?_⟩ ?_) <;> rw [hl]
  · rw [hr]
    exact hk.runs
  · rw [hi]
    exact hk.steps
  · rw [hs]
    exact hk.state
  · exact hp

/-- A lane at a step waits in a phase of its own. -/
theorem ActingBut.on_setPhase {k : LaneId} {ts : List Task} {s : State} (h : ActingBut k ts s) (hk : s.AtStep k) {p : Phase}
    (hp : ∀ u : SharedUnit, p ≠ u.hold ∧ p ≠ u.wait) : Acting ts (s.setPhase k p) := h.park hk rfl rfl rfl hp

/-- A lane at a step requests a unit. -/
theorem ActingBut.request {k : LaneId} {ts : List Task} {s t : State} {u : SharedUnit} (h : ActingBut k ts s)
    (hk : s.AtStep k) (hr : Requested u k s t) : Acting ts t :=
  (h.spared (hr.noneTwice h.twice (hk.queued u)) fun _ hj => .inl (hr.same hj)).settle (hr.fits hk)

theorem ActingBut.on_endSettle {k : LaneId} {ts : List Task} {s : State} (h : ActingBut k ts s) (hk : s.AtStep k) :
    Acting ts (endSettle s k) := by
  have ha : Aside k s (s.putWatch k Watch.empty) := .of_eq rfl rfl rfl rfl rfl rfl rfl
  exact (h.aside ha).request ((ha.same rfl).atStep hk) (requestMonitor_requested _ k)

theorem ActingBut.on_beginTrigger {k : LaneId} {ts : List Task} {s : State} (h : ActingBut k ts s) (hk : s.AtStep k)
    (p : CycleParams) : Carries (beginTrigger s k p) ts := by
  have haccept : Carries (acceptTrigger s k, []) ts := h.request hk (requestConverter_requested s k)
  have hedge : Carries (if (s.line p.line).mode = .inputEdge then (s.setPhase k .edgeWait, [])
      else stepEnd s k (plainResult .error .triggerLineMode 0)) ts := by
    split
    · exact h.on_setPhase hk fun u => by cases u <;> exact ⟨nofun, nofun⟩
    · exact h.on_stepEnd hk.toFree hk.runs hk.steps _
  unfold beginTrigger
  split
  · exact haccept
  · split
    · exact haccept
    · exact h.park hk rfl rfl rfl fun u => by cases u <;> exact ⟨nofun, nofun⟩
  · exact hedge
  · exact hedge

theorem ActingBut.on_serveStep {k : LaneId} {ts : List Task} {s : State} (h : ActingBut k ts s) (hk : s.AtStep k)
    (c : StepCmd) : Carries (serveStep s k c) ts := by
  have hchans {t : State} (ht : ChansOnly s t) : Carries (stepPass t k) ts :=
    (h.aside ht.aside).on_stepPass ((ht.same k).atStep hk)
  cases c with
  | set mask x r staged settle =>
    cases staged with
    | true => exact hchans (onChans_stageOn mask x r s).1
    | false =>
      have hset := (onChans_setOn mask x r s).1
      rw [serveStep_set]
      split
      · exact (h.aside hset.aside).on_setPhase ((hset.same k).atStep hk) fun u => by cases u <;> exact ⟨nofun, nofun⟩
      · exact hchans hset
  | apply mask => exact hchans (onChans_applyOn _ s).1
  | off mask r => exact hchans (onChans_offOn mask r s).1
  | delay n =>
    show Carries (if n = 0 then _ else _) ts
    split
    · exact h.on_stepPass hk
    · exact h.park hk rfl rfl rfl fun u => by cases u <;> exact ⟨nofun, nofun⟩
  | cycle p => exact h.on_beginTrigger hk p
  | verify mask p =>
    rw [serveStep_verify]
    split
    · exact h.on_endSettle hk
    · exact h.on_setPhase hk fun u => by cases u <;> exact ⟨nofun, nofun⟩
  | link p => exact h.request hk (requestLink_requested s k)
  | lines mask mode levels =>
    have hl : LinesOnly s (onLines mask (lineSetOn mode levels) s) := (onLines_lineSetOn mask mode levels s).1
    exact (h.aside hl.aside).on_stepPass ((hl.same k).atStep hk)
  | awaitGo => exact h.on_setPhase hk fun u => by cases u <;> exact ⟨nofun, nofun⟩

end Sys2Proof.Machine
end

