-- ==== Sys2Proof/Proofs/ActingWhole.lean ====
section
/-! SUPPORT. Every task keeps the invariant of an act in progress, and so does every report of the channel block: an act
that begins with it ends in a state that keeps the law of the lanes. -/

namespace Sys2Proof.Machine

/-! ### Tasks -/

theorem ActingBut.on_startStep {k : LaneId} {ts : List Task} {s : State} (h : ActingBut k ts s) (hk : s.Between k)
    (i : StepId) : Carries (startStep s k i) ts := by
  obtain ⟨n, hn⟩ := hk.runs
  unfold startStep
  rw [hn]
  dsimp only
  have hst : Aside k s (s.store (slotBase n + 0x0D) [stepByte (some i)]) := .of_eq rfl rfl rfl rfl rfl rfl rfl
  have hlane : ∀ j, (s.store (slotBase n + 0x0D) [stepByte (some i)]).lane j = s.lane j := fun _ => rfl
  generalize s.store (slotBase n + 0x0D) [stepByte (some i)] = t at hst hlane
  have hrests (rec : Option StepRecord) : (t.setLane k ((t.lane k).atStep i rec)).Rests k := by
    have hf := (hst.trans (setLane_aside t k ((t.lane k).atStep i rec))).1.free hk.toFree
    have hl := State.setLane_get_self t k ((t.lane k).atStep i rec)
    refine ⟨⟨hf, ⟨n, ?_⟩, ⟨i, ?_⟩, ?_⟩, ?_⟩ <;> rw [hl]
    · exact (congrArg Lane.running (hlane k)).trans hn
    · rfl
    · rfl
    · rfl
  have hbut (rec : Option StepRecord) : ActingBut k ts (t.setLane k ((t.lane k).atStep i rec)) :=
    (h.aside hst).aside (setLane_aside t k _)
  split
  · exact (hbut _).on_serveStep (hrests _).toAtStep _
  · exact (hbut _).settle (hrests _).fits

theorem ActingBut.on_enterSlot {k : LaneId} {ts : List Task} {s : State} (h : ActingBut k ts s) (hk : s.Between k) :
    Carries (enterSlot s k) ts := by
  obtain ⟨n, hn⟩ := hk.runs
  unfold enterSlot
  rw [hn]
  dsimp only
  have ha := setLane_aside s k { s.lane k with entered := true }
  have hl := State.setLane_get_self s k { s.lane k with entered := true }
  generalize s.setLane k { s.lane k with entered := true } = t at ha hl
  split
  · have hb := setLane_aside t k { t.lane k with state := .gated }
    have hl' := State.setLane_get_self t k { t.lane k with state := .gated }
    have hf := (ha.trans hb).1.free hk.toFree
    refine ((h.aside ha).aside hb).settle ?_
    generalize t.setLane k { t.lane k with state := .gated } = u at hl' hf ⊢
    rw [hl] at hl'
    have hphase : (u.lane k).phase = .none := by rw [hl']; exact hk.phase
    have hord : (u.lane k).ordered := by
      rw [hl']
      exact ⟨iff_of_false nofun (by dsimp only; rw [hn]; nofun), nofun, fun _ => hk.phase, nofun⟩
    refine ⟨hf.seated hord (phase_none_apart hphase) (by rw [hl']; nofun), ?_, fun _ => ?_⟩
    · exact iff_of_false (by rw [hl']; nofun) hf.waits
    · rw [hl']
      exact ⟨⟨n, hn⟩, .inl rfl⟩
  · refine (h.aside ha).go (x := .startStep k 0) ⟨ha.1.free hk.toFree, ⟨n, ?_⟩, ?_, ?_⟩ rfl <;> rw [hl]
    · exact hn
    · exact hk.phase
    · exact hk.state

/-- A lane just become CLAIMING asks for its claims (R56). -/
theorem ActingBut.on_requestClaims {k : LaneId} {ts : List Task} {s : State} (h : ActingBut k ts s) (hk : s.Between k)
    (hs : (s.lane k).state = .claiming) (ho : ¬s.owns k) (n : SlotId) : Carries (requestClaims s k n) ts := by
  unfold requestClaims
  dsimp only
  split
  · obtain ⟨heq, hc, hl⟩ := giveClaims_spec s k (s.chanClaim n) (s.lineClaim n)
    generalize s.giveClaims k (s.chanClaim n) (s.lineClaim n) = t at heq hc hl
    have hunits : UnitsKept s { t with chanOwner := s.chanOwner, lineOwner := s.lineOwner } :=
      .of_eq (by rw [heq]) (by rw [heq]) (by rw [heq]) (by rw [heq]) rfl rfl
    have hlane : ∀ j, t.lane j = s.lane j := fun j => by rw [heq]; rfl
    have howns : ∀ j, j ≠ k → t.owns j → s.owns j := by
      rintro j hj (⟨c, hown⟩ | ⟨l, hown⟩)
      · rw [hc] at hown
        split at hown
        · exact absurd (Option.some.inj hown).symm hj
        · exact .inl ⟨c, hown⟩
      · rw [hl] at hown
        split at hown
        · exact absurd (Option.some.inj hown).symm hj
        · exact .inr ⟨l, hown⟩
    have hbut := h.spared (t := t) (hunits.noneTwice h.twice) fun j hj => .inl
      ⟨.of_eq (hlane j), fun u => by rw [← hunits.grantee]; rfl, fun u => by rw [← hunits.queueFor]; rfl,
        (hunits.same (.of_eq (hlane j))).winds, (hunits.same (.of_eq (hlane j))).waits, howns j hj⟩
    have hf := hunits.free hk.toFree
    refine hbut.go (x := .enter k) ⟨⟨hf.holds, hf.queued, hf.waits⟩, ?_, ?_, ?_⟩ rfl <;> rw [hlane]
    · exact hk.runs
    · exact hk.phase
    · exact hk.state
  · have hwaits : ∀ j, State.waits { s with waitList := s.waitList ++ [⟨k, s.chanClaim n, s.lineClaim n⟩] } j ↔
        s.waits j ∨ j = k := fun j => by
      unfold State.waits
      simp
    have hnodup : State.noneTwice { s with waitList := s.waitList ++ [⟨k, s.chanClaim n, s.lineClaim n⟩] } := by
      refine ⟨h.twice.1, ?_⟩
      rw [List.map_append]
      exact h.twice.2.append (List.nodup_singleton k) (List.disjoint_singleton.mpr hk.waits)
    refine (h.spared hnodup fun j hj => .inl ⟨.refl _, fun _ => Iff.rfl, fun _ => Iff.rfl, Iff.rfl, ?_, id⟩).settle
      ⟨⟨?_, ?_, ?_, ?_⟩, ?_, fun hc => absurd hc ho⟩
    · rw [hwaits]
      exact ⟨fun hw => hw.elim id fun hc => absurd hc hj, .inl⟩
    · obtain ⟨n, hn⟩ := hk.runs
      refine ⟨iff_of_false ?_ ?_, ?_, fun _ => hk.phase, ?_⟩
      · exact fun hc => by cases hc.symm.trans hs
      · exact fun hc => by cases hc.symm.trans hn
      · rintro (hc | hc) <;> cases hc.symm.trans hs
      · exact fun hc => by cases hc.symm.trans hs
    · exact fun u => iff_of_false (phase_none_apart hk.phase u).1 (hk.holds u)
    · exact fun u => iff_of_false (phase_none_apart hk.phase u).2 (hk.queued u)
    · exact iff_of_false (fun hc => by cases hc.symm.trans hs) fun hc => hk.holds .link hc.1
    · exact iff_of_true hs ((hwaits k).mpr (.inr rfl))

/-- A lane in no unit's phase and IDLE is free. -/
theorem State.Fits.free_of_idle {s : State} {k : LaneId} (h : s.Fits k) (hs : (s.lane k).state = .idle) : s.Free k :=
  h.free (phase_none_apart (h.ordered.2.2.1 (.inl hs))) (by rw [hs]; nofun)

theorem Acting.on_takeHead {ts : List Task} {s : State} (h : Acting ts s) (k : LaneId) : Carries (takeHead s k) ts := by
  unfold takeHead
  split
  · rename_i hidle
    obtain ⟨hidle, -⟩ := hidle
    have hk : k ∉ goers ts := fun hc => (h.goer_phase hc).2.1 hidle
    have hfits := h.fits k hk
    split
    · exact h
    · rename_i n q _
      have hst : Aside k s (startSlot (s.setQueue k q) n) := by
        rw [startSlot_eq]
        exact .of_eq rfl rfl rfl rfl rfl rfl rfl
      dsimp only
      generalize startSlot (s.setQueue k q) n = t at hst
      have ha := hst.trans (setLane_aside t k (t.startedLane n .claiming))
      have hl := State.setLane_get_self t k (t.startedLane n .claiming)
      generalize t.setLane k (t.startedLane n .claiming) = u at ha hl
      refine ((h.move hk).aside ha).on_requestClaims ⟨ha.1.free (hfits.free_of_idle hidle), ⟨n, ?_⟩, ?_, .inl ?_⟩ ?_
        (fun hc => ?_) n
      · rw [hl]
        rfl
      · rw [hl]
        rfl
      · rw [hl]
        rfl
      · rw [hl]
        rfl
      · obtain ⟨-, hmay⟩ := hfits.owns (ha.1.owns k hc)
        rw [hidle] at hmay
        rcases hmay with hc | hc | hc <;> cases hc
  · exact h

theorem ActingBut.on_releaseGo {k : LaneId} {ts : List Task} {s : State} (h : ActingBut k ts s) (hk : s.Fits k)
    (ha : (s.lane k).awaitsGo = true) : Carries (releaseGo s k) ts := by
  obtain ⟨hruns, -, hquiet, -⟩ := hk.ordered
  unfold releaseGo
  split
  · rename_i hg
    have hphase := hquiet (.inr (.inr hg))
    refine h.go (x := .startStep k 0) ⟨hk.free (phase_none_apart hphase) (by rw [hg]; nofun), ?_, hphase,
      .inr (.inl hg)⟩ rfl
    exact Option.ne_none_iff_exists'.mp fun hc => (by cases hg.symm.trans (hruns.mpr hc))
  · rename_i hg
    have hp : (s.lane k).phase = .awaitGo := by
      unfold Lane.awaitsGo at ha
      simp only [Bool.or_eq_true, Bool.and_eq_true, beq_iff_eq, hg, false_or] at ha
      exact ha.2
    refine h.on_stepPass (hk.atStep ?_ fun u => ?_) <;> rw [hp]
    · nofun
    · cases u <;> exact ⟨nofun, nofun⟩

/-- Every task keeps the act in progress. -/
theorem runTask_carries {x : Task} {ts : List Task} {s : State} (h : Acting (x :: ts) s) : Carries (runTask x s) ts := by
  have hx := h.ready x (List.mem_cons_self ..)
  cases x with
  | startStep k i => exact (h.but rfl).on_startStep hx i
  | enter k => exact (h.but rfl).on_enterSlot hx
  | take k =>
    have htail : Acting ts s := ⟨h.twice, h.once, fun x hx => h.ready x (List.mem_cons_of_mem _ hx), h.fits⟩
    exact htail.on_takeHead k
  | release k => exact (h.but rfl).on_releaseGo hx.1 hx.2
  | settled k => exact (h.but rfl).on_stepPass (State.Rests.toAtStep hx)

/-- An act that begins in progress ends by the law of the lanes. -/
theorem finishAct_lanesServed {a : Act} (h : Carries a []) : (finishAct a).lanesServed := by
  refine (acting_nil_iff _).mp (finishAct_acting Acting (fun _ _ _ => runTask_carries) a ?_)
  rw [← List.append_nil a.2]
  exact h

/-! ### Reports of channels -/

theorem Acting.on_judgeWait {ts : List Task} {s : State} (h : Acting ts s) (k : LaneId) : Carries (judgeWait s k) ts := by
  have hgoer {p : Phase} (hp : (s.lane k).phase = p) (h1 : p ≠ .none) (h2 : p ≠ .awaitGo) : k ∉ goers ts := fun hc =>
    (h.goer_phase hc).1.elim (fun hn => h1 (hp.symm.trans hn)) fun hn => h2 (hp.symm.trans hn)
  unfold judgeWait
  split
  · rename_i hp _
    split
    · have hk := hgoer hp nofun nofun
      have hat : s.AtStep k := (h.fits k hk).atStep (by rw [hp]; nofun) fun u => by rw [hp]; cases u <;> exact ⟨nofun, nofun⟩
      have ha := setLane_aside s k { s.lane k with phase := .none }
      have hl := setPhase_lane_self s k .none
      refine ((h.move hk).aside ha).go (x := .settled k) ⟨⟨ha.1.free hat.toFree, ?_, ?_, ?_⟩, ?_⟩ rfl
      · exact (congrArg Lane.running hl) ▸ hat.runs
      · exact (congrArg Lane.step hl) ▸ hat.steps
      · exact (congrArg Lane.state hl).trans hat.state
      · exact congrArg Lane.phase hl
    · exact h
  · rename_i hp _
    split
    · have hk := hgoer hp nofun nofun
      have hat : s.AtStep k := (h.fits k hk).atStep (by rw [hp]; nofun) fun u => by rw [hp]; cases u <;> exact ⟨nofun, nofun⟩
      exact (h.move hk).on_endSettle hat
    · exact h
  · exact h

theorem ChansOnly.acting {ts : List Task} {s t : State} (h : ChansOnly s t) (ha : Acting ts s) : Acting ts t := by
  have hw : t.waitList = s.waitList := h.keeps.2.2.2.2.2.2.2.2.1
  have hq : ∀ u, t.queueFor u = s.queueFor u := fun u => by
    unfold ChansOnly at h
    rw [h]
    cases u <;> rfl
  exact ⟨⟨fun u => by rw [hq]; exact ha.twice.1 u, by rw [hw]; exact ha.twice.2⟩, ha.once, fun x hx =>
    (ha.ready x hx).spared fun j _ => .inl (h.same j), fun k hk => (h.same k).fits (ha.fits k hk)⟩

/-- Acts on channels, each reported in its turn, keep the act in progress (R73). -/
theorem reported_carries {f : State → ChanId → State} (hf : ∀ s c, ChansOnly s (f s c)) (cs : List ChanId)
    {ts : List Task} {s : State} (h : Acting ts s) : Carries (reported f cs s) ts := by
  induction cs generalizing ts s with
  | nil => exact h
  | cons c cs ih =>
    have hr : Carries (reportChan (f s c) c) ts := by
      unfold reportChan
      split
      · exact ((hf s c).acting h).on_judgeWait _
      · exact (hf s c).acting h
    have hb : Acting ((reported f cs (reportChan (f s c) c).1).2 ++ ((reportChan (f s c) c).2 ++ ts))
      (reported f cs (reportChan (f s c) c).1).1 := ih hr
    show Acting (((reportChan (f s c) c).2 ++ (reported f cs (reportChan (f s c) c).1).2) ++ ts) _
    refine hb.perm ?_
    rw [← List.append_assoc]
    exact List.perm_append_comm.append_right ts

end Sys2Proof.Machine
end

