-- ==== Sys2Proof/Proofs/ActingEndings.lean ====
section
/-! SUPPORT. Endings from outside (sections 2.6, 2.7, R48, R152) keep the invariant of an act in progress: a lane gives up the
unit that serves it, and its step or its waiting ends. -/

namespace Sys2Proof.Machine

theorem State.lanesServed.but {s : State} (h : s.lanesServed) (k : LaneId) : ActingBut k [] s :=
  ((acting_nil_iff s).mpr h).move (by simp [goers])

theorem State.lanesServed.fits {s : State} (h : s.lanesServed) (k : LaneId) : s.Fits k := ((lanesServed_iff s).mp h).2 k

theorem Lane.ordered.stepping {l : Lane} (h : l.ordered) (hn : l.phase ≠ .none) (hp : l.phase ≠ .linking) :
    l.state = .stepping := by
  obtain ⟨-, -, hquiet, hwind⟩ := h
  cases hs : l.state with
  | idle => exact absurd (hquiet (.inl hs)) hn
  | claiming => exact absurd (hquiet (.inr (.inl hs))) hn
  | gated => exact absurd (hquiet (.inr (.inr hs))) hn
  | stepping => rfl
  | winding => exact absurd (hwind hs).1 hp

theorem Lane.ordered.runs {l : Lane} (h : l.ordered) (hs : l.state ≠ .idle) : ∃ n, l.running = some n :=
  Option.ne_none_iff_exists'.mp fun hc => hs (h.1.mpr hc)

/-! ### Units given up -/

/-- Lane k has given up the unit it held or waited for; its own fields are as they were, and the other lanes are spared. -/
structure GaveUp (k : LaneId) (s t : State) : Prop where
  twice : t.noneTwice
  spared : ∀ j, j ≠ k → Spared s t j
  free : t.Free k
  lane : t.lane k = s.lane k

theorem ActingBut.gave {k : LaneId} {ts : List Task} {s t : State} (h : ActingBut k ts s) (hg : GaveUp k s t) :
    ActingBut k ts t := h.spared hg.twice hg.spared

theorem Passed.gaveUp {u : SharedUnit} {k : LaneId} {s t : State} (h : Passed u s t) (hn : s.noneTwice) (hs : s.Seated k)
    (hp : (s.lane k).phase = u.hold) (hw : ¬s.waits k) : GaveUp k s t :=
  ⟨h.noneTwice hn, fun _ hj => h.spared ((hs.holds u).mp hp) hn hj, (h.gave hs hp hw).1, (h.gave hs hp hw).2⟩

theorem Withdrawn.gaveUp {u : SharedUnit} {k : LaneId} {s t : State} (h : Withdrawn u k s t) (hn : s.noneTwice)
    (hs : s.Seated k) (hp : (s.lane k).phase = u.wait) (hw : ¬s.waits k) : GaveUp k s t :=
  ⟨h.noneTwice hn, fun _ hj => .inl (h.same hj), h.gave hs hp (hn.1 u) hw, h.lane k⟩

/-- A lane that no unit serves has none to give up. -/
theorem State.Seated.gaveUp {s : State} {k : LaneId} (h : s.Seated k) (hn : s.noneTwice)
    (hp : ∀ u : SharedUnit, (s.lane k).phase ≠ u.hold ∧ (s.lane k).phase ≠ u.wait) (hw : ¬s.waits k) : GaveUp k s s :=
  ⟨hn, fun _ _ => .inl (.refl _ _),
    ⟨fun u hu => (hp u).1 ((h.holds u).mpr hu), fun u hu => (hp u).2 ((h.queued u).mpr hu), hw⟩, rfl⟩

/-- The action on the wait in progress frees the lane (R42, R47, R112, R127). -/
theorem stopServing_gaveUp {s : State} {k : LaneId} (hs : s.Seated k) (hn : s.noneTwice) (hp : (s.lane k).phase ≠ .linking)
    (hw : ¬s.waits k) : GaveUp k s (stopServing s k) := by
  have hself {p : Phase} (h : (s.lane k).phase = p) (hapart : ∀ u : SharedUnit, p ≠ u.hold ∧ p ≠ u.wait) : GaveUp k s s :=
    hs.gaveUp hn (h ▸ hapart) hw
  unfold stopServing
  split
  case h_1 h => exact (withdrawConverter_withdrawn s k).gaveUp hn hs h hw
  case h_2 h => exact (releaseConverter_passed s).gaveUp hn hs h hw
  case h_3 h => exact (withdrawMonitor_withdrawn s k).gaveUp hn hs h hw
  case h_4 h => exact (releaseMonitor_passed s).gaveUp hn hs h hw
  case h_5 h => exact (withdrawLink_withdrawn s k).gaveUp hn hs h hw
  case h_13 h => exact absurd h hp
  all_goals
    rename_i h
    exact hself h fun u => by cases u <;> exact ⟨nofun, nofun⟩

/-! ### Half pairs -/

theorem HalfPairOnly.kept {k : LaneId} {s t : State} (h : HalfPairOnly k s t) (j : LaneId) :
    (s.lane j).Kept (t.lane j) := by
  rw [h.2 j]
  split
  · rename_i hj
    subst hj
    exact ⟨rfl, rfl, rfl, rfl, rfl⟩
  · exact .refl _

theorem HalfPairOnly.unitsKept {k : LaneId} {s t : State} (h : HalfPairOnly k s t) : UnitsKept s t := by
  obtain ⟨h, -⟩ := h
  exact .of_eq (by rw [h]) (by rw [h]) (by rw [h]) (by rw [h]) (by rw [h]) (by rw [h])

theorem HalfPairOnly.same {k : LaneId} {s t : State} (h : HalfPairOnly k s t) (j : LaneId) : Same s t j :=
  h.unitsKept.same (h.kept j)

theorem settleHalfPair_halfPairOnly (s : State) (k : LaneId) (cause : EndCause) :
    HalfPairOnly k s (settleHalfPair s k cause) := by
  unfold settleHalfPair
  split
  · exact completeHalfPair_halfPairOnly s k _
  · exact .of_mem rfl

theorem ActingBut.on_halfPair {k i : LaneId} {ts : List Task} {s t : State} (h : ActingBut k ts s)
    (hp : HalfPairOnly i s t) : ActingBut k ts t :=
  h.spared (hp.unitsKept.noneTwice h.twice) fun j _ => .inl (hp.same j)

/-! ### Steps cut off -/

theorem ActingBut.on_endByCause {k : LaneId} {ts : List Task} {s : State} (h : ActingBut k ts s) (hk : s.Free k)
    (hr : ∃ n, (s.lane k).running = some n) (hs : ∃ i, (s.lane k).step = some i) (cause : EndCause) (r : StepResult) :
    Carries (endByCause s k cause r) ts := by
  cases cause with
  | stepTimeout => exact h.on_stepEnd hk hr hs r
  | planTimeout => exact h.on_stepEndsSlot hk hr hs r _ _
  | hostAbort => exact h.on_stepEndsSlot hk hr hs r _ _
  | safeOrder => exact h.on_stepEndsSlot hk hr hs r _ _
  | safeRace => exact h.on_stepEndsSlot hk hr hs r _ _

/-- A STEPPING lane that holds no transfer ends its step at once. -/
theorem ActingBut.on_endStepNow {k : LaneId} {ts : List Task} {s : State} (h : ActingBut k ts s) (hk : s.Fits k)
    (hs : (s.lane k).state = .stepping) (hp : (s.lane k).phase ≠ .linking) (cause : EndCause) :
    Carries (endStepNow s k cause) ts := by
  have hhalf := settleHalfPair_halfPairOnly s k cause
  obtain ⟨hrun, hstep, hphase⟩ := endStepNow_rest s k cause
  have hfits := (hhalf.same k).fits hk
  have hwait : ¬(settleHalfPair s k cause).waits k := fun hw => by
    rw [(hhalf.same k).waits, ← hk.waits, hs] at hw
    cases hw
  have hbut := h.on_halfPair hhalf
  have hgave := stopServing_gaveUp hfits.toSeated hbut.twice (by rw [hphase]; exact hp) hwait
  refine (hbut.gave hgave).on_endByCause hgave.free ?_ ?_ cause _
  · rw [hrun]
    exact hk.ordered.runs (by rw [hs]; nofun)
  · rw [hstep]
    exact hk.ordered.2.1 (.inl hs)

/-- A lane whose wind-down has ended ends its step. -/
theorem ActingBut.on_endWindDown {k : LaneId} {ts : List Task} {s : State} (h : ActingBut k ts s) (hk : s.Fits k)
    (hp : (s.lane k).phase = .linking) (hs : (s.lane k).state = .stepping ∨ (s.lane k).state = .winding)
    (cause : EndCause) : Carries (endWindDown s k cause) ts := by
  have hwait : ¬s.waits k := fun hw => by
    rw [← hk.waits] at hw
    rcases hs with hs | hs <;> cases hw.symm.trans hs
  have hgave := (releaseLink_passed s).gaveUp (k := k) h.twice hk.toSeated hp hwait
  refine (h.gave hgave).on_endByCause hgave.free ?_ ?_ cause _
  · rw [hgave.lane]
    exact hk.ordered.runs fun hc => by rcases hs with hs | hs <;> cases hc.symm.trans hs
  · rw [hgave.lane]
    exact hk.ordered.2.1 hs

theorem wound_lane (s : State) (k : LaneId) (cause : EndCause) (j : LaneId) :
    (wound s k cause).lane j =
      if j = k then { s.lane k with state := .winding, stepTimer := none, cause := some cause } else s.lane j :=
  State.setLane_at s k j _

theorem wound_grantee (s : State) (k : LaneId) (cause : EndCause) (u : SharedUnit) :
    (wound s k cause).grantee u = s.grantee u := by cases u <;> rfl

theorem wound_queueFor (s : State) (k : LaneId) (cause : EndCause) (u : SharedUnit) :
    (wound s k cause).queueFor u = s.queueFor u := by cases u <;> rfl

theorem wound_noneTwice {s : State} (h : s.noneTwice) (k : LaneId) (cause : EndCause) : (wound s k cause).noneTwice :=
  ⟨fun u => by rw [wound_queueFor]; exact h.1 u, h.2⟩

section
variable {s : State} {k : LaneId} (hg : s.link.grantee = some k)
include hg

theorem wound_winds (cause : EndCause) (j : LaneId) : (wound s k cause).woundBy j ↔ j = k := by
  have hgl : (wound s k cause).link.grantee = some k := hg
  unfold State.woundBy
  rw [hgl]
  exact ⟨fun hc => (Option.some.inj hc.1).symm, fun hc => ⟨congrArg some hc.symm, rfl⟩⟩

/-- The order to wind down keeps the standing of every other lane. -/
theorem wound_same (cause : EndCause) {j : LaneId} (hj : j ≠ k) : Same s (wound s k cause) j := by
  refine ⟨.of_eq ((wound_lane s k cause j).trans (if_neg hj)), fun u => by rw [wound_grantee], fun u => by rw [wound_queueFor],
    ?_, Iff.rfl, id⟩
  exact iff_of_false (fun hc => hj ((wound_winds hg cause j).mp hc)) fun hc => hj (Option.some.inj (hc.1.symm.trans hg))

/-- A lane that holds the link stands with it when it becomes WINDING. -/
theorem wound_seated (h : s.Seated k) (hs : (s.lane k).state = .stepping) (cause : EndCause) :
    (wound s k cause).Seated k := by
  have hl := (wound_lane s k cause k).trans (if_pos rfl)
  have hp : (s.lane k).phase = .linking := (h.holds .link).mpr hg
  refine ⟨?_, fun u => ?_, fun u => ?_, ?_⟩
  · rw [hl]
    refine ⟨iff_of_false nofun fun hc => ?_, fun _ => h.ordered.2.1 (.inl hs), ?_, fun _ => ⟨hp, cause, rfl⟩⟩
    · cases hs.symm.trans (h.ordered.1.mpr hc)
    · rintro (hc | hc | hc) <;> cases hc
  · rw [hl, wound_grantee]
    exact h.holds u
  · rw [hl, wound_queueFor]
    exact h.queued u
  · rw [hl]
    exact iff_of_true rfl ((wound_winds hg cause k).mpr rfl)

end

/-- A lane that holds the link stands by the law when it is marked WINDING with the link. -/
theorem wound_lanesServed {s : State} (h : s.lanesServed) {k : LaneId} (hp : (s.lane k).phase = .linking)
    (hs : (s.lane k).state = .stepping) (cause : EndCause) : (wound s k cause).lanesServed := by
  have hk := h.fits k
  have hg : s.link.grantee = some k := (hk.holds .link).mp hp
  have hl := (wound_lane s k cause k).trans (if_pos rfl)
  refine (lanesServed_iff _).mpr ⟨wound_noneTwice (h.but k).twice k cause, fun j => ?_⟩
  by_cases hj : j = k
  · subst hj
    refine ⟨wound_seated hg hk.toSeated hs cause, ?_, fun _ => ?_⟩
    · rw [hl]
      refine iff_of_false nofun fun hc => ?_
      cases hs.symm.trans (hk.waits.mpr hc)
    · rw [hl]
      exact ⟨hk.ordered.runs (by rw [hs]; nofun), .inr (.inr rfl)⟩
  · exact (wound_same hg cause hj).fits (h.fits j)

/-- A transfer cut off leaves its lane WINDING, or ended at once in phase START (log 8). -/
theorem windDown_carries {s : State} (h : s.lanesServed) {k : LaneId} (hp : (s.lane k).phase = .linking)
    (hs : (s.lane k).state = .stepping) (cause : EndCause) : Carries (windDown s k cause) [] := by
  have hm := wound_lanesServed h hp hs cause
  by_cases hstart : s.link.phase = .start ∧ s.linkWaitOver = false
  · rw [windDown_start s k cause hstart.1 hstart.2]
    have hl := (wound_lane s k cause k).trans (if_pos rfl)
    generalize wound s k cause = t at hm hl
    have hfree : State.lanesServed { t with freeIndex := s.freeIndex + 1 } :=
      (UnitsKept.of_eq rfl rfl rfl rfl rfl rfl).lanesServed (fun j => .refl (t.lane j)) hm
    dsimp only
    split
    · exact (acting_nil_iff _).mpr hfree
    · refine (hfree.but k).on_endWindDown (hfree.fits k) ?_ (.inr ?_) cause
      · exact (congrArg Lane.phase hl).trans hp
      · exact congrArg Lane.state hl
  · rw [windDown_marks s k cause (by rw [← Bool.not_eq_false]; tauto)]
    exact (acting_nil_iff _).mpr hm

/-! ### Waits cut off -/

/-- A lane leaves the wait list (R44, R46). -/
theorem dropWaiting_waits (s : State) (k j : LaneId) :
    State.waits { s with waitList := s.waitList.filter fun w => w.lane != k } j ↔ s.waits j ∧ j ≠ k := by
  unfold State.waits
  simp only [List.mem_map, List.mem_filter, bne_iff_ne]
  constructor
  · rintro ⟨w, ⟨hw, hne⟩, rfl⟩
    exact ⟨⟨w, hw, rfl⟩, hne⟩
  · rintro ⟨⟨w, hw, rfl⟩, hne⟩
    exact ⟨w, ⟨hw, hne⟩, rfl⟩

theorem endWaiting_carries {s : State} (h : s.lanesServed) {k : LaneId}
    (hs : (s.lane k).state = .claiming ∨ (s.lane k).state = .gated) (cause : EndCause) :
    Carries (endWaiting s k cause) [] := by
  have hk := h.fits k
  have hphase := hk.ordered.2.2.1 (.inr hs)
  obtain ⟨n, hn⟩ := hk.ordered.runs fun hc => by rcases hs with hs | hs <;> cases hc.symm.trans hs
  unfold endWaiting
  rw [hn]
  dsimp only
  have hwaits := dropWaiting_waits s k
  have hnodup : State.noneTwice { s with waitList := s.waitList.filter fun w => w.lane != k } :=
    ⟨(h.but k).twice.1, (h.but k).twice.2.sublist (List.filter_sublist.map _)⟩
  have hspared : ∀ j, j ≠ k →
      Spared s { s with waitList := s.waitList.filter fun w => w.lane != k } j := fun j hj =>
    .inl ⟨.refl _, fun _ => Iff.rfl, fun _ => Iff.rfl, Iff.rfl,
      (hwaits j).trans ⟨fun hw => hw.1, fun hw => ⟨hw, hj⟩⟩, id⟩
  have hfree : State.Free { s with waitList := s.waitList.filter fun w => w.lane != k } k :=
    ⟨fun u hu => (phase_none_apart hphase u).1 ((hk.holds u).mpr hu),
      fun u hu => (phase_none_apart hphase u).2 ((hk.queued u).mpr hu), fun hw => ((hwaits k).mp hw).2 rfl⟩
  generalize ({ s with waitList := s.waitList.filter fun w => w.lane != k } : State) = t at hnodup hspared hfree
  have hskip := skipFrom_aside k t n 0
  exact (((h.but k).spared hnodup hspared).aside hskip).on_endSlot (hskip.1.free hfree) n _ _ _

/-- A cause on a WINDING lane changes the ending it chose, and no more (R48). -/
theorem recause_carries {s : State} (h : s.lanesServed) (k : LaneId) (cause : EndCause) :
    Carries (recause s k cause) [] := by
  have hk := h.fits k
  have ha := setLane_aside s k { s.lane k with cause := some cause }
  have hl := State.setLane_get_self s k { s.lane k with cause := some cause }
  unfold recause
  split
  · refine ((h.but k).aside ha).settle ?_
    generalize s.setLane k { s.lane k with cause := some cause } = t at ha hl
    obtain ⟨hidle, hstep, hquiet, hwind⟩ := hk.ordered
    refine ⟨⟨?_, fun u => ?_, fun u => ?_, ?_⟩, ?_, fun hc => ?_⟩
    · rw [hl]
      exact ⟨hidle, hstep, hquiet, fun hw => ⟨(hwind hw).1, cause, rfl⟩⟩
    · rw [hl, ha.1.grantee]
      exact hk.holds u
    · rw [hl, ha.1.queueFor]
      exact hk.queued u
    · rw [hl]
      exact hk.winds.trans (ha.1.winds k).symm
    · rw [hl]
      exact hk.waits.trans (ha.1.waits k).symm
    · rw [hl]
      exact hk.owns (ha.1.owns k hc)
  · exact (acting_nil_iff s).mpr h

/-! ### Causes on a lane -/

theorem cutLane_carries {s : State} (h : s.lanesServed) (k : LaneId) (cause : EndCause) : Carries (cutLane s k cause) [] := by
  unfold cutLane
  split
  · exact (acting_nil_iff s).mpr h
  · rename_i hs
    exact endWaiting_carries h (.inl hs) cause
  · rename_i hs
    exact endWaiting_carries h (.inr hs) cause
  · rename_i hs
    split
    · rename_i hp
      exact windDown_carries h hp hs cause
    · rename_i hp
      exact (h.but k).on_endStepNow (h.fits k) hs hp cause
  · exact recause_carries h k cause

theorem timeOutStep_carries {s : State} (h : s.lanesServed) {k : LaneId} (hs : (s.lane k).state = .stepping) :
    Carries (timeOutStep s k) [] := by
  unfold timeOutStep
  split
  · rename_i hp
    exact windDown_carries h hp hs _
  · rename_i hp
    exact (h.but k).on_endStepNow (h.fits k) hs hp _

end Sys2Proof.Machine
end

