-- ==== Sys2Proof/Proofs/SteadyActs.lean ====
section
/-! SUPPORT. The acts of the port and of the units that leave every lane's standing and the intake as they were. -/

namespace Sys2Proof.Machine

/-- Every lane's standing is kept, and so are the queues and the parked set. -/
structure Steady (s t : State) : Prop where
  units : UnitsKept s t
  lanes : ∀ j, (s.lane j).Kept (t.lane j)
  queues : t.queues = s.queues
  parked : t.parked = s.parked

theorem Steady.refl (s : State) : Steady s s := ⟨.refl s, fun _ => .refl _, rfl, rfl⟩

theorem Steady.trans {s t u : State} (h : Steady s t) (g : Steady t u) : Steady s u := by
  refine ⟨h.units.trans g.units, fun j => ?_, g.queues.trans h.queues, g.parked.trans h.parked⟩
  obtain ⟨h1, h2, h3, h4, h5⟩ := h.lanes j
  obtain ⟨g1, g2, g3, g4, g5⟩ := g.lanes j
  exact ⟨g1.trans h1, g2.trans h2, g3.trans h3, g4.trans h4, g5.trans h5⟩

theorem Steady.lanesServed {s t : State} (h : Steady s t) (hs : s.lanesServed) : t.lanesServed :=
  h.units.lanesServed h.lanes hs

/-- Where the units, the lanes, the claims and the intake are as they were. -/
theorem Steady.of_eq {s t : State} (hl : t.lanes = s.lanes) (hc : t.converter = s.converter) (hm : t.monitor = s.monitor)
    (hk : t.link = s.link) (hw : t.waitList = s.waitList) (hco : t.chanOwner = s.chanOwner)
    (hlo : t.lineOwner = s.lineOwner) (hq : t.queues = s.queues) (hp : t.parked = s.parked) : Steady s t :=
  ⟨.of_eq hc hm hk hw hco hlo, fun _ => .of_eq (by unfold State.lane; rw [hl]), hq, hp⟩

theorem ChansOnly.steady {s t : State} (h : ChansOnly s t) : Steady s t := by
  unfold ChansOnly at h
  exact .of_eq (by rw [h]) (by rw [h]) (by rw [h]) (by rw [h]) (by rw [h]) (by rw [h]) (by rw [h]) (by rw [h]) (by rw [h])

/-! ### Units -/

theorem withConverter_steady (s : State) {x : Converter} (hg : x.grantee = s.converter.grantee)
    (hq : x.queue = s.converter.queue) : Steady s { s with converter := x } := by
  refine ⟨⟨fun u => ?_, fun u => ?_, rfl, rfl, fun _ => id⟩, fun _ => .refl _, rfl, rfl⟩
  · cases u
    · exact hg
    · rfl
    · rfl
  · cases u
    · exact hq
    · rfl
    · rfl

theorem withMonitor_steady (s : State) {x : DutyMonitor} (hg : x.grantee = s.monitor.grantee)
    (hq : x.queue = s.monitor.queue) : Steady s { s with monitor := x } := by
  refine ⟨⟨fun u => ?_, fun u => ?_, rfl, rfl, fun _ => id⟩, fun _ => .refl _, rfl, rfl⟩
  · cases u
    · rfl
    · exact hg
    · rfl
  · cases u
    · rfl
    · exact hq
    · rfl

theorem ElementOnly.steady {s t : State} (h : ElementOnly s t) : Steady s t := by
  obtain ⟨h, hg, hq, hw⟩ := h
  have hc : t.converter = s.converter := by rw [h]
  have hm : t.monitor = s.monitor := by rw [h]
  refine ⟨⟨fun u => ?_, fun u => ?_, hw, by rw [h], fun j => ?_⟩, fun j => .of_eq (by rw [h]; rfl), by rw [h], by rw [h]⟩
  · cases u
    · exact congrArg Converter.grantee hc
    · exact congrArg DutyMonitor.grantee hm
    · exact hg
  · cases u
    · exact congrArg Converter.queue hc
    · exact congrArg DutyMonitor.queue hm
    · exact hq
  · rw [h]
    exact id

theorem nextConversion_steady (s : State) (k : LaneId) (p : CycleParams) : Steady s (nextConversion s k p) :=
  withConverter_steady s rfl rfl

theorem beginSampleWait_steady (s : State) (k : LaneId) (p : CycleParams) : Steady s (beginSampleWait s k p) := by
  unfold beginSampleWait
  split
  · exact nextConversion_steady s k p
  · exact withConverter_steady s rfl rfl

theorem sampleWaitExpiry_steady (s : State) : Steady s (sampleWaitExpiry s) := by
  unfold sampleWaitExpiry
  split
  · exact nextConversion_steady s _ _
  · exact .refl s

theorem selectChannel_steady (s : State) (c : ChanId) : Steady s (selectChannel s c) := withMonitor_steady s rfl rfl

theorem groupPeriodStart_steady (g : GroupId) (s : State) : Steady s (groupPeriodStart g s) := by
  rw [groupPeriodStart_keeps]
  exact .of_eq rfl rfl rfl rfl rfl rfl rfl rfl rfl

theorem channelPeriodStart_steady (c : ChanId) (high low : Nat) (s : State) :
    Steady s (channelPeriodStart c high low s) := by
  have hlatch : Steady s (latchOn s c) := .of_eq rfl rfl rfl rfl rfl rfl rfl rfl rfl
  have hat (m : DutyMonitor) (p : Nat) :
      (m.atPeriodStart p high low).grantee = m.grantee ∧ (m.atPeriodStart p high low).queue = m.queue := by
    unfold DutyMonitor.atPeriodStart
    split
    · exact ⟨rfl, rfl⟩
    · exact ⟨rfl, rfl⟩
    · split <;> exact ⟨rfl, rfl⟩
  unfold channelPeriodStart
  split
  · exact .refl s
  · dsimp only
    split
    · exact hlatch.trans (withMonitor_steady _ (hat _ _).1 (hat _ _).2)
    · exact hlatch

/-! ### The tick -/

theorem Link.atTick_kept (x : Link) (wire : WireWait) (stretch : Nat) :
    (x.atTick wire stretch).grantee = x.grantee ∧ (x.atTick wire stretch).queue = x.queue ∧
      (x.atTick wire stretch).windDown = x.windDown := by
  unfold Link.atTick
  split <;> exact ⟨rfl, rfl, rfl⟩

theorem tickBoundary_steady (s : State) : Steady s (tickBoundary s) := by
  obtain ⟨hg, hq, hw⟩ := s.link.atTick_kept (Config.wireWait s.freeIndex) s.config.stretch.toNat
  refine ⟨⟨fun u => ?_, fun u => ?_, hw, rfl, fun _ => id⟩, fun j => ?_, rfl, rfl⟩
  · cases u
    · rfl
    · rfl
    · exact hg
  · cases u
    · rfl
    · rfl
    · exact hq
  · rw [tickBoundary_lane]
    exact ⟨rfl, rfl, rfl, rfl, rfl⟩

/-! ### The port -/

theorem storeFrame_steady (s : State) (a : Nat) (data : List Byte) : Steady s (s.storeFrame a data) := by
  unfold State.storeFrame
  split
  · exact .of_eq rfl rfl rfl rfl rfl rfl rfl rfl rfl
  · exact .of_eq rfl rfl rfl rfl rfl rfl rfl rfl rfl

theorem renewed_steady (s : State) : Steady s s.renewed := by
  unfold State.renewed
  split
  · exact .of_eq rfl rfl rfl rfl rfl rfl rfl rfl rfl
  · exact .refl s

theorem answer_steady (s : State) (e : Byte) (code : ResultCode) (d : Byte) : Steady s (s.answer e code d) :=
  .of_eq rfl rfl rfl rfl rfl rfl rfl rfl rfl

theorem renew_steady (s : State) : Steady s (renew s) := by
  unfold renew
  split
  · exact (renewed_steady s).trans (answer_steady _ _ _ _)
  · exact answer_steady _ _ _ _
  · exact answer_steady _ _ _ _

theorem turnMonitorOn_steady (s : State) : Steady s (turnMonitorOn s) := by
  unfold turnMonitorOn
  split
  · exact .of_eq rfl rfl rfl rfl rfl rfl rfl rfl rfl
  · exact answer_steady _ _ _ _
  · exact answer_steady _ _ _ _

theorem resume_steady (s : State) : Steady s (resume s) := by
  unfold resume
  split_ifs
  · exact answer_steady _ _ _ _
  · exact answer_steady _ _ _ _
  · exact .of_eq rfl rfl rfl rfl rfl rfl rfl rfl rfl

theorem clearFlags_steady (s : State) : Steady s (clearFlags s) := .of_eq rfl rfl rfl rfl rfl rfl rfl rfl rfl

theorem acknowledge_steady (mask : Word) (s : State) : Steady s (acknowledge mask s) :=
  .of_eq rfl rfl rfl rfl rfl rfl rfl rfl rfl

theorem fault_steady (s : State) : Steady s s.fault := .of_eq rfl rfl rfl rfl rfl rfl rfl rfl rfl

theorem crcError_steady (s : State) : Steady s s.crcError := .of_eq rfl rfl rfl rfl rfl rfl rfl rfl rfl

theorem judged_steady (s : State) (bits : Nat) (reply : List Byte) : Steady s (s.judged bits reply) :=
  .of_eq rfl rfl rfl rfl rfl rfl rfl rfl rfl

theorem foldl_retime_steady (cfg : ConfigSet) (s : State) : Steady s (allGroups.foldl (retime cfg) s) := by
  refine foldl_induct (Steady s) (retime cfg) (fun u g hu => hu.trans ?_) allGroups s (.refl s)
  unfold retime
  dsimp only
  split
  · exact .of_eq rfl rfl rfl rfl rfl rfl rfl rfl rfl
  · exact .of_eq rfl rfl rfl rfl rfl rfl rfl rfl rfl

theorem loadConfig_steady (s : State) : Steady s (loadConfig s) := by
  unfold loadConfig
  split
  · exact answer_steady _ _ _ _
  · split
    · exact answer_steady _ _ _ _
    · generalize configOfPage s.mem = cfg
      have hcfg : Steady s { s with config := cfg, configDefault := false } :=
        .of_eq rfl rfl rfl rfl rfl rfl rfl rfl rfl
      exact ((hcfg.trans (foldl_disableOn cfg.enable _).1.steady).trans (foldl_retime_steady cfg _)).trans
        (answer_steady _ _ _ _)

/-- A READ changes the port alone. -/
theorem receiveRead_steady (addr : Half) (l : Byte) (crc : Half) (s : State) : Steady s (receiveRead addr l crc s) := by
  unfold receiveRead
  dsimp only
  split_ifs
  · exact judged_steady _ _ _
  · exact (judged_steady _ _ _).trans (fault_steady _)
  · exact (judged_steady _ _ _).trans (crcError_steady _)

/-! ### What a command keeps, act by act -/

/-- Every act takes a state of P to a state of Q, those that leave all standings as they were for that reason. -/
structure Keeps (P Q : State → Prop) : Prop where
  same : ∀ {s t}, Steady s t → t.holdSafe = s.holdSafe → P s → P t
  still : ∀ {s t}, Steady s t → P s → Q t
  post : ∀ b s, P s → Q (post b s)
  abort : ∀ b s, P s → Q (abort b s)
  go : ∀ lanes apply s, P s → Q (go lanes apply s)
  engineReset : ∀ s, P s → Q (engineReset s)
  deviceReset : ∀ s, P s → Q (beginReset s)
  deviceResetEnd : ∀ strap levels s, P s → Q (endReset strap levels s)
  tick : ∀ s, P s → Q (tick s)
  monitorExpiry : ∀ s, P s → Q (monitorExpiry s)
  rampMove : ∀ s, P s → Q (rampMove s)
  stepTimeout : ∀ k s, P s → Q (stepTimeout k s)
  planTimeout : ∀ k s, P s → Q (planTimeout k s)
  delayExpiry : ∀ k s, P s → Q (delayExpiry k s)
  triggerDelayExpiry : ∀ k s, P s → Q (triggerDelayExpiry k s)
  confirmationExpiry : ∀ k s, P s → Q (confirmationExpiry k s)
  pollIntervalExpiry : ∀ k s, P s → Q (pollIntervalExpiry k s)
  conversionEnd : ∀ code s, P s → Q (conversionEnd code s)
  levelChange : ∀ l s, P s → Q (levelChange l s)
  measurementEnd : ∀ s, P s → Q (measurementEnd s)
  recoveryComplete : ∀ s, P s → Q (recoveryComplete s)
  linkStopComplete : ∀ s, P s → Q (linkStopComplete s)
  busStuck : ∀ s, P s → Q (busStuck s)

section
variable {P Q : State → Prop}

theorem Keeps.weaken (h : Keeps P Q) {s : State} (hs : P s) : Q s := h.still (.refl s) hs

theorem Keeps.judged (h : Keeps P Q) {s : State} (hs : P s) (bits : Nat) (reply : List Byte) : P (s.judged bits reply) :=
  h.same (judged_steady s bits reply) rfl hs

theorem Keeps.dispatchWord (h : Keeps P Q) (w : Word) {s : State} (hs : P s) : Q (dispatchWord w s) := by
  unfold Machine.dispatchWord
  dsimp only
  split
  · exact h.post _ s hs
  · exact h.abort _ s hs
  · exact h.go _ _ s hs
  · exact h.still (renew_steady s) hs
  · exact h.still (loadConfig_steady s) hs
  · exact h.engineReset s hs
  · exact h.still (turnMonitorOn_steady s) hs
  · exact h.still (resume_steady s) hs
  · exact h.still (clearFlags_steady s) hs
  · exact h.still (answer_steady s _ _ _) hs

theorem Keeps.applyWrite (h : Keeps P Q) (addr : Half) (data : List Byte) {s : State} (hs : P s) :
    Q (applyWrite addr data s) := by
  have hstore (a : Nat) : Q (s.storeFrame a data) := h.still (storeFrame_steady s a data) hs
  have hfault : Q s.fault := h.still (fault_steady s) hs
  unfold Machine.applyWrite writeRegisters
  dsimp only
  split
  · exact hstore _
  · exact hstore _
  · split
    · exact hfault
    · exact hstore _
  · exact hfault
  · split_ifs
    · exact h.dispatchWord _ hs
    · exact h.still (acknowledge_steady _ s) hs
    · exact hfault
  · exact hfault

theorem Keeps.whenReady (h : Keeps P Q) {f : State → State} (hf : ∀ s, P s → Q (f s)) {s : State} (hs : P s) :
    Q (whenReady f s) := by
  unfold Machine.whenReady
  split
  · exact hf s hs
  · exact h.weaken hs

theorem Keeps.asCommand (h : Keeps P Q) {f : State → State} (hf : ∀ s, P s → Q (f s)) {s : State} (hs : P s) :
    Q (asCommand f s) :=
  h.whenReady (fun _ hs => hf _ (h.judged hs _ _)) hs

theorem Keeps.stillReady (h : Keeps P Q) {f : State → State} (hf : ∀ s, Steady s (f s)) {s : State} (hs : P s) :
    Q (Machine.whenReady f s) := h.whenReady (fun s hs => h.still (hf s) hs) hs

theorem Keeps.stillCommand (h : Keeps P Q) {f : State → State} (hf : ∀ s, Steady s (f s)) {s : State} (hs : P s) :
    Q (Machine.asCommand f s) := h.asCommand (fun s hs => h.still (hf s) hs) hs

/-- What every act keeps, every command keeps. -/
theorem Keeps.exec (h : Keeps P Q) {c : Instr} {s t : State} (hs : P s) (hx : exec c s = .next t) : Q t := by
  cases c with
  | post b => obtain rfl := next_inj hx; exact h.asCommand (h.post b) hs
  | abort b => obtain rfl := next_inj hx; exact h.asCommand (h.abort b) hs
  | go lanes apply => obtain rfl := next_inj hx; exact h.asCommand (h.go lanes apply) hs
  | renew => obtain rfl := next_inj hx; exact h.stillCommand renew_steady hs
  | loadConfig => obtain rfl := next_inj hx; exact h.stillCommand loadConfig_steady hs
  | engineReset => obtain rfl := next_inj hx; exact h.asCommand h.engineReset hs
  | monitorOn => obtain rfl := next_inj hx; exact h.stillCommand turnMonitorOn_steady hs
  | resume => obtain rfl := next_inj hx; exact h.stillCommand resume_steady hs
  | clearFlags => obtain rfl := next_inj hx; exact h.stillCommand clearFlags_steady hs
  | unknownCommand code =>
    obtain rfl := next_inj hx
    split
    · exact h.weaken hs
    · exact h.stillCommand (f := refuseUnknown code) (fun s => answer_steady s _ _ _) hs
  | finishedWrite mask => obtain rfl := next_inj hx; exact h.stillCommand (acknowledge_steady mask) hs
  | readOnlyRegisterWrite addr data =>
    obtain rfl := next_inj hx
    refine h.stillReady (fun s => ?_) hs
    split_ifs
    · exact (judged_steady s _ _).trans (fault_steady _)
    · exact .refl s
  | writeFrame addr data crc =>
    obtain rfl := next_inj hx
    refine h.whenReady (fun _ hs => ?_) hs
    unfold receiveWrite inWriteFrame
    split_ifs
    · exact h.applyWrite addr data (h.judged hs _ _)
    · exact h.still (crcError_steady _) (h.judged hs _ _)
    · exact h.weaken hs
  | readFrame addr l crc => obtain rfl := next_inj hx; exact h.stillReady (receiveRead_steady addr l crc) hs
  | badOperationByte op =>
    obtain rfl := next_inj hx
    refine h.stillReady (fun s => ?_) hs
    split_ifs
    · exact .refl s
    · exact (judged_steady s _ _).trans (fault_steady _)
  | earlyNcsRise bits =>
    obtain rfl := next_inj hx
    refine h.stillReady (fun s => ?_) hs
    split_ifs
    · exact .refl s
    · exact (judged_steady s _ _).trans (fault_steady _)
  | deviceReset => obtain rfl := next_inj hx; exact h.deviceReset s hs
  | deviceResetEnd strap levels =>
    obtain rfl := next_inj hx
    split
    · exact h.weaken hs
    · exact h.deviceResetEnd strap levels s hs
  | tick => obtain rfl := next_inj hx; exact h.whenReady h.tick hs
  | monitorExpiry => obtain rfl := next_inj hx; exact h.whenReady h.monitorExpiry hs
  | rampMove => obtain rfl := next_inj hx; exact h.whenReady h.rampMove hs
  | stepTimeout k => obtain rfl := next_inj hx; exact h.whenReady (h.stepTimeout k) hs
  | planTimeout k => obtain rfl := next_inj hx; exact h.whenReady (h.planTimeout k) hs
  | delayExpiry k => obtain rfl := next_inj hx; exact h.whenReady (h.delayExpiry k) hs
  | triggerDelayExpiry k => obtain rfl := next_inj hx; exact h.whenReady (h.triggerDelayExpiry k) hs
  | confirmationExpiry k => obtain rfl := next_inj hx; exact h.whenReady (h.confirmationExpiry k) hs
  | pollIntervalExpiry k => obtain rfl := next_inj hx; exact h.whenReady (h.pollIntervalExpiry k) hs
  | sampleWaitExpiry => obtain rfl := next_inj hx; exact h.stillReady sampleWaitExpiry_steady hs
  | conversionEnd code => obtain rfl := next_inj hx; exact h.whenReady (h.conversionEnd code) hs
  | levelChange l => obtain rfl := next_inj hx; exact h.whenReady (h.levelChange l) hs
  | groupPeriodStart g => obtain rfl := next_inj hx; exact h.stillReady (groupPeriodStart_steady g) hs
  | channelPeriodStart ch high low => obtain rfl := next_inj hx; exact h.stillReady (channelPeriodStart_steady ch high low) hs
  | measurementEnd => obtain rfl := next_inj hx; exact h.whenReady h.measurementEnd hs
  | linkStartDone => obtain rfl := next_inj hx; exact h.stillReady (fun s => (linkStartDone_elementOnly s).steady) hs
  | linkByteSent ack => obtain rfl := next_inj hx; exact h.stillReady (fun s => (linkByteSent_elementOnly ack s).steady) hs
  | linkByteRead b => obtain rfl := next_inj hx; exact h.stillReady (fun s => (linkByteRead_elementOnly b s).steady) hs
  | linkRestartDone => obtain rfl := next_inj hx; exact h.stillReady (fun s => (linkRestartDone_elementOnly s).steady) hs
  | linkReadAckBitEnd =>
    obtain rfl := next_inj hx; exact h.stillReady (fun s => (linkReadAckBitEnd_elementOnly s).steady) hs
  | recoveryComplete => obtain rfl := next_inj hx; exact h.whenReady h.recoveryComplete hs
  | linkStopComplete => obtain rfl := next_inj hx; exact h.whenReady h.linkStopComplete hs
  | busStuck => obtain rfl := next_inj hx; exact h.whenReady h.busStuck hs

/-- What every act keeps, every step keeps. -/
theorem Keeps.step (h : Keeps P Q) {s t : State} (hs : P s) (hx : step s = .next t) : Q t := by
  unfold Machine.step at hx
  split at hx
  · obtain rfl := next_inj hx
    exact h.weaken hs
  · rename_i c rest _
    exact h.exec (h.same (s := s) (t := { s with pending := rest }) (.of_eq rfl rfl rfl rfl rfl rfl rfl rfl rfl) rfl hs) hx

end

end Sys2Proof.Machine
end

