-- ==== Sys2Proof/Proofs/ActsKeepLanesServed.lean ====
section
/-! SUPPORT. The acts of the lanes and of the units' events keep the law of the lanes (O12), but for the safe order, which has
a file of its own. -/

namespace Sys2Proof.Machine

/-! ### Standings an event finds -/

theorem setLane_lanesServed {s : State} (h : s.lanesServed) {k : LaneId} {l : Lane} (hl : (s.lane k).Kept l) :
    (s.setLane k l).lanesServed := by
  refine (setLane_aside s k l).1.lanesServed (fun j => ?_) h
  rw [State.setLane_at]
  split
  · rename_i hj
    subst hj
    exact hl
  · exact .refl _

/-- A lane in a phase of its own that no unit serves is at a step. -/
theorem State.lanesServed.atStep {s : State} (h : s.lanesServed) {k : LaneId} {p : Phase} (hp : (s.lane k).phase = p)
    (hn : p ≠ .none) (hapart : ∀ u : SharedUnit, p ≠ u.hold ∧ p ≠ u.wait) : s.AtStep k :=
  (h.fits k).atStep (hp ▸ hn) (hp ▸ hapart)

theorem State.Fits.not_waiting {s : State} {k : LaneId} (h : s.Fits k)
    (hs : (s.lane k).state = .stepping ∨ (s.lane k).state = .winding) : ¬s.waits k := fun hw => by
  rcases hs with hs | hs <;> cases hs.symm.trans (h.waits.mpr hw)

/-- A lane that holds a unit steps, unless the unit is the link. -/
theorem State.lanesServed.holder {s : State} (h : s.lanesServed) {u : SharedUnit} {k : LaneId} (hg : s.grantee u = some k)
    (hu : u ≠ .link) : (s.lane k).phase = u.hold ∧ (s.lane k).state = .stepping := by
  have hp := ((h.fits k).holds u).mpr hg
  refine ⟨hp, (h.fits k).ordered.stepping (hp ▸ u.hold_ne_none) fun hc => hu ?_⟩
  exact SharedUnit.hold_inj.mp (hp.symm.trans hc)

theorem State.lanesServed.request {s t : State} (h : s.lanesServed) {k : LaneId} {u : SharedUnit} (hk : s.AtStep k)
    (hr : Requested u k s t) : t.lanesServed :=
  (acting_nil_iff t).mp ((h.but k).request hk hr)

theorem stopInterval_lanesServed {s : State} (h : s.lanesServed) (k : LaneId) : (stopInterval s k).lanesServed :=
  setLane_lanesServed h ⟨rfl, rfl, rfl, rfl, rfl⟩

theorem stopInterval_phase (s : State) (k : LaneId) : ((stopInterval s k).lane k).phase = (s.lane k).phase :=
  by
  unfold stopInterval
  rw [State.setLane_get_self]

/-! ### Expiries -/

theorem phase_of_due {l : Lane} {p : Phase} (h : l.due p = true) : l.phase = p := by
  unfold Lane.due at h
  simp only [Bool.and_eq_true, beq_iff_eq] at h
  exact h.1


theorem rampMove_lanesServed (s : State) (h : s.lanesServed) : (rampMove s).lanesServed := by
  unfold rampMove
  split
  · exact h
  · have hd : Steady s { s with rampMovesDue := s.rampMovesDue - 1 } := .of_eq rfl rfl rfl rfl rfl rfl rfl rfl rfl
    exact finishAct_lanesServed
      (reported_carries (fun s c => changeChan_chansOnly s c _) allChans ((acting_nil_iff _).mpr (hd.lanesServed h)))

theorem stepTimeout_lanesServed (k : LaneId) (s : State) (h : s.lanesServed) : (stepTimeout k s).lanesServed := by
  unfold stepTimeout
  split
  · rename_i hs
    exact finishAct_lanesServed (timeOutStep_carries h hs.1)
  · exact h

theorem planTimeout_lanesServed (k : LaneId) (s : State) (h : s.lanesServed) : (planTimeout k s).lanesServed := by
  unfold planTimeout
  split
  · refine finishAct_lanesServed (cutLane_carries (setLane_lanesServed h ?_) k _)
    exact ⟨rfl, rfl, rfl, rfl, rfl⟩
  · exact h

theorem delayExpiry_lanesServed (k : LaneId) (s : State) (h : s.lanesServed) : (delayExpiry k s).lanesServed := by
  unfold delayExpiry
  split
  · rename_i hd
    have hk := h.atStep (phase_of_due hd) nofun fun u => by cases u <;> exact ⟨nofun, nofun⟩
    exact finishAct_lanesServed ((h.but k).on_stepEnd hk.toFree hk.runs hk.steps _)
  · exact h

theorem triggerDelayExpiry_lanesServed (k : LaneId) (s : State) (h : s.lanesServed) :
    (triggerDelayExpiry k s).lanesServed := by
  unfold triggerDelayExpiry
  split
  · rename_i hd
    have ht := stopInterval_lanesServed h k
    have hk := ht.atStep ((stopInterval_phase s k).trans (phase_of_due hd)) nofun fun u => by
      cases u <;> exact ⟨nofun, nofun⟩
    exact ht.request hk (requestConverter_requested _ k)
  · exact h

theorem confirmationExpiry_lanesServed (k : LaneId) (s : State) (h : s.lanesServed) :
    (confirmationExpiry k s).lanesServed := by
  unfold confirmationExpiry
  split
  · rename_i hd
    have ht := stopInterval_lanesServed h k
    have hk := ht.atStep ((stopInterval_phase s k).trans (phase_of_due hd)) nofun fun u => by
      cases u <;> exact ⟨nofun, nofun⟩
    split
    · exact ht.request hk (requestConverter_requested _ k)
    · exact (acting_nil_iff _).mp ((ht.but k).on_setPhase hk fun u => by cases u <;> exact ⟨nofun, nofun⟩)
  · exact h

theorem pollIntervalExpiry_lanesServed (k : LaneId) (s : State) (h : s.lanesServed) :
    (pollIntervalExpiry k s).lanesServed := by
  unfold pollIntervalExpiry
  split
  · rename_i hd
    have ht := stopInterval_lanesServed h k
    have hk := ht.atStep ((stopInterval_phase s k).trans (phase_of_due hd)) nofun fun u => by
      cases u <;> exact ⟨nofun, nofun⟩
    exact ht.request hk (requestLink_requested _ k)
  · exact h

/-! ### Conversions and measurements -/

/-- A lane that gives up the unit it holds ends its step. -/
theorem ActingBut.on_stepEnd_of_gaveUp {k : LaneId} {ts : List Task} {s t : State} (h : ActingBut k ts s)
    (hk : s.Fits k) (hs : (s.lane k).state = .stepping ∨ (s.lane k).state = .winding) (hg : GaveUp k s t)
    (r : StepResult) : Carries (stepEnd t k r) ts := by
  refine (h.gave hg).on_stepEnd hg.free ?_ ?_ r
  · rw [hg.lane]
    exact hk.ordered.runs fun hc => by rcases hs with hs | hs <;> cases hs.symm.trans hc
  · rw [hg.lane]
    exact hk.ordered.2.1 hs

theorem endCycle_carries {s : State} (h : s.lanesServed) {k : LaneId} (hg : s.converter.grantee = some k)
    (v : StepOutcome × StepDetail) : Carries (endCycle s k v) [] := by
  have hhalf := completeHalfPair_halfPairOnly s k s.converter.count
  have ht := hhalf.unitsKept.lanesServed hhalf.kept h
  have hgt : (completeHalfPair s k s.converter.count).grantee .converter = some k := by
    rw [hhalf.unitsKept.grantee]
    exact hg
  obtain ⟨hp, hs⟩ := ht.holder hgt nofun
  have hk := ht.fits k
  unfold endCycle
  generalize completeHalfPair s k s.converter.count = t at ht hp hs hk
  exact (ht.but k).on_stepEnd_of_gaveUp hk (.inl hs)
    ((releaseConverter_passed t).gaveUp (ht.but k).twice hk.toSeated hp (State.Fits.not_waiting hk (.inl hs))) _

theorem recordConversion_carries {s : State} (h : s.lanesServed) {k : LaneId} (hg : s.converter.grantee = some k)
    (p : CycleParams) (code : Duty) : Carries (recordConversion s k p code) [] := by
  have hrec := withConverter_steady s (x := s.converter.record code) rfl rfl
  have hhalf := storeSample_halfPairOnly { s with converter := s.converter.record code } k s.converter.count code
  unfold recordConversion
  dsimp only
  generalize storeSample { s with converter := s.converter.record code } k s.converter.count code = t at hhalf
  have ht := hhalf.unitsKept.lanesServed hhalf.kept (hrec.lanesServed h)
  have hgt : t.converter.grantee = some k := by
    rw [hhalf.1]
    exact hg
  split_ifs
  · exact endCycle_carries ht hgt _
  · exact endCycle_carries ht hgt _
  · exact endCycle_carries ht hgt _
  · exact (acting_nil_iff _).mpr ((beginSampleWait_steady t k p).lanesServed ht)

theorem cycleHolder_grantee {s : State} {k : LaneId} {p : CycleParams} (h : s.cycleHolder = some (k, p)) :
    s.converter.grantee = some k := by
  unfold State.cycleHolder at h
  split at h
  · cases h
  · rename_i j hj
    obtain ⟨q, -, hq⟩ := Option.map_eq_some_iff.mp h
    rw [hj]
    exact congrArg (some ∘ Prod.fst) hq

theorem conversionEnd_lanesServed (code : Duty) (s : State) (h : s.lanesServed) : (conversionEnd code s).lanesServed := by
  unfold conversionEnd
  split
  · rename_i hc
    exact finishAct_lanesServed (recordConversion_carries h (cycleHolder_grantee hc) _ code)
  · exact h

/-- Channel c's measurement recorded in the watch, the last verified duty and the monitor's instant (R122, R123). -/
def recordMeasure (s : State) (k : LaneId) (c : ChanId) : State :=
  let t := (s.putVerified c (some (s.measure k c).duty)).putWatch k
    { s.watch k with measured := (s.watch k).measured ++ [s.measure k c] }
  { t with monitor := { t.monitor with instant := some c } }

theorem recordMeasure_steady (s : State) (k : LaneId) (c : ChanId) : Steady s (recordMeasure s k c) :=
  Steady.trans (t := (s.putVerified c (some (s.measure k c).duty)).putWatch k
    { s.watch k with measured := (s.watch k).measured ++ [s.measure k c] }) (.of_eq rfl rfl rfl rfl rfl rfl rfl rfl rfl)
    (withMonitor_steady _ rfl rfl)

theorem endMeasurement_next {s : State} {k : LaneId} {c d : ChanId} {mask : BitVec 16} (h : nextMasked mask c = some d) :
    endMeasurement s k c mask = (selectChannel (recordMeasure s k c) d, []) := by
  unfold endMeasurement
  dsimp only
  rw [h]
  rfl

theorem endMeasurement_last {s : State} {k : LaneId} {c : ChanId} {mask : BitVec 16} (h : nextMasked mask c = none) :
    ∃ r, endMeasurement s k c mask = stepEnd (releaseMonitor (recordMeasure s k c)) k r := by
  unfold endMeasurement
  dsimp only
  rw [h]
  exact ⟨_, rfl⟩

theorem endMeasurement_carries {s : State} (h : s.lanesServed) {k : LaneId} (hg : s.monitor.grantee = some k) (c : ChanId)
    (mask : BitVec 16) : Carries (endMeasurement s k c mask) [] := by
  have ht := (recordMeasure_steady s k c).lanesServed h
  have hgt : (recordMeasure s k c).grantee .monitor = some k := hg
  cases hm : nextMasked mask c with
  | some d =>
    rw [endMeasurement_next hm]
    exact (acting_nil_iff _).mpr ((selectChannel_steady _ d).lanesServed ht)
  | none =>
    obtain ⟨r, hr⟩ := endMeasurement_last (s := s) (k := k) hm
    rw [hr]
    generalize recordMeasure s k c = t at ht hgt
    obtain ⟨hp, hs⟩ := ht.holder hgt nofun
    have hk := ht.fits k
    exact (ht.but k).on_stepEnd_of_gaveUp hk (.inl hs)
      ((releaseMonitor_passed t).gaveUp (ht.but k).twice hk.toSeated hp (State.Fits.not_waiting hk (.inl hs))) r

theorem measurementEnd_lanesServed (s : State) (h : s.lanesServed) : (measurementEnd s).lanesServed := by
  unfold measurementEnd
  split
  · rename_i k c _ hg _
    split
    · exact h
    · rename_i mask p _
      split
      · have ht := finishAct_lanesServed (endMeasurement_carries h hg c mask)
        exact Steady.lanesServed (withMonitor_steady _ rfl rfl) ht
      · exact h
  · exact h

/-! ### Lines -/

theorem confirmTrigger_lanesServed {s : State} (h : s.lanesServed) {k : LaneId} (hp : (s.lane k).phase = .edgeWait)
    (p : CycleParams) : (confirmTrigger s k p).lanesServed := by
  have hk := h.atStep hp nofun fun u => by cases u <;> exact ⟨nofun, nofun⟩
  unfold confirmTrigger
  split
  · exact h.request hk (requestConverter_requested s k)
  · exact (acting_nil_iff _).mp ((h.but k).park hk rfl rfl rfl fun u => by cases u <;> exact ⟨nofun, nofun⟩)

theorem levelChange_lanesServed (l : LineId) (s : State) (h : s.lanesServed) : (levelChange l s).lanesServed := by
  have hline : Steady s (s.putLine l (s.line l).levelChanged) := .of_eq rfl rfl rfl rfl rfl rfl rfl rfl rfl
  have ht := hline.lanesServed h
  unfold levelChange
  dsimp only
  generalize s.putLine l (s.line l).levelChanged = t at ht
  split
  · unfold handLevel
    split
    · exact ht
    · split
      · split
        · rename_i hp
          exact confirmTrigger_lanesServed ht hp _
        · split
          · exact Steady.lanesServed (withConverter_steady t rfl rfl) ht
          · exact ht
        · exact ht
      · exact ht
  · exact ht

end Sys2Proof.Machine
end

