-- ==== Sys2Proof/Proofs/CommandsKeepLanesServed.lean ====
section
/-! SUPPORT. The endings of the fixture link, the commands and the resets keep the law of the lanes (O12). -/

namespace Sys2Proof.Machine

/-! ### The fixture link -/

/-- The lane that holds the link steps, or winds down. -/
theorem State.lanesServed.linkHolder {s : State} (h : s.lanesServed) {k : LaneId} (hg : s.link.grantee = some k) :
    (s.lane k).phase = .linking ∧ ((s.lane k).state = .stepping ∨ (s.lane k).state = .winding) := by
  have hp : (s.lane k).phase = .linking := ((h.fits k).holds .link).mpr hg
  refine ⟨hp, ?_⟩
  obtain ⟨-, -, hquiet, -⟩ := (h.fits k).ordered
  cases hs : (s.lane k).state with
  | idle => cases hp.symm.trans (hquiet (.inl hs))
  | claiming => cases hp.symm.trans (hquiet (.inr (.inl hs)))
  | gated => cases hp.symm.trans (hquiet (.inr (.inr hs)))
  | stepping => exact .inl rfl
  | winding => exact .inr rfl

theorem linkHolder_grantee {s : State} {k : LaneId} {p : LinkParams} (h : s.linkHolder = some (k, p)) :
    s.link.grantee = some k := by
  unfold State.linkHolder at h
  split at h
  · cases h
  · rename_i j hj
    obtain ⟨q, -, hq⟩ := Option.map_eq_some_iff.mp h
    rw [hj]
    exact congrArg (some ∘ Prod.fst) hq

theorem linkServed_grantee {s : State} {k : LaneId} {p : LinkParams} (h : s.linkServed = some (k, p)) :
    s.link.grantee = some k := by
  unfold State.linkServed at h
  split at h
  · cases h
  · exact linkHolder_grantee h

/-- The link given up by its holder. -/
theorem State.lanesServed.linkGaveUp {s : State} (h : s.lanesServed) {k : LaneId} (hg : s.link.grantee = some k) :
    GaveUp k s (releaseLink s) :=
  (releaseLink_passed s).gaveUp (h.but k).twice (h.fits k).toSeated (h.linkHolder hg).1
    ((h.fits k).not_waiting (h.linkHolder hg).2)

theorem reportWindDown_carries {s : State} (h : s.lanesServed) {k : LaneId} (hg : s.link.grantee = some k) :
    Carries (reportWindDown s k) [] := by
  obtain ⟨hp, hs⟩ := h.linkHolder hg
  unfold reportWindDown
  split
  · exact (h.but k).on_endWindDown (h.fits k) hp hs _
  · exact (acting_nil_iff s).mpr h

theorem endTransfer_carries {s : State} (h : s.lanesServed) {k : LaneId} (hg : s.link.grantee = some k) (o : StepOutcome)
    (d : StepDetail) : Carries (endTransfer s k o d) [] :=
  (h.but k).on_stepEnd_of_gaveUp (h.fits k) (h.linkHolder hg).2 (h.linkGaveUp hg) _

/-- A PROBE_UNTIL that waits for its poll interval is at its step. -/
theorem beginPollInterval_lanesServed {s : State} (h : s.lanesServed) {k : LaneId} (hg : s.link.grantee = some k)
    (hw : s.link.windDown = false) : (beginPollInterval s k).lanesServed := by
  obtain ⟨-, hs⟩ := h.linkHolder hg
  have hstep : (s.lane k).state = .stepping := hs.elim id fun hc => by
    have := ((h.fits k).winds.mp hc).2
    rw [hw] at this
    cases this
  have hgave := h.linkGaveUp hg
  have hk := h.fits k
  unfold beginPollInterval
  dsimp only
  generalize releaseLink s = t at hgave
  have hat : t.AtStep k := by
    refine ⟨hgave.free, ?_, ?_, ?_⟩ <;> rw [hgave.lane]
    · exact hk.ordered.runs (by rw [hstep]; nofun)
    · exact hk.ordered.2.1 hs
    · exact hstep
  refine (acting_nil_iff _).mp (((h.but k).gave hgave).park hat rfl rfl rfl fun u => ?_)
  cases u <;> exact ⟨nofun, nofun⟩

theorem closeTransfer_carries {s : State} (h : s.lanesServed) {k : LaneId} (hg : s.link.grantee = some k)
    (hw : s.link.windDown = false) (p : LinkParams) : Carries (closeTransfer s k p) [] := by
  unfold closeTransfer
  split
  · exact endTransfer_carries h hg _ _
  · exact endTransfer_carries h hg _ _
  · exact endTransfer_carries h hg _ _
  · split
    · exact (acting_nil_iff _).mpr (beginPollInterval_lanesServed h hg hw)
    · exact endTransfer_carries h hg _ _

theorem recoveryComplete_lanesServed (s : State) (h : s.lanesServed) : (recoveryComplete s).lanesServed := by
  unfold recoveryComplete
  split
  · exact h
  · rename_i hserved
    have hg := linkServed_grantee hserved
    split
    · have ht := (setLink_elementOnly s (x := { s.link with busUncertain := false }) rfl rfl rfl).steady.lanesServed h
      dsimp only
      split
      · exact finishAct_lanesServed (reportWindDown_carries ht hg)
      · exact (setLink_elementOnly _ rfl rfl rfl).steady.lanesServed ht
    · exact h

theorem linkStopComplete_lanesServed (s : State) (h : s.lanesServed) : (linkStopComplete s).lanesServed := by
  unfold linkStopComplete
  split
  · exact h
  · rename_i hserved
    have hg := linkServed_grantee hserved
    split
    · split
      · exact finishAct_lanesServed (reportWindDown_carries h hg)
      · rename_i hw
        exact finishAct_lanesServed (closeTransfer_carries h hg (Bool.eq_false_iff.mpr hw) _)
    · exact h

theorem busStuck_lanesServed (s : State) (h : s.lanesServed) : (busStuck s).lanesServed := by
  unfold busStuck
  split
  · exact h
  · rename_i hholder
    have hg := linkHolder_grantee hholder
    split
    · have ht := (setLink_elementOnly s (x := { s.link with busUncertain := true }) rfl rfl rfl).steady.lanesServed h
      dsimp only
      split
      · exact finishAct_lanesServed (reportWindDown_carries ht hg)
      · exact finishAct_lanesServed (endTransfer_carries ht hg _ _)
    · exact h

/-! ### POST, ABORT, GO -/

/-- Where the units, the lanes and the claims are as they were, whatever the intake. -/
theorem lanesServed_of_eq {s t : State} (h : s.lanesServed) (hl : t.lanes = s.lanes) (hc : t.converter = s.converter)
    (hm : t.monitor = s.monitor) (hk : t.link = s.link) (hw : t.waitList = s.waitList) (hco : t.chanOwner = s.chanOwner)
    (hlo : t.lineOwner = s.lineOwner) : t.lanesServed :=
  (UnitsKept.of_eq hc hm hk hw hco hlo).lanesServed (fun _ => .of_eq (by unfold State.lane; rw [hl])) h

theorem acceptPost_carries {s : State} (h : s.lanesServed) (n : SlotId) : Carries (acceptPost s n) [] := by
  have hacc := (acceptWrites_memOutside s n).1
  have hw : (acceptWrites s n).lanesServed :=
    lanesServed_of_eq h (by rw [hacc]) (by rw [hacc]) (by rw [hacc]) (by rw [hacc]) (by rw [hacc]) (by rw [hacc])
      (by rw [hacc])
  have ht := (renewed_steady (acceptWrites s n)).lanesServed hw
  unfold acceptPost
  generalize (acceptWrites s n).renewed = t at ht
  dsimp only
  split
  · exact (acting_nil_iff _).mpr (lanesServed_of_eq ht rfl rfl rfl rfl rfl rfl rfl)
  · show Acting [Task.take (s.slotLane n)] _
    refine Acting.take ((acting_nil_iff _).mpr ?_) _
    exact lanesServed_of_eq ht rfl rfl rfl rfl rfl rfl rfl

theorem post_lanesServed (b : Byte) (s : State) (h : s.lanesServed) : (post b s).lanesServed := by
  unfold post
  split
  · exact (answer_steady s _ _ _).lanesServed h
  · split
    · exact lanesServed_of_eq h rfl rfl rfl rfl rfl rfl rfl
    · exact finishAct_lanesServed (acceptPost_carries h _)

theorem endUnrun_lanesServed {s : State} (h : s.lanesServed) (reason : EndReason) (n : SlotId) :
    (endUnrun reason s n).lanesServed := by
  have he := endUnrun_eq reason s n
  generalize endUnrun reason s n = t at he
  exact lanesServed_of_eq h (by rw [he]) (by rw [he]) (by rw [he]) (by rw [he]) (by rw [he]) (by rw [he]) (by rw [he])

theorem abortAt_carries {s : State} (h : s.lanesServed) (n : SlotId) (p : Place) : Carries (abortAt s n p) [] := by
  cases p with
  | queued k =>
    refine (acting_nil_iff _).mpr ((answer_steady _ _ _ _).lanesServed (endUnrun_lanesServed ?_ _ _))
    exact lanesServed_of_eq h rfl rfl rfl rfl rfl rfl rfl
  | parked =>
    refine (acting_nil_iff _).mpr ((answer_steady _ _ _ _).lanesServed (endUnrun_lanesServed ?_ _ _))
    exact lanesServed_of_eq h rfl rfl rfl rfl rfl rfl rfl
  | running k => exact cutLane_carries ((answer_steady s _ _ _).lanesServed h) k _

theorem abort_lanesServed (b : Byte) (s : State) (h : s.lanesServed) : (abort b s).lanesServed := by
  unfold abort
  split
  · exact (answer_steady s _ _ _).lanesServed h
  · split
    · exact (answer_steady s _ _ _).lanesServed h
    · exact finishAct_lanesServed (abortAt_carries h _ _)

/-- The release part of GO begins with lanes that wait for it, each once. -/
theorem released_acting {s : State} (h : s.lanesServed) (lanes : BitVec 4) :
    Acting ((s.released lanes).map Task.release) s := by
  have hg : goers ((s.released lanes).map Task.release) = s.released lanes := by
    unfold goers
    rw [List.filterMap_map]
    exact List.filterMap_some
  have hnodup : (s.released lanes).Nodup := by
    rw [released_eq]
    exact (show allLanes.Nodup by decide).filter _
  obtain ⟨hn, hf⟩ := (lanesServed_iff s).mp h
  refine ⟨hn, by rw [hg]; exact hnodup, fun x hx => ?_, fun k _ => hf k⟩
  obtain ⟨k, hk, rfl⟩ := List.mem_map.mp hx
  exact ⟨hf k, (List.mem_filter.mp hk).2⟩

theorem go_lanesServed (lanes : BitVec 4) (apply : Bool) (s : State) (h : s.lanesServed) :
    (go lanes apply s).lanesServed := by
  have hreleased := released_acting h lanes
  have hanswer {ts : List Task} {t : State} (ht : Acting ts t) (e : Byte) (code : ResultCode) (d : Byte) :
      Acting ts (t.answer e code d) := by
    have hu := (answer_steady t e code d).units
    have hsame : ∀ j, Same t (t.answer e code d) j := fun j => hu.same (.refl _)
    exact ⟨hu.noneTwice ht.twice, ht.once, fun x hx => (ht.ready x hx).spared fun j _ => .inl (hsame j),
      fun k hk => (hsame k).fits (ht.fits k hk)⟩
  unfold go
  dsimp only
  refine finishAct_lanesServed ?_
  unfold Carries
  rw [List.append_nil]
  refine hanswer ?_ _ _ _
  split
  · exact reported_carries (fun s c => applyOn_chansOnly s c) _ hreleased
  · exact hreleased

/-! ### Resets -/

/-- Both resets leave every lane IDLE, the units free and the intake and the claims empty (R27, R53, R61). -/
structure Cleared (s : State) : Prop where
  lane : ∀ k, s.lane k = Lane.idle
  converter : s.converter = Converter.reset
  monitor : s.monitor = DutyMonitor.reset
  link : s.link = Link.reset
  queue : ∀ k, s.queue k = []
  parked : s.parked = []
  unclaimed : s.unclaimed

theorem Cleared.lanesServed {s : State} (h : Cleared s) : s.lanesServed := by
  have hg : ∀ u, s.grantee u = none := fun u => by
    unfold State.grantee
    rw [h.converter, h.monitor, h.link]
    cases u <;> rfl
  have hq : ∀ u, s.queueFor u = [] := fun u => by
    unfold State.queueFor
    rw [h.converter, h.monitor, h.link]
    cases u <;> rfl
  obtain ⟨hc, hl, hw⟩ := h.unclaimed
  refine (lanesServed_iff s).mpr ⟨⟨fun u => by rw [hq]; exact List.nodup_nil, by rw [hw]; exact List.nodup_nil⟩, fun k => ?_⟩
  refine State.Free.idle_fits ⟨fun u => ?_, fun u => ?_, ?_⟩ (h.lane k) ?_
  · rw [hg]
    nofun
  · rw [hq]
    exact List.not_mem_nil
  · unfold State.waits
    rw [hw]
    exact List.not_mem_nil
  · rintro (⟨c, ho⟩ | ⟨l, ho⟩)
    · cases (hc c).symm.trans ho
    · cases (hl l).symm.trans ho

theorem resetBlocks_cleared (s : State) : Cleared s.resetBlocks := by
  have h := (resetBlocks_spec s).1
  generalize s.resetBlocks = t at h
  refine ⟨fun k => ?_, by rw [h], by rw [h], by rw [h], fun k => ?_, by rw [h], fun c => ?_, fun l => ?_, by rw [h]⟩
  · rw [h]
    exact vec4_get (fun _ => Lane.idle) k
  · rw [h]
    exact vec4_get (fun _ => []) k
  · rw [h]
    exact vec16_get (fun _ => none) c
  · rw [h]
    exact vec8_get (fun _ => none) l

theorem engineReset_cleared (s : State) : Cleared (engineReset s) := by
  have h := resetBlocks_cleared s
  unfold engineReset
  generalize s.resetBlocks = t at h
  obtain ⟨h1, h2, h3, h4, h5, h6, h7⟩ := h
  exact ⟨h1, h2, h3, h4, h5, h6, h7⟩

theorem beginReset_cleared (s : State) : Cleared (beginReset s) := by
  have h := resetBlocks_cleared s
  unfold beginReset
  generalize s.resetBlocks = t at h
  obtain ⟨h1, h2, h3, h4, h5, h6, h7⟩ := h
  exact ⟨h1, h2, h3, h4, h5, h6, h7⟩

theorem endReset_cleared (strap : Bool) (levels : BitVec 8) (s : State) : Cleared (endReset strap levels s) :=
  ⟨fun k => vec4_get (fun _ => Lane.idle) k, rfl, rfl, rfl, fun k => vec4_get (fun _ => []) k, rfl,
    fun c => vec16_get (fun _ => none) c, fun l => vec8_get (fun _ => none) l, rfl⟩

end Sys2Proof.Machine
end

