-- ==== Sys2Proof/Proofs/CalmEndings.lean ====
section
/-! SUPPORT. Endings while SAFE is set and no claim is held: a chain end then releases nothing and takes nothing, so that an
ending changes its own lane, its own slot and the units alone. -/

namespace Sys2Proof.Machine

/-- SAFE is set, no claim is held and no lane waits for one (R61, R163). -/
def State.Calm (s : State) : Prop := s.safe = true ∧ s.unclaimed

/-! ### Chain ends in SAFE -/

theorem chansHeld_eq_zero {s : State} {k : LaneId} (h : ∀ c, s.ownerOf c ≠ some k) : s.chansHeld k = 0 := by
  refine BitVec.eq_of_getLsbD_eq fun i hi => ?_
  have hb := inChans_chansHeld s k ⟨i, hi⟩
  rw [decide_eq_false (h _)] at hb
  exact hb.trans (by simp)

theorem onChans_zero (f : State → ChanId → State) (s : State) : onChans 0 f s = s := by
  have h : allChans.filter (inChans 0) = [] := List.filter_eq_nil_iff.mpr fun c _ => inChans_zero c
  unfold onChans
  rw [h]
  rfl

theorem offAtChainEnd_unowned {s : State} {k : LaneId} (h : ∀ c, s.ownerOf c ≠ some k) (n : SlotId) :
    offAtChainEnd s k n = s := by
  unfold offAtChainEnd
  rw [chansHeld_eq_zero h, onChans_zero]
  split <;> rfl

theorem releaseClaims_unowned {s : State} {k : LaneId} (hc : ∀ c, s.ownerOf c ≠ some k)
    (hl : ∀ l, s.lineOwnerOf l ≠ some k) (chans : BitVec 16) (lines : BitVec 8) : s.releaseClaims k chans lines = s := by
  unfold State.releaseClaims
  rw [List.foldl_fixed' (f := releaseChan k chans) (a := s) fun c => if_neg fun h => hc c h.1]
  exact List.foldl_fixed' (f := releaseLine k lines) (a := s) (fun l => if_neg fun h => hl l h.1) _

theorem walk_empty {s : State} (h : s.waitList = []) : walk s = (s, []) := by
  have hs : ({ s with waitList := [] } : State) = s := by rw [← h]
  unfold walk
  rw [h]
  exact congrArg (·, []) hs

theorem chainEnd_unclaimed {s : State} (h : s.unclaimed) (k : LaneId) (n : SlotId) :
    chainEnd s k n = (s.setLane k Lane.idle, [Task.take k]) := by
  obtain ⟨hc, hl, hw⟩ := h
  have hck : ∀ c, s.ownerOf c ≠ some k := fun c => by rw [hc]; nofun
  have hlk : ∀ l, s.lineOwnerOf l ≠ some k := fun l => by rw [hl]; nofun
  rw [chainEnd_eq, offAtChainEnd_unowned hck, releaseClaims_unowned hck hlk, walk_empty hw]
  rfl

/-- No lane takes a slot while SAFE is set (R32). -/
theorem finishAct_take_of_safe {s : State} (h : s.safe = true) (k : LaneId) : finishAct (s, [Task.take k]) = s := by
  have hr : runTask (Task.take k) s = (s, []) := by
    show takeHead s k = _
    unfold takeHead
    exact if_neg fun hc => by cases h.symm.trans hc.2
  have hd : ∀ fuel, (drain fuel [] s).1 = s := fun fuel => by cases fuel <;> rfl
  show (drain (17 * s.reserve) ((runTask (Task.take k) s).2 ++ []) (runTask (Task.take k) s).1).1 = s
  rw [hr]
  exact hd _

/-- The state after a slot has ended in SAFE with no claim held. -/
def endedIn (s : State) (k : LaneId) (n : SlotId) (st : SlotState) (reason : EndReason) (detail : Byte) : State :=
  (finishSlot s n st reason detail).setLane k Lane.idle

theorem State.Calm.endSlot_eq {s : State} (h : s.Calm) (k : LaneId) (n : SlotId) (st : SlotState) (reason : EndReason)
    (detail : Byte) : finishAct (endSlot s k n st reason detail) = endedIn s k n st reason detail := by
  have hu : (finishSlot s n st reason detail).unclaimed := by
    rw [finishSlot_eq]
    exact h.2
  have hs : (endedIn s k n st reason detail).safe = true := by
    unfold endedIn
    rw [finishSlot_eq]
    exact h.1
  show finishAct (chainEnd (finishSlot s n st reason detail) k n) = _
  rw [chainEnd_unclaimed hu]
  exact finishAct_take_of_safe hs k

/-! ### What an ending in SAFE changes -/

/-- An ending of lane k changes the lane, its slot, the units and the phases of the lanes that a unit passes to. -/
structure CutOff (k : LaneId) (s t : State) : Prop where
  rest : t = { s with mem := t.mem, finished := t.finished, lanes := t.lanes, watches := t.watches,
                      converter := t.converter, monitor := t.monitor, link := t.link, freeIndex := t.freeIndex }
  lanes : ∀ j, j ≠ k → t.lane j = { s.lane j with phase := (t.lane j).phase }
  writes : ∀ H : SlotId → Prop, (∀ n, (s.lane k).running = some n → H n) → SlotWrites H s.mem t.mem
  finished : ∀ n, s.isFinished n = true → t.isFinished n = true

theorem CutOff.refl (k : LaneId) (s : State) : CutOff k s s :=
  ⟨rfl, fun _ _ => rfl, fun _ _ => .refl _ _, fun _ => id⟩

theorem CutOff.nothing (k : LaneId) (s : State) : CutOff k s (finishAct (s, [])) := by
  rw [finishAct_nil]
  exact .refl k s

theorem CutOff.trans {k : LaneId} {s t u : State} (h : CutOff k s t) (hr : (t.lane k).running = (s.lane k).running)
    (g : CutOff k t u) : CutOff k s u := by
  refine ⟨?_, fun j hj => ?_, fun H hH => (h.writes H hH).trans (g.writes H (by rw [hr]; exact hH)), fun n hn =>
    g.finished n (h.finished n hn)⟩
  · rw [g.rest, h.rest]
  · rw [g.lanes j hj, h.lanes j hj]

theorem CutOff.calm {k : LaneId} {s t : State} (h : CutOff k s t) (hs : s.Calm) : t.Calm := by
  obtain ⟨hsafe, hu⟩ := hs
  rw [h.rest]
  exact ⟨hsafe, hu⟩

theorem PhasesOnly.cutOff {s t : State} (h : PhasesOnly s t) (k : LaneId) : CutOff k s t := by
  obtain ⟨h, hl⟩ := h
  have hmem : t.mem = s.mem := by rw [h]
  have hfin : t.finished = s.finished := by rw [h]
  refine ⟨by rw [h], fun j _ => hl j, fun H _ => hmem ▸ .refl _ _, fun n hn => ?_⟩
  unfold State.isFinished at *
  rw [hfin]
  exact hn

theorem PhasesOnly.running {s t : State} (h : PhasesOnly s t) (j : LaneId) :
    (t.lane j).running = (s.lane j).running ∧ (t.lane j).step = (s.lane j).step := by
  rw [h.2 j]
  exact ⟨rfl, rfl⟩

theorem setLane_cutOff (s : State) (k : LaneId) (l : Lane) : CutOff k s (s.setLane k l) := by
  refine ⟨rfl, fun j hj => ?_, fun _ _ => .refl _ _, fun _ => id⟩
  rw [State.setLane_at, if_neg hj]

section
variable {s : State} {k : LaneId} {n : SlotId} (hn : (s.lane k).running = some n)
include hn

theorem recordResult_cutOff (i : StepId) (r : StepResult) : CutOff k s (recordResult s k n i r) := by
  obtain ⟨h, -, hl, -⟩ := recordResult_spec s k n i r
  have hw := fun (H : SlotId → Prop) (hH : H n) => recordResult_writes hH s k i r
  generalize recordResult s k n i r = t at h hl hw
  refine ⟨by rw [h], fun j hj => ?_, fun H hH => hw H (hH n hn), fun m hm => ?_⟩
  · rw [hl, if_neg hj]
  · unfold State.isFinished at *
    rw [h]
    exact hm

theorem skipFrom_cutOff (first : Nat) : CutOff k s (skipFrom s n first) := by
  have h := (skipFrom_spec s n first).1.1
  have hw := fun (H : SlotId → Prop) (hH : H n) => writeResults_writes hH s first (plainResult .skipped .none 0)
  have hw' : ∀ H : SlotId → Prop, H n → SlotWrites H s.mem (skipFrom s n first).mem := hw
  generalize skipFrom s n first = t at h hw'
  refine ⟨by rw [h], fun j _ => by rw [h]; rfl, fun H hH => hw' H (hH n hn), fun m hm => ?_⟩
  unfold State.isFinished at *
  rw [h]
  exact hm

theorem endedIn_cutOff (st : SlotState) (reason : EndReason) (detail : Byte) :
    CutOff k s (endedIn s k n st reason detail) := by
  have hf : CutOff k s (finishSlot s n st reason detail) := by
    refine ⟨by rw [finishSlot_eq], fun j _ => by rw [finishSlot_eq]; rfl, fun H hH =>
      finishSlot_writes (hH n hn) s st reason detail, fun m hm => ?_⟩
    unfold State.isFinished at *
    rw [finishSlot_eq, getLsbD_or_slot, hm, Bool.true_or]
  refine hf.trans ?_ (setLane_cutOff _ k _)
  rw [finishSlot_eq]
  rfl

end

theorem endedIn_lane (s : State) (k : LaneId) (n : SlotId) (st : SlotState) (reason : EndReason) (detail : Byte) :
    (endedIn s k n st reason detail).lane k = Lane.idle := State.setLane_get_self _ k _

theorem endedIn_isFinished (s : State) (k : LaneId) (n : SlotId) (st : SlotState) (reason : EndReason) (detail : Byte) :
    (endedIn s k n st reason detail).isFinished n = true := by
  unfold endedIn State.isFinished
  rw [finishSlot_eq]
  show (s.finished ||| (1#22 <<< n.val)).getLsbD n.val = true
  rw [getLsbD_or_slot, decide_eq_true rfl, Bool.or_true]

/-! ### Steps and waits that end in SAFE -/

/-- The state after a step of the lane, and its slot with it, has ended in SAFE with no claim held. -/
def stepEndedIn (s : State) (k : LaneId) (n : SlotId) (i : StepId) (r : StepResult) (st : SlotState)
    (reason : EndReason) : State :=
  endedIn (skipFrom (recordResult s k n i r) n (i.val + 1)) k n st reason (BitVec.ofNat 8 i.val)

theorem stepEndedIn_cutOff {s : State} {k : LaneId} {n : SlotId} (hn : (s.lane k).running = some n) (i : StepId)
    (r : StepResult) (st : SlotState) (reason : EndReason) : CutOff k s (stepEndedIn s k n i r st reason) := by
  have hl := (recordResult_spec s k n i r).2.2.1 k
  have hrec : ((recordResult s k n i r).lane k).running = some n := by
    rw [hl, if_pos rfl]
    exact hn
  have hskip : ((skipFrom (recordResult s k n i r) n (i.val + 1)).lane k).running = some n := by
    rw [(skipFrom_spec (recordResult s k n i r) n (i.val + 1)).1.1]
    exact hrec
  exact ((recordResult_cutOff hn i r).trans (hrec.trans hn.symm) (skipFrom_cutOff hrec _)).trans (hskip.trans hn.symm)
    (endedIn_cutOff hskip st reason _)

theorem State.Calm.stepEndsSlot_eq {s : State} (h : s.Calm) {k : LaneId} {n : SlotId} {i : StepId}
    (hn : (s.lane k).running = some n) (hi : (s.lane k).step = some i) (r : StepResult) (st : SlotState)
    (reason : EndReason) : finishAct (stepEndsSlot s k r st reason) = stepEndedIn s k n i r st reason := by
  rw [stepEndsSlot_of_stepping hn hi]
  have hl := (recordResult_spec s k n i r).2.2.1 k
  have hrec : ((recordResult s k n i r).lane k).running = some n := by
    rw [hl, if_pos rfl]
    exact hn
  exact ((skipFrom_cutOff hrec _).calm ((recordResult_cutOff hn i r).calm h)).endSlot_eq k n st reason _

theorem State.Calm.stepEndsSlot_cutOff {s : State} (h : s.Calm) (k : LaneId) (r : StepResult) (st : SlotState)
    (reason : EndReason) : CutOff k s (finishAct (stepEndsSlot s k r st reason)) := by
  cases hn : (s.lane k).running with
  | none =>
    unfold stepEndsSlot
    rw [hn]
    exact .nothing k s
  | some n =>
    cases hi : (s.lane k).step with
    | none =>
      unfold stepEndsSlot
      rw [hn, hi]
      exact .nothing k s
    | some i =>
      rw [h.stepEndsSlot_eq hn hi]
      exact stepEndedIn_cutOff hn i r st reason

/-- A cause other than a step timeout ends the slot. -/
theorem endByCause_eq {cause : EndCause} (hc : cause ≠ .stepTimeout) (s : State) (k : LaneId) (r : StepResult) :
    endByCause s k cause r = stepEndsSlot s k r cause.slotEnding.1 cause.slotEnding.2 := by
  cases cause with
  | stepTimeout => exact absurd rfl hc
  | planTimeout => rfl
  | hostAbort => rfl
  | safeOrder => rfl
  | safeRace => rfl

theorem State.Calm.endWaiting_eq {s : State} (h : s.Calm) {k : LaneId} {n : SlotId} (hn : (s.lane k).running = some n)
    (cause : EndCause) :
    finishAct (endWaiting s k cause) = endedIn (skipFrom s n 0) k n cause.slotEnding.1 cause.slotEnding.2 0xFF#8 := by
  have hw : ({ s with waitList := s.waitList.filter fun w => w.lane != k } : State) = s := by
    rw [h.2.2.2]
    show ({ s with waitList := [] } : State) = s
    rw [← h.2.2.2]
  unfold endWaiting
  rw [hn]
  dsimp only
  rw [hw]
  exact ((skipFrom_cutOff hn 0).calm h).endSlot_eq k n _ _ _

theorem State.Calm.endWaiting_cutOff {s : State} (h : s.Calm) (k : LaneId) (cause : EndCause) :
    CutOff k s (finishAct (endWaiting s k cause)) := by
  cases hn : (s.lane k).running with
  | none =>
    unfold endWaiting
    rw [hn]
    exact .nothing k s
  | some n =>
    have hskip : ((skipFrom s n 0).lane k).running = some n := by
      rw [(skipFrom_spec s n 0).1.1]
      exact hn
    rw [h.endWaiting_eq hn]
    exact (skipFrom_cutOff hn 0).trans (hskip.trans hn.symm) (endedIn_cutOff hskip _ _ _)

/-- A wind-down that ends in SAFE. -/
theorem State.Calm.endWindDown_eq {s : State} (h : s.Calm) {k : LaneId} {n : SlotId} {i : StepId} {cause : EndCause}
    (hn : (s.lane k).running = some n) (hi : (s.lane k).step = some i) (hc : cause ≠ .stepTimeout) :
    finishAct (endWindDown s k cause) =
      stepEndedIn (releaseLink s) k n i (s.resultBy k cause) cause.slotEnding.1 cause.slotEnding.2 := by
  have hp := releaseLink_phasesOnly s
  obtain ⟨hr, hs⟩ := hp.running k
  unfold endWindDown
  dsimp only
  rw [endByCause_eq hc]
  exact ((hp.cutOff k).calm h).stepEndsSlot_eq (hr.trans hn) (hs.trans hi) _ _ _

theorem State.Calm.endWindDown_cutOff {s : State} (h : s.Calm) (k : LaneId) {cause : EndCause} (hc : cause ≠ .stepTimeout) :
    CutOff k s (finishAct (endWindDown s k cause)) := by
  have hp := releaseLink_phasesOnly s
  unfold endWindDown
  dsimp only
  rw [endByCause_eq hc]
  exact (hp.cutOff k).trans (hp.running k).1 (((hp.cutOff k).calm h).stepEndsSlot_cutOff k _ _ _)

/-! ### The safe order on one lane -/

theorem safeCause_ne_stepTimeout (l : Lane) : l.safeCause ≠ .stepTimeout := by
  unfold Lane.safeCause
  split <;> nofun

theorem safeCause_not_timeout (l : Lane) : l.safeCause.outcome.1 ≠ .timeout := by
  unfold Lane.safeCause
  split <;> nofun

/-- The safe order drops a half pair (R110). -/
theorem settleHalfPair_safe (s : State) (k : LaneId) (l : Lane) : settleHalfPair s k l.safeCause = s :=
  if_neg (safeCause_not_timeout l)

section
variable {s : State} {k : LaneId}

theorem safeLane_idle (hs : (s.lane k).state = .idle) : safeLane s k = s := by
  unfold safeLane cutLane
  rw [hs]
  exact finishAct_nil s

theorem safeLane_waiting (hs : (s.lane k).state = .claiming ∨ (s.lane k).state = .gated) :
    safeLane s k = finishAct (endWaiting s k (s.lane k).safeCause) := by
  unfold safeLane cutLane
  rcases hs with hs | hs <;> rw [hs]

theorem safeLane_linking (hs : (s.lane k).state = .stepping) (hp : (s.lane k).phase = .linking) :
    safeLane s k = finishAct (windDown s k (s.lane k).safeCause) := by
  unfold safeLane
  rw [cutLane_linking hs hp]

theorem safeLane_winding (hs : (s.lane k).state = .winding) :
    safeLane s k = if (s.lane k).cause = some .stepTimeout then
      s.setLane k { s.lane k with cause := some (s.lane k).safeCause } else s := by
  unfold safeLane
  rw [cutLane_winding hs]
  unfold recause
  split
  · exact finishAct_nil _
  · exact finishAct_nil _

theorem safeLane_stepping (hs : (s.lane k).state = .stepping) (hp : (s.lane k).phase ≠ .linking) :
    safeLane s k = finishAct (stepEndsSlot (stopServing s k) k (s.resultBy k (s.lane k).safeCause) .aborted .safeAbort) := by
  have hcut : cutLane s k (s.lane k).safeCause = endStepNow s k (s.lane k).safeCause := by
    unfold cutLane
    rw [hs]
    exact if_neg hp
  unfold safeLane
  rw [hcut]
  unfold endStepNow
  dsimp only
  rw [endByCause_eq (safeCause_ne_stepTimeout _), settleHalfPair_safe, safeCause_slotEnding]

theorem wound_cutOff (s : State) (k : LaneId) (cause : EndCause) : CutOff k s (wound s k cause) :=
  ⟨rfl, fun j hj => by rw [wound_lane, if_neg hj], fun _ _ => .refl _ _, fun _ => id⟩

theorem wound_running (s : State) (k : LaneId) (cause : EndCause) :
    ((wound s k cause).lane k).running = (s.lane k).running := by
  rw [wound_lane, if_pos rfl]

/-- What the order to wind down leaves in SAFE: the marks, or the slot ended (R48, R152). -/
theorem windDown_cases (s : State) (k : LaneId) (cause : EndCause) :
    windDown s k cause = (wound s k cause, []) ∨
      windDown s k cause = ({ wound s k cause with freeIndex := s.freeIndex + 1 }, []) ∨
      windDown s k cause = endWindDown { wound s k cause with freeIndex := s.freeIndex + 1 } k cause := by
  by_cases hstart : s.link.phase = .start ∧ s.linkWaitOver = false
  · rw [windDown_start s k cause hstart.1 hstart.2]
    dsimp only
    split
    · exact .inr (.inl rfl)
    · exact .inr (.inr rfl)
  · exact .inl (windDown_marks s k cause (by rw [← Bool.not_eq_false]; tauto))

theorem woundOn_cutOff (s : State) (k : LaneId) (cause : EndCause) (free : Nat) :
    CutOff k s { wound s k cause with freeIndex := free } :=
  (wound_cutOff s k cause).trans (wound_running s k cause) ⟨rfl, fun _ _ => rfl, fun _ _ => .refl _ _, fun _ => id⟩

theorem State.Calm.safeLane_cutOff (h : s.Calm) (k : LaneId) : CutOff k s (safeLane s k) := by
  cases hs : (s.lane k).state with
  | idle => exact (safeLane_idle hs).symm ▸ .refl k s
  | claiming =>
    rw [safeLane_waiting (.inl hs)]
    exact h.endWaiting_cutOff k _
  | gated =>
    rw [safeLane_waiting (.inr hs)]
    exact h.endWaiting_cutOff k _
  | stepping =>
    by_cases hp : (s.lane k).phase = .linking
    · have hc := safeCause_ne_stepTimeout (s.lane k)
      rw [safeLane_linking hs hp]
      generalize (s.lane k).safeCause = cause at hc
      have hon := woundOn_cutOff s k cause (s.freeIndex + 1)
      rcases windDown_cases s k cause with hw | hw | hw
      · rw [hw, finishAct_nil]
        exact wound_cutOff s k cause
      · rw [hw, finishAct_nil]
        exact hon
      · rw [hw]
        exact hon.trans (wound_running s k cause) ((hon.calm h).endWindDown_cutOff k hc)
    · have hp' := stopServing_phasesOnly s k
      rw [safeLane_stepping hs hp]
      exact (hp'.cutOff k).trans (hp'.running k).1 (((hp'.cutOff k).calm h).stepEndsSlot_cutOff k _ _ _)
  | winding =>
    rw [safeLane_winding hs]
    split
    · exact setLane_cutOff s k _
    · exact .refl k s

end

end Sys2Proof.Machine
end

