-- ==== Sys2Proof/Proofs/SafeOrderServes.lean ====
section
/-! SUPPORT. The safe order on the lanes: it leaves every lane IDLE or WINDING, and where lanes and units agree, they agree
after it (R49, R155, R65). -/

namespace Sys2Proof.Machine

/-- The lane needs no safe order, or has had it: it is IDLE or WINDING (R49). -/
def Lane.settled (l : Lane) : Prop := l.state = .idle ∨ l.state = .winding

/-- The lanes and the units agree, but for claims and their wait list. -/
structure State.AllSeated (s : State) : Prop where
  twice : s.noneTwice
  seated : ∀ k, s.Seated k

/-! ### One lane -/

/-- Lane k set IDLE once it is free. -/
theorem allSeated_of_idled {k : LaneId} {s t : State} (hn : s.noneTwice) (hs : ∀ j, j ≠ k → s.Seated j) (hk : s.Free k)
    (ha : Aside k s t) (hl : t.lane k = Lane.idle) : t.AllSeated := by
  refine ⟨ha.1.noneTwice hn, fun j => ?_⟩
  by_cases hj : j = k
  · subst hj
    have hphase : (t.lane j).phase = .none := by rw [hl]; rfl
    have hord : (t.lane j).ordered := by
      rw [hl]
      exact ⟨iff_of_true rfl rfl, nofun, fun _ => rfl, nofun⟩
    exact (ha.1.free hk).seated hord (phase_none_apart hphase) (by rw [hl]; nofun)
  · exact (ha.1.same (ha.2 j hj)).seated (hs j hj)

theorem endedIn_aside (s : State) (k : LaneId) (n : SlotId) (st : SlotState) (reason : EndReason) (detail : Byte) :
    Aside k s (endedIn s k n st reason detail) :=
  (finishSlot_aside k s n st reason detail).trans (setLane_aside _ k _)

theorem stepEndedIn_aside (s : State) (k : LaneId) (n : SlotId) (i : StepId) (r : StepResult) (st : SlotState)
    (reason : EndReason) : Aside k s (stepEndedIn s k n i r st reason) :=
  ((recordResult_aside s k n i r).trans (skipFrom_aside k _ n _)).trans (endedIn_aside _ k n st reason _)

theorem stepEndedIn_lane (s : State) (k : LaneId) (n : SlotId) (i : StepId) (r : StepResult) (st : SlotState)
    (reason : EndReason) : (stepEndedIn s k n i r st reason).lane k = Lane.idle := endedIn_lane _ k n st reason _

/-- A lane that gives its unit up and ends its slot leaves the others seated. -/
theorem GaveUp.allSeated {s t : State} {k : LaneId} {n : SlotId} {i : StepId} (hg : GaveUp k s t) (h : s.AllSeated)
    (r : StepResult) (st : SlotState) (reason : EndReason) : (stepEndedIn t k n i r st reason).AllSeated :=
  allSeated_of_idled hg.twice (fun j hj => (hg.spared j hj).seated (h.seated j)) hg.free
    (stepEndedIn_aside t k n i r st reason) (stepEndedIn_lane t k n i r st reason)

section
variable {s : State} (hc : s.Calm)
include hc

theorem State.Calm.not_waits (k : LaneId) : ¬s.waits k := by
  unfold State.waits
  rw [hc.2.2.2]
  exact List.not_mem_nil

theorem State.Calm.windDown_allSeated (h : s.AllSeated) {k : LaneId} (hs : (s.lane k).state = .stepping)
    (hp : (s.lane k).phase = .linking) {cause : EndCause} (hcause : cause ≠ .stepTimeout) :
    (finishAct (windDown s k cause)).AllSeated := by
  have hk := h.seated k
  have hg : s.link.grantee = some k := (hk.holds .link).mp hp
  have hwound : (wound s k cause).AllSeated := by
    refine ⟨wound_noneTwice h.twice k cause, fun j => ?_⟩
    by_cases hj : j = k
    · subst hj
      exact wound_seated hg hk hs cause
    · exact (wound_same hg cause hj).seated (h.seated j)
  have hl := (wound_lane s k cause k).trans (if_pos rfl)
  have hon := (woundOn_cutOff s k cause (s.freeIndex + 1)).calm hc
  have hfree : State.AllSeated { wound s k cause with freeIndex := s.freeIndex + 1 } := by
    generalize wound s k cause = t at hwound
    have hu : UnitsKept t { t with freeIndex := s.freeIndex + 1 } := .of_eq rfl rfl rfl rfl rfl rfl
    exact ⟨hu.noneTwice hwound.twice, fun j => (hu.same (.refl (t.lane j))).seated (hwound.seated j)⟩
  rcases windDown_cases s k cause with hw | hw | hw
  · rw [hw, finishAct_nil]
    exact hwound
  · rw [hw, finishAct_nil]
    exact hfree
  · rw [hw]
    obtain ⟨n, hn⟩ := hk.ordered.runs (by rw [hs]; nofun)
    obtain ⟨i, hi⟩ := hk.ordered.2.1 (.inl hs)
    have hl' : State.lane { wound s k cause with freeIndex := s.freeIndex + 1 } k =
      { s.lane k with state := .winding, stepTimer := none, cause := some cause } := hl
    generalize ({ wound s k cause with freeIndex := s.freeIndex + 1 } : State) = t at hfree hon hl'
    rw [hon.endWindDown_eq (by rw [hl']; exact hn) (by rw [hl']; exact hi) hcause]
    exact ((releaseLink_passed t).gaveUp hfree.twice (hfree.seated k) (by rw [hl']; exact hp)
      (hon.not_waits k)).allSeated hfree _ _ _

/-- The safe order on one lane leaves the lanes and the units in agreement. -/
theorem State.Calm.safeLane_allSeated (h : s.AllSeated) (k : LaneId) : (safeLane s k).AllSeated := by
  have hk := h.seated k
  have hwaiting (hs : (s.lane k).state = .claiming ∨ (s.lane k).state = .gated) : (safeLane s k).AllSeated := by
    obtain ⟨n, hn⟩ := hk.ordered.runs fun hc => by rcases hs with hs | hs <;> cases hc.symm.trans hs
    have hphase := hk.ordered.2.2.1 (.inr hs)
    rw [safeLane_waiting hs, hc.endWaiting_eq hn]
    exact allSeated_of_idled h.twice (fun j _ => h.seated j)
      (hk.gaveUp h.twice (phase_none_apart hphase) (hc.not_waits k)).free
      ((skipFrom_aside k s n 0).trans (endedIn_aside _ k n _ _ _)) (endedIn_lane _ k n _ _ _)
  cases hs : (s.lane k).state with
  | idle => rwa [safeLane_idle hs]
  | claiming => exact hwaiting (.inl hs)
  | gated => exact hwaiting (.inr hs)
  | stepping =>
    by_cases hp : (s.lane k).phase = .linking
    · rw [safeLane_linking hs hp]
      exact hc.windDown_allSeated h hs hp (safeCause_ne_stepTimeout _)
    · obtain ⟨n, hn⟩ := hk.ordered.runs (by rw [hs]; nofun)
      obtain ⟨i, hi⟩ := hk.ordered.2.1 (.inl hs)
      have hphases := stopServing_phasesOnly s k
      obtain ⟨hrun, hstep⟩ := hphases.running k
      rw [safeLane_stepping hs hp, ((hphases.cutOff k).calm hc).stepEndsSlot_eq (hrun.trans hn) (hstep.trans hi)]
      exact (stopServing_gaveUp hk h.twice hp (hc.not_waits k)).allSeated h _ _ _
  | winding =>
    rw [safeLane_winding hs]
    split
    · have ha := setLane_aside s k { s.lane k with cause := some (s.lane k).safeCause }
      have hl := State.setLane_get_self s k { s.lane k with cause := some (s.lane k).safeCause }
      generalize s.setLane k { s.lane k with cause := some (s.lane k).safeCause } = t at ha hl
      refine ⟨ha.1.noneTwice h.twice, fun j => ?_⟩
      by_cases hj : j = k
      · subst hj
        obtain ⟨hidle, hstep, hquiet, hwind⟩ := hk.ordered
        refine ⟨?_, fun u => ?_, fun u => ?_, ?_⟩
        · rw [hl]
          exact ⟨hidle, hstep, hquiet, fun hw => ⟨(hwind hw).1, _, rfl⟩⟩
        · rw [hl, ha.1.grantee]
          exact hk.holds u
        · rw [hl, ha.1.queueFor]
          exact hk.queued u
        · rw [hl]
          exact hk.winds.trans (ha.1.winds j).symm
      · exact (ha.1.same (ha.2 j hj)).seated (h.seated j)
    · exact h

/-- The safe order settles its lane. -/
theorem State.Calm.safeLane_settled {k : LaneId} (hr : ¬(s.lane k).settled → ∃ n, (s.lane k).running = some n)
    (hi : (s.lane k).state = .stepping → ∃ i, (s.lane k).step = some i) : ((safeLane s k).lane k).settled := by
  have hwaiting (hs : (s.lane k).state = .claiming ∨ (s.lane k).state = .gated) : ((safeLane s k).lane k).settled := by
    obtain ⟨n, hn⟩ := hr fun hc => by rcases hs with hs | hs <;> rcases hc with hc | hc <;> cases hc.symm.trans hs
    rw [safeLane_waiting hs, hc.endWaiting_eq hn, endedIn_lane]
    exact .inl rfl
  cases hs : (s.lane k).state with
  | idle =>
    rw [safeLane_idle hs]
    exact .inl hs
  | claiming => exact hwaiting (.inl hs)
  | gated => exact hwaiting (.inr hs)
  | stepping =>
    obtain ⟨n, hn⟩ := hr fun hc => by rcases hc with hc | hc <;> cases hc.symm.trans hs
    obtain ⟨i, hi⟩ := hi hs
    by_cases hp : (s.lane k).phase = .linking
    · have hcause := safeCause_ne_stepTimeout (s.lane k)
      rw [safeLane_linking hs hp]
      generalize (s.lane k).safeCause = cause at hcause
      have hl := (wound_lane s k cause k).trans (if_pos rfl)
      have hl' : State.lane { wound s k cause with freeIndex := s.freeIndex + 1 } k =
        { s.lane k with state := .winding, stepTimer := none, cause := some cause } := hl
      have hon := (woundOn_cutOff s k cause (s.freeIndex + 1)).calm hc
      rcases windDown_cases s k cause with hw | hw | hw
      · rw [hw, finishAct_nil, hl]
        exact .inr rfl
      · rw [hw, finishAct_nil, hl']
        exact .inr rfl
      · rw [hw, hon.endWindDown_eq (by rw [hl']; exact hn) (by rw [hl']; exact hi) hcause, stepEndedIn_lane]
        exact .inl rfl
    · have hphases := stopServing_phasesOnly s k
      obtain ⟨hrun, hstep⟩ := hphases.running k
      rw [safeLane_stepping hs hp, ((hphases.cutOff k).calm hc).stepEndsSlot_eq (hrun.trans hn) (hstep.trans hi),
        stepEndedIn_lane]
      exact .inl rfl
  | winding =>
    rw [safeLane_winding hs]
    split
    · rw [State.setLane_get_self]
      exact .inr hs
    · exact .inr hs

end

/-! ### All lanes -/

/-- A lane that is not settled runs a slot, and is at a step if it steps. -/
def State.runsAll (s : State) : Prop := ∀ k, ¬(s.lane k).settled →
  (∃ n, (s.lane k).running = some n) ∧ ((s.lane k).state = .stepping → ∃ i, (s.lane k).step = some i)

theorem CutOff.settled {k j : LaneId} {s t : State} (h : CutOff k s t) (hj : j ≠ k) :
    (t.lane j).settled ↔ (s.lane j).settled := by
  rw [h.lanes j hj]
  exact Iff.rfl

theorem State.Calm.safeLane_runsAll {s : State} (hc : s.Calm) (h : s.runsAll) (k : LaneId) :
    ((safeLane s k).lane k).settled ∧ (safeLane s k).runsAll := by
  have hcut := hc.safeLane_cutOff k
  have hk : ((safeLane s k).lane k).settled := by
    by_cases hs : (s.lane k).settled
    · rcases hs with hs | hs
      · rw [safeLane_idle hs]
        exact .inl hs
      · refine hc.safeLane_settled (fun hn => absurd (.inr hs) hn) fun hn => ?_
        cases hs.symm.trans hn
    · exact hc.safeLane_settled (fun _ => (h k hs).1) (h k hs).2
  refine ⟨hk, fun j hj => ?_⟩
  by_cases hjk : j = k
  · exact absurd (hjk ▸ hk) hj
  · rw [hcut.settled hjk] at hj
    rw [hcut.lanes j hjk]
    exact h j hj

/-- The safe order on some lanes settles them, and leaves those settled that were. -/
theorem State.Calm.foldl_safeLane_settled {s : State} (hc : s.Calm) (h : s.runsAll) (ks : List LaneId) {j : LaneId}
    (hj : j ∈ ks ∨ (s.lane j).settled) : ((ks.foldl safeLane s).lane j).settled := by
  induction ks generalizing s with
  | nil => exact hj.elim (fun hm => absurd hm List.not_mem_nil) id
  | cons k ks ih =>
    obtain ⟨hk, hruns⟩ := hc.safeLane_runsAll h k
    have hcut := hc.safeLane_cutOff k
    refine ih (hcut.calm hc) hruns ?_
    by_cases hjk : j = k
    · exact .inr (hjk ▸ hk)
    · refine hj.imp (fun hm => ?_) fun hs => (hcut.settled hjk).mpr hs
      exact (List.mem_cons.mp hm).resolve_left hjk

/-- The safe order reaches every lane once. -/
theorem mem_safeLaneOrder (s : State) (k : LaneId) : k ∈ s.safeLaneOrder := by
  have hk : k ∈ allLanes := by revert k; decide
  unfold State.safeLaneOrder
  rw [List.mem_append, List.mem_filter, List.mem_filter]
  by_cases hp : (s.lane k).phase = .linking
  · exact .inr ⟨hk, beq_iff_eq.mpr hp⟩
  · exact .inl ⟨hk, bne_iff_ne.mpr hp⟩

theorem State.Calm.foldl_safeLane {s : State} (hc : s.Calm) (ks : List LaneId) : (ks.foldl safeLane s).Calm :=
  foldl_induct State.Calm safeLane (fun _ k h => (h.safeLane_cutOff k).calm h) ks s hc

theorem State.Calm.foldl_safeLane_allSeated {s : State} (hc : s.Calm) (h : s.AllSeated) (ks : List LaneId) :
    (ks.foldl safeLane s).AllSeated :=
  (foldl_induct (fun t => t.Calm ∧ t.AllSeated) safeLane
    (fun _ k h => ⟨(h.1.safeLane_cutOff k).calm h.1, h.1.safeLane_allSeated h.2 k⟩) ks s ⟨hc, h⟩).2

/-- Lanes and units that agree, every lane IDLE or WINDING and no claim held or asked for, keep the law of the lanes. -/
theorem State.AllSeated.lanesServed {s : State} (h : s.AllSeated) (hc : s.Calm) (hs : ∀ k, (s.lane k).settled) :
    s.lanesServed := by
  refine (lanesServed_iff s).mpr ⟨h.twice, fun k => ⟨h.seated k, iff_of_false (fun hcl => ?_) (hc.not_waits k), fun ho => ?_⟩⟩
  · rcases hs k with hs | hs <;> cases hs.symm.trans hcl
  · obtain ⟨hco, hlo, -⟩ := hc.2
    rcases ho with ⟨c, ho⟩ | ⟨l, ho⟩
    · cases (hco c).symm.trans ho
    · cases (hlo l).symm.trans ho

/-! ### The whole expiry -/

theorem enterSafe_clearClaims_calm (s : State) : (enterSafe s).clearClaims.Calm := by
  obtain ⟨hclaims, hc, hl, hw, -⟩ := clearClaims_spec (enterSafe s)
  refine ⟨?_, hc, hl, hw⟩
  have hs : (enterSafe s).clearClaims.holdSafe = (enterSafe s).holdSafe := by rw [hclaims]
  unfold State.safe
  rw [hs]
  rfl

/-- Clearing the claim table leaves every lane and unit as it was. -/
theorem clearClaims_allSeated {s : State} (h : s.lanesServed) : (enterSafe s).clearClaims.AllSeated := by
  obtain ⟨hclaims, -, -, hw, -⟩ := clearClaims_spec (enterSafe s)
  generalize (enterSafe s).clearClaims = t at hclaims hw
  have hu : UnitsKept s { t with chanOwner := s.chanOwner, lineOwner := s.lineOwner, waitList := s.waitList } :=
    .of_eq (by rw [hclaims]; rfl) (by rw [hclaims]; rfl) (by rw [hclaims]; rfl) rfl rfl rfl
  refine ⟨⟨(hu.noneTwice (h.but 0).twice).1, by rw [hw]; exact List.nodup_nil⟩, fun k => ?_⟩
  have hl : (s.lane k).Kept (t.lane k) := .of_eq (by rw [hclaims]; rfl)
  have hseat := (hu.same hl).seated (h.fits k).toSeated
  exact ⟨hseat.ordered, hseat.holds, hseat.queued, hseat.winds⟩

theorem monitorExpiry_due {s : State} (h : s.holdSafe.state = .watching ∧ s.holdSafe.expiryDue = true) :
    monitorExpiry s =
      allLines.foldl safeLineOn (allChans.foldl safeOn (safeIntake (safeLanes (enterSafe s).clearClaims))) := if_pos h

theorem safeIntake_eq (s : State) :
    safeIntake s = { s with mem := (safeIntake s).mem, finished := (safeIntake s).finished,
                            queues := vec4 fun _ => [], parked := [] } := by
  have h := (foldl_endUnrun .safeAbort (allLanes.flatMap s.queue ++ s.parked) s).1
  unfold safeIntake
  dsimp only
  generalize (allLanes.flatMap s.queue ++ s.parked).foldl (endUnrun .safeAbort) s = t at h ⊢
  rw [h]

theorem State.AllSeated.runsAll {s : State} (h : s.AllSeated) : s.runsAll := fun k hk =>
  ⟨(h.seated k).ordered.runs fun hc => hk (.inl hc), fun hs => (h.seated k).ordered.2.1 (.inl hs)⟩

/-- The safe order leaves lanes and units by the law. -/
theorem safeLanes_lanesServed {s : State} (h : s.lanesServed) : (safeLanes (enterSafe s).clearClaims).lanesServed := by
  have hc := enterSafe_clearClaims_calm s
  have hseated := clearClaims_allSeated h
  unfold safeLanes
  generalize (enterSafe s).clearClaims = u at hc hseated
  exact (hc.foldl_safeLane_allSeated hseated _).lanesServed (hc.foldl_safeLane _) fun k =>
    hc.foldl_safeLane_settled hseated.runsAll _ (.inl (mem_safeLaneOrder u k))

theorem monitorExpiry_lanesServed (s : State) (h : s.lanesServed) : (monitorExpiry s).lanesServed := by
  by_cases hdue : s.holdSafe.state = .watching ∧ s.holdSafe.expiryDue = true
  · rw [monitorExpiry_due hdue]
    have ht := safeLanes_lanesServed h
    generalize safeLanes (enterSafe s).clearClaims = t at ht
    have hi := safeIntake_eq t
    have hu : (safeIntake t).lanesServed := by
      generalize safeIntake t = u at hi
      exact lanesServed_of_eq ht (by rw [hi]) (by rw [hi]) (by rw [hi]) (by rw [hi]) (by rw [hi]) (by rw [hi]) (by rw [hi])
    have hv := (foldl_safeOn (safeIntake t)).1.steady.lanesServed hu
    generalize allChans.foldl safeOn (safeIntake t) = v at hv
    have hl : LinesOnly v (allLines.foldl safeLineOn v) := (foldl_safeLineOn v).1
    have hlines := fun j => hl.same j
    refine (lanesServed_iff _).mpr ⟨?_, fun k => (hlines k).fits (hv.fits k)⟩
    exact (hl.aside (k := 0)).1.noneTwice (hv.but 0).twice
  · rwa [monitorExpiry_not_due s hdue]

end Sys2Proof.Machine

open Sys2Proof Sys2Proof.Machine

/-- Settles O12: act by act, each from what the law says of the lane it moves. -/
theorem everyStepKeepsLanesServed : Obligations.EveryStepKeepsLanesServed := by
  unfold Obligations.EveryStepKeepsLanesServed
  intro s t h hstep
  have hkeeps : Keeps State.lanesServed State.lanesServed :=
    { same := fun hs _ h => hs.lanesServed h
      still := fun hs h => hs.lanesServed h
      post := post_lanesServed
      abort := abort_lanesServed
      go := go_lanesServed
      engineReset := fun s _ => (engineReset_cleared s).lanesServed
      deviceReset := fun s _ => (beginReset_cleared s).lanesServed
      deviceResetEnd := fun strap levels s _ => (endReset_cleared strap levels s).lanesServed
      tick := fun s h => (tickBoundary_steady _).lanesServed (monitorExpiry_lanesServed s h)
      monitorExpiry := monitorExpiry_lanesServed
      rampMove := rampMove_lanesServed
      stepTimeout := stepTimeout_lanesServed
      planTimeout := planTimeout_lanesServed
      delayExpiry := delayExpiry_lanesServed
      triggerDelayExpiry := triggerDelayExpiry_lanesServed
      confirmationExpiry := confirmationExpiry_lanesServed
      pollIntervalExpiry := pollIntervalExpiry_lanesServed
      conversionEnd := conversionEnd_lanesServed
      levelChange := levelChange_lanesServed
      measurementEnd := measurementEnd_lanesServed
      recoveryComplete := recoveryComplete_lanesServed
      linkStopComplete := linkStopComplete_lanesServed
      busStuck := busStuck_lanesServed }
  exact hkeeps.step h hstep

end

