-- ==== Sys2Proof/Proofs/TenthLaw.lean ====
section
/-! The tenth law (O13): in SAFE nothing takes, claims or asks for anything, so that only a WINDING lane can still move, and
only to its end. -/

namespace Sys2Proof.Machine

/-! ### The law, part by part -/

/-- What the tenth law says of a state in SAFE (R163). -/
structure State.AtRest (s : State) : Prop where
  queue : ∀ k, s.queue k = []
  parked : s.parked = []
  unclaimed : s.unclaimed
  lanes : ∀ k, (s.lane k).quiet ∨ s.winds k
  converter : s.converter.grantee = none
  monitor : s.monitor.grantee = none
  linkQueue : s.link.queue = []
  link : ∀ k, s.link.grantee = some k → s.winds k

theorem tenthLaw_iff (s : State) : s.tenthLaw ↔ (s.safe = true → s.AtRest) := by
  constructor
  · intro h hs
    obtain ⟨h1, h2, h3, h4, h5, h6, h7, h8⟩ := h hs
    exact ⟨h1, h2, h3, h4, h5, h6, h7, h8⟩
  · intro h hs
    obtain ⟨h1, h2, h3, h4, h5, h6, h7, h8⟩ := h hs
    exact ⟨h1, h2, h3, h4, h5, h6, h7, h8⟩

theorem State.winds_of_kept {s t : State} {k : LaneId} (hu : UnitsKept s t) (hl : (s.lane k).Kept (t.lane k))
    (h : s.winds k) : t.winds k := by
  obtain ⟨hstate, hphase, hg, hw, hcause, hrun, hstep⟩ := h
  obtain ⟨h1, h2, h3, h4, h5⟩ := hl
  refine ⟨h1.trans hstate, h4.trans hphase, (hu.grantee .link).trans hg, hu.windDown.trans hw, ?_, ?_, ?_⟩
  · rw [h5]
    exact hcause
  · rw [h2]
    exact hrun
  · rw [h3]
    exact hstep

theorem Lane.Kept.quiet {l l' : Lane} (h : l.Kept l') (hq : l.quiet) : l'.quiet :=
  ⟨h.1.trans hq.1, h.2.2.2.1.trans hq.2⟩

/-- Nothing is claimed where nothing was. -/
theorem UnitsKept.unclaimed {s t : State} (h : UnitsKept s t) (hs : s.unclaimed) : t.unclaimed := by
  obtain ⟨hc, hl, hw⟩ := hs
  have hnone : ∀ j, ¬t.owns j := fun j ho => by
    rcases h.owns j ho with ⟨c, ho⟩ | ⟨l, ho⟩
    · cases (hc c).symm.trans ho
    · cases (hl l).symm.trans ho
  refine ⟨fun c => ?_, fun l => ?_, ?_⟩
  · exact Option.eq_none_iff_forall_ne_some.mpr fun j ho => hnone j (.inl ⟨c, ho⟩)
  · exact Option.eq_none_iff_forall_ne_some.mpr fun j ho => hnone j (.inr ⟨l, ho⟩)
  · have := h.waitList
    rw [hw] at this
    exact List.map_eq_nil_iff.mp this

/-- Acts that leave every standing and the intake as they were keep a state at rest. -/
theorem Steady.atRest {s t : State} (h : Steady s t) (hs : s.AtRest) : t.AtRest := by
  have hg : ∀ k, t.link.grantee = some k → s.link.grantee = some k := fun k hk => (h.units.grantee .link).symm.trans hk
  refine ⟨fun k => ?_, h.parked.trans hs.parked, h.units.unclaimed hs.unclaimed, fun k => ?_, ?_, ?_, ?_, fun k hk => ?_⟩
  · unfold State.queue
    rw [h.queues]
    exact hs.queue k
  · exact (hs.lanes k).imp (h.lanes k).quiet (State.winds_of_kept h.units (h.lanes k))
  · exact (h.units.grantee .converter).trans hs.converter
  · exact (h.units.grantee .monitor).trans hs.monitor
  · exact (h.units.queueFor .link).trans hs.linkQueue
  · exact State.winds_of_kept h.units (h.lanes k) (hs.link k (hg k hk))

/-- After a reset every block is at rest. -/
theorem Cleared.atRest {s : State} (h : Cleared s) : s.AtRest := by
  refine ⟨h.queue, h.parked, h.unclaimed, fun k => .inl ?_, ?_, ?_, ?_, fun k hk => ?_⟩
  · rw [h.lane]
    exact ⟨rfl, rfl⟩
  · rw [h.converter]
    rfl
  · rw [h.monitor]
    rfl
  · rw [h.link]
    rfl
  · rw [h.link] at hk
    cases hk

/-! ### What finds nothing to do -/

/-- SAFE is set and the part is at rest. -/
def State.SafeRest (s : State) : Prop := s.safe = true ∧ s.AtRest

theorem State.SafeRest.calm {s : State} (h : s.SafeRest) : s.Calm := ⟨h.1, h.2.unclaimed⟩

/-- An act that leaves SAFE and every standing as they were. -/
theorem Steady.safeRest {s t : State} (h : Steady s t) (hh : t.holdSafe = s.holdSafe) (hs : s.SafeRest) : t.SafeRest := by
  refine ⟨?_, h.atRest hs.2⟩
  unfold State.safe
  rw [hh]
  exact hs.1

theorem State.AtRest.settled {s : State} (h : s.AtRest) (k : LaneId) : (s.lane k).settled :=
  (h.lanes k).imp And.left And.left

theorem State.AtRest.phase {s : State} (h : s.AtRest) (k : LaneId) : (s.lane k).phase = .none ∨ (s.lane k).phase = .linking :=
  (h.lanes k).imp And.right fun hw => hw.2.1

theorem State.AtRest.not_due {s : State} (h : s.AtRest) {k : LaneId} {p : Phase} (hn : p ≠ .none) (hl : p ≠ .linking) :
    ¬(s.lane k).due p = true := fun hd =>
  (h.phase k).elim (fun hp => hn ((phase_of_due hd).symm.trans hp)) fun hp => hl ((phase_of_due hd).symm.trans hp)

theorem State.AtRest.not_stepping {s : State} (h : s.AtRest) (k : LaneId) : (s.lane k).state ≠ .stepping := fun hs => by
  rcases h.settled k with hc | hc <;> cases hs.symm.trans hc

/-- A cause other than a step timeout finds no lane to cut off (R48). -/
theorem State.AtRest.cutLane {s : State} (h : s.AtRest) (k : LaneId) (cause : EndCause) : cutLane s k cause = (s, []) := by
  unfold Machine.cutLane
  rcases h.lanes k with hq | hw
  · rw [hq.1]
  · obtain ⟨hstate, -, -, -, ⟨c, hc, hne⟩, -⟩ := hw
    rw [hstate]
    exact if_neg fun hcause => hne (Option.some.inj (hc.symm.trans hcause))

theorem State.AtRest.awaitsGo {s : State} (h : s.AtRest) (k : LaneId) : (s.lane k).awaitsGo = false := by
  unfold Lane.awaitsGo
  rcases h.settled k with hs | hs <;> rw [hs] <;> rfl

/-- Reports reach no lane while no channel is claimed (R73). -/
theorem reported_unclaimed {f : State → ChanId → State} (hf : ∀ s c, ChansOnly s (f s c)) (cs : List ChanId) {s : State}
    (h : ∀ c, s.ownerOf c = none) : ChansOnly s (reported f cs s).1 ∧ (reported f cs s).2 = [] := by
  induction cs generalizing s with
  | nil => exact ⟨.refl s, rfl⟩
  | cons c cs ih =>
    have hfc := hf s c
    have ho : ∀ d, (f s c).ownerOf d = none := fun d => (hfc.ownerOf d).trans (h d)
    have hr : reportChan (f s c) c = (f s c, []) := by
      unfold reportChan
      rw [ho c]
    obtain ⟨h1, h2⟩ := ih ho
    unfold reported
    dsimp only
    rw [hr]
    exact ⟨hfc.trans h1, h2⟩

theorem reported_finishes {f : State → ChanId → State} (hf : ∀ s c, ChansOnly s (f s c)) (cs : List ChanId) {s : State}
    (h : ∀ c, s.ownerOf c = none) : Steady s (finishAct (reported f cs s)) := by
  obtain ⟨h1, h2⟩ := reported_unclaimed hf cs h
  have hr : reported f cs s = ((reported f cs s).1, []) := by rw [← h2]
  rw [hr, finishAct_nil]
  exact h1.steady

/-! ### The end of a wind-down -/

/-- The WINDING lane ends its slot, and with it the last thing that moved (R48, R155). -/
theorem State.SafeRest.endWindDown {s : State} (h : s.SafeRest) {k : LaneId} (hw : s.winds k) {cause : EndCause}
    (hc : cause ≠ .stepTimeout) : (finishAct (endWindDown s k cause)).AtRest := by
  have hr := h.2
  obtain ⟨-, -, hg, -, -, ⟨n, hn⟩, ⟨i, hi⟩⟩ := hw
  rw [State.Calm.endWindDown_eq h.calm hn hi hc]
  have hpass := releaseLink_passed s
  have hphases := releaseLink_phasesOnly s
  have hcalm := (hphases.cutOff k).calm h.calm
  have hrun := (hphases.running k).1.trans hn
  have hempty : s.queueFor .link = [] := hr.linkQueue
  generalize releaseLink s = t at hpass hphases hcalm hrun
  have hlane : ∀ j, t.lane j = s.lane j := fun j => hpass.lane_of_ne (by rw [hempty]; nofun)
  have hcut := stepEndedIn_cutOff hrun i (s.resultBy k cause) cause.slotEnding.1 cause.slotEnding.2
  have haside := stepEndedIn_aside t k n i (s.resultBy k cause) cause.slotEnding.1 cause.slotEnding.2
  have hidle := stepEndedIn_lane t k n i (s.resultBy k cause) cause.slotEnding.1 cause.slotEnding.2
  generalize stepEndedIn t k n i (s.resultBy k cause) cause.slotEnding.1 cause.slotEnding.2 = u at hcut haside hidle
  have hrest := hcut.rest
  have htq : t.queues = s.queues := by rw [hphases.1]
  have htp : t.parked = s.parked := by rw [hphases.1]
  have htg : ∀ v, v ≠ .link → u.grantee v = s.grantee v := fun v hv =>
    (haside.1.grantee v).trans (hpass.others v hv).1
  refine ⟨fun j => ?_, ?_, (hcut.calm hcalm).2, fun j => .inl ?_, ?_, ?_, ?_, fun j hj => ?_⟩
  · unfold State.queue
    rw [hrest]
    show t.queues[j] = []
    rw [htq]
    exact hr.queue j
  · rw [hrest]
    exact htp.trans hr.parked
  · by_cases hj : j = k
    · subst hj
      rw [hidle]
      exact ⟨rfl, rfl⟩
    · refine (haside.2 j hj).quiet ?_
      rw [hlane]
      exact (hr.lanes j).resolve_right fun hwj => hj (Option.some.inj (hwj.2.2.1.symm.trans hg))
  · exact (htg .converter nofun).trans hr.converter
  · exact (htg .monitor nofun).trans hr.monitor
  · have hq : u.queueFor .link = [] := by rw [haside.1.queueFor, hpass.queueFor, hempty]; rfl
    exact hq
  · have hnone : u.grantee .link = none := by rw [haside.1.grantee, hpass.grantee, hempty]; rfl
    cases hnone.symm.trans hj

theorem State.SafeRest.reportWindDown {s : State} (h : s.SafeRest) {k : LaneId} (hg : s.link.grantee = some k) :
    (finishAct (reportWindDown s k)).AtRest := by
  obtain ⟨-, -, -, -, ⟨c, hc, hne⟩, -⟩ := h.2.link k hg
  unfold Machine.reportWindDown
  rw [hc]
  exact h.endWindDown (h.2.link k hg) hne

/-! ### The acts -/

theorem State.SafeRest.post {s : State} (h : s.SafeRest) (b : Byte) : (post b s).AtRest := by
  unfold Machine.post
  rw [takeable_safe b h.1]
  exact (answer_steady s _ _ _).atRest h.2

theorem State.SafeRest.abort {s : State} (h : s.SafeRest) (b : Byte) : (abort b s).AtRest := by
  have hanswer (e : Byte) (code : ResultCode) (d : Byte) : (s.answer e code d).AtRest :=
    (answer_steady s e code d).atRest h.2
  unfold Machine.abort
  split
  · exact hanswer _ _ _
  · rename_i n _
    split
    · exact hanswer _ _ _
    · rename_i p hp
      cases p with
      | queued k => exact absurd (queued_of_place hp) (by rw [h.2.queue]; exact List.not_mem_nil)
      | parked => exact absurd (parked_of_place hp) (by rw [h.2.parked]; exact List.not_mem_nil)
      | running k =>
        unfold abortAt
        dsimp only
        rw [(hanswer _ _ _).cutLane, finishAct_nil]
        exact hanswer _ _ _

theorem State.SafeRest.go {s : State} (h : s.SafeRest) (lanes : BitVec 4) (apply : Bool) : (go lanes apply s).AtRest := by
  have hreleased : s.released lanes = [] := by
    unfold State.released
    exact List.filter_eq_nil_iff.mpr fun k _ => by rw [h.2.awaitsGo]; nofun
  have hreports := reported_unclaimed applyOn_chansOnly (s.appliedChans lanes) h.2.unclaimed.1
  unfold Machine.go
  dsimp only
  rw [hreleased]
  cases apply with
  | false =>
    show (finishAct (s.answer _ _ _, [])).AtRest
    rw [finishAct_nil]
    exact (answer_steady s _ _ _).atRest h.2
  | true =>
    show (finishAct ((reported applyOn (s.appliedChans lanes) s).1.answer _ _ _,
      (reported applyOn (s.appliedChans lanes) s).2 ++ [])).AtRest
    rw [hreports.2]
    show (finishAct (_, [])).AtRest
    rw [finishAct_nil]
    exact (hreports.1.steady.trans (answer_steady _ _ _ _)).atRest h.2

theorem State.SafeRest.monitorExpiry {s : State} (h : s.SafeRest) : monitorExpiry s = s := by
  refine monitorExpiry_not_due s fun hc => ?_
  have hs := h.1
  unfold State.safe at hs
  rw [hc.1] at hs
  cases hs

theorem State.SafeRest.rampMove {s : State} (h : s.SafeRest) : (rampMove s).AtRest := by
  unfold Machine.rampMove
  split
  · exact h.2
  · have hd : Steady s { s with rampMovesDue := s.rampMovesDue - 1 } := .of_eq rfl rfl rfl rfl rfl rfl rfl rfl rfl
    refine (hd.trans (reported_finishes (fun s c => changeChan_chansOnly s c _) allChans ?_)).atRest h.2
    exact h.2.unclaimed.1

theorem State.SafeRest.planTimeout {s : State} (h : s.SafeRest) (k : LaneId) : (planTimeout k s).AtRest := by
  unfold Machine.planTimeout
  split
  · have hd : Steady s (s.setLane k { s.lane k with planTimer := none }) := by
      refine ⟨(setLane_aside s k _).1, fun j => ?_, rfl, rfl⟩
      rw [State.setLane_at]
      split
      · rename_i hj
        subst hj
        exact ⟨rfl, rfl, rfl, rfl, rfl⟩
      · exact .refl _
    have ht := hd.atRest h.2
    rw [ht.cutLane, finishAct_nil]
    exact ht
  · exact h.2

theorem State.SafeRest.levelChange {s : State} (h : s.SafeRest) (l : LineId) : (levelChange l s).AtRest := by
  have hline : Steady s (s.putLine l (s.line l).levelChanged) := .of_eq rfl rfl rfl rfl rfl rfl rfl rfl rfl
  unfold Machine.levelChange
  dsimp only
  split
  · rename_i hl
    cases (h.2.unclaimed.2.1 l).symm.trans hl
  · exact hline.atRest h.2

theorem State.SafeRest.conversionEnd {s : State} (h : s.SafeRest) (code : Duty) : (conversionEnd code s).AtRest := by
  unfold Machine.conversionEnd
  split
  · rename_i hc
    cases h.2.converter.symm.trans (cycleHolder_grantee hc)
  · exact h.2

theorem State.SafeRest.measurementEnd {s : State} (h : s.SafeRest) : (measurementEnd s).AtRest := by
  unfold Machine.measurementEnd
  split
  · rename_i hg _
    cases h.2.monitor.symm.trans hg
  · exact h.2

/-- The uncertain-bus flag leaves the part at rest. -/
theorem State.SafeRest.setUncertain {s : State} (h : s.SafeRest) (b : Bool) :
    State.SafeRest (s.setLink { s.link with busUncertain := b }) :=
  (setLink_elementOnly s (x := { s.link with busUncertain := b }) rfl rfl rfl).steady.safeRest rfl h

theorem State.SafeRest.recoveryComplete {s : State} (h : s.SafeRest) : (recoveryComplete s).AtRest := by
  unfold Machine.recoveryComplete
  split
  · exact h.2
  · rename_i k _ hserved
    have hg := linkServed_grantee hserved
    split
    · obtain ⟨-, -, -, hwind, -⟩ := h.2.link k hg
      dsimp only
      rw [if_pos (show (s.setLink { s.link with busUncertain := false }).link.windDown = true from hwind)]
      exact (h.setUncertain false).reportWindDown hg
    · exact h.2

theorem State.SafeRest.linkStopComplete {s : State} (h : s.SafeRest) : (linkStopComplete s).AtRest := by
  unfold Machine.linkStopComplete
  split
  · exact h.2
  · rename_i k _ hserved
    have hg := linkServed_grantee hserved
    split
    · obtain ⟨-, -, -, hwind, -⟩ := h.2.link k hg
      rw [if_pos hwind]
      exact h.reportWindDown hg
    · exact h.2

theorem State.SafeRest.busStuck {s : State} (h : s.SafeRest) : (busStuck s).AtRest := by
  unfold Machine.busStuck
  split
  · exact h.2
  · rename_i k _ hholder
    have hg := linkHolder_grantee hholder
    split
    · obtain ⟨-, -, -, hwind, -⟩ := h.2.link k hg
      dsimp only
      rw [if_pos (show (s.setLink { s.link with busUncertain := true }).link.windDown = true from hwind)]
      exact (h.setUncertain true).reportWindDown hg
    · exact h.2

end Sys2Proof.Machine

open Sys2Proof Sys2Proof.Machine

/-- Settles O13: every act of a part at rest in SAFE finds nothing to do, or ends the wind-down in progress. -/
theorem everyStepInSafeKeepsTheTenthLaw : Obligations.EveryStepInSafeKeepsTheTenthLaw := by
  unfold Obligations.EveryStepInSafeKeepsTheTenthLaw
  intro s t hsafe h hstep
  have hidle {p : Prop} [Decidable p] {a b : State} (hp : ¬p) (hb : b.AtRest) : (if p then a else b).AtRest := by
    rw [if_neg hp]
    exact hb
  have hkeeps : Keeps State.SafeRest State.AtRest :=
    { same := fun hs hh h => hs.safeRest hh h
      still := fun hs h => hs.atRest h.2
      post := fun b _ h => h.post b
      abort := fun b _ h => h.abort b
      go := fun lanes apply _ h => h.go lanes apply
      engineReset := fun s _ => (engineReset_cleared s).atRest
      deviceReset := fun s _ => (beginReset_cleared s).atRest
      deviceResetEnd := fun strap levels s _ => (endReset_cleared strap levels s).atRest
      tick := fun s h => by
        unfold tick
        rw [h.monitorExpiry]
        exact (tickBoundary_steady s).atRest h.2
      monitorExpiry := fun s h => h.monitorExpiry.symm ▸ h.2
      rampMove := fun _ h => h.rampMove
      stepTimeout := fun k _ h => hidle (fun hc => h.2.not_stepping k hc.1) h.2
      planTimeout := fun k _ h => h.planTimeout k
      delayExpiry := fun _ _ h => hidle (h.2.not_due nofun nofun) h.2
      triggerDelayExpiry := fun _ _ h => hidle (h.2.not_due nofun nofun) h.2
      confirmationExpiry := fun _ _ h => hidle (h.2.not_due nofun nofun) h.2
      pollIntervalExpiry := fun _ _ h => hidle (h.2.not_due nofun nofun) h.2
      conversionEnd := fun code _ h => h.conversionEnd code
      levelChange := fun l _ h => h.levelChange l
      measurementEnd := fun _ h => h.measurementEnd
      recoveryComplete := fun _ h => h.recoveryComplete
      linkStopComplete := fun _ h => h.linkStopComplete
      busStuck := fun _ h => h.busStuck }
  exact (tenthLaw_iff t).mpr fun _ => hkeeps.step ⟨hsafe, (tenthLaw_iff s).mp h hsafe⟩ hstep

end

