-- ==== Sys2Proof/Proofs/ClaimTable.lean ====
section
/-! The claim table's acts (O22, O23, O24), and the acts of the lanes carried out to their end (O2). -/

namespace Sys2Proof.Machine

/-! ### Acts carried out -/

/-- The first task of an act is run, and what it leads to comes before the tasks after it (log 4). -/
theorem finishAct_cons (t : Task) (ts : List Task) (s : State) :
    finishAct (s, t :: ts) = finishAct ((runTask t s).1, (runTask t s).2 ++ ts) := by
  have hlt := workBound_cons t ts s
  obtain ⟨fuel, hfuel⟩ : ∃ fuel, workBound s (t :: ts) = fuel + 1 := Nat.exists_eq_add_one.mpr (Nat.zero_lt_of_lt hlt)
  have hrest : workBound (runTask t s).1 ((runTask t s).2 ++ ts) ≤ fuel := by omega
  calc finishAct (s, t :: ts) = (drain (fuel + 1) (t :: ts) s).1 := by rw [← hfuel]; rfl
    _ = (drain fuel ((runTask t s).2 ++ ts) (runTask t s).1).1 := rfl
    _ = finishAct ((runTask t s).1, (runTask t s).2 ++ ts) :=
      congrArg Prod.fst (drain_unique _ _ _ _ (drain_done _ _ _ hrest) (drain_done _ _ _ (Nat.le_refl _)))

/-- Every command answers a next state. -/
theorem exec_next (c : Instr) (s : State) : ∃ t : State, exec c s = .next t := by
  cases c <;> exact ⟨_, rfl⟩

/-! ### Claim requests -/

/-- A set that may be granted is given to the lane at once (R56). -/
theorem requestClaims_granted {s : State} {n : SlotId} (k : LaneId)
    (h : s.grantable (s.chanClaim n) (s.lineClaim n) s.waitList = true) :
    requestClaims s k n = (s.giveClaims k (s.chanClaim n) (s.lineClaim n), [Task.enter k]) := if_pos h

/-- Any other set makes its lane the tail of the wait list (R56). -/
theorem requestClaims_waits {s : State} {n : SlotId} (k : LaneId)
    (h : ¬s.grantable (s.chanClaim n) (s.lineClaim n) s.waitList = true) :
    requestClaims s k n =
      ({ s with waitList := s.waitList ++ [{ lane := k, chans := s.chanClaim n, lines := s.lineClaim n }] }, []) :=
  if_neg h

/-- A lane with its claims goes on with its slot: GATED under AWAIT_GO_START, else at step 0 (R33). -/
theorem enterSlot_running {s : State} {k : LaneId} {n : SlotId} (h : (s.lane k).running = some n) :
    enterSlot s k =
      if s.awaitGoStart n then (s.setLane k { s.lane k with state := .gated, entered := true }, [])
      else (s.setLane k { s.lane k with entered := true }, [Task.startStep k 0]) := by
  unfold enterSlot
  rw [h]
  dsimp only
  rw [State.setLane_get_self, State.setLane_setLane]

/-! ### The walk -/

/-- The walk grants a lane that may be granted ahead of the older lanes still waiting (R58). -/
theorem walkList_granted {w : Waiting} {kept : List Waiting} {s : State} (ws : List Waiting)
    (h : s.grantable w.chans w.lines kept = true) :
    walkList (w :: ws) kept s =
      let r := walkList ws kept (s.giveClaims w.lane w.chans w.lines)
      (r.1, r.2.1, w.lane :: r.2.2) := if_pos h

/-- A lane that the walk does not grant keeps its place (R58). -/
theorem walkList_kept {w : Waiting} {kept : List Waiting} {s : State} (ws : List Waiting)
    (h : ¬s.grantable w.chans w.lines kept = true) :
    walkList (w :: ws) kept s = walkList ws (kept ++ [w]) s := if_neg h

end Sys2Proof.Machine

open Sys2Proof Sys2Proof.Machine

/-- Settles O2: every task lowers the bound on the work left, so the fuel never ends before the tasks. -/
theorem everyActRunsToItsEnd : Obligations.EveryActRunsToItsEnd := by
  unfold Obligations.EveryActRunsToItsEnd
  exact ⟨fun ts s => drain_done _ ts s (Nat.le_refl _), finishAct_nil, finishAct_cons, exec_next⟩

/-- Settles O22: the judgement is that of `grantable`, and the lane then goes on. -/
theorem claimRequestIsJudgedAtOnce : Obligations.ClaimRequestIsJudgedAtOnce := by
  unfold Obligations.ClaimRequestIsJudgedAtOnce
  intro s k n
  dsimp only
  rw [← grantable_iff]
  refine ⟨fun hfree => ?_, requestClaims_waits k, fun hrun => ⟨fun hgo => ?_, fun hgo => ?_⟩⟩
  · exact ⟨_, requestClaims_granted k hfree, giveClaims_spec s k (s.chanClaim n) (s.lineClaim n)⟩
  · exact (enterSlot_running hrun).trans (if_pos hgo)
  · exact (enterSlot_running hrun).trans (if_neg (Bool.eq_false_iff.mp hgo))

/-- Settles O23: the walk's recursion, case by case of `grantable`. -/
theorem walkJudgesOldestFirst : Obligations.WalkJudgesOldestFirst := by
  unfold Obligations.WalkJudgesOldestFirst
  refine ⟨fun _ => rfl, fun _ _ => rfl, fun w ws kept s => ?_⟩
  dsimp only
  rw [← grantable_iff]
  refine ⟨fun hfree => ?_, walkList_kept ws⟩
  obtain ⟨hrest, hchans, hlines⟩ := giveClaims_spec s w.lane w.chans w.lines
  exact ⟨_, hrest, hchans, hlines, walkList_granted ws hfree⟩

/-- Settles O24, from what a release leaves of each entry. -/
theorem releaseEmptiesTheLanesEntries : Obligations.ReleaseEmptiesTheLanesEntries := by
  unfold Obligations.ReleaseEmptiesTheLanesEntries
  intro s k chans lines
  obtain ⟨hrest, howner, hchan, hline⟩ := releaseClaims_spec s k chans lines
  refine ⟨hrest, fun c ho hin => ?_, fun c hkept => ?_, hline⟩
  · rw [howner, hchan, if_pos ⟨ho, hin⟩, if_pos ⟨ho, hin⟩]
    exact ⟨rfl, rfl⟩
  · have hn : ¬(s.ownerOf c = some k ∧ inChans chans c = false) := fun ⟨ho, hin⟩ =>
      hkept.elim (fun h => h ho) fun h => Bool.noConfusion (h.symm.trans hin)
    rw [howner, hchan, if_neg hn, if_neg hn]
    exact ⟨rfl, rfl⟩

end

