-- ==== Sys2Proof/Proofs/UnitsPassOn.lean ====
section
/-! The shared units pass from lane to lane in the order of the requests, and what a grant starts (O33). -/

namespace Sys2Proof.Machine

/-! ### Requests and releases, by whether a lane holds the unit or is queued -/

section
variable {s : State} {k : LaneId} {q : List LaneId}

theorem requestConverter_free (h : s.converter.grantee = none) : requestConverter s k = grantConverter s k := by
  unfold requestConverter
  rw [h]

theorem requestConverter_busy (h : s.converter.grantee ≠ none) :
    requestConverter s k =
      State.setPhase { s with converter := { s.converter with queue := s.converter.queue ++ [k] } } k .converterQueue := by
  unfold requestConverter
  split
  · exact absurd ‹_› h
  · rfl

theorem releaseConverter_next (h : s.converter.queue = k :: q) :
    releaseConverter s = grantConverter { s with converter := { s.converter with queue := q } } k := by
  unfold releaseConverter
  rw [h]

theorem releaseConverter_last (h : s.converter.queue = []) :
    releaseConverter s =
      { s with converter := { s.converter with grantee := none, phase := .none, waitLeft := none } } := by
  unfold releaseConverter
  split
  · rfl
  · rename_i hq
    cases h.symm.trans hq

theorem requestMonitor_free (h : s.monitor.grantee = none) : requestMonitor s k = grantMonitor s k := by
  unfold requestMonitor
  rw [h]

theorem requestMonitor_busy (h : s.monitor.grantee ≠ none) :
    requestMonitor s k =
      State.setPhase { s with monitor := { s.monitor with queue := s.monitor.queue ++ [k] } } k .monitorQueue := by
  unfold requestMonitor
  split
  · exact absurd ‹_› h
  · rfl

theorem releaseMonitor_next (h : s.monitor.queue = k :: q) :
    releaseMonitor s = grantMonitor { s with monitor := { s.monitor with queue := q } } k := by
  unfold releaseMonitor
  rw [h]

theorem releaseMonitor_last (h : s.monitor.queue = []) :
    releaseMonitor s = { s with monitor := ⟨none, [], none, .none, 0, 0, 0, s.monitor.instant⟩ } := by
  unfold releaseMonitor selectNone
  split
  · rw [← h]
  · rename_i hq
    cases h.symm.trans hq

theorem requestLink_free (h : s.link.grantee = none) : requestLink s k = grantLink s k := by
  unfold requestLink
  rw [h]

theorem requestLink_busy (h : s.link.grantee ≠ none) :
    requestLink s k = State.setPhase { s with link := { s.link with queue := s.link.queue ++ [k] } } k .linkQueue := by
  unfold requestLink
  split
  · exact absurd ‹_› h
  · rfl

theorem releaseLink_next (h : s.link.queue = k :: q) :
    releaseLink s = grantLink { s with link := { s.link with queue := q } } k := by
  unfold releaseLink
  rw [h]

theorem releaseLink_last (h : s.link.queue = []) : releaseLink s = { s with link := s.link.idle } := by
  unfold releaseLink
  rw [h]

end

/-! ### The duty monitor's grant -/

/-- When a selection falls at a period start of the channel it selects (R122; log 20). -/
theorem atPeriodStartOf_iff (s : State) (c : ChanId) :
    s.atPeriodStartOf c = true ↔
      ∃ d : ChanId, s.monitor.instant = some d ∧ d.val / 4 = c.val / 4 ∧ s.quarterOf d = s.quarterOf c ∧
        (s.chan c).started = true := by
  have hgroup (d : ChanId) : groupOf d = groupOf c ↔ d.val / 4 = c.val / 4 := Fin.ext_iff
  unfold State.atPeriodStartOf
  cases s.monitor.instant with
  | none => simp
  | some d => simp [hgroup, and_assoc]

/-- The duty monitor's state when it begins on channel c for lane k, q being queued. -/
def DutyMonitor.begun (m : DutyMonitor) (k : LaneId) (q : List LaneId) (c : ChanId) (ph : MeasurePhase) : DutyMonitor :=
  ⟨some k, q, some c, ph, 0, 0, 0, m.instant⟩

/-- A grant selects the lowest masked channel: COUNTING at a period start of the channel, else ALIGN (R121, R122). -/
theorem grantMonitor_selects {s : State} {k : LaneId} {mask : BitVec 16} {P : Nat} {c : ChanId} {q : List LaneId}
    (hv : (s.lane k).verifyParams = some (mask, P)) (hc : inChans mask c = true)
    (hlow : ∀ d : ChanId, d < c → inChans mask d = false) :
    grantMonitor { s with monitor := { s.monitor with queue := q } } k =
      State.setPhase { s with monitor := s.monitor.begun k q c (if s.atPeriodStartOf c then .counting else .align) }
        k .measuring := by
  have hl : State.lane { s with monitor := { s.monitor with queue := q } } k = s.lane k := rfl
  have hlowest : (s.lane k).lowestMasked = some c := by
    unfold Lane.lowestMasked
    rw [hv]
    exact lowestChan_eq_some hc hlow
  unfold grantMonitor
  dsimp only
  rw [hl, hlowest]
  rfl

end Sys2Proof.Machine

open Sys2Proof Sys2Proof.Machine

/-- Settles O33, unit by unit: the request, the release and the withdrawal by whether a lane holds it or is queued. -/
theorem unitsPassOnInOrderOfRequest : Obligations.UnitsPassOnInOrderOfRequest := by
  unfold Obligations.UnitsPassOnInOrderOfRequest
  intro s k
  dsimp only
  refine ⟨requestConverter_free, requestConverter_busy, fun q => releaseConverter_next, releaseConverter_last,
    fun mask P c hv hc hlow => ?_, requestMonitor_busy, releaseMonitor_last, requestLink_free, requestLink_busy,
    fun q => releaseLink_next, fun h => ?_, rfl, rfl, rfl⟩
  · rw [← atPeriodStartOf_iff]
    have hgrant (q : List LaneId) := grantMonitor_selects (q := q) hv hc hlow
    refine ⟨fun hfree => ?_, fun q hq => ?_⟩
    · rw [requestMonitor_free hfree, show grantMonitor s k = _ from hgrant s.monitor.queue]
      exact ⟨fun hs => by rw [if_pos hs]; rfl, fun hs => by rw [if_neg hs]; rfl⟩
    · rw [releaseMonitor_next hq, hgrant q]
      exact ⟨fun hs => by rw [if_pos hs]; rfl, fun hs => by rw [if_neg hs]; rfl⟩
  · rw [releaseLink_last h]
    unfold Link.idle
    rw [h]

end

