-- ==== Sys2Proof/Proofs/IdleUnits.lean ====
section
/-! SUPPORT. A shared unit that serves no lane is idle (R63, R64, R90, R140): the law unit by unit, the acts that leave the
units as they were, and what a request, a release, a withdrawal, a task and an ending from outside make of them. -/

namespace Sys2Proof.Machine

/-! ### The law, unit by unit -/

/-- Without a grantee the unit has an empty queue and does nothing. -/
def Converter.quiet (x : Converter) : Prop := x.grantee = none → x.queue = [] ∧ x.phase = .none ∧ x.waitLeft = none
def DutyMonitor.quiet (m : DutyMonitor) : Prop := m.grantee = none → m.queue = [] ∧ m.phase = .none ∧ m.selected = none
def Link.quiet (y : Link) : Prop := (y.grantee = none → y.queue = []) ∧ (y.grantee = none ↔ y.phase = .idle)

theorem unitsQuiet_iff (s : State) : s.unitsQuiet ↔ s.converter.quiet ∧ s.monitor.quiet ∧ s.link.quiet := Iff.rfl

/-- A unit with a grantee is bound by nothing, but that the link then is in a phase of its transfer. -/
theorem Converter.quiet.of_grantee {x : Converter} {k : LaneId} (hg : x.grantee = some k) : x.quiet := fun h => by
  cases hg.symm.trans h

theorem DutyMonitor.quiet.of_grantee {m : DutyMonitor} {k : LaneId} (hg : m.grantee = some k) : m.quiet := fun h => by
  cases hg.symm.trans h

theorem Link.quiet.of_grantee {y : Link} {k : LaneId} (hg : y.grantee = some k) (hp : y.phase ≠ .idle) : y.quiet := by
  refine ⟨fun h => ?_, fun h => ?_, fun h => absurd h hp⟩
  · cases hg.symm.trans h
  · cases hg.symm.trans h

section
variable {s t : State}

/-- An act of one unit leaves the law to that unit. -/
theorem State.unitsQuiet.of_converter (h : s.unitsQuiet) (hx : t.converter.quiet) (hm : t.monitor = s.monitor)
    (hy : t.link = s.link) : t.unitsQuiet := by
  rw [unitsQuiet_iff, hm, hy]
  exact ⟨hx, h.2⟩

theorem State.unitsQuiet.of_monitor (h : s.unitsQuiet) (hm : t.monitor.quiet) (hx : t.converter = s.converter)
    (hy : t.link = s.link) : t.unitsQuiet := by
  obtain ⟨hsx, -, hsy⟩ := (unitsQuiet_iff s).mp h
  rw [unitsQuiet_iff, hx, hy]
  exact ⟨hsx, hm, hsy⟩

theorem State.unitsQuiet.of_link (h : s.unitsQuiet) (hy : t.link.quiet) (hx : t.converter = s.converter)
    (hm : t.monitor = s.monitor) : t.unitsQuiet := by
  obtain ⟨hsx, hsm, -⟩ := (unitsQuiet_iff s).mp h
  rw [unitsQuiet_iff, hx, hm]
  exact ⟨hsx, hsm, hy⟩

end

/-! ### Acts that leave the units as they were -/

/-- The shared units are as they were. -/
structure UnitsSame (s t : State) : Prop where
  converter : t.converter = s.converter
  monitor : t.monitor = s.monitor
  link : t.link = s.link

theorem UnitsSame.refl (s : State) : UnitsSame s s := ⟨rfl, rfl, rfl⟩

theorem UnitsSame.trans {s t u : State} (h : UnitsSame s t) (g : UnitsSame t u) : UnitsSame s u :=
  ⟨g.converter.trans h.converter, g.monitor.trans h.monitor, g.link.trans h.link⟩

theorem UnitsSame.quiet {s t : State} (h : UnitsSame s t) (hs : s.unitsQuiet) : t.unitsQuiet := by
  rw [unitsQuiet_iff, h.converter, h.monitor, h.link]
  exact hs

theorem ChansOnly.unitsSame {s t : State} (h : ChansOnly s t) : UnitsSame s t := by
  unfold ChansOnly at h
  exact ⟨by rw [h], by rw [h], by rw [h]⟩

theorem LinesOnly.unitsSame {s t : State} (h : LinesOnly s t) : UnitsSame s t := by
  unfold LinesOnly at h
  exact ⟨by rw [h], by rw [h], by rw [h]⟩

theorem ClaimsOnly.unitsSame {s t : State} (h : ClaimsOnly s t) : UnitsSame s t := by
  unfold ClaimsOnly at h
  exact ⟨by rw [h], by rw [h], by rw [h]⟩

theorem MemOutside.unitsSame {P : Nat → Prop} {s t : State} (h : MemOutside P s t) : UnitsSame s t := by
  obtain ⟨h, -⟩ := h
  exact ⟨by rw [h], by rw [h], by rw [h]⟩

theorem HalfPairOnly.unitsSame {k : LaneId} {s t : State} (h : HalfPairOnly k s t) : UnitsSame s t := by
  obtain ⟨h, -⟩ := h
  exact ⟨by rw [h], by rw [h], by rw [h]⟩

theorem setLane_unitsSame (s : State) (k : LaneId) (l : Lane) : UnitsSame s (s.setLane k l) := ⟨rfl, rfl, rfl⟩

theorem skipFrom_unitsSame (s : State) (n : SlotId) (first : Nat) : UnitsSame s (skipFrom s n first) :=
  (skipFrom_spec s n first).1.unitsSame

theorem recordResult_unitsSame (s : State) (k : LaneId) (n : SlotId) (i : StepId) (r : StepResult) :
    UnitsSame s (recordResult s k n i r) := by
  have h := (recordResult_spec s k n i r).1
  exact ⟨by rw [h], by rw [h], by rw [h]⟩

/-! ### Ends of slots and steps -/

theorem endSlot_unitsSame (s : State) (k : LaneId) (n : SlotId) (st : SlotState) (reason : EndReason) (detail : Byte) :
    UnitsSame s (endSlot s k n st reason detail).1 := by
  have hfinish : UnitsSame s (finishSlot s n st reason detail) := ⟨rfl, rfl, rfl⟩
  unfold endSlot
  generalize finishSlot s n st reason detail = u at hfinish
  rw [chainEnd_eq]
  have hoff := hfinish.trans (offAtChainEnd_chansOnly u k n).unitsSame
  have hrelease := hoff.trans (releaseClaims_claimsOnly _ k 0 0).unitsSame
  exact (hrelease.trans (walk_claimsOnly _).unitsSame).trans (setLane_unitsSame _ k _)

theorem switchTo_unitsSame (s : State) (k : LaneId) (n c : SlotId) : UnitsSame s (switchTo s k n c).1 := by
  have hcont : UnitsSame s (continued s k n c) := by
    have h := continued_eq s k n c
    exact ⟨by rw [h], by rw [h], by rw [h]⟩
  unfold switchTo
  generalize continued s k n c = u at hcont
  have htrim := hcont.trans (releaseClaims_claimsOnly u k (u.chanClaim c) (u.lineClaim c)).unitsSame
  unfold trimThenEnter
  generalize u.releaseClaims k (u.chanClaim c) (u.lineClaim c) = v at htrim
  dsimp only
  split
  · exact htrim.trans (walk_claimsOnly _).unitsSame
  · exact htrim

theorem judgeSlot_unitsSame (s : State) (k : LaneId) (n : SlotId) : UnitsSame s (judgeSlot s k n).1 := by
  unfold judgeSlot continueWith
  split
  · exact endSlot_unitsSame s k n _ _ _
  · split
    · split_ifs
      · exact switchTo_unitsSame s k n _
      · exact endSlot_unitsSame s k n _ _ _
      · exact endSlot_unitsSame s k n _ _ _
    · exact endSlot_unitsSame s k n _ _ _

theorem afterStep_unitsSame (s : State) (k : LaneId) (n : SlotId) (i : StepId) (cont : Bool) (o : StepOutcome) :
    UnitsSame s (afterStep s k n i cont o).1 := by
  unfold afterStep
  split
  · split
    · exact .refl s
    · exact judgeSlot_unitsSame s k n
  · exact (skipFrom_unitsSame s n _).trans (endSlot_unitsSame _ k n _ _ _)

/-- The end of a step leaves the units to what served it. -/
theorem stepEnd_unitsSame (s : State) (k : LaneId) (r : StepResult) : UnitsSame s (stepEnd s k r).1 := by
  unfold stepEnd
  split
  · exact (recordResult_unitsSame s k _ _ r).trans (afterStep_unitsSame _ k _ _ _ _)
  · exact .refl s

theorem stepEndsSlot_unitsSame (s : State) (k : LaneId) (r : StepResult) (st : SlotState) (reason : EndReason) :
    UnitsSame s (stepEndsSlot s k r st reason).1 := by
  unfold stepEndsSlot
  split
  · exact ((recordResult_unitsSame s k _ _ r).trans (skipFrom_unitsSame _ _ _)).trans (endSlot_unitsSame _ k _ _ _ _)
  · exact .refl s

theorem endByCause_unitsSame (s : State) (k : LaneId) (cause : EndCause) (r : StepResult) :
    UnitsSame s (endByCause s k cause r).1 := by
  cases cause with
  | stepTimeout => exact stepEnd_unitsSame s k r
  | planTimeout => exact stepEndsSlot_unitsSame s k r _ _
  | hostAbort => exact stepEndsSlot_unitsSame s k r _ _
  | safeOrder => exact stepEndsSlot_unitsSame s k r _ _
  | safeRace => exact stepEndsSlot_unitsSame s k r _ _

/-! ### Requests, releases, withdrawals -/

section
variable {s : State} (h : s.unitsQuiet)
include h

theorem grantConverter_unitsQuiet (k : LaneId) : (grantConverter s k).unitsQuiet :=
  h.of_converter (.of_grantee (k := k) rfl) rfl rfl

theorem requestConverter_unitsQuiet (k : LaneId) : (requestConverter s k).unitsQuiet := by
  cases hg : s.converter.grantee with
  | none =>
    rw [requestConverter_free hg]
    exact grantConverter_unitsQuiet h k
  | some j =>
    rw [requestConverter_busy (hg ▸ nofun)]
    exact h.of_converter (.of_grantee (k := j) hg) rfl rfl

/-- A release passes the unit on, or leaves it idle. -/
theorem releaseConverter_unitsQuiet : (releaseConverter s).unitsQuiet := by
  cases hq : s.converter.queue with
  | nil =>
    rw [releaseConverter_last hq]
    exact h.of_converter (fun _ => ⟨hq, rfl, rfl⟩) rfl rfl
  | cons k q =>
    rw [releaseConverter_next hq]
    exact h.of_converter (.of_grantee (k := k) rfl) rfl rfl

theorem withdrawConverter_unitsQuiet (k : LaneId) : (withdrawConverter s k).unitsQuiet := by
  refine h.of_converter (fun hg => ?_) rfl rfl
  obtain ⟨hq, hrest⟩ := h.1 hg
  exact ⟨by show s.converter.queue.erase k = []; rw [hq]; rfl, hrest⟩

theorem grantMonitor_unitsQuiet (k : LaneId) : (grantMonitor s k).unitsQuiet := by
  obtain ⟨hrest, hg, -⟩ := grantMonitor_eq s k
  exact h.of_monitor (.of_grantee hg) (by rw [hrest]; rfl) (by rw [hrest]; rfl)

theorem requestMonitor_unitsQuiet (k : LaneId) : (requestMonitor s k).unitsQuiet := by
  cases hg : s.monitor.grantee with
  | none =>
    rw [requestMonitor_free hg]
    exact grantMonitor_unitsQuiet h k
  | some j =>
    rw [requestMonitor_busy (hg ▸ nofun)]
    exact h.of_monitor (.of_grantee (k := j) hg) rfl rfl

theorem releaseMonitor_unitsQuiet : (releaseMonitor s).unitsQuiet := by
  cases hq : s.monitor.queue with
  | nil =>
    rw [releaseMonitor_last hq]
    exact h.of_monitor (fun _ => ⟨rfl, rfl, rfl⟩) rfl rfl
  | cons k q =>
    obtain ⟨hrest, hg, -⟩ := grantMonitor_eq { s with monitor := { s.monitor with queue := q } } k
    rw [releaseMonitor_next hq]
    exact h.of_monitor (.of_grantee hg) (by rw [hrest]; rfl) (by rw [hrest]; rfl)

theorem withdrawMonitor_unitsQuiet (k : LaneId) : (withdrawMonitor s k).unitsQuiet := by
  refine h.of_monitor (fun hg => ?_) rfl rfl
  obtain ⟨hq, hrest⟩ := h.2.1 hg
  exact ⟨by show s.monitor.queue.erase k = []; rw [hq]; rfl, hrest⟩

omit h in
/-- A transfer begins in RECOVERY or START (R144). -/
theorem grantLink_quiet (s : State) (k : LaneId) : (grantLink s k).link.quiet := by
  refine .of_grantee (k := k) rfl ?_
  show (if s.link.busUncertain then LinkPhase.recovery else .start) ≠ .idle
  split <;> nofun

theorem grantLink_unitsQuiet (k : LaneId) : (grantLink s k).unitsQuiet := h.of_link (grantLink_quiet s k) rfl rfl

theorem requestLink_unitsQuiet (k : LaneId) : (requestLink s k).unitsQuiet := by
  cases hg : s.link.grantee with
  | none =>
    rw [requestLink_free hg]
    exact grantLink_unitsQuiet h k
  | some j =>
    have hbusy : s.link.grantee ≠ none := hg ▸ nofun
    rw [requestLink_busy hbusy]
    exact h.of_link (.of_grantee (k := j) hg fun hp => hbusy (h.2.2.2.mpr hp)) rfl rfl

theorem releaseLink_unitsQuiet : (releaseLink s).unitsQuiet := by
  cases hq : s.link.queue with
  | nil =>
    rw [releaseLink_last hq]
    exact h.of_link ⟨fun _ => hq, fun _ => rfl, fun _ => rfl⟩ rfl rfl
  | cons k q =>
    rw [releaseLink_next hq]
    exact h.of_link (grantLink_quiet _ k) rfl rfl

theorem withdrawLink_unitsQuiet (k : LaneId) : (withdrawLink s k).unitsQuiet := by
  obtain ⟨hqueue, hphase⟩ := h.2.2
  refine h.of_link ⟨fun hg => ?_, hphase⟩ rfl rfl
  show s.link.queue.erase k = []
  rw [hqueue hg]
  rfl

/-! ### Tasks and acts -/

theorem stepEnd_unitsQuiet (k : LaneId) (r : StepResult) : (stepEnd s k r).1.unitsQuiet :=
  (stepEnd_unitsSame s k r).quiet h

theorem endSettle_unitsQuiet (k : LaneId) : (endSettle s k).unitsQuiet :=
  requestMonitor_unitsQuiet (s := s.putWatch k Watch.empty) h k

theorem beginTrigger_unitsQuiet (k : LaneId) (p : CycleParams) : (beginTrigger s k p).1.unitsQuiet := by
  unfold beginTrigger
  split
  · exact requestConverter_unitsQuiet h k
  · split
    · exact requestConverter_unitsQuiet h k
    · exact h
  · split
    · exact h
    · exact stepEnd_unitsQuiet h k _
  · split
    · exact h
    · exact stepEnd_unitsQuiet h k _

/-- A step asks for the unit that serves it, or leaves the units alone. -/
theorem serveStep_unitsQuiet (k : LaneId) (c : StepCmd) : (serveStep s k c).1.unitsQuiet := by
  have hpass {t : State} (ht : UnitsSame s t) : (stepPass t k).1.unitsQuiet := stepEnd_unitsQuiet (ht.quiet h) k _
  cases c with
  | set mask x r staged settle =>
    cases staged with
    | true => exact hpass (onChans_stageOn mask x r s).1.unitsSame
    | false =>
      have hset := (onChans_setOn mask x r s).1.unitsSame
      rw [serveStep_set]
      split
      · exact hset.quiet h
      · exact hpass hset
  | apply mask => exact hpass (onChans_applyOn _ s).1.unitsSame
  | off mask r => exact hpass (onChans_offOn mask r s).1.unitsSame
  | delay n =>
    unfold serveStep
    dsimp only
    split
    · exact hpass (.refl s)
    · exact h
  | cycle p => exact beginTrigger_unitsQuiet h k p
  | verify mask p =>
    rw [serveStep_verify]
    split
    · exact endSettle_unitsQuiet h k
    · exact h
  | link p => exact requestLink_unitsQuiet h k
  | lines mask mode levels => exact hpass (onLines_lineSetOn mask mode levels s).1.unitsSame
  | awaitGo => exact h

theorem startStep_unitsQuiet (k : LaneId) (i : StepId) : (startStep s k i).1.unitsQuiet := by
  unfold startStep
  split
  · exact h
  · dsimp only
    split
    · refine serveStep_unitsQuiet (s := State.setLane _ k _) ?_ k _
      exact h
    · exact h

theorem requestClaims_unitsQuiet (k : LaneId) (n : SlotId) : (requestClaims s k n).1.unitsQuiet := by
  by_cases hgrant : s.grantable (s.chanClaim n) (s.lineClaim n) s.waitList = true
  · rw [requestClaims_granted k hgrant]
    exact (giveClaims_claimsOnly s k _ _).unitsSame.quiet h
  · rw [requestClaims_waits k hgrant]
    exact h

theorem takeHead_unitsQuiet (k : LaneId) : (takeHead s k).1.unitsQuiet := by
  unfold takeHead
  split
  · split
    · exact h
    · rename_i n q _
      have htaken : UnitsSame s (takenHead s k n q) := ⟨rfl, rfl, rfl⟩
      exact requestClaims_unitsQuiet (htaken.quiet h) k n
  · exact h

theorem enterSlot_unitsQuiet (k : LaneId) : (enterSlot s k).1.unitsQuiet := by
  unfold enterSlot
  split
  · exact h
  · dsimp only
    split
    · exact h
    · exact h

theorem releaseGo_unitsQuiet (k : LaneId) : (releaseGo s k).1.unitsQuiet := by
  unfold releaseGo
  split_ifs
  · exact h
  · exact stepEnd_unitsQuiet h k _
  · exact h

theorem runTask_unitsQuiet (x : Task) : (runTask x s).1.unitsQuiet := by
  cases x with
  | startStep k i => exact startStep_unitsQuiet h k i
  | enter k => exact enterSlot_unitsQuiet h k
  | take k => exact takeHead_unitsQuiet h k
  | release k => exact releaseGo_unitsQuiet h k
  | settled k => exact stepEnd_unitsQuiet h k _

theorem judgeWait_unitsQuiet (k : LaneId) : (judgeWait s k).1.unitsQuiet := by
  unfold judgeWait
  split
  · split
    · exact h
    · exact h
  · split
    · exact endSettle_unitsQuiet h k
    · exact h
  · exact h

theorem reportChan_unitsQuiet (c : ChanId) : (reportChan s c).1.unitsQuiet := by
  unfold reportChan
  split
  · exact judgeWait_unitsQuiet h _
  · exact h

end

/-- An act is carried out by the law when it begins by it. -/
theorem finishAct_unitsQuiet {a : Act} (h : a.1.unitsQuiet) : (finishAct a).unitsQuiet :=
  finishAct_induct State.unitsQuiet (fun x _ hs => runTask_unitsQuiet hs x) a h

/-- Acts on channels reach the units through their reports alone. -/
theorem reported_unitsQuiet {f : State → ChanId → State} (hf : ∀ s c, ChansOnly s (f s c)) (cs : List ChanId)
    {s : State} (h : s.unitsQuiet) : (reported f cs s).1.unitsQuiet := by
  induction cs generalizing s with
  | nil => exact h
  | cons c cs ih => exact ih (reportChan_unitsQuiet ((hf s c).unitsSame.quiet h) c)

/-! ### Endings from outside -/

section
variable {s : State} (h : s.unitsQuiet)
include h

/-- A cause withdraws the lane's request, or releases its unit. -/
theorem stopServing_unitsQuiet (k : LaneId) : (stopServing s k).unitsQuiet := by
  unfold stopServing
  split
  case h_1 => exact withdrawConverter_unitsQuiet h k
  case h_2 => exact releaseConverter_unitsQuiet h
  case h_3 => exact withdrawMonitor_unitsQuiet h k
  case h_4 => exact releaseMonitor_unitsQuiet h
  case h_5 => exact withdrawLink_unitsQuiet h k
  all_goals exact h

theorem endStepNow_unitsQuiet (k : LaneId) (cause : EndCause) : (endStepNow s k cause).1.unitsQuiet := by
  have hhalf := (settleHalfPair_halfPairOnly s k cause).unitsSame.quiet h
  exact (endByCause_unitsSame _ k cause _).quiet (stopServing_unitsQuiet hhalf k)

theorem endWindDown_unitsQuiet (k : LaneId) (cause : EndCause) : (endWindDown s k cause).1.unitsQuiet :=
  (endByCause_unitsSame _ k cause _).quiet (releaseLink_unitsQuiet h)

theorem windDown_unitsQuiet (k : LaneId) (cause : EndCause) : (windDown s k cause).1.unitsQuiet := by
  have hwound : (wound s k cause).unitsQuiet := h
  by_cases hwait : s.link.phase = .start ∧ s.linkWaitOver = false
  · obtain ⟨hp, hw⟩ := hwait
    rw [windDown_start s k cause hp hw]
    dsimp only
    split
    · exact hwound
    · exact endWindDown_unitsQuiet (s := { wound s k cause with freeIndex := s.freeIndex + 1 }) hwound k cause
  · have hmarks : s.link.phase ≠ .start ∨ s.linkWaitOver = true := by
      rw [← Bool.not_eq_false]
      exact not_and_or.mp hwait
    rw [windDown_marks s k cause hmarks]
    exact hwound

theorem endWaiting_unitsQuiet (k : LaneId) (cause : EndCause) : (endWaiting s k cause).1.unitsQuiet := by
  unfold endWaiting
  split
  · exact h
  · have hleft : State.unitsQuiet { s with waitList := s.waitList.filter fun w => w.lane != k } := h
    exact ((skipFrom_unitsSame _ _ _).trans (endSlot_unitsSame _ k _ _ _ _)).quiet hleft

theorem timeOutStep_unitsQuiet (k : LaneId) : (timeOutStep s k).1.unitsQuiet := by
  unfold timeOutStep
  split
  · exact windDown_unitsQuiet h k _
  · exact endStepNow_unitsQuiet h k _

theorem cutLane_unitsQuiet (k : LaneId) (cause : EndCause) : (cutLane s k cause).1.unitsQuiet := by
  unfold cutLane
  split
  · exact h
  · exact endWaiting_unitsQuiet h k cause
  · exact endWaiting_unitsQuiet h k cause
  · split
    · exact windDown_unitsQuiet h k cause
    · exact endStepNow_unitsQuiet h k cause
  · unfold recause
    split
    · exact h
    · exact h

end

end Sys2Proof.Machine
end

