-- ==== Sys2Proof/Proofs/EventsKeepUnitsQuiet.lean ====
section
/-! SUPPORT. The events inside the part leave a shared unit that serves no lane idle (O11). -/

namespace Sys2Proof.Machine

section
variable {s : State} (h : s.unitsQuiet)
include h

/-! ### Expiries -/

theorem rampMove_unitsQuiet : (rampMove s).unitsQuiet := by
  unfold rampMove
  split
  · exact h
  · exact finishAct_unitsQuiet (reported_unitsQuiet (s := { s with rampMovesDue := s.rampMovesDue - 1 })
      (fun s c => changeChan_chansOnly s c _) allChans h)

theorem stepTimeout_unitsQuiet (k : LaneId) : (stepTimeout k s).unitsQuiet := by
  unfold stepTimeout
  split
  · exact finishAct_unitsQuiet (timeOutStep_unitsQuiet h k)
  · exact h

theorem planTimeout_unitsQuiet (k : LaneId) : (planTimeout k s).unitsQuiet := by
  unfold planTimeout
  split
  · exact finishAct_unitsQuiet (cutLane_unitsQuiet (s := s.setLane k { s.lane k with planTimer := none }) h k _)
  · exact h

theorem delayExpiry_unitsQuiet (k : LaneId) : (delayExpiry k s).unitsQuiet := by
  unfold delayExpiry
  split
  · exact finishAct_unitsQuiet (stepEnd_unitsQuiet h k _)
  · exact h

theorem triggerDelayExpiry_unitsQuiet (k : LaneId) : (triggerDelayExpiry k s).unitsQuiet := by
  unfold triggerDelayExpiry
  split
  · exact requestConverter_unitsQuiet (s := stopInterval s k) h k
  · exact h

theorem confirmationExpiry_unitsQuiet (k : LaneId) : (confirmationExpiry k s).unitsQuiet := by
  unfold confirmationExpiry
  split_ifs
  · exact requestConverter_unitsQuiet (s := stopInterval s k) h k
  · exact h
  · exact h

theorem pollIntervalExpiry_unitsQuiet (k : LaneId) : (pollIntervalExpiry k s).unitsQuiet := by
  unfold pollIntervalExpiry
  split
  · exact requestLink_unitsQuiet (s := stopInterval s k) h k
  · exact h

/-! ### The tick -/

/-- A boundary counts the timers of the units that work. -/
theorem tickBoundary_unitsQuiet : (tickBoundary s).unitsQuiet := by
  obtain ⟨hx, hm, hy⟩ := (unitsQuiet_iff s).mp h
  refine (unitsQuiet_iff _).mpr ⟨fun hg => ?_, hm, ?_⟩
  · obtain ⟨hq, hp, hw⟩ := hx hg
    exact ⟨hq, hp, congrArg tickTimer hw⟩
  · show (s.link.atTick _ _).quiet
    unfold Link.atTick
    split
    · exact hy
    · exact hy

theorem monitorExpiry_unitsQuiet : (monitorExpiry s).unitsQuiet := by
  by_cases hdue : s.holdSafe.state = .watching ∧ s.holdSafe.expiryDue = true
  · have hclear : (enterSafe s).clearClaims.unitsQuiet := (clearClaims_spec (enterSafe s)).1.unitsSame.quiet h
    have hlanes : (safeLanes (enterSafe s).clearClaims).unitsQuiet :=
      foldl_induct State.unitsQuiet safeLane (fun u k hu => finishAct_unitsQuiet (cutLane_unitsQuiet hu k _)) _ _ hclear
    have hintake (u : State) : UnitsSame u (safeIntake u) := by
      have hu := safeIntake_eq u
      exact ⟨by rw [hu], by rw [hu], by rw [hu]⟩
    rw [monitorExpiry_due hdue]
    have hchans := (hintake _).trans (foldl_safeOn (safeIntake (safeLanes (enterSafe s).clearClaims))).1.unitsSame
    exact (hchans.trans (foldl_safeLineOn _).1.unitsSame).quiet hlanes
  · rwa [monitorExpiry_not_due s hdue]

/-! ### Conversions -/

theorem beginSampleWait_unitsQuiet {k : LaneId} (hg : s.converter.grantee = some k) (p : CycleParams) :
    (beginSampleWait s k p).unitsQuiet := by
  unfold beginSampleWait
  split
  · exact h.of_converter (.of_grantee (k := k) hg) rfl rfl
  · exact h.of_converter (.of_grantee (k := k) hg) rfl rfl

theorem endCycle_unitsQuiet (k : LaneId) (v : StepOutcome × StepDetail) : (endCycle s k v).1.unitsQuiet := by
  have hhalf := (completeHalfPair_halfPairOnly s k s.converter.count).unitsSame.quiet h
  exact stepEnd_unitsQuiet (releaseConverter_unitsQuiet hhalf) k _

theorem recordConversion_unitsQuiet {k : LaneId} (hg : s.converter.grantee = some k) (p : CycleParams) (code : Duty) :
    (recordConversion s k p code).1.unitsQuiet := by
  have hrec : State.unitsQuiet { s with converter := s.converter.record code } :=
    h.of_converter (.of_grantee (k := k) hg) rfl rfl
  have hsample :=
    (storeSample_halfPairOnly { s with converter := s.converter.record code } k s.converter.count code).unitsSame
  unfold recordConversion
  dsimp only
  generalize storeSample { s with converter := s.converter.record code } k s.converter.count code = t at hsample
  have ht := hsample.quiet hrec
  have hgt : t.converter.grantee = some k := by
    rw [hsample.converter]
    exact hg
  split_ifs
  · exact endCycle_unitsQuiet ht k _
  · exact endCycle_unitsQuiet ht k _
  · exact endCycle_unitsQuiet ht k _
  · exact beginSampleWait_unitsQuiet ht hgt p

theorem conversionEnd_unitsQuiet (code : Duty) : (conversionEnd code s).unitsQuiet := by
  unfold conversionEnd
  split
  · rename_i hholder
    exact finishAct_unitsQuiet (recordConversion_unitsQuiet h (cycleHolder_grantee hholder) _ code)
  · exact h

theorem sampleWaitExpiry_unitsQuiet : (sampleWaitExpiry s).unitsQuiet := by
  unfold sampleWaitExpiry
  split
  · rename_i hholder
    exact h.of_converter (.of_grantee (cycleHolder_grantee hholder)) rfl rfl
  · exact h

/-! ### Lines -/

theorem confirmTrigger_unitsQuiet (k : LaneId) (p : CycleParams) : (confirmTrigger s k p).unitsQuiet := by
  unfold confirmTrigger
  split
  · exact requestConverter_unitsQuiet h k
  · exact h

/-- Only a converter that serves a lane is in a HOLDOFF wait. -/
theorem handLevel_unitsQuiet (l : LineId) (k : LaneId) : (handLevel s l k).unitsQuiet := by
  unfold handLevel
  split
  · exact h
  · split
    · split
      · exact confirmTrigger_unitsQuiet h k _
      · split
        · rename_i hwait
          refine h.of_converter (fun hg => ?_) rfl rfl
          obtain ⟨-, hp, -⟩ := h.1 hg
          cases hwait.symm.trans hp
        · exact h
      · exact h
    · exact h

theorem levelChange_unitsQuiet (l : LineId) : (levelChange l s).unitsQuiet := by
  unfold levelChange
  dsimp only
  split
  · exact handLevel_unitsQuiet (s := s.putLine l (s.line l).levelChanged) h l _
  · exact h

/-! ### Period starts and measurements -/

theorem groupPeriodStart_unitsQuiet (g : GroupId) : (groupPeriodStart g s).unitsQuiet := by
  rw [groupPeriodStart_keeps]
  exact h

omit h in
theorem atPeriodStart_grantee (m : DutyMonitor) (periods high low : Nat) :
    (m.atPeriodStart periods high low).grantee = m.grantee := by
  unfold DutyMonitor.atPeriodStart
  split
  · rfl
  · rfl
  · split <;> rfl

/-- Only a monitor that serves a lane has selected a channel. -/
theorem channelPeriodStart_unitsQuiet (c : ChanId) (high low : Nat) : (channelPeriodStart c high low s).unitsQuiet := by
  unfold channelPeriodStart
  split
  · exact h
  · dsimp only
    split
    · rename_i hsel
      refine h.of_monitor (fun hg => ?_) rfl rfl
      rw [atPeriodStart_grantee] at hg
      obtain ⟨-, -, hnone⟩ := h.2.1 hg
      cases hsel.symm.trans hnone
    · exact h

theorem endMeasurement_unitsQuiet {k : LaneId} (hg : s.monitor.grantee = some k) (c : ChanId) (mask : BitVec 16) :
    (endMeasurement s k c mask).1.unitsQuiet := by
  have hrec : (recordMeasure s k c).unitsQuiet := h
  cases hn : nextMasked mask c with
  | some d =>
    rw [endMeasurement_next hn]
    exact hrec.of_monitor (.of_grantee (k := k) hg) rfl rfl
  | none =>
    obtain ⟨r, hr⟩ := endMeasurement_last (s := s) (k := k) hn
    rw [hr]
    exact stepEnd_unitsQuiet (releaseMonitor_unitsQuiet hrec) k r

theorem measurementEnd_unitsQuiet : (measurementEnd s).unitsQuiet := by
  unfold measurementEnd
  split
  · rename_i k c _ hg _
    split
    · exact h
    · rename_i mask p _
      split
      · have ht := finishAct_unitsQuiet (endMeasurement_unitsQuiet h hg c mask)
        exact ht.of_monitor ht.2.1 rfl rfl
      · exact h
  · exact h

/-! ### Elements of a transfer -/

/-- A transfer that goes on is in a phase of its own. -/
theorem setLink_unitsQuiet {k : LaneId} {y : Link} (hg : y.grantee = some k) (hp : y.phase ≠ .idle) :
    (s.setLink y).unitsQuiet := h.of_link (.of_grantee hg hp) rfl rfl

theorem linkStartDone_unitsQuiet : (linkStartDone s).unitsQuiet := by
  unfold linkStartDone
  split
  · exact h
  · rename_i k p hserved
    have hg := linkServed_grantee hserved
    split_ifs
    · exact setLink_unitsQuiet h (k := k) hg nofun
    · exact setLink_unitsQuiet h (k := k) hg nofun
    · exact h

theorem linkRestartDone_unitsQuiet : (linkRestartDone s).unitsQuiet := by
  unfold linkRestartDone
  split
  · exact h
  · rename_i k p hserved
    have hg := linkServed_grantee hserved
    split_ifs
    · exact setLink_unitsQuiet h (k := k) hg nofun
    · exact setLink_unitsQuiet h (k := k) hg nofun
    · exact h

theorem linkReadAckBitEnd_unitsQuiet : (linkReadAckBitEnd s).unitsQuiet := by
  unfold linkReadAckBitEnd
  split
  · exact h
  · rename_i k p hserved
    have hg := linkServed_grantee hserved
    split_ifs
    · exact setLink_unitsQuiet h (k := k) hg nofun
    · exact setLink_unitsQuiet h (k := k) hg nofun
    · exact h

theorem linkByteRead_unitsQuiet (b : Byte) : (linkByteRead b s).unitsQuiet := by
  unfold linkByteRead
  split
  · exact h
  · rename_i k p hserved
    split_ifs
    · exact h
    · have hstore : (s.storeWindow k (p.offset + s.link.bytes) [b]).unitsQuiet := h
      exact hstore.of_link h.2.2 rfl rfl
    · exact h

theorem addressSent_unitsQuiet {k : LaneId} (hg : s.link.grantee = some k) (p : LinkParams) (ack : Bool) :
    (addressSent s p ack).unitsQuiet := by
  unfold addressSent
  dsimp only
  split
  · exact setLink_unitsQuiet h (k := k) hg nofun
  · split_ifs
    · exact setLink_unitsQuiet h (k := k) hg nofun
    · exact setLink_unitsQuiet h (k := k) hg nofun
    · exact setLink_unitsQuiet h (k := k) hg nofun

theorem registerSent_unitsQuiet {k : LaneId} (hg : s.link.grantee = some k) (p : LinkParams) (ack : Bool) :
    (registerSent s k p ack).unitsQuiet := by
  have hstop (e : LinkEnding) : (s.setLink (s.link.beginStop e)).unitsQuiet := setLink_unitsQuiet h (k := k) hg nofun
  unfold registerSent
  split_ifs
  · exact hstop _
  · exact setLink_unitsQuiet h (k := k) hg nofun
  · unfold registersSent
    split
    case h_1 => exact setLink_unitsQuiet h (k := k) hg nofun
    case h_2 => exact setLink_unitsQuiet h (k := k) hg nofun
    all_goals exact hstop _

theorem dataSent_unitsQuiet {k : LaneId} (hg : s.link.grantee = some k) (p : LinkParams) (ack : Bool) :
    (dataSent s k p ack).unitsQuiet := by
  have hcount : (s.setLink { s.link with bytes := s.link.bytes + 1 }).unitsQuiet := h
  unfold dataSent
  dsimp only
  split_ifs
  · exact setLink_unitsQuiet h (k := k) hg nofun
  · exact setLink_unitsQuiet hcount (k := k) hg nofun
  · exact setLink_unitsQuiet hcount (k := k) hg nofun

omit h in
/-- A byte sent under a wind-down is followed by one byte read, or by the STOP (R152). -/
theorem windingSent_phase (y : Link) (p : LinkParams) (ack : Bool) : (windingSent y p ack).phase ≠ .idle := by
  unfold windingSent
  split
  · split_ifs <;> nofun
  · nofun
  · nofun

theorem linkByteSent_unitsQuiet (ack : Bool) : (linkByteSent ack s).unitsQuiet := by
  unfold linkByteSent
  split
  · exact h
  · rename_i k p hserved
    have hg := linkServed_grantee hserved
    have hwinding : (s.setLink (windingSent s.link p ack)).unitsQuiet :=
      setLink_unitsQuiet h ((windingSent_elementOnly s p ack).2.1.trans hg) (windingSent_phase _ p ack)
    split
    · split
      · exact hwinding
      · exact addressSent_unitsQuiet h hg p ack
    · split
      · exact hwinding
      · exact registerSent_unitsQuiet h hg p ack
    · split
      · exact hwinding
      · exact dataSent_unitsQuiet h hg p ack
    · exact h

/-! ### Endings of a transfer -/

theorem reportWindDown_unitsQuiet (k : LaneId) : (reportWindDown s k).1.unitsQuiet := by
  unfold reportWindDown
  split
  · exact endWindDown_unitsQuiet h k _
  · exact h

theorem endTransfer_unitsQuiet (k : LaneId) (outcome : StepOutcome) (detail : StepDetail) :
    (endTransfer s k outcome detail).1.unitsQuiet := stepEnd_unitsQuiet (releaseLink_unitsQuiet h) k _

theorem closeTransfer_unitsQuiet (k : LaneId) (p : LinkParams) : (closeTransfer s k p).1.unitsQuiet := by
  unfold closeTransfer
  split
  · exact endTransfer_unitsQuiet h k _ _
  · exact endTransfer_unitsQuiet h k _ _
  · exact endTransfer_unitsQuiet h k _ _
  · split
    · exact (setLane_unitsSame (releaseLink s) k _).quiet (releaseLink_unitsQuiet h)
    · exact endTransfer_unitsQuiet h k _ _

theorem recoveryComplete_unitsQuiet : (recoveryComplete s).unitsQuiet := by
  unfold recoveryComplete
  split
  · exact h
  · rename_i k p hserved
    have ht : (s.setLink { s.link with busUncertain := false }).unitsQuiet := h
    split
    · dsimp only
      split
      · exact finishAct_unitsQuiet (reportWindDown_unitsQuiet ht k)
      · exact setLink_unitsQuiet ht (k := k) (linkServed_grantee hserved) nofun
    · exact h

theorem linkStopComplete_unitsQuiet : (linkStopComplete s).unitsQuiet := by
  unfold linkStopComplete
  split
  · exact h
  · split
    · split
      · exact finishAct_unitsQuiet (reportWindDown_unitsQuiet h _)
      · exact finishAct_unitsQuiet (closeTransfer_unitsQuiet h _ _)
    · exact h

theorem busStuck_unitsQuiet : (busStuck s).unitsQuiet := by
  unfold busStuck
  split
  · exact h
  · have ht : (s.setLink { s.link with busUncertain := true }).unitsQuiet := h
    split
    · dsimp only
      split
      · exact finishAct_unitsQuiet (reportWindDown_unitsQuiet ht _)
      · exact finishAct_unitsQuiet (endTransfer_unitsQuiet ht _ _ _)
    · exact h

end

end Sys2Proof.Machine
end

