-- ==== Sys2Proof/Proofs/CommandsKeepUnitsQuiet.lean ====
section
/-! The commands, the frames and the resets leave a shared unit that serves no lane idle, and with the events so does
every step (O11). -/

namespace Sys2Proof.Machine

/-! ### Commands that leave the units as they were -/

theorem answer_unitsSame (s : State) (e : Byte) (code : ResultCode) (d : Byte) : UnitsSame s (s.answer e code d) :=
  ⟨rfl, rfl, rfl⟩

theorem judged_unitsSame (s : State) (bits : Nat) (reply : List Byte) : UnitsSame s (s.judged bits reply) :=
  ⟨rfl, rfl, rfl⟩

theorem renewed_unitsSame (s : State) : UnitsSame s s.renewed := by
  unfold State.renewed
  split
  · exact ⟨rfl, rfl, rfl⟩
  · exact .refl s

theorem renew_unitsSame (s : State) : UnitsSame s (renew s) := by
  unfold renew
  split
  · exact (renewed_unitsSame s).trans (answer_unitsSame _ _ _ _)
  · exact answer_unitsSame s _ _ _
  · exact answer_unitsSame s _ _ _

theorem turnMonitorOn_unitsSame (s : State) : UnitsSame s (turnMonitorOn s) := by
  unfold turnMonitorOn
  split
  · exact ⟨rfl, rfl, rfl⟩
  · exact ⟨rfl, rfl, rfl⟩
  · exact ⟨rfl, rfl, rfl⟩

theorem resume_unitsSame (s : State) : UnitsSame s (resume s) := by
  unfold resume
  split_ifs
  · exact ⟨rfl, rfl, rfl⟩
  · exact ⟨rfl, rfl, rfl⟩
  · exact ⟨rfl, rfl, rfl⟩

theorem retime_unitsSame (cfg : ConfigSet) (s : State) (g : GroupId) : UnitsSame s (retime cfg s g) := by
  unfold retime
  dsimp only
  split
  · exact ⟨rfl, rfl, rfl⟩
  · exact ⟨rfl, rfl, rfl⟩

theorem loadConfig_unitsSame (s : State) : UnitsSame s (loadConfig s) := by
  unfold loadConfig
  split
  · exact answer_unitsSame s _ _ _
  · split
    · exact answer_unitsSame s _ _ _
    · generalize configOfPage s.mem = cfg
      have hloaded : UnitsSame s { s with config := cfg, configDefault := false } := ⟨rfl, rfl, rfl⟩
      have hchans := hloaded.trans (foldl_disableOn cfg.enable _).1.unitsSame
      have htimed := foldl_induct (UnitsSame s) (retime cfg) (fun u g hu => hu.trans (retime_unitsSame cfg u g))
        allGroups _ hchans
      exact htimed.trans (answer_unitsSame _ _ _ _)

theorem storeFrame_unitsSame (s : State) (a : Nat) (data : List Byte) : UnitsSame s (s.storeFrame a data) := by
  unfold State.storeFrame
  split
  · exact ⟨rfl, rfl, rfl⟩
  · exact ⟨rfl, rfl, rfl⟩

theorem receiveRead_unitsSame (addr : Half) (l : Byte) (crc : Half) (s : State) :
    UnitsSame s (receiveRead addr l crc s) := by
  unfold receiveRead
  dsimp only
  split_ifs
  · exact ⟨rfl, rfl, rfl⟩
  · exact ⟨rfl, rfl, rfl⟩
  · exact ⟨rfl, rfl, rfl⟩

theorem endUnrun_unitsSame (reason : EndReason) (s : State) (n : SlotId) : UnitsSame s (endUnrun reason s n) := by
  have h := endUnrun_eq reason s n
  exact ⟨by rw [h], by rw [h], by rw [h]⟩

theorem Cleared.unitsQuiet {s : State} (h : Cleared s) : s.unitsQuiet := by
  rw [unitsQuiet_iff, h.converter, h.monitor, h.link]
  exact ⟨fun _ => ⟨rfl, rfl, rfl⟩, fun _ => ⟨rfl, rfl, rfl⟩, fun _ => rfl, fun _ => rfl, fun _ => rfl⟩

section
variable {s : State} (h : s.unitsQuiet)
include h

/-! ### POST, ABORT, GO -/

theorem acceptPost_unitsQuiet (n : SlotId) : (acceptPost s n).1.unitsQuiet := by
  have hwrites := (acceptWrites_memOutside s n).unitsSame.trans (renewed_unitsSame _)
  have ht := hwrites.quiet h
  unfold acceptPost
  generalize (acceptWrites s n).renewed = u at ht
  dsimp only
  split
  · exact ht
  · exact ht

theorem post_unitsQuiet (b : Byte) : (post b s).unitsQuiet := by
  unfold post
  split
  · exact h
  · split
    · exact h
    · exact finishAct_unitsQuiet (acceptPost_unitsQuiet h _)

theorem abortAt_unitsQuiet (n : SlotId) (p : Place) : (abortAt s n p).1.unitsQuiet := by
  cases p with
  | queued k => exact (endUnrun_unitsSame .hostAbort (s.setQueue k ((s.queue k).erase n)) n).quiet h
  | parked => exact (endUnrun_unitsSame .hostAbort { s with parked := s.parked.erase n } n).quiet h
  | running k => exact cutLane_unitsQuiet ((answer_unitsSame s _ _ _).quiet h) k _

theorem abort_unitsQuiet (b : Byte) : (abort b s).unitsQuiet := by
  unfold abort
  split
  · exact h
  · split
    · exact h
    · exact finishAct_unitsQuiet (abortAt_unitsQuiet h _ _)

theorem go_unitsQuiet (lanes : BitVec 4) (apply : Bool) : (go lanes apply s).unitsQuiet := by
  unfold go
  refine finishAct_unitsQuiet ?_
  cases apply with
  | true => exact reported_unitsQuiet (fun s c => applyOn_chansOnly s c) (s.appliedChans lanes) h
  | false => exact h

/-! ### Frames -/

theorem dispatchWord_unitsQuiet (w : Word) : (dispatchWord w s).unitsQuiet := by
  unfold dispatchWord
  dsimp only
  split
  · exact post_unitsQuiet h _
  · exact abort_unitsQuiet h _
  · exact go_unitsQuiet h _ _
  · exact (renew_unitsSame s).quiet h
  · exact (loadConfig_unitsSame s).quiet h
  · exact (engineReset_cleared s).unitsQuiet
  · exact (turnMonitorOn_unitsSame s).quiet h
  · exact (resume_unitsSame s).quiet h
  · exact h
  · exact h

theorem applyWrite_unitsQuiet (addr : Half) (data : List Byte) : (applyWrite addr data s).unitsQuiet := by
  have hstore (a : Nat) : (s.storeFrame a data).unitsQuiet := (storeFrame_unitsSame s a data).quiet h
  unfold applyWrite writeRegisters
  dsimp only
  split
  · exact hstore _
  · exact hstore _
  · split
    · exact h
    · exact hstore _
  · exact h
  · split_ifs
    · exact dispatchWord_unitsQuiet h _
    · exact h
    · exact h
  · exact h

theorem receiveWrite_unitsQuiet (addr : Half) (data : List Byte) (crc : Half) :
    (receiveWrite addr data crc s).unitsQuiet := by
  unfold receiveWrite inWriteFrame
  split
  · exact applyWrite_unitsQuiet ((judged_unitsSame s _ _).quiet h) addr data
  · exact h

/-! ### Every command -/

theorem whenReady_unitsQuiet {f : State → State} (hf : (f s).unitsQuiet) : (whenReady f s).unitsQuiet := by
  unfold whenReady
  split
  · exact hf
  · exact h

/-- A host command in its frame. -/
theorem asCommand_unitsQuiet {f : State → State} (hf : ∀ {u : State}, u.unitsQuiet → (f u).unitsQuiet) :
    (asCommand f s).unitsQuiet := whenReady_unitsQuiet h (hf ((judged_unitsSame s _ _).quiet h))

theorem exec_unitsQuiet {c : Instr} {t : State} (hx : exec c s = .next t) : t.unitsQuiet := by
  cases c with
  | post b => obtain rfl := next_inj hx; exact asCommand_unitsQuiet h fun hu => post_unitsQuiet hu b
  | abort b => obtain rfl := next_inj hx; exact asCommand_unitsQuiet h fun hu => abort_unitsQuiet hu b
  | go lanes apply => obtain rfl := next_inj hx; exact asCommand_unitsQuiet h fun hu => go_unitsQuiet hu lanes apply
  | renew => obtain rfl := next_inj hx; exact asCommand_unitsQuiet h (renew_unitsSame _).quiet
  | loadConfig => obtain rfl := next_inj hx; exact asCommand_unitsQuiet h (loadConfig_unitsSame _).quiet
  | engineReset => obtain rfl := next_inj hx; exact asCommand_unitsQuiet h fun _ => (engineReset_cleared _).unitsQuiet
  | monitorOn => obtain rfl := next_inj hx; exact asCommand_unitsQuiet h (turnMonitorOn_unitsSame _).quiet
  | resume => obtain rfl := next_inj hx; exact asCommand_unitsQuiet h (resume_unitsSame _).quiet
  | clearFlags => obtain rfl := next_inj hx; exact asCommand_unitsQuiet h id
  | unknownCommand code =>
    obtain rfl := next_inj hx
    split
    · exact h
    · exact asCommand_unitsQuiet h id
  | finishedWrite mask => obtain rfl := next_inj hx; exact whenReady_unitsQuiet h h
  | readOnlyRegisterWrite addr data =>
    obtain rfl := next_inj hx
    refine whenReady_unitsQuiet h ?_
    split
    · exact h
    · exact h
  | writeFrame addr data crc =>
    obtain rfl := next_inj hx
    refine whenReady_unitsQuiet h ?_
    split
    · exact receiveWrite_unitsQuiet h addr data crc
    · exact h
  | readFrame addr l crc =>
    obtain rfl := next_inj hx
    exact whenReady_unitsQuiet h ((receiveRead_unitsSame addr l crc s).quiet h)
  | badOperationByte op =>
    obtain rfl := next_inj hx
    refine whenReady_unitsQuiet h ?_
    split
    · exact h
    · exact h
  | earlyNcsRise bits =>
    obtain rfl := next_inj hx
    refine whenReady_unitsQuiet h ?_
    split
    · exact h
    · exact h
  | deviceReset => obtain rfl := next_inj hx; exact (beginReset_cleared s).unitsQuiet
  | deviceResetEnd strap levels =>
    obtain rfl := next_inj hx
    split
    · exact h
    · exact (endReset_cleared strap levels s).unitsQuiet
  | tick =>
    obtain rfl := next_inj hx
    exact whenReady_unitsQuiet h (tickBoundary_unitsQuiet (monitorExpiry_unitsQuiet h))
  | monitorExpiry => obtain rfl := next_inj hx; exact whenReady_unitsQuiet h (monitorExpiry_unitsQuiet h)
  | rampMove => obtain rfl := next_inj hx; exact whenReady_unitsQuiet h (rampMove_unitsQuiet h)
  | stepTimeout k => obtain rfl := next_inj hx; exact whenReady_unitsQuiet h (stepTimeout_unitsQuiet h k)
  | planTimeout k => obtain rfl := next_inj hx; exact whenReady_unitsQuiet h (planTimeout_unitsQuiet h k)
  | delayExpiry k => obtain rfl := next_inj hx; exact whenReady_unitsQuiet h (delayExpiry_unitsQuiet h k)
  | triggerDelayExpiry k => obtain rfl := next_inj hx; exact whenReady_unitsQuiet h (triggerDelayExpiry_unitsQuiet h k)
  | confirmationExpiry k => obtain rfl := next_inj hx; exact whenReady_unitsQuiet h (confirmationExpiry_unitsQuiet h k)
  | pollIntervalExpiry k => obtain rfl := next_inj hx; exact whenReady_unitsQuiet h (pollIntervalExpiry_unitsQuiet h k)
  | sampleWaitExpiry => obtain rfl := next_inj hx; exact whenReady_unitsQuiet h (sampleWaitExpiry_unitsQuiet h)
  | conversionEnd code => obtain rfl := next_inj hx; exact whenReady_unitsQuiet h (conversionEnd_unitsQuiet h code)
  | levelChange l => obtain rfl := next_inj hx; exact whenReady_unitsQuiet h (levelChange_unitsQuiet h l)
  | groupPeriodStart g => obtain rfl := next_inj hx; exact whenReady_unitsQuiet h (groupPeriodStart_unitsQuiet h g)
  | channelPeriodStart ch high low =>
    obtain rfl := next_inj hx
    exact whenReady_unitsQuiet h (channelPeriodStart_unitsQuiet h ch high low)
  | measurementEnd => obtain rfl := next_inj hx; exact whenReady_unitsQuiet h (measurementEnd_unitsQuiet h)
  | linkStartDone => obtain rfl := next_inj hx; exact whenReady_unitsQuiet h (linkStartDone_unitsQuiet h)
  | linkByteSent ack => obtain rfl := next_inj hx; exact whenReady_unitsQuiet h (linkByteSent_unitsQuiet h ack)
  | linkByteRead b => obtain rfl := next_inj hx; exact whenReady_unitsQuiet h (linkByteRead_unitsQuiet h b)
  | linkRestartDone => obtain rfl := next_inj hx; exact whenReady_unitsQuiet h (linkRestartDone_unitsQuiet h)
  | linkReadAckBitEnd => obtain rfl := next_inj hx; exact whenReady_unitsQuiet h (linkReadAckBitEnd_unitsQuiet h)
  | recoveryComplete => obtain rfl := next_inj hx; exact whenReady_unitsQuiet h (recoveryComplete_unitsQuiet h)
  | linkStopComplete => obtain rfl := next_inj hx; exact whenReady_unitsQuiet h (linkStopComplete_unitsQuiet h)
  | busStuck => obtain rfl := next_inj hx; exact whenReady_unitsQuiet h (busStuck_unitsQuiet h)

end

end Sys2Proof.Machine

open Sys2Proof Sys2Proof.Machine

/-- Settles O11: a unit begins work by a grant alone, and its release passes it on or leaves it idle. -/
theorem everyStepKeepsIdleUnitsQuiet : Obligations.EveryStepKeepsIdleUnitsQuiet := by
  unfold Obligations.EveryStepKeepsIdleUnitsQuiet
  intro s t h hstep
  unfold step at hstep
  split at hstep
  · obtain rfl := next_inj hstep
    exact h
  · rename_i c rest _
    exact exec_unitsQuiet (s := { s with pending := rest }) h hstep

end

