-- ==== Sys2Proof/Proofs/ChannelMoves.lean ====
section
/-! SUPPORT. One drive channel (chapter 4): how it arrives, takes a target and moves, case by case, and the table of R71
through each of these. -/

namespace Sys2Proof.Machine

namespace Channel
variable (x : Channel)

/-! ### Arrival, taking a target, one move -/

theorem arrive_marked {x : Channel} (h : x.offOnArrival = true) :
    x.arrive = { x with state := .off, duty := 0, target := 0, rate := 0, offOnArrival := false } := if_pos h

theorem arrive_unmarked {x : Channel} (h : x.offOnArrival = false) : x.arrive = { x with state := .holding } :=
  if_neg (by rw [h]; exact Bool.false_ne_true)

/-- The duty a channel starts from towards a target (R75). -/
def start : Duty := if x.state = .off then 0 else x.duty

/-- At rate 0, or at an equal duty, the channel arrives at once (R75). -/
theorem takeTarget_arrives {x : Channel} {t r : Duty} (h : t = x.start ∨ r = 0) :
    x.takeTarget t r = { x with duty := t, target := t, rate := r }.arrive := if_pos h

/-- Otherwise it ramps from where it starts (R75). -/
theorem takeTarget_ramps {x : Channel} {t r : Duty} (ht : t ≠ x.start) (hr : r ≠ 0) :
    x.takeTarget t r = { x with state := .ramping, duty := x.start, target := t, rate := r } :=
  if_neg (not_or.mpr ⟨ht, hr⟩)

theorem rampMove_still {x : Channel} (h : x.state ≠ .ramping) : x.rampMove = x := if_neg h

/-- A move upward (R72): by the rate while the target is farther than that. -/
theorem rampMove_up {x : Channel} (hs : x.state = .ramping) (hd : x.duty ≤ x.target) :
    x.rampMove = if x.rate.toNat < x.target.toNat - x.duty.toNat then { x with duty := x.duty + x.rate }
      else { x with duty := x.target }.arrive := by
  have hsub : (x.target - x.duty).toNat = x.target.toNat - x.duty.toNat := BitVec.toNat_sub_of_le hd
  unfold rampMove
  rw [if_pos hs, if_pos hd]
  simp only [BitVec.lt_def, hsub]

/-- A move downward (R72). -/
theorem rampMove_down {x : Channel} (hs : x.state = .ramping) (hd : x.target < x.duty) :
    x.rampMove = if x.rate.toNat < x.duty.toNat - x.target.toNat then { x with duty := x.duty - x.rate }
      else { x with duty := x.target }.arrive := by
  have hsub : (x.duty - x.target).toNat = x.duty.toNat - x.target.toNat := BitVec.toNat_sub_of_le (BitVec.le_of_lt hd)
  unfold rampMove
  rw [if_pos hs, if_neg (BitVec.not_le.mpr hd)]
  simp only [BitVec.lt_def, hsub]

/-! ### The table of R71 -/

theorem reset_legal : Channel.reset.legal := by
  unfold legal Channel.reset
  decide

theorem turnOff_legal : x.turnOff.legal := ⟨fun _ => ⟨rfl, rfl, rfl⟩, nofun, nofun⟩

theorem cutOff_legal : x.cutOff.legal := x.turnOff_legal

/-- A channel that has reached its target arrives in a state of the table (R73). -/
theorem arrive_legal {x : Channel} (h : x.duty = x.target) : x.arrive.legal := by
  cases hm : x.offOnArrival with
  | true =>
    rw [arrive_marked hm]
    exact ⟨fun _ => ⟨rfl, rfl, rfl⟩, nofun, nofun⟩
  | false =>
    rw [arrive_unmarked hm]
    exact ⟨nofun, nofun, fun _ => ⟨h, hm⟩⟩

/-- A channel takes any target, but with the marker set only target 0 (R75, R83). -/
theorem takeTarget_legal {x : Channel} {t : Duty} (r : Duty) (h : x.offOnArrival = true → t = 0) :
    (x.takeTarget t r).legal := by
  by_cases ha : t = x.start ∨ r = 0
  · rw [takeTarget_arrives ha]
    exact arrive_legal rfl
  · obtain ⟨ht, hr⟩ := not_or.mp ha
    have hpos : 1 ≤ r.toNat := Nat.one_le_iff_ne_zero.mpr fun h0 => hr (BitVec.eq_of_toNat_eq h0)
    rw [takeTarget_ramps ht hr]
    exact ⟨nofun, fun _ => ⟨ht, hpos, h⟩, nofun⟩

/-- A move short of the target leaves the channel short of it (R72). -/
theorem rampMove_legal {x : Channel} (h : x.legal) : x.rampMove.legal := by
  by_cases hs : x.state = .ramping
  · obtain ⟨-, hpos, hmark⟩ := h.2.1 hs
    have hshort {d : Duty} (hd : x.target ≠ d) : Channel.legal { x with duty := d } := by
      refine ⟨fun ho => ?_, fun _ => ⟨hd, hpos, hmark⟩, fun ho => ?_⟩
      · cases hs.symm.trans ho
      · cases hs.symm.trans ho
    by_cases hup : x.duty ≤ x.target
    · rw [rampMove_up hs hup]
      split
      · exact hshort (by bv_omega)
      · exact arrive_legal rfl
    · rw [rampMove_down hs (BitVec.not_le.mp hup)]
      split
      · exact hshort (by bv_omega)
      · exact arrive_legal rfl
  · rw [rampMove_still hs]
    exact h

theorem setTarget_legal (t r : Duty) : (x.setTarget t r).legal := takeTarget_legal r nofun

theorem offStep_legal (r : Duty) : (x.offStep r).legal := by
  unfold offStep
  split
  · exact x.turnOff_legal
  · exact takeTarget_legal r fun _ => rfl

theorem applyPending_legal (p : Pending) : (x.applyPending p).legal :=
  takeTarget_legal (x := { x with offOnArrival := false }) (t := p.target) p.rate nofun

theorem applied_legal {x : Channel} (h : x.legal) : x.applied.legal := by
  unfold applied
  split
  · exact h
  · exact x.applyPending_legal _

/-- The safe order marks a channel only if its safe duty is 0 (R85). -/
theorem safeTarget_legal (duty rate : Duty) : (x.safeTarget duty rate).legal := by
  unfold safeTarget
  split
  · exact x.turnOff_legal
  · exact takeTarget_legal rate of_decide_eq_true

theorem safed_legal {x : Channel} (h : x.legal) (cfg : ConfigSet) (c : ChanId) : (cfg.safed c x).legal := by
  unfold ConfigSet.safed
  split
  · exact x.safeTarget_legal _ _
  · exact h

end Channel

end Sys2Proof.Machine
end

