-- ==== Sys2Proof/Proofs/ActsKeepChannelsLegal.lean ====
section
/-! SUPPORT. The table of R71 through the acts of the part (O7): what leaves the channels as they were, the acts of the
channel block, and with these the tasks and the endings from outside. -/

namespace Sys2Proof.Machine

/-! ### Acts that leave the channels as they were -/

theorem State.channelsLegal.of_channels {s t : State} (h : s.channelsLegal) (ht : t.channels = s.channels) :
    t.channelsLegal := fun c => by
  unfold State.chan
  rw [ht]
  exact h c

theorem PhasesOnly.channels {s t : State} (h : PhasesOnly s t) : t.channels = s.channels := by rw [h.1]
theorem HalfPairOnly.channels {k : LaneId} {s t : State} (h : HalfPairOnly k s t) : t.channels = s.channels := by rw [h.1]
theorem MemOutside.channels {P : Nat → Prop} {s t : State} (h : MemOutside P s t) : t.channels = s.channels := by rw [h.1]
theorem ElementOnly.channels {s t : State} (h : ElementOnly s t) : t.channels = s.channels := by rw [h.1]

theorem LinesOnly.channels {s t : State} (h : LinesOnly s t) : t.channels = s.channels := by
  unfold LinesOnly at h
  rw [h]

theorem recordResult_channels (s : State) (k : LaneId) (n : SlotId) (i : StepId) (r : StepResult) :
    (recordResult s k n i r).channels = s.channels := by
  rw [(recordResult_spec s k n i r).1]

theorem giveClaims_channels (s : State) (k : LaneId) (chans : BitVec 16) (lines : BitVec 8) :
    (s.giveClaims k chans lines).channels = s.channels := by
  rw [(giveClaims_spec s k chans lines).1]

section
variable {s : State} (h : s.channelsLegal)
include h

/-! ### Acts of the channel block -/

omit h in
/-- Every channel has taken a value of the table or kept its own. -/
theorem channelsLegal_of_ite {t : State} (h : s.channelsLegal) {p : ChanId → Prop} [DecidablePred p]
    {val : ChanId → Channel} (ht : ∀ c, t.chan c = if p c then val c else s.chan c) (hval : ∀ c, (val c).legal) : t.channelsLegal := fun c => by
  rw [ht]
  split
  · exact hval c
  · exact h c

theorem onChans_setOn_legal (m : BitVec 16) (x r : Duty) : (onChans m (setOn x r) s).channelsLegal :=
  channelsLegal_of_ite h (onChans_setOn m x r s).2 fun c => (s.chan c).setTarget_legal x r

theorem onChans_stageOn_legal (m : BitVec 16) (x r : Duty) : (onChans m (stageOn x r) s).channelsLegal :=
  channelsLegal_of_ite h (onChans_stageOn m x r s).2 h

theorem onChans_offOn_legal (m : BitVec 16) (r : Duty) : (onChans m (offOn r) s).channelsLegal :=
  channelsLegal_of_ite h (onChans_offOn m r s).2 fun c => (s.chan c).offStep_legal r

theorem onChans_turnOffOn_legal (m : BitVec 16) : (onChans m turnOffOn s).channelsLegal :=
  channelsLegal_of_ite h (onChans_turnOffOn m s).2 fun c => (s.chan c).turnOff_legal

theorem onChans_applyOn_legal (m : BitVec 16) : (onChans m applyOn s).channelsLegal :=
  channelsLegal_of_ite h (onChans_applyOn m s).2 fun c => Channel.applied_legal (h c)

theorem foldl_safeOn_legal : (allChans.foldl safeOn s).channelsLegal := fun c => by
  rw [(foldl_safeOn s).2]
  exact Channel.safed_legal (h c) s.config c

/-- A pending target is no part of the table. -/
theorem releaseClaims_legal (k : LaneId) (chans : BitVec 16) (lines : BitVec 8) :
    (s.releaseClaims k chans lines).channelsLegal :=
  channelsLegal_of_ite h (releaseClaims_spec s k chans lines).2.2.1 h

theorem clearClaims_legal : s.clearClaims.channelsLegal := fun c => by
  rw [(clearClaims_spec s).2.2.2.2]
  exact h c

theorem walk_legal : (walk s).1.channelsLegal := h.of_channels (walkList_channels s.waitList [] s)

/-! ### Ends of slots and steps -/

theorem endSlot_legal (k : LaneId) (n : SlotId) (st : SlotState) (reason : EndReason) (detail : Byte) :
    (endSlot s k n st reason detail).1.channelsLegal := by
  have hfinish : (finishSlot s n st reason detail).channelsLegal := h
  unfold endSlot
  generalize finishSlot s n st reason detail = u at hfinish
  have hoff : (offAtChainEnd u k n).channelsLegal := by
    unfold offAtChainEnd
    split
    · exact onChans_turnOffOn_legal hfinish _
    · exact hfinish
  rw [chainEnd_eq]
  exact (walk_legal (releaseClaims_legal hoff k 0 0)).of_channels (State.setLane_channels _ k _)

theorem switchTo_legal (k : LaneId) (n c : SlotId) : (switchTo s k n c).1.channelsLegal := by
  have hcont : (continued s k n c).channelsLegal := h.of_channels (by rw [continued_eq s k n c])
  unfold switchTo
  generalize continued s k n c = u at hcont
  have htrim := releaseClaims_legal hcont k (u.chanClaim c) (u.lineClaim c)
  unfold trimThenEnter
  generalize u.releaseClaims k (u.chanClaim c) (u.lineClaim c) = v at htrim
  dsimp only
  split
  · exact walk_legal htrim
  · exact htrim

theorem judgeSlot_legal (k : LaneId) (n : SlotId) : (judgeSlot s k n).1.channelsLegal := by
  unfold judgeSlot continueWith
  split
  · exact endSlot_legal h k n _ _ _
  · split
    · split_ifs
      · exact switchTo_legal h k n _
      · exact endSlot_legal h k n _ _ _
      · exact endSlot_legal h k n _ _ _
    · exact endSlot_legal h k n _ _ _

theorem skipFrom_legal (n : SlotId) (first : Nat) : (skipFrom s n first).channelsLegal :=
  h.of_channels (skipFrom_spec s n first).1.channels

theorem recordResult_legal (k : LaneId) (n : SlotId) (i : StepId) (r : StepResult) :
    (recordResult s k n i r).channelsLegal := h.of_channels (recordResult_channels s k n i r)

theorem stepEnd_legal (k : LaneId) (r : StepResult) : (stepEnd s k r).1.channelsLegal := by
  unfold stepEnd afterStep
  split
  · rename_i n i _ _
    have hrec := recordResult_legal h k n i r
    split
    · split
      · exact hrec
      · exact judgeSlot_legal hrec k _
    · exact endSlot_legal (skipFrom_legal hrec _ _) k _ _ _ _
  · exact h

theorem stepEndsSlot_legal (k : LaneId) (r : StepResult) (st : SlotState) (reason : EndReason) :
    (stepEndsSlot s k r st reason).1.channelsLegal := by
  unfold stepEndsSlot
  split
  · exact endSlot_legal (skipFrom_legal (recordResult_legal h k _ _ r) _ _) k _ _ _ _
  · exact h

theorem endByCause_legal (k : LaneId) (cause : EndCause) (r : StepResult) : (endByCause s k cause r).1.channelsLegal := by
  cases cause with
  | stepTimeout => exact stepEnd_legal h k r
  | planTimeout => exact stepEndsSlot_legal h k r _ _
  | hostAbort => exact stepEndsSlot_legal h k r _ _
  | safeOrder => exact stepEndsSlot_legal h k r _ _
  | safeRace => exact stepEndsSlot_legal h k r _ _

/-! ### Requests and tasks -/

theorem requestConverter_legal (k : LaneId) : (requestConverter s k).channelsLegal :=
  h.of_channels (requestConverter_phasesOnly s k).channels

theorem requestLink_legal (k : LaneId) : (requestLink s k).channelsLegal :=
  h.of_channels (requestLink_phasesOnly s k).channels

theorem endSettle_legal (k : LaneId) : (endSettle s k).channelsLegal :=
  h.of_channels (requestMonitor_phasesOnly (s.putWatch k Watch.empty) k).channels

theorem beginTrigger_legal (k : LaneId) (p : CycleParams) : (beginTrigger s k p).1.channelsLegal := by
  unfold beginTrigger
  split
  · exact requestConverter_legal h k
  · split
    · exact requestConverter_legal h k
    · exact h
  · split
    · exact h
    · exact stepEnd_legal h k _
  · split
    · exact h
    · exact stepEnd_legal h k _

/-- A step acts on the channels of its mask, or leaves the channels alone. -/
theorem serveStep_legal (k : LaneId) (c : StepCmd) : (serveStep s k c).1.channelsLegal := by
  cases c with
  | set mask x r staged settle =>
    cases staged with
    | true => exact stepEnd_legal (onChans_stageOn_legal h mask x r) k _
    | false =>
      have hset := onChans_setOn_legal h mask x r
      rw [serveStep_set]
      split
      · exact hset
      · exact stepEnd_legal hset k _
  | apply mask => exact stepEnd_legal (onChans_applyOn_legal h _) k _
  | off mask r => exact stepEnd_legal (onChans_offOn_legal h mask r) k _
  | delay n =>
    unfold serveStep
    dsimp only
    split
    · exact stepEnd_legal h k _
    · exact h
  | cycle p => exact beginTrigger_legal h k p
  | verify mask p =>
    rw [serveStep_verify]
    split
    · exact endSettle_legal h k
    · exact h
  | link p => exact requestLink_legal h k
  | lines mask mode levels =>
    exact stepEnd_legal (h.of_channels (onLines_lineSetOn mask mode levels s).1.channels) k _
  | awaitGo => exact h

theorem startStep_legal (k : LaneId) (i : StepId) : (startStep s k i).1.channelsLegal := by
  unfold startStep
  split
  · exact h
  · dsimp only
    split
    · refine serveStep_legal (s := State.setLane _ k _) ?_ k _
      exact h
    · exact h

theorem takeHead_legal (k : LaneId) : (takeHead s k).1.channelsLegal := by
  unfold takeHead requestClaims
  split
  · split
    · exact h
    · dsimp only
      split
      · exact State.channelsLegal.of_channels (s := takenHead s k _ _) h (giveClaims_channels _ k _ _)
      · exact h
  · exact h

theorem enterSlot_legal (k : LaneId) : (enterSlot s k).1.channelsLegal := by
  unfold enterSlot
  split
  · exact h
  · dsimp only
    split
    · exact h
    · exact h

theorem releaseGo_legal (k : LaneId) : (releaseGo s k).1.channelsLegal := by
  unfold releaseGo
  split_ifs
  · exact h
  · exact stepEnd_legal h k _
  · exact h

theorem runTask_legal (x : Task) : (runTask x s).1.channelsLegal := by
  cases x with
  | startStep k i => exact startStep_legal h k i
  | enter k => exact enterSlot_legal h k
  | take k => exact takeHead_legal h k
  | release k => exact releaseGo_legal h k
  | settled k => exact stepEnd_legal h k _

end

/-- An act is carried out by the table when it begins by it. -/
theorem finishAct_legal {a : Act} (h : a.1.channelsLegal) : (finishAct a).channelsLegal :=
  finishAct_induct State.channelsLegal (fun x _ hs => runTask_legal hs x) a h

/-! ### Endings from outside -/

section
variable {s : State} (h : s.channelsLegal)
include h

theorem endStepNow_legal (k : LaneId) (cause : EndCause) : (endStepNow s k cause).1.channelsLegal := by
  have hhalf := h.of_channels (settleHalfPair_halfPairOnly s k cause).channels
  exact endByCause_legal (hhalf.of_channels (stopServing_phasesOnly _ k).channels) k cause _

theorem endWindDown_legal (k : LaneId) (cause : EndCause) : (endWindDown s k cause).1.channelsLegal :=
  endByCause_legal (h.of_channels (releaseLink_phasesOnly s).channels) k cause _

theorem windDown_legal (k : LaneId) (cause : EndCause) : (windDown s k cause).1.channelsLegal := by
  have hwound : (wound s k cause).channelsLegal := h
  by_cases hwait : s.link.phase = .start ∧ s.linkWaitOver = false
  · obtain ⟨hp, hw⟩ := hwait
    rw [windDown_start s k cause hp hw]
    dsimp only
    split
    · exact hwound
    · exact endWindDown_legal (s := { wound s k cause with freeIndex := s.freeIndex + 1 }) hwound k cause
  · rw [windDown_marks s k cause (by rwa [← Bool.not_eq_false, ← not_and_or])]
    exact hwound

theorem endWaiting_legal (k : LaneId) (cause : EndCause) : (endWaiting s k cause).1.channelsLegal := by
  unfold endWaiting
  split
  · exact h
  · have hleft : State.channelsLegal { s with waitList := s.waitList.filter fun w => w.lane != k } := h
    exact endSlot_legal (skipFrom_legal hleft _ 0) k _ _ _ _

theorem timeOutStep_legal (k : LaneId) : (timeOutStep s k).1.channelsLegal := by
  unfold timeOutStep
  split
  · exact windDown_legal h k _
  · exact endStepNow_legal h k _

theorem cutLane_legal (k : LaneId) (cause : EndCause) : (cutLane s k cause).1.channelsLegal := by
  unfold cutLane
  split
  · exact h
  · exact endWaiting_legal h k cause
  · exact endWaiting_legal h k cause
  · split
    · exact windDown_legal h k cause
    · exact endStepNow_legal h k cause
  · unfold recause
    split
    · exact h
    · exact h

end

end Sys2Proof.Machine
end

