-- ==== Sys2Proof/Proofs/PeriodStarts.lean ====
section
/-! Period starts (O38): what a group period start leaves of timings and channels (R67, R69), and what a channel's own period
start leaves of its latched duty and of the duty monitor (R68, R122). -/

namespace Sys2Proof.Machine

/-! ### Group period starts -/

theorem mem_chansOfGroup (g : GroupId) (c : ChanId) : c ∈ chansOfGroup g ↔ groupOf c = g := by
  simp [chansOfGroup, mem_allChans]

theorem nodup_chansOfGroup (g : GroupId) : (chansOfGroup g).Nodup := nodup_allChans.filter _

theorem groupOf_eq_iff (c : ChanId) (g : GroupId) : groupOf c = g ↔ c.val / 4 = g.val := Fin.ext_iff

/-- Writing the channels of a group one after another (R67). -/
theorem foldl_chansOfGroup (f : Channel → Channel) (g : GroupId) (s : State) (c : ChanId) :
    ((chansOfGroup g).foldl (fun t d => t.putChan d (f (t.chan d))) s).chan c =
      if groupOf c = g then f (s.chan c) else s.chan c := by
  have hget (t : State) (i j : ChanId) :
      (t.putChan i (f (t.chan i))).chan j = if j = i then f (t.chan i) else t.chan j := by
    simp only [State.putChan_get, eq_comm]
  have hval (t : State) (i j : ChanId) (h : i ≠ j) : f ((t.putChan i (f (t.chan i))).chan j) = f (t.chan j) := by
    rw [State.putChan_get_other _ _ h]
  have h := foldl_entry State.chan (fun t d => t.putChan d (f (t.chan d))) (fun t d => f (t.chan d)) hget hval _
    (nodup_chansOfGroup g) s c
  rw [h]
  exact if_congr (mem_chansOfGroup g c) rfl rfl

theorem foldl_awaitStart_chan (g : GroupId) (s : State) (c : ChanId) :
    ((chansOfGroup g).foldl awaitStart s).chan c =
      if groupOf c = g then { s.chan c with started := false } else s.chan c :=
  foldl_chansOfGroup (fun x => { x with started := false }) g s c

theorem foldl_cutPeriod_chan (g : GroupId) (s : State) (c : ChanId) :
    ((chansOfGroup g).foldl cutPeriod s).chan c = if groupOf c = g then { s.chan c with latched := 0 } else s.chan c :=
  foldl_chansOfGroup (fun x => { x with latched := 0 }) g s c

theorem foldl_awaitStart_groups (cs : List ChanId) (s : State) : (cs.foldl awaitStart s).groups = s.groups :=
  foldl_keep State.groups awaitStart (fun _ _ => rfl) cs s

theorem foldl_cutPeriod_groups (cs : List ChanId) (s : State) : (cs.foldl cutPeriod s).groups = s.groups :=
  foldl_keep State.groups cutPeriod (fun _ _ => rfl) cs s

/-- Each channel of the group awaits its own period start; a change of timing cuts its output (R67, R69). -/
theorem groupPeriodStart_chan (g : GroupId) (s : State) (c : ChanId) :
    (groupPeriodStart g s).chan c =
      if groupOf c = g
      then { s.chan c with started := false, latched := if (s.group g).pending = none then (s.chan c).latched else 0 }
      else s.chan c := by
  unfold groupPeriodStart
  cases hp : (s.group g).pending with
  | none => exact foldl_awaitStart_chan g s c
  | some t =>
    have hcut := foldl_cutPeriod_chan g (s.putGroup g { running := t, pending := none }) c
    refine (foldl_awaitStart_chan g _ c).trans ?_
    by_cases hg : groupOf c = g
    · rw [if_pos hg] at hcut
      rw [if_pos hg, if_pos hg, hcut]
      rfl
    · rw [if_neg hg] at hcut
      rw [if_neg hg, if_neg hg, hcut]
      rfl

/-- The group's pending timing takes effect (R69). -/
theorem groupPeriodStart_group (g : GroupId) (s : State) (h : GroupId) :
    (groupPeriodStart g s).group h =
      if h = g then ⟨(s.group g).pending.getD (s.group g).running, none⟩ else s.group h := by
  unfold groupPeriodStart
  cases hp : (s.group g).pending with
  | none =>
    have hkeep : ((chansOfGroup g).foldl awaitStart s).group h = s.group h := by
      unfold State.group
      rw [foldl_awaitStart_groups]
    refine hkeep.trans ?_
    split
    · subst h
      rw [Option.getD_none, ← hp]
    · rfl
  | some t =>
    have hput := State.putGroup_get s g h { running := t, pending := none }
    unfold State.group at hput ⊢
    dsimp only
    rw [foldl_awaitStart_groups, foldl_cutPeriod_groups, hput]
    exact if_congr eq_comm rfl rfl

/-! ### Channel period starts -/

/-- A period start already taken in this group period is not taken again (R68; log 20). -/
theorem channelPeriodStart_taken {s : State} {c : ChanId} (h : (s.chan c).started = true) (high low : Nat) :
    channelPeriodStart c high low s = s := if_pos h

/-- The monitor after a period start of channel c: only its selected channel's is counted (R122). -/
def State.monitorAtStart (s : State) (c : ChanId) (high low : Nat) : DutyMonitor :=
  if s.monitor.selected = some c then s.monitor.atPeriodStart s.verifyPeriods high low else s.monitor

theorem channelPeriodStart_latches {s : State} {c : ChanId} (h : (s.chan c).started = false) (high low : Nat) :
    channelPeriodStart c high low s = { latchOn s c with monitor := s.monitorAtStart c high low } := by
  unfold channelPeriodStart State.monitorAtStart
  rw [if_neg (by rw [h]; exact Bool.false_ne_true)]
  dsimp only
  split
  · rfl
  · rfl

theorem latchOn_chan (s : State) (c d : ChanId) :
    (latchOn s c).chan d =
      if d = c then { s.chan c with latched := if (s.chan c).state = .off then 0 else (s.chan c).duty, started := true }
      else s.chan d := by
  unfold latchOn
  rw [State.putChan_get]
  exact if_congr eq_comm rfl rfl

/-- In ALIGN a period start begins the count (R122). -/
theorem atPeriodStart_align {m : DutyMonitor} (h : m.phase = .align) (periods high low : Nat) :
    m.atPeriodStart periods high low = { m with phase := .counting, periods := 0, high := 0, time := 0 } := by
  unfold DutyMonitor.atPeriodStart
  rw [h]

/-- In COUNTING a period start ends one more period, up to the count P (R122). -/
theorem atPeriodStart_counting {m : DutyMonitor} (h : m.phase = .counting) (periods high low : Nat) :
    m.atPeriodStart periods high low =
      if m.periods < periods
      then { m with periods := m.periods + 1, high := m.high + high, time := m.time + (high + low) } else m := by
  unfold DutyMonitor.atPeriodStart
  rw [h]

theorem verifyPeriods_of_grantee {s : State} {k : LaneId} {mask : BitVec 16} {p : Nat} (hg : s.monitor.grantee = some k)
    (hv : (s.lane k).verifyParams = some (mask, p)) : s.verifyPeriods = p := by
  unfold State.verifyPeriods
  rw [hg]
  dsimp only
  rw [hv]

theorem exec_groupPeriodStart {s : State} (h : s.ready = true) (g : GroupId) :
    exec (.groupPeriodStart g) s = .next (groupPeriodStart g s) := congrArg Host.Outcome.next (whenReady_ready h _)

theorem exec_channelPeriodStart {s : State} (h : s.ready = true) (c : ChanId) (high low : Nat) :
    exec (.channelPeriodStart c high low) s = .next (channelPeriodStart c high low s) :=
  congrArg Host.Outcome.next (whenReady_ready h _)

end Sys2Proof.Machine

open Sys2Proof Sys2Proof.Machine

/-- Settles O38: a group period start entry by entry, and a channel's period start by the phase of the monitor. -/
theorem periodStartsLatchDuties : Obligations.PeriodStartsLatchDuties := by
  unfold Obligations.PeriodStartsLatchDuties
  intro s hready
  refine ⟨fun g => ?_, fun c high low => ⟨fun htaken => ?_, fun hnew => ?_⟩⟩
  · refine ⟨groupPeriodStart g s, exec_groupPeriodStart hready g, groupPeriodStart_keeps g s, groupPeriodStart_group g s,
      fun c => ?_⟩
    rw [groupPeriodStart_chan]
    exact if_congr (groupOf_eq_iff c g) rfl rfl
  · rw [exec_channelPeriodStart hready, channelPeriodStart_taken htaken]
  · refine ⟨{ latchOn s c with monitor := s.monitorAtStart c high low }, ?_, rfl, latchOn_chan s c,
      fun hsel => if_neg hsel, fun hsel hphase => ?_, fun k mask P hsel hphase hg hv => ?_⟩
    · rw [exec_channelPeriodStart hready, channelPeriodStart_latches hnew]
    · exact (if_pos hsel).trans (atPeriodStart_align hphase _ high low)
    · have hmonitor : s.monitorAtStart c high low = _ := (if_pos hsel).trans (atPeriodStart_counting hphase _ high low)
      rw [verifyPeriods_of_grantee hg hv] at hmonitor
      exact ⟨fun hlt => hmonitor.trans (if_pos hlt), fun hle => hmonitor.trans (if_neg (Nat.not_lt.mpr hle))⟩

end

