-- ==== Sys2Proof/Proofs/RampMoves.lean ====
section
/-! How a channel takes a target and moves toward it, and RAMP_MOVE on every channel with its reports (O32). -/

namespace Sys2Proof.Machine

/-! ### One channel -/

namespace Channel
variable {x : Channel}

theorem takeTarget_holds {t r : Duty} (h : t = x.start ∨ r = 0) (hm : x.offOnArrival = false) :
    x.takeTarget t r = { x with state := .holding, duty := t, target := t, rate := r } :=
  (takeTarget_arrives h).trans (arrive_unmarked hm)

theorem takeTarget_turnsOff {t r : Duty} (h : t = x.start ∨ r = 0) (hm : x.offOnArrival = true) :
    x.takeTarget t r = { x with state := .off, duty := 0, target := 0, rate := 0, offOnArrival := false } :=
  (takeTarget_arrives h).trans (arrive_marked hm)

/-- Upward, a move by the rate stays below the target (R72). -/
theorem rampMove_up_short (hs : x.state = .ramping) (hd : x.duty ≤ x.target)
    (h : x.rate.toNat < x.target.toNat - x.duty.toNat) :
    x.rampMove = { x with duty := x.duty + x.rate } ∧ (x.duty + x.rate).toNat = x.duty.toNat + x.rate.toNat ∧
      x.duty.toNat + x.rate.toNat < x.target.toNat := by
  have hsum : x.duty.toNat + x.rate.toNat < x.target.toNat := by omega
  refine ⟨(rampMove_up hs hd).trans (if_pos h), ?_, hsum⟩
  rw [BitVec.toNat_add]
  exact Nat.mod_eq_of_lt (hsum.trans x.target.isLt)

/-- Upward, a target within the rate is reached (R72, R73). -/
theorem rampMove_up_arrives (hs : x.state = .ramping) (hd : x.duty ≤ x.target)
    (h : x.target.toNat - x.duty.toNat ≤ x.rate.toNat) : x.rampMove = { x with duty := x.target }.arrive :=
  (rampMove_up hs hd).trans (if_neg (Nat.not_lt.mpr h))

/-- Downward, a move by the rate stays above the target (R72). -/
theorem rampMove_down_short (hs : x.state = .ramping) (hd : x.target < x.duty)
    (h : x.rate.toNat < x.duty.toNat - x.target.toNat) :
    x.rampMove = { x with duty := x.duty - x.rate } ∧ (x.duty - x.rate).toNat = x.duty.toNat - x.rate.toNat ∧
      x.target.toNat < x.duty.toNat - x.rate.toNat := by
  refine ⟨(rampMove_down hs hd).trans (if_pos h), BitVec.toNat_sub_of_le (BitVec.le_def.mpr (by omega)), by omega⟩

/-- Downward, a target within the rate is reached (R72, R73). -/
theorem rampMove_down_arrives (hs : x.state = .ramping) (hd : x.target < x.duty)
    (h : x.duty.toNat - x.target.toNat ≤ x.rate.toNat) : x.rampMove = { x with duty := x.target }.arrive :=
  (rampMove_down hs hd).trans (if_neg (Nat.not_lt.mpr h))

end Channel

/-! ### Every channel -/

/-- Acts without an apply mark the watched channels whose state changes, on a list of channels as on one (R73, R121). -/
theorem foldl_marks_unapplied (f : State → ChanId → State) (hf : ∀ s c, ChansOnly s (f s c))
    (hget : ∀ s c d, d ≠ c → (f s c).chan d = s.chan d) (hm : ∀ (s : State) c, s.marksDisturbed (f s c) fun _ => False)
    (cs : List ChanId) (hn : cs.Nodup) (s : State) : s.marksDisturbed (cs.foldl f s) fun _ => False := by
  have h := foldl_marks f (fun _ _ => False) hf hget (fun s c => by simpa only [and_false] using hm s c)
    (fun _ _ _ _ => Iff.rfl) cs hn s
  simpa only [and_false] using h

theorem rampOn_chansOnly (s : State) (c : ChanId) : ChansOnly s (rampOn s c) := changeChan_chansOnly s c _

theorem rampOn_chan (s : State) (c d : ChanId) :
    (rampOn s c).chan d = if d = c then (s.chan c).rampMove else s.chan d := changeChan_chan s c d _

theorem rampOn_chan_other (s : State) {c d : ChanId} (h : d ≠ c) : (rampOn s c).chan d = s.chan d := by
  rw [rampOn_chan, if_neg h]

theorem rampOn_marks (s : State) (c : ChanId) : s.marksDisturbed (rampOn s c) fun _ => False := changeChan_marks s c _

theorem foldl_rampOn_marks (s : State) : s.marksDisturbed (allChans.foldl rampOn s) fun _ => False :=
  foldl_marks_unapplied rampOn rampOn_chansOnly (fun s _ _ h => rampOn_chan_other s h) rampOn_marks allChans
    nodup_allChans s

/-- A move on every channel, each with its report, moves each channel once (R72, R73). -/
theorem reported_rampOn (s : State) :
    ReportedOnly s (reported rampOn allChans s).1 ∧
      ∀ c, (reported rampOn allChans s).1.chan c = (s.chan c).rampMove := by
  obtain ⟨honly, hchan⟩ := reported_spec rampOn (fun s c => (s.chan c).rampMove) rampOn_chansOnly rampOn_chan
    (fun s c d h => by rw [rampOn_chan_other s (Ne.symm h)]) (fun _ _ d hj => by rw [hj.chan d]) allChans nodup_allChans s
  exact ⟨honly, fun c => (hchan c).trans (if_pos (mem_allChans c))⟩

theorem exec_rampMove_idle {s : State} (h : s.ready = true) (hd : s.rampMovesDue = 0) : exec .rampMove s = .next s := by
  show Host.Outcome.next (whenReady rampMove s) = _
  rw [whenReady_ready h]
  exact congrArg Host.Outcome.next (if_pos hd)

/-- A move that is due is made, one fewer being due then (log 18). -/
theorem exec_rampMove_due {s : State} (h : s.ready = true) {d : Nat} (hd : s.rampMovesDue = d + 1) :
    exec .rampMove s = .next (finishAct (reported rampOn allChans { s with rampMovesDue := d })) := by
  have hpos : s.rampMovesDue ≠ 0 := hd ▸ Nat.succ_ne_zero d
  have hleft : s.rampMovesDue - 1 = d := by rw [hd, Nat.add_sub_cancel]
  show Host.Outcome.next (whenReady rampMove s) = _
  rw [whenReady_ready h]
  unfold rampMove
  rw [if_neg hpos, hleft]

end Sys2Proof.Machine

open Sys2Proof Sys2Proof.Machine

/-- Settles O32: one channel by its cases, one act of RAMP_MOVE, the reports, and RAMP_MOVE itself. -/
theorem channelsRampToTheirTargets : Obligations.ChannelsRampToTheirTargets := by
  unfold Obligations.ChannelsRampToTheirTargets
  refine ⟨fun x => ⟨fun t r => ?_, Channel.rampMove_still, fun hs hd => ?_, fun hs hd => ?_⟩, fun s c => ?_,
    fun f s => ⟨rfl, fun c cs => rfl⟩, fun s hready => ⟨exec_rampMove_idle hready, fun d hdue => ?_⟩⟩
  · exact ⟨Channel.takeTarget_holds, Channel.takeTarget_turnsOff, Channel.takeTarget_ramps⟩
  · exact ⟨Channel.rampMove_up_short hs hd,
      fun h hm => (Channel.rampMove_up_arrives hs hd h).trans (Channel.arrive_unmarked hm),
      fun h hm => (Channel.rampMove_up_arrives hs hd h).trans (Channel.arrive_marked hm)⟩
  · exact ⟨Channel.rampMove_down_short hs hd,
      fun h hm => (Channel.rampMove_down_arrives hs hd h).trans (Channel.arrive_unmarked hm),
      fun h hm => (Channel.rampMove_down_arrives hs hd h).trans (Channel.arrive_marked hm)⟩
  · exact ⟨rampOn s c, rfl, rampOn_chansOnly s c, rampOn_chan s c, rampOn_marks s c⟩
  · have hexec := exec_rampMove_due hready hdue
    obtain ⟨honly, hchan⟩ := reported_rampOn { s with rampMovesDue := d }
    have hquiet := reported_quiet rampOn rampOn_chansOnly allChans { s with rampMovesDue := d }
    have hmarks := foldl_rampOn_marks { s with rampMovesDue := d }
    have hmoved := (foldl_rampOn { s with rampMovesDue := d }).1
    generalize reported rampOn allChans { s with rampMovesDue := d } = a at hexec honly hchan hquiet ⊢
    generalize allChans.foldl rampOn { s with rampMovesDue := d } = u at hquiet hmarks hmoved
    obtain ⟨t, ts⟩ := a
    refine ⟨t, ts, rfl, honly, hchan, hexec, fun hq => ?_⟩
    obtain ⟨rfl, rfl⟩ := Prod.mk.inj (hquiet hq)
    obtain ⟨-, hlanes, -, -, -, -, -, -, -, -, hmonitor, -⟩ := hmoved.keeps
    rw [finishAct_nil] at hexec
    exact ⟨hexec, hlanes, hmonitor, marksDisturbed_of_mem hmarks rfl rfl rfl rfl⟩

end

