-- ==== Sys2Proof/Proofs/LoadConfig.lean ====
section
/-! LOAD_CONFIG (O50): when the part is busy, and what a good page leaves of channels, watches and timings (R177, R87,
R69). -/

namespace Sys2Proof.Machine

/-! ### The disabled channels -/

theorem disableOn_chansOnly (enable : BitVec 16) (s : State) (c : ChanId) : ChansOnly s (disableOn enable s c) := by
  unfold disableOn
  split
  · exact .refl s
  · exact changeChan_chansOnly s c _

theorem disableOn_chan_other (enable : BitVec 16) (s : State) {c d : ChanId} (h : d ≠ c) :
    (disableOn enable s c).chan d = s.chan d := by
  unfold disableOn turnOffOn
  split
  · rfl
  · rw [changeChan_chan, if_neg h]

theorem disableOn_marks (enable : BitVec 16) (s : State) (c : ChanId) :
    s.marksDisturbed (disableOn enable s c) fun _ => False := by
  unfold disableOn
  split
  · intro k
    simp
  · exact changeChan_marks s c _

/-- Disabling marks the watched channels that it turns off (R87, R121). -/
theorem foldl_disableOn_marks (enable : BitVec 16) (s : State) :
    s.marksDisturbed (allChans.foldl (disableOn enable) s) fun _ => False :=
  foldl_marks_unapplied (disableOn enable) (disableOn_chansOnly enable) (fun s _ _ h => disableOn_chan_other enable s h)
    (disableOn_marks enable) allChans nodup_allChans s

/-! ### The groups' timings -/

/-- A loaded timing is pending while it differs from the running one (R69). -/
def Group.retimed (x : Group) (t : Timing) : Group := { x with pending := if t = x.running then none else some t }

theorem retime_eq (cfg : ConfigSet) (s : State) (g : GroupId) :
    retime cfg s g = s.putGroup g ((s.group g).retimed (cfg.timing g)) := by
  unfold retime Group.retimed
  dsimp only
  split
  · rfl
  · rfl

theorem nodup_allGroups : allGroups.Nodup := by decide

/-- The loaded timings reach every group, and nothing else (R69). -/
theorem foldl_retime (cfg : ConfigSet) (s : State) :
    allGroups.foldl (retime cfg) s = { s with groups := (allGroups.foldl (retime cfg) s).groups } ∧
      ∀ g, (allGroups.foldl (retime cfg) s).group g = (s.group g).retimed (cfg.timing g) := by
  have hget (u : State) (g h : GroupId) :
      (retime cfg u g).group h = if h = g then (u.group g).retimed (cfg.timing g) else u.group h := by
    rw [retime_eq, State.putGroup_get]
    exact if_congr eq_comm rfl rfl
  refine ⟨?_, fun g => ?_⟩
  · refine foldl_induct (fun u => u = { s with groups := u.groups }) (retime cfg) (fun u g hu => ?_) allGroups s rfl
    rw [retime_eq, hu]
    rfl
  · rw [foldl_entry State.group (retime cfg) (fun u g => (u.group g).retimed (cfg.timing g)) hget
      (fun u g h hne => by rw [hget, if_neg (Ne.symm hne)]) allGroups nodup_allGroups s g, if_pos (mem_allGroups g)]

/-! ### The three answers -/

theorem busy_iff (s : State) : s.busy = true ↔ (∃ n, s.place n ≠ none) ∨ ∃ k, (s.lane k).state ≠ .idle := by
  unfold State.busy State.held
  simp [mem_allSlots, mem_allLanes, Option.isSome_iff_ne_none]

/-- The part with a new configuration set, its channels and groups not yet reached. -/
def State.loaded (s : State) (cfg : ConfigSet) : State := { s with config := cfg, configDefault := false }

theorem loadConfig_busy {s : State} (h : s.busy = true) : loadConfig s = s.answer codeLoadConfig .busy 0xFF#8 := if_pos h

theorem loadConfig_invalid {s : State} (h : s.busy = false) {off : Nat} (hf : firstBadField s.mem = some off) :
    loadConfig s = s.answer codeLoadConfig .configInvalid (BitVec.ofNat 8 off) := by
  unfold loadConfig
  rw [h, hf]
  rfl

theorem loadConfig_good {s : State} (h : s.busy = false) (hf : firstBadField s.mem = none) :
    loadConfig s =
      (allGroups.foldl (retime (configOfPage s.mem))
        (allChans.foldl (disableOn (configOfPage s.mem).enable) (s.loaded (configOfPage s.mem)))).answer
        codeLoadConfig .accepted 0 := by
  unfold loadConfig
  rw [h, hf]
  rfl

theorem ChansOnly.group {s t : State} (h : ChansOnly s t) (g : GroupId) : t.group g = s.group g := by
  unfold ChansOnly at h
  rw [h]
  rfl

/-- A good page is taken whole: the configuration, then its channels, then its groups (R177, R87, R69). -/
theorem loadConfig_takes {s : State} (h : s.busy = false) (hf : firstBadField s.mem = none) :
    loadConfig s = { s with
      config := configOfPage s.mem, configDefault := false, channels := (loadConfig s).channels,
      groups := (loadConfig s).groups, watches := (loadConfig s).watches, result := ⟨.accepted, codeLoadConfig, 0⟩ } ∧
    (∀ c, (loadConfig s).chan c =
      if inChans (configOfPage s.mem).enable c = true then s.chan c else (s.chan c).turnOff) ∧
    s.marksDisturbed (loadConfig s) (fun _ => False) ∧
    ∀ g, (loadConfig s).group g = (s.group g).retimed ((configOfPage s.mem).timing g) := by
  rw [loadConfig_good h hf]
  generalize configOfPage s.mem = cfg
  obtain ⟨honly, hchan⟩ := foldl_disableOn cfg.enable (s.loaded cfg)
  have hmarks := foldl_disableOn_marks cfg.enable (s.loaded cfg)
  generalize allChans.foldl (disableOn cfg.enable) (s.loaded cfg) = u at honly hchan hmarks
  obtain ⟨hrest, hgroup⟩ := foldl_retime cfg u
  generalize allGroups.foldl (retime cfg) u = v at hrest hgroup
  have hgroups (g : GroupId) : v.group g = (s.group g).retimed (cfg.timing g) := by
    rw [hgroup, honly.group]
    rfl
  unfold ChansOnly at honly
  have hv : v = { s.loaded cfg with channels := u.channels, watches := u.watches, groups := v.groups } := by
    rw [hrest, honly]
  refine ⟨?_, fun c => ?_, ?_, hgroups⟩
  · rw [hv]
    rfl
  · rw [hv]
    exact hchan c
  · rw [hv]
    exact marksDisturbed_of_mem hmarks rfl rfl rfl rfl

theorem exec_loadConfig {s : State} (h : s.ready = true) : exec .loadConfig s = .next (loadConfig (s.judged 80 [])) := by
  show Host.Outcome.next (asCommand loadConfig s) = _
  rw [asCommand_ready _ s h]

end Sys2Proof.Machine

open Sys2Proof Sys2Proof.Machine

/-- Settles O50: BUSY, CONFIG_INVALID, or the page taken whole. -/
theorem loadConfigTakesThePageOrNothing : Obligations.LoadConfigTakesThePageOrNothing := by
  unfold Obligations.LoadConfigTakesThePageOrNothing
  intro s hready
  rw [exec_loadConfig hready]
  refine ⟨fun hbusy => ?_, fun hplace hidle => ?_⟩
  · rw [loadConfig_busy (s := s.judged 80 []) ((busy_iff s).mpr hbusy)]
    rfl
  · have hfree : (s.judged 80 []).busy = false := Bool.eq_false_iff.mpr fun hb =>
      ((busy_iff s).mp hb).elim (fun ⟨n, hn⟩ => hn (hplace n)) fun ⟨k, hk⟩ => hk (hidle k)
    refine ⟨fun off hoff => ?_, fun hgood => ?_⟩
    · rw [loadConfig_invalid hfree hoff]
      rfl
    · obtain ⟨hall, hchan, hmarks, hgroup⟩ := loadConfig_takes hfree hgood
      generalize loadConfig (s.judged 80 []) = t at hall hchan hmarks hgroup ⊢
      have hcfg : t.config = configOfPage s.mem := by rw [hall]; rfl
      refine ⟨t, rfl, hall, fun c => ?_, hmarks, fun g => ?_⟩
      · rw [hcfg]
        exact hchan c
      · rw [hcfg, hgroup]
        exact ⟨rfl, rfl⟩

end

