-- ==== Sys2Proof/Proofs/AtOnceSteps.lean ====
section
/-! The steps that end PASS in the act that starts them (O30): the marks their channels leave, and each kind's step. -/

namespace Sys2Proof.Machine

/-! ### Marks of an act on a mask -/

theorem setOn_marks (x r : Duty) (s : State) (c : ChanId) : s.marksDisturbed (setOn x r s c) fun _ => False :=
  changeChan_marks s c _

theorem offOn_marks (r : Duty) (s : State) (c : ChanId) : s.marksDisturbed (offOn r s c) fun _ => False :=
  changeChan_marks s c _

/-- A SET marks the watched channels whose state changes (R77, R121). -/
theorem onChans_setOn_marks (m : BitVec 16) (x r : Duty) (s : State) :
    s.marksDisturbed (onChans m (setOn x r) s) fun _ => False :=
  foldl_marks_unapplied (setOn x r) (fun s c => changeChan_chansOnly s c _)
    (fun s c d h => by rw [setOn, changeChan_chan, if_neg h]) (setOn_marks x r) _ (nodup_allChans.filter _) s

/-- An OFF marks the watched channels whose state changes (R83, R121). -/
theorem onChans_offOn_marks (m : BitVec 16) (r : Duty) (s : State) :
    s.marksDisturbed (onChans m (offOn r) s) fun _ => False :=
  foldl_marks_unapplied (offOn r) (fun s c => changeChan_chansOnly s c _)
    (fun s c d h => by rw [offOn, changeChan_chan, if_neg h]) (offOn_marks r) _ (nodup_allChans.filter _) s

/-- A staged SET changes no channel's state, so it reaches channels alone (R78). -/
theorem onChans_stageOn_channels (m : BitVec 16) (x r : Duty) (s : State) :
    onChans m (stageOn x r) s = { s with channels := (onChans m (stageOn x r) s).channels } := by
  have hput (u : State) (c : ChanId) : stageOn x r u c = u.putChan c ((u.chan c).stage x r) := if_pos rfl
  refine foldl_induct (fun u => u = { s with channels := u.channels }) (stageOn x r) (fun u c hu => ?_) _ s rfl
  rw [hput, hu]
  rfl

/-! ### APPLY -/

/-- The channels an APPLY of lane k reaches: those of its mask, with mask 0 all the lane claims (R80). -/
def State.appliesTo (s : State) (k : LaneId) (mask : BitVec 16) (c : ChanId) : Prop :=
  (mask = 0 ∧ s.ownerOf c = some k) ∨ (mask ≠ 0 ∧ inChans mask c = true)

theorem inChans_applied (s : State) (k : LaneId) (mask : BitVec 16) (c : ChanId) :
    inChans (if mask = 0 then s.chansHeld k else mask) c = true ↔ s.appliesTo k mask c := by
  unfold State.appliesTo
  by_cases h : mask = 0
  · rw [if_pos h, inChans_chansHeld, decide_eq_true_iff]
    exact ⟨fun ho => .inl ⟨h, ho⟩, fun hc => hc.elim And.right fun hm => absurd h hm.1⟩
  · rw [if_neg h]
    exact ⟨fun hm => .inr ⟨h, hm⟩, fun hc => hc.elim (fun h0 => absurd h0.1 h) And.right⟩

theorem marksDisturbed_congr {s t : State} {p q : ChanId → Prop} (h : s.marksDisturbed t p) (hpq : ∀ c, p c ↔ q c) :
    s.marksDisturbed t q := by
  obtain rfl : p = q := funext fun c => propext (hpq c)
  exact h

/-- An APPLY marks the watched channels that had a pending target (R80, R121). -/
theorem onChans_applyOn_marks (m : BitVec 16) (s : State) :
    s.marksDisturbed (onChans m applyOn s) fun c => (s.chan c).pending ≠ none ∧ inChans m c = true :=
  marksDisturbed_congr (foldl_applyOn_marks _ (nodup_allChans.filter (inChans m)) s) fun c => by
    simp [List.mem_filter, mem_allChans]

/-! ### PASS at the first instant -/

/-- The result of a step that ends PASS at its first instant (R35, R36). -/
def passAtOnce : StepResult := plainResult .pass .none 0

theorem stepPass_atOnce {s : State} {k : LaneId} (h : (s.lane k).ticks = 0) : stepPass s k = stepEnd s k passAtOnce := by
  unfold stepPass
  rw [h]
  rfl

theorem ChansOnly.stepPass_atOnce {s t : State} (ho : ChansOnly s t) {k : LaneId} (h : (s.lane k).ticks = 0) :
    stepPass t k = stepEnd t k passAtOnce := Machine.stepPass_atOnce (by rw [ho.lane]; exact h)

theorem LinesOnly.stepPass_atOnce {s t : State} (ho : LinesOnly s t) {k : LaneId} (h : (s.lane k).ticks = 0) :
    stepPass t k = stepEnd t k passAtOnce := by
  refine Machine.stepPass_atOnce ?_
  unfold LinesOnly at ho
  rw [ho]
  exact h

theorem Line.detectorAfter_eq (x : Line) (mode : LineMode) :
    x.detectorAfter mode =
      if mode ≠ .inputEdge then none else if x.mode = .inputEdge then x.detector else some x.level := by
  unfold Line.detectorAfter
  exact (ite_not _ _ _).symm

end Sys2Proof.Machine

open Sys2Proof Sys2Proof.Machine

/-- Settles O30: each kind acts on its mask and leaves the rest, and its lane, at its first instant, ends the step PASS. -/
theorem atOnceStepsActThenPass : Obligations.AtOnceStepsActThenPass := by
  unfold Obligations.AtOnceStepsActThenPass
  intro s k hfirst passes
  refine ⟨fun mask x r => ?set, fun mask x r settle => ?stage, fun mask => ?apply, fun mask r => ?off,
    fun mask mode levels => ?lines, stepPass_atOnce hfirst⟩
  case set =>
    obtain ⟨honly, hchan⟩ := onChans_setOn mask x r s
    exact ⟨_, honly, honly.stepPass_atOnce hfirst, onChans_setOn_marks mask x r s, hchan⟩
  case stage =>
    obtain ⟨honly, hchan⟩ := onChans_stageOn mask x r s
    exact ⟨_, onChans_stageOn_channels mask x r s, honly.stepPass_atOnce hfirst, hchan⟩
  case apply =>
    obtain ⟨honly, hchan⟩ := onChans_applyOn (if mask = 0 then s.chansHeld k else mask) s
    have hmarks := onChans_applyOn_marks (if mask = 0 then s.chansHeld k else mask) s
    refine ⟨_, honly, honly.stepPass_atOnce hfirst,
      marksDisturbed_congr hmarks fun c => and_congr_right fun _ => inChans_applied s k mask c, fun c => ?_⟩
    rw [hchan]
    unfold Channel.applied
    cases (s.chan c).pending with
    | none => exact ite_self _
    | some p => exact if_congr (inChans_applied s k mask c) rfl rfl
  case off =>
    obtain ⟨honly, hchan⟩ := onChans_offOn mask r s
    exact ⟨_, honly, honly.stepPass_atOnce hfirst, onChans_offOn_marks mask r s, hchan⟩
  case lines =>
    obtain ⟨honly, hline⟩ := onLines_lineSetOn mask mode levels s
    refine ⟨_, honly, honly.stepPass_atOnce hfirst, fun l => ⟨fun hl => ?_, fun hl => ?_⟩⟩
    · rw [hline, hl, if_neg Bool.false_ne_true]
    · rw [hline, if_pos hl]
      exact ⟨rfl, rfl, rfl, (s.line l).detectorAfter_eq mode⟩

end

