-- ==== Sys2Proof/Proofs/StepsKeepChannelsLegal.lean ====
section
/-! Every step keeps every channel in a state of the table of R71 (O7): the events, the commands and the resets. -/

namespace Sys2Proof.Machine

section
variable {s : State} (h : s.channelsLegal)
include h

/-! ### Time -/

/-- A move and the reports that follow it (R72, R73). -/
theorem rampMove_legal : (rampMove s).channelsLegal := by
  unfold rampMove
  split
  · exact h
  · refine finishAct_legal fun c => ?_
    rw [(reported_rampOn _).2]
    exact Channel.rampMove_legal (h c)

theorem stepTimeout_legal (k : LaneId) : (stepTimeout k s).channelsLegal := by
  unfold stepTimeout
  split
  · exact finishAct_legal (timeOutStep_legal h k)
  · exact h

theorem planTimeout_legal (k : LaneId) : (planTimeout k s).channelsLegal := by
  unfold planTimeout
  split
  · exact finishAct_legal (cutLane_legal (s := s.setLane k { s.lane k with planTimer := none }) h k _)
  · exact h

theorem delayExpiry_legal (k : LaneId) : (delayExpiry k s).channelsLegal := by
  unfold delayExpiry
  split
  · exact finishAct_legal (stepEnd_legal h k _)
  · exact h

theorem triggerDelayExpiry_legal (k : LaneId) : (triggerDelayExpiry k s).channelsLegal := by
  unfold triggerDelayExpiry
  split
  · exact requestConverter_legal (s := stopInterval s k) h k
  · exact h

theorem confirmationExpiry_legal (k : LaneId) : (confirmationExpiry k s).channelsLegal := by
  unfold confirmationExpiry
  split_ifs
  · exact requestConverter_legal (s := stopInterval s k) h k
  · exact h
  · exact h

theorem pollIntervalExpiry_legal (k : LaneId) : (pollIntervalExpiry k s).channelsLegal := by
  unfold pollIntervalExpiry
  split
  · exact requestLink_legal (s := stopInterval s k) h k
  · exact h

/-- The safe order reaches the channels through the claim table, the lanes' endings and its own part (R61, R49, R85). -/
theorem monitorExpiry_legal : (monitorExpiry s).channelsLegal := by
  by_cases hdue : s.holdSafe.state = .watching ∧ s.holdSafe.expiryDue = true
  · have hclear : (enterSafe s).clearClaims.channelsLegal := clearClaims_legal (s := enterSafe s) h
    have hlanes : (safeLanes (enterSafe s).clearClaims).channelsLegal :=
      foldl_induct State.channelsLegal safeLane (fun u k hu => finishAct_legal (cutLane_legal hu k _)) _ _ hclear
    have hintake := hlanes.of_channels (t := safeIntake _) (by rw [safeIntake_eq])
    rw [monitorExpiry_due hdue]
    exact (foldl_safeOn_legal hintake).of_channels (foldl_safeLineOn _).1.channels
  · rwa [monitorExpiry_not_due s hdue]

theorem tick_legal : (tick s).channelsLegal := State.channelsLegal.of_channels (monitorExpiry_legal h) rfl

/-! ### Conversions and lines -/

theorem endCycle_legal (k : LaneId) (v : StepOutcome × StepDetail) : (endCycle s k v).1.channelsLegal := by
  have hhalf := h.of_channels (completeHalfPair_halfPairOnly s k s.converter.count).channels
  exact stepEnd_legal (hhalf.of_channels (releaseConverter_phasesOnly _).channels) k _

theorem recordConversion_legal (k : LaneId) (p : CycleParams) (code : Duty) :
    (recordConversion s k p code).1.channelsLegal := by
  have hrec : State.channelsLegal { s with converter := s.converter.record code } := h
  have hsample := hrec.of_channels (storeSample_halfPairOnly _ k s.converter.count code).channels
  unfold recordConversion
  dsimp only
  generalize storeSample { s with converter := s.converter.record code } k s.converter.count code = t at hsample
  split_ifs
  · exact endCycle_legal hsample k _
  · exact endCycle_legal hsample k _
  · exact endCycle_legal hsample k _
  · unfold beginSampleWait
    split
    · exact hsample
    · exact hsample

theorem conversionEnd_legal (code : Duty) : (conversionEnd code s).channelsLegal := by
  unfold conversionEnd
  split
  · exact finishAct_legal (recordConversion_legal h _ _ code)
  · exact h

theorem sampleWaitExpiry_legal : (sampleWaitExpiry s).channelsLegal := by
  unfold sampleWaitExpiry
  split
  · exact h
  · exact h

theorem handLevel_legal (l : LineId) (k : LaneId) : (handLevel s l k).channelsLegal := by
  unfold handLevel confirmTrigger
  split
  · exact h
  · split
    · split
      · split
        · exact requestConverter_legal h k
        · exact h
      · split
        · exact h
        · exact h
      · exact h
    · exact h

theorem levelChange_legal (l : LineId) : (levelChange l s).channelsLegal := by
  unfold levelChange
  dsimp only
  split
  · exact handLevel_legal (s := s.putLine l (s.line l).levelChanged) h l _
  · exact h

/-! ### Period starts and measurements -/

/-- The latched duty is no part of the table. -/
theorem groupPeriodStart_legal (g : GroupId) : (groupPeriodStart g s).channelsLegal :=
  channelsLegal_of_ite h (groupPeriodStart_chan g s) h

theorem channelPeriodStart_legal (c : ChanId) (high low : Nat) : (channelPeriodStart c high low s).channelsLegal := by
  have hlatch : (latchOn s c).channelsLegal := channelsLegal_of_ite h (latchOn_chan s c) fun _ => h c
  unfold channelPeriodStart
  split
  · exact h
  · dsimp only
    split
    · exact hlatch
    · exact hlatch

theorem measurementEnd_legal : (measurementEnd s).channelsLegal := by
  have hend (k : LaneId) (c : ChanId) (mask : BitVec 16) : (endMeasurement s k c mask).1.channelsLegal := by
    have hrec : (recordMeasure s k c).channelsLegal := h
    cases hn : nextMasked mask c with
    | some d =>
      rw [endMeasurement_next hn]
      exact hrec
    | none =>
      obtain ⟨r, hr⟩ := endMeasurement_last (s := s) (k := k) hn
      rw [hr]
      exact stepEnd_legal (hrec.of_channels (releaseMonitor_phasesOnly _).channels) k r
  unfold measurementEnd
  split
  · split
    · exact h
    · split
      · exact State.channelsLegal.of_channels (finishAct_legal (hend _ _ _)) rfl
      · exact h
  · exact h

/-! ### The link -/

theorem reportWindDown_legal (k : LaneId) : (reportWindDown s k).1.channelsLegal := by
  unfold reportWindDown
  split
  · exact endWindDown_legal h k _
  · exact h

theorem endTransfer_legal (k : LaneId) (outcome : StepOutcome) (detail : StepDetail) :
    (endTransfer s k outcome detail).1.channelsLegal :=
  stepEnd_legal (h.of_channels (releaseLink_phasesOnly s).channels) k _

theorem closeTransfer_legal (k : LaneId) (p : LinkParams) : (closeTransfer s k p).1.channelsLegal := by
  unfold closeTransfer
  split
  · exact endTransfer_legal h k _ _
  · exact endTransfer_legal h k _ _
  · exact endTransfer_legal h k _ _
  · split
    · exact h.of_channels (releaseLink_phasesOnly s).channels
    · exact endTransfer_legal h k _ _

theorem recoveryComplete_legal : (recoveryComplete s).channelsLegal := by
  unfold recoveryComplete
  split
  · exact h
  · have ht : (s.setLink { s.link with busUncertain := false }).channelsLegal := h
    split
    · dsimp only
      split
      · exact finishAct_legal (reportWindDown_legal ht _)
      · exact ht
    · exact h

theorem linkStopComplete_legal : (linkStopComplete s).channelsLegal := by
  unfold linkStopComplete
  split
  · exact h
  · split
    · split
      · exact finishAct_legal (reportWindDown_legal h _)
      · exact finishAct_legal (closeTransfer_legal h _ _)
    · exact h

theorem busStuck_legal : (busStuck s).channelsLegal := by
  unfold busStuck
  split
  · exact h
  · have ht : (s.setLink { s.link with busUncertain := true }).channelsLegal := h
    split
    · dsimp only
      split
      · exact finishAct_legal (reportWindDown_legal ht _)
      · exact finishAct_legal (endTransfer_legal ht _ _ _)
    · exact h

/-! ### Commands -/

theorem post_legal (b : Byte) : (post b s).channelsLegal := by
  have haccept (n : SlotId) : (acceptPost s n).1.channelsLegal := by
    have hwrites := h.of_channels (acceptWrites_memOutside s n).channels
    have hrenew : (acceptWrites s n).renewed.channelsLegal := hwrites.of_channels (by rw [renewed_eq])
    unfold acceptPost
    generalize (acceptWrites s n).renewed = u at hrenew
    dsimp only
    split
    · exact hrenew
    · exact hrenew
  unfold post
  split
  · exact h
  · split
    · exact h
    · exact finishAct_legal (haccept _)

theorem abort_legal (b : Byte) : (abort b s).channelsLegal := by
  have hunrun (u : State) (n : SlotId) (hu : u.channelsLegal) : (endUnrun .hostAbort u n).channelsLegal :=
    hu.of_channels (by rw [endUnrun_eq])
  have habort (n : SlotId) (p : Place) : (abortAt s n p).1.channelsLegal := by
    cases p with
    | queued k => exact hunrun (s.setQueue k ((s.queue k).erase n)) n h
    | parked => exact hunrun { s with parked := s.parked.erase n } n h
    | running k => exact cutLane_legal (h.of_channels (State.answer_channels s _ _ _)) k _
  unfold abort
  split
  · exact h
  · split
    · exact h
    · exact finishAct_legal (habort _ _)

theorem go_legal (lanes : BitVec 4) (apply : Bool) : (go lanes apply s).channelsLegal := by
  unfold go
  refine finishAct_legal ?_
  cases apply with
  | false => exact h
  | true =>
    refine State.channelsLegal.of_channels (s := (applyPart s lanes).1) (fun c => ?_) rfl
    rw [(applyPart_spec s lanes).2]
    split
    · exact Channel.applied_legal (h c)
    · exact h c

theorem renew_legal : (renew s).channelsLegal := by
  unfold renew
  split
  · rw [renewed_eq]
    exact h
  · exact h
  · exact h

theorem turnMonitorOn_legal : (turnMonitorOn s).channelsLegal := by
  unfold turnMonitorOn
  split
  · exact h
  · exact h
  · exact h

theorem resume_legal : (resume s).channelsLegal := by
  unfold resume
  split_ifs
  · exact h
  · exact h
  · exact h

/-- A channel that the new enable mask does not name is turned off (R87). -/
theorem loadConfig_legal : (loadConfig s).channelsLegal := by
  cases hbusy : s.busy with
  | true =>
    rw [loadConfig_busy hbusy]
    exact h
  | false =>
    cases hbad : firstBadField s.mem with
    | some off =>
      rw [loadConfig_invalid hbusy hbad]
      exact h
    | none =>
      obtain ⟨-, hchan, -, -⟩ := loadConfig_takes hbusy hbad
      intro c
      rw [hchan]
      split
      · exact h c
      · exact (s.chan c).turnOff_legal

omit h in
/-- The reset channels are OFF and cut low (R89). -/
theorem resetBlocks_legal (s : State) : s.resetBlocks.channelsLegal := fun c => by
  unfold State.chan
  rw [(resetBlocks_spec s).1]
  show ((vec16 fun c => (s.chan c).cutOff)[c.val]).legal
  rw [vec16_get]
  exact (s.chan c).cutOff_legal

omit h in
theorem engineReset_legal (s : State) : (engineReset s).channelsLegal := (resetBlocks_legal s).of_channels rfl

omit h in
/-- After a device reset every channel is the reset channel (R88). -/
theorem channelsLegal_of_reset {s : State} (hs : s.channels = vec16 fun _ => Channel.reset) : s.channelsLegal := fun c => by
  unfold State.chan
  rw [hs]
  show ((vec16 fun _ => Channel.reset)[c.val]).legal
  rw [vec16_get]
  exact Channel.reset_legal

theorem dispatchWord_legal (w : Word) : (dispatchWord w s).channelsLegal := by
  unfold dispatchWord
  dsimp only
  split
  · exact post_legal h _
  · exact abort_legal h _
  · exact go_legal h _ _
  · exact renew_legal h
  · exact loadConfig_legal h
  · exact engineReset_legal s
  · exact turnMonitorOn_legal h
  · exact resume_legal h
  · exact h
  · exact h

theorem receiveWrite_legal (addr : Half) (data : List Byte) (crc : Half) :
    (receiveWrite addr data crc s).channelsLegal := by
  have hstore {u : State} (hu : u.channelsLegal) (a : Nat) : (u.storeFrame a data).channelsLegal := by
    unfold State.storeFrame
    split
    · exact hu
    · exact hu
  have happly {u : State} (hu : u.channelsLegal) : (applyWrite addr data u).channelsLegal := by
    unfold applyWrite writeRegisters
    dsimp only
    split
    · exact hstore hu _
    · exact hstore hu _
    · split
      · exact hu
      · exact hstore hu _
    · exact hu
    · split_ifs
      · exact dispatchWord_legal hu _
      · exact hu
      · exact hu
    · exact hu
  unfold receiveWrite inWriteFrame
  split
  · exact happly h
  · exact h

theorem receiveRead_legal (addr : Half) (l : Byte) (crc : Half) : (receiveRead addr l crc s).channelsLegal := by
  unfold receiveRead
  dsimp only
  split_ifs
  · exact h
  · exact h
  · exact h

/-! ### Every command -/

theorem whenReady_legal {f : State → State} (hf : (f s).channelsLegal) : (whenReady f s).channelsLegal := by
  unfold whenReady
  split
  · exact hf
  · exact h

/-- A host command in its frame. -/
theorem asCommand_legal {f : State → State} (hf : ∀ {u : State}, u.channelsLegal → (f u).channelsLegal) :
    (asCommand f s).channelsLegal := whenReady_legal h (hf (u := s.judged _ _) h)

theorem exec_legal {c : Instr} {t : State} (hx : exec c s = .next t) : t.channelsLegal := by
  cases c with
  | post b => obtain rfl := next_inj hx; exact asCommand_legal h fun hu => post_legal hu b
  | abort b => obtain rfl := next_inj hx; exact asCommand_legal h fun hu => abort_legal hu b
  | go lanes apply => obtain rfl := next_inj hx; exact asCommand_legal h fun hu => go_legal hu lanes apply
  | renew => obtain rfl := next_inj hx; exact asCommand_legal h renew_legal
  | loadConfig => obtain rfl := next_inj hx; exact asCommand_legal h loadConfig_legal
  | engineReset => obtain rfl := next_inj hx; exact asCommand_legal h fun _ => engineReset_legal _
  | monitorOn => obtain rfl := next_inj hx; exact asCommand_legal h turnMonitorOn_legal
  | resume => obtain rfl := next_inj hx; exact asCommand_legal h resume_legal
  | clearFlags => obtain rfl := next_inj hx; exact asCommand_legal h id
  | unknownCommand code =>
    obtain rfl := next_inj hx
    split
    · exact h
    · exact asCommand_legal h id
  | finishedWrite mask => obtain rfl := next_inj hx; exact whenReady_legal h h
  | readOnlyRegisterWrite addr data =>
    obtain rfl := next_inj hx
    refine whenReady_legal h ?_
    split
    · exact h
    · exact h
  | writeFrame addr data crc =>
    obtain rfl := next_inj hx
    refine whenReady_legal h ?_
    split
    · exact receiveWrite_legal h addr data crc
    · exact h
  | readFrame addr l crc => obtain rfl := next_inj hx; exact whenReady_legal h (receiveRead_legal h addr l crc)
  | badOperationByte op =>
    obtain rfl := next_inj hx
    refine whenReady_legal h ?_
    split
    · exact h
    · exact h
  | earlyNcsRise bits =>
    obtain rfl := next_inj hx
    refine whenReady_legal h ?_
    split
    · exact h
    · exact h
  | deviceReset => obtain rfl := next_inj hx; exact channelsLegal_of_reset rfl
  | deviceResetEnd strap levels =>
    obtain rfl := next_inj hx
    split
    · exact h
    · exact channelsLegal_of_reset rfl
  | tick => obtain rfl := next_inj hx; exact whenReady_legal h (tick_legal h)
  | monitorExpiry => obtain rfl := next_inj hx; exact whenReady_legal h (monitorExpiry_legal h)
  | rampMove => obtain rfl := next_inj hx; exact whenReady_legal h (rampMove_legal h)
  | stepTimeout k => obtain rfl := next_inj hx; exact whenReady_legal h (stepTimeout_legal h k)
  | planTimeout k => obtain rfl := next_inj hx; exact whenReady_legal h (planTimeout_legal h k)
  | delayExpiry k => obtain rfl := next_inj hx; exact whenReady_legal h (delayExpiry_legal h k)
  | triggerDelayExpiry k => obtain rfl := next_inj hx; exact whenReady_legal h (triggerDelayExpiry_legal h k)
  | confirmationExpiry k => obtain rfl := next_inj hx; exact whenReady_legal h (confirmationExpiry_legal h k)
  | pollIntervalExpiry k => obtain rfl := next_inj hx; exact whenReady_legal h (pollIntervalExpiry_legal h k)
  | sampleWaitExpiry => obtain rfl := next_inj hx; exact whenReady_legal h (sampleWaitExpiry_legal h)
  | conversionEnd code => obtain rfl := next_inj hx; exact whenReady_legal h (conversionEnd_legal h code)
  | levelChange l => obtain rfl := next_inj hx; exact whenReady_legal h (levelChange_legal h l)
  | groupPeriodStart g => obtain rfl := next_inj hx; exact whenReady_legal h (groupPeriodStart_legal h g)
  | channelPeriodStart ch high low =>
    obtain rfl := next_inj hx
    exact whenReady_legal h (channelPeriodStart_legal h ch high low)
  | measurementEnd => obtain rfl := next_inj hx; exact whenReady_legal h (measurementEnd_legal h)
  | linkStartDone =>
    obtain rfl := next_inj hx
    exact whenReady_legal h (h.of_channels (linkStartDone_elementOnly s).channels)
  | linkByteSent ack =>
    obtain rfl := next_inj hx
    exact whenReady_legal h (h.of_channels (linkByteSent_elementOnly ack s).channels)
  | linkByteRead b =>
    obtain rfl := next_inj hx
    exact whenReady_legal h (h.of_channels (linkByteRead_elementOnly b s).channels)
  | linkRestartDone =>
    obtain rfl := next_inj hx
    exact whenReady_legal h (h.of_channels (linkRestartDone_elementOnly s).channels)
  | linkReadAckBitEnd =>
    obtain rfl := next_inj hx
    exact whenReady_legal h (h.of_channels (linkReadAckBitEnd_elementOnly s).channels)
  | recoveryComplete => obtain rfl := next_inj hx; exact whenReady_legal h (recoveryComplete_legal h)
  | linkStopComplete => obtain rfl := next_inj hx; exact whenReady_legal h (linkStopComplete_legal h)
  | busStuck => obtain rfl := next_inj hx; exact whenReady_legal h (busStuck_legal h)

end

end Sys2Proof.Machine

open Sys2Proof Sys2Proof.Machine

/-- Settles O7: the table of R71 binds a channel's state, duty, target, rate and marker, and those change only by an arrival,
a taken target, a move short of the target or a turning off. -/
theorem everyStepKeepsChannelsLegal : Obligations.EveryStepKeepsChannelsLegal := by
  unfold Obligations.EveryStepKeepsChannelsLegal
  intro s t h hstep
  unfold step at hstep
  split at hstep
  · obtain rfl := next_inj hstep
    exact h
  · rename_i c rest _
    exact exec_legal (s := { s with pending := rest }) h hstep

end

