-- ==== Sys2Proof/Proofs/DetectorsAndStatistics.lean ====
section
/-! SUPPORT. The law of the edge detectors and the law of the arithmetic unit (O10): what an act on one line and on the
converter makes of them, and that every task, every act and every ending from outside carries both on. -/

namespace Sys2Proof.Machine

/-! ### One line -/

/-- A change of mode starts the detector at the sampled level, keeps it or stops it (R136). -/
theorem Line.setTo_detectorLegal {x : Line} (h : x.detectorLegal) (latch : Bool) (mode : LineMode) :
    (x.setTo latch mode).detectorLegal := by
  obtain ⟨hruns, hlevel⟩ := h
  show (x.detectorAfter mode = none ↔ mode ≠ .inputEdge) ∧ ∀ d, x.detectorAfter mode = some d → d = x.level
  rw [Line.detectorAfter_eq]
  split
  · rename_i hother
    exact ⟨iff_of_true rfl hother, nofun⟩
  · rename_i hedge
    split
    · rename_i hbefore
      exact ⟨iff_of_false (mt hruns.mp (not_not.mpr hbefore)) hedge, hlevel⟩
    · exact ⟨iff_of_false nofun hedge, fun d hd => (Option.some.inj hd).symm⟩

/-- A running detector takes the new level as its reference (R136). -/
theorem Line.levelChanged_detectorLegal {x : Line} (h : x.detectorLegal) : x.levelChanged.detectorLegal := by
  refine ⟨Option.map_eq_none_iff.trans h.1, fun d hd => ?_⟩
  obtain ⟨_, -, hlevel⟩ := Option.map_eq_some_iff.mp hd
  exact hlevel.symm

theorem Line.reset_detectorLegal (level : Bool) : (Line.reset level).detectorLegal :=
  ⟨iff_of_true rfl nofun, nofun⟩

/-! ### The arithmetic unit -/

/-- A cleared unit has nothing to order (R92). -/
theorem Converter.ordered_of_cleared {x : Converter} (hc : x.count = 0) (hs : x.sum = 0) : x.ordered :=
  ⟨fun _ => hs, fun h => absurd hc (Nat.one_le_iff_ne_zero.mp h)⟩

/-- The arithmetic unit after a code: the first code is the least and the greatest one, a later one if it passes them
(R92). -/
theorem Converter.record_eq (x : Converter) (code : Duty) :
    x.record code = { x with
      count := x.count + 1, sum := x.sum + code.toNat, last := code,
      min := if x.count = 0 then code else if code < x.min then code else x.min,
      max := if x.count = 0 then code else if x.max < code then code else x.max } := by
  unfold Converter.record
  rw [ite_or, ite_or]

/-- The first code is the least, the greatest and the last one at once. -/
theorem Converter.record_first {x : Converter} (hc : x.count = 0) (code : Duty) :
    x.record code = { x with count := 1, sum := x.sum + code.toNat, last := code, min := code, max := code } := by
  rw [Converter.record_eq, if_pos hc, if_pos hc, hc]

/-- A later code lies between the new least and greatest ones, and so does every code before it (R92). -/
theorem Converter.record_bounds {x : Converter} (hc : x.count ≠ 0) (code : Duty) :
    (x.record code).min.toNat ≤ code.toNat ∧ code.toNat ≤ (x.record code).max.toNat ∧
      (x.record code).min.toNat ≤ x.min.toNat ∧ x.max.toNat ≤ (x.record code).max.toNat := by
  rw [Converter.record_eq, if_neg hc, if_neg hc]
  simp only [apply_ite BitVec.toNat, BitVec.lt_def]
  split_ifs <;> omega

theorem Converter.record_ordered {x : Converter} (h : x.ordered) (code : Duty) : (x.record code).ordered := by
  by_cases hc : x.count = 0
  · rw [Converter.record_first hc]
    refine ⟨nofun, fun _ => ⟨Nat.le_refl _, Nat.le_refl _, ?_, ?_⟩⟩
    · show code.toNat * 1 ≤ x.sum + code.toNat
      omega
    · show x.sum + code.toNat ≤ code.toNat * 1
      have := h.1 hc
      omega
  · obtain ⟨-, -, hlow, hhigh⟩ := h.2 (Nat.one_le_iff_ne_zero.mpr hc)
    obtain ⟨hmin, hmax, hmin', hmax'⟩ := Converter.record_bounds hc code
    refine ⟨fun h0 => absurd h0 (Nat.succ_ne_zero _), fun _ => ⟨hmin, hmax, ?_, ?_⟩⟩
    · show _ * (x.count + 1) ≤ x.sum + code.toNat
      have := Nat.mul_le_mul_right x.count hmin'
      rw [Nat.mul_succ]
      omega
    · show x.sum + code.toNat ≤ _ * (x.count + 1)
      have := Nat.mul_le_mul_right x.count hmax'
      rw [Nat.mul_succ]
      omega

/-- The average of codes between two bounds lies between them (R92). -/
theorem Converter.average_bounds {x : Converter} (h : x.ordered) (hc : 1 ≤ x.count) :
    x.min.toNat ≤ x.average ∧ x.average ≤ x.max.toNat := by
  obtain ⟨-, -, hlow, hhigh⟩ := h.2 hc
  unfold Converter.average
  rw [if_neg (Nat.one_le_iff_ne_zero.mp hc)]
  exact ⟨(Nat.le_div_iff_mul_le hc).mpr hlow, Nat.div_le_of_le_mul (by rwa [Nat.mul_comm])⟩

/-! ### Both laws carried on -/

/-- Each of the two laws, where it holds of s, holds of t. -/
structure Sustains (s t : State) : Prop where
  detectors : s.detectorsLegal → t.detectorsLegal
  statistics : s.converter.ordered → t.converter.ordered

theorem Sustains.refl (s : State) : Sustains s s := ⟨id, id⟩

theorem Sustains.trans {s t u : State} (h : Sustains s t) (g : Sustains t u) : Sustains s u :=
  ⟨g.detectors ∘ h.detectors, g.statistics ∘ h.statistics⟩

/-- An act on the lines leaves the law of the converter alone. -/
theorem Sustains.of_line {s t : State} (hl : ∀ l, (s.line l).detectorLegal → (t.line l).detectorLegal)
    (hc : t.converter = s.converter) : Sustains s t := ⟨fun h l => hl l (h l), fun h => by rwa [hc]⟩

/-- An act on the converter leaves the law of the detectors alone. -/
theorem Sustains.of_converter {s t : State} (hl : t.lines = s.lines) (hc : s.converter.ordered → t.converter.ordered) :
    Sustains s t := ⟨fun h l => by unfold State.line; rw [hl]; exact h l, hc⟩

/-- An act that reaches neither the lines nor the converter. -/
theorem Sustains.of_eq {s t : State} (hl : t.lines = s.lines) (hc : t.converter = s.converter) : Sustains s t :=
  .of_converter hl fun h => by rwa [hc]

theorem setLane_sustains (s : State) (k : LaneId) (l : Lane) : Sustains s (s.setLane k l) := .of_eq rfl rfl

theorem ChansOnly.sustains {s t : State} (h : ChansOnly s t) : Sustains s t := by
  unfold ChansOnly at h
  exact .of_eq (by rw [h]) (by rw [h])

theorem ClaimsOnly.sustains {s t : State} (h : ClaimsOnly s t) : Sustains s t := by
  unfold ClaimsOnly at h
  exact .of_eq (by rw [h]) (by rw [h])

theorem JudgeOnly.sustains {s t : State} (h : JudgeOnly s t) : Sustains s t := by
  unfold JudgeOnly at h
  exact .of_eq (by rw [h]) (by rw [h])

theorem MemOutside.sustains {P : Nat → Prop} {s t : State} (h : MemOutside P s t) : Sustains s t :=
  .of_eq (by rw [h.1]) (by rw [h.1])

theorem HalfPairOnly.sustains {k : LaneId} {s t : State} (h : HalfPairOnly k s t) : Sustains s t :=
  .of_eq (by rw [h.1]) (by rw [h.1])

theorem ElementOnly.sustains {s t : State} (h : ElementOnly s t) : Sustains s t :=
  .of_eq (by rw [h.1]) (by rw [h.1])

/-! ### The line block -/

theorem onLines_lineSetOn_sustains (m : BitVec 8) (mode : LineMode) (levels : BitVec 8) (s : State) :
    Sustains s (onLines m (lineSetOn mode levels) s) := by
  obtain ⟨hrest, hline⟩ := onLines_lineSetOn m mode levels s
  refine .of_line (fun l h => ?_) hrest.unitsSame.converter
  rw [hline]
  split
  · exact Line.setTo_detectorLegal h _ _
  · exact h

theorem foldl_safeLineOn_sustains (s : State) : Sustains s (allLines.foldl safeLineOn s) := by
  obtain ⟨hrest, hline⟩ := foldl_safeLineOn s
  refine .of_line (fun l h => ?_) hrest.unitsSame.converter
  rw [hline]
  exact Line.setTo_detectorLegal h _ _

/-! ### The shared units -/

/-- A grant begins with a cleared arithmetic unit (R92, R100). -/
theorem grantConverter_sustains (s : State) (k : LaneId) : Sustains s (grantConverter s k) :=
  .of_converter rfl fun _ => Converter.ordered_of_cleared rfl rfl

theorem requestConverter_sustains (s : State) (k : LaneId) : Sustains s (requestConverter s k) := by
  unfold requestConverter
  split
  · exact grantConverter_sustains s k
  · exact .of_converter rfl id

/-- A release keeps what was recorded, or clears it for the next lane (R65). -/
theorem releaseConverter_sustains (s : State) : Sustains s (releaseConverter s) := by
  unfold releaseConverter
  split
  · exact .of_converter rfl id
  · exact .of_converter rfl fun _ => Converter.ordered_of_cleared rfl rfl

theorem requestMonitor_sustains (s : State) (k : LaneId) : Sustains s (requestMonitor s k) :=
  (requestMonitor_judgeOnly s k).sustains

theorem grantMonitor_sustains (s : State) (k : LaneId) : Sustains s (grantMonitor s k) := by
  unfold grantMonitor
  dsimp only
  split
  · exact .of_eq rfl rfl
  · exact .of_eq rfl rfl

theorem releaseMonitor_sustains (s : State) : Sustains s (releaseMonitor s) := by
  unfold releaseMonitor
  split
  · exact .of_eq rfl rfl
  · rename_i k q _
    exact .trans (t := { s with monitor := { s.monitor with queue := q } }) (.of_eq rfl rfl) (grantMonitor_sustains _ k)

theorem requestLink_sustains (s : State) (k : LaneId) : Sustains s (requestLink s k) := by
  unfold requestLink
  split
  · exact .of_eq rfl rfl
  · exact .of_eq rfl rfl

theorem releaseLink_sustains (s : State) : Sustains s (releaseLink s) := by
  unfold releaseLink
  split
  · exact .of_eq rfl rfl
  · exact .of_eq rfl rfl

/-! ### Ends of slots and steps -/

theorem walk_sustains (s : State) : Sustains s (walk s).1 := (walk_claimsOnly s).sustains

theorem endSlot_sustains (s : State) (k : LaneId) (n : SlotId) (st : SlotState) (reason : EndReason) (detail : Byte) :
    Sustains s (endSlot s k n st reason detail).1 := by
  have hfinish : Sustains s (finishSlot s n st reason detail) := .of_eq rfl rfl
  unfold endSlot
  generalize finishSlot s n st reason detail = u at hfinish
  rw [chainEnd_eq]
  have hoff := hfinish.trans (offAtChainEnd_chansOnly u k n).sustains
  have hrelease := hoff.trans (releaseClaims_claimsOnly _ k 0 0).sustains
  exact (hrelease.trans (walk_sustains _)).trans (setLane_sustains _ k Lane.idle)

theorem switchTo_sustains (s : State) (k : LaneId) (n c : SlotId) : Sustains s (switchTo s k n c).1 := by
  have hcont : Sustains s (continued s k n c) := by
    have h := continued_eq s k n c
    exact .of_eq (by rw [h]) (by rw [h])
  unfold switchTo
  generalize continued s k n c = u at hcont
  have htrim := hcont.trans (releaseClaims_claimsOnly u k (u.chanClaim c) (u.lineClaim c)).sustains
  unfold trimThenEnter
  generalize u.releaseClaims k (u.chanClaim c) (u.lineClaim c) = v at htrim
  dsimp only
  split
  · exact htrim.trans (walk_sustains v)
  · exact htrim

theorem judgeSlot_sustains (s : State) (k : LaneId) (n : SlotId) : Sustains s (judgeSlot s k n).1 := by
  unfold judgeSlot continueWith
  split
  · exact endSlot_sustains s k n _ _ _
  · split
    · split_ifs
      · exact switchTo_sustains s k n _
      · exact endSlot_sustains s k n _ _ _
      · exact endSlot_sustains s k n _ _ _
    · exact endSlot_sustains s k n _ _ _

theorem skipFrom_sustains (s : State) (n : SlotId) (first : Nat) : Sustains s (skipFrom s n first) :=
  (skipFrom_spec s n first).1.sustains

theorem recordResult_sustains (s : State) (k : LaneId) (n : SlotId) (i : StepId) (r : StepResult) :
    Sustains s (recordResult s k n i r) := by
  have h := (recordResult_spec s k n i r).1
  exact .of_eq (by rw [h]) (by rw [h])

theorem stepEnd_sustains (s : State) (k : LaneId) (r : StepResult) : Sustains s (stepEnd s k r).1 := by
  unfold stepEnd afterStep
  split
  · rename_i n i _ _
    have hrec := recordResult_sustains s k n i r
    split
    · split
      · exact hrec
      · exact hrec.trans (judgeSlot_sustains _ k _)
    · exact (hrec.trans (skipFrom_sustains _ _ _)).trans (endSlot_sustains _ k _ _ _ _)
  · exact .refl s

theorem stepEndsSlot_sustains (s : State) (k : LaneId) (r : StepResult) (st : SlotState) (reason : EndReason) :
    Sustains s (stepEndsSlot s k r st reason).1 := by
  unfold stepEndsSlot
  split
  · exact ((recordResult_sustains s k _ _ r).trans (skipFrom_sustains _ _ _)).trans (endSlot_sustains _ k _ _ _ _)
  · exact .refl s

theorem endByCause_sustains (s : State) (k : LaneId) (cause : EndCause) (r : StepResult) :
    Sustains s (endByCause s k cause r).1 := by
  cases cause with
  | stepTimeout => exact stepEnd_sustains s k r
  | planTimeout => exact stepEndsSlot_sustains s k r _ _
  | hostAbort => exact stepEndsSlot_sustains s k r _ _
  | safeOrder => exact stepEndsSlot_sustains s k r _ _
  | safeRace => exact stepEndsSlot_sustains s k r _ _

/-! ### Tasks and acts -/

theorem beginTrigger_sustains (s : State) (k : LaneId) (p : CycleParams) : Sustains s (beginTrigger s k p).1 := by
  unfold beginTrigger
  split
  · exact requestConverter_sustains s k
  · split
    · exact requestConverter_sustains s k
    · exact .of_eq rfl rfl
  · split
    · exact .of_eq rfl rfl
    · exact stepEnd_sustains s k _
  · split
    · exact .of_eq rfl rfl
    · exact stepEnd_sustains s k _

theorem endSettle_sustains (s : State) (k : LaneId) : Sustains s (endSettle s k) :=
  .trans (t := s.putWatch k Watch.empty) (.of_eq rfl rfl) (requestMonitor_sustains _ k)

/-- A step acts on lines or on the converter, or on neither. -/
theorem serveStep_sustains (s : State) (k : LaneId) (c : StepCmd) : Sustains s (serveStep s k c).1 := by
  have hpass {t : State} (ht : Sustains s t) : Sustains s (stepPass t k).1 := ht.trans (stepEnd_sustains t k _)
  cases c with
  | set mask x r staged settle =>
    cases staged with
    | true => exact hpass (onChans_stageOn mask x r s).1.sustains
    | false =>
      have hset := (onChans_setOn mask x r s).1.sustains
      rw [serveStep_set]
      split
      · exact hset.trans (.of_eq rfl rfl)
      · exact hpass hset
  | apply mask => exact hpass (onChans_applyOn _ s).1.sustains
  | off mask r => exact hpass (onChans_offOn mask r s).1.sustains
  | delay n =>
    unfold serveStep
    dsimp only
    split
    · exact hpass (.refl s)
    · exact .of_eq rfl rfl
  | cycle p => exact beginTrigger_sustains s k p
  | verify mask p =>
    rw [serveStep_verify]
    split
    · exact endSettle_sustains s k
    · exact .of_eq rfl rfl
  | link p => exact requestLink_sustains s k
  | lines mask mode levels => exact hpass (onLines_lineSetOn_sustains mask mode levels s)
  | awaitGo => exact .of_eq rfl rfl

theorem startStep_sustains (s : State) (k : LaneId) (i : StepId) : Sustains s (startStep s k i).1 := by
  unfold startStep
  split
  · exact .refl s
  · rename_i n _
    dsimp only
    generalize decodeStep _ n i = record
    have hstart : Sustains s (State.setLane (s.store (slotBase n + 0x0D) [stepByte (some i)]) k
        (((s.store (slotBase n + 0x0D) [stepByte (some i)]).lane k).atStep i record)) := .of_eq rfl rfl
    split
    · exact hstart.trans (serveStep_sustains _ k _)
    · exact hstart

theorem takeHead_sustains (s : State) (k : LaneId) : Sustains s (takeHead s k).1 := by
  unfold takeHead requestClaims
  split
  · split
    · exact .refl s
    · rename_i n q _
      have htaken : Sustains s (takenHead s k n q) := .of_eq rfl rfl
      dsimp only
      split
      · exact htaken.trans (giveClaims_claimsOnly (takenHead s k n q) k _ _).sustains
      · exact .of_eq rfl rfl
  · exact .refl s

theorem enterSlot_sustains (s : State) (k : LaneId) : Sustains s (enterSlot s k).1 := by
  unfold enterSlot
  split
  · exact .refl s
  · dsimp only
    split
    · exact .of_eq rfl rfl
    · exact .of_eq rfl rfl

theorem releaseGo_sustains (s : State) (k : LaneId) : Sustains s (releaseGo s k).1 := by
  unfold releaseGo
  split_ifs
  · exact .refl s
  · exact stepEnd_sustains s k _
  · exact .refl s

theorem runTask_sustains (x : Task) (s : State) : Sustains s (runTask x s).1 := by
  cases x with
  | startStep k i => exact startStep_sustains s k i
  | enter k => exact enterSlot_sustains s k
  | take k => exact takeHead_sustains s k
  | release k => exact releaseGo_sustains s k
  | settled k => exact stepEnd_sustains s k _

/-- An act carried out carries on what its first part carries on. -/
theorem Sustains.finishAct {s : State} {a : Act} (h : Sustains s a.1) : Sustains s (finishAct a) :=
  finishAct_induct (Sustains s) (fun x _ hu => hu.trans (runTask_sustains x _)) a h

/-- Acts on channels with their reports reach neither lines nor converter (R73). -/
theorem reported_sustains {f : State → ChanId → State} (hf : ∀ s c, ChansOnly s (f s c)) (cs : List ChanId) (s : State) :
    Sustains s (reported f cs s).1 := by
  induction cs generalizing s with
  | nil => exact .refl s
  | cons c cs ih => exact ((hf s c).sustains.trans (reportChan_judgeOnly _ c).sustains).trans (ih _)

/-! ### Endings from outside -/

theorem stopServing_sustains (s : State) (k : LaneId) : Sustains s (stopServing s k) := by
  unfold stopServing
  split
  case h_1 => exact .of_converter rfl id
  case h_2 => exact releaseConverter_sustains s
  case h_3 => exact .of_eq rfl rfl
  case h_4 => exact releaseMonitor_sustains s
  case h_5 => exact .of_eq rfl rfl
  all_goals exact .refl s

theorem endStepNow_sustains (s : State) (k : LaneId) (cause : EndCause) : Sustains s (endStepNow s k cause).1 :=
  ((settleHalfPair_halfPairOnly s k cause).sustains.trans (stopServing_sustains _ k)).trans
    (endByCause_sustains _ k cause _)

theorem endWindDown_sustains (s : State) (k : LaneId) (cause : EndCause) : Sustains s (endWindDown s k cause).1 :=
  (releaseLink_sustains s).trans (endByCause_sustains _ k cause _)

theorem windDown_sustains (s : State) (k : LaneId) (cause : EndCause) : Sustains s (windDown s k cause).1 := by
  by_cases hwait : s.link.phase = .start ∧ s.linkWaitOver = false
  · have hwound : Sustains s { wound s k cause with freeIndex := s.freeIndex + 1 } := .of_eq rfl rfl
    obtain ⟨hp, hw⟩ := hwait
    rw [windDown_start s k cause hp hw]
    dsimp only
    split
    · exact hwound
    · exact hwound.trans (endWindDown_sustains _ k cause)
  · rw [windDown_marks s k cause (by rwa [← Bool.not_eq_false, ← not_and_or])]
    exact .of_eq rfl rfl

theorem endWaiting_sustains (s : State) (k : LaneId) (cause : EndCause) : Sustains s (endWaiting s k cause).1 := by
  unfold endWaiting
  split
  · exact .refl s
  · have hleft : Sustains s { s with waitList := s.waitList.filter fun w => w.lane != k } := .of_eq rfl rfl
    exact (hleft.trans (skipFrom_sustains _ _ 0)).trans (endSlot_sustains _ k _ _ _ _)

theorem timeOutStep_sustains (s : State) (k : LaneId) : Sustains s (timeOutStep s k).1 := by
  unfold timeOutStep
  split
  · exact windDown_sustains s k _
  · exact endStepNow_sustains s k _

theorem cutLane_sustains (s : State) (k : LaneId) (cause : EndCause) : Sustains s (cutLane s k cause).1 := by
  unfold cutLane
  split
  · exact .refl s
  · exact endWaiting_sustains s k cause
  · exact endWaiting_sustains s k cause
  · split
    · exact windDown_sustains s k cause
    · exact endStepNow_sustains s k cause
  · unfold recause
    split
    · exact .of_eq rfl rfl
    · exact .refl s

end Sys2Proof.Machine
end

