-- ==== Sys2Proof/Proofs/StepsSustainLaws.lean ====
section
/-! Every step keeps the edge detectors legal and the arithmetic unit ordered (O10): the events, the commands, the
resets. -/

namespace Sys2Proof.Machine

/-! ### Time -/

theorem rampMove_sustains (s : State) : Sustains s (rampMove s) := by
  unfold rampMove
  split
  · exact .refl s
  · have hmoved : Sustains s { s with rampMovesDue := s.rampMovesDue - 1 } := .of_eq rfl rfl
    exact (hmoved.trans (reported_sustains (fun s c => rampOn_chansOnly s c) allChans _)).finishAct

theorem stepTimeout_sustains (k : LaneId) (s : State) : Sustains s (stepTimeout k s) := by
  unfold stepTimeout
  split
  · exact (timeOutStep_sustains s k).finishAct
  · exact .refl s

theorem planTimeout_sustains (k : LaneId) (s : State) : Sustains s (planTimeout k s) := by
  unfold planTimeout
  split
  · exact ((setLane_sustains s k _).trans (cutLane_sustains _ k _)).finishAct
  · exact .refl s

theorem delayExpiry_sustains (k : LaneId) (s : State) : Sustains s (delayExpiry k s) := by
  unfold delayExpiry
  split
  · exact (stepEnd_sustains s k _).finishAct
  · exact .refl s

theorem triggerDelayExpiry_sustains (k : LaneId) (s : State) : Sustains s (triggerDelayExpiry k s) := by
  unfold triggerDelayExpiry
  split
  · exact (setLane_sustains s k _).trans (requestConverter_sustains _ k)
  · exact .refl s

theorem confirmationExpiry_sustains (k : LaneId) (s : State) : Sustains s (confirmationExpiry k s) := by
  unfold confirmationExpiry
  split_ifs
  · exact (setLane_sustains s k _).trans (requestConverter_sustains _ k)
  · exact (setLane_sustains s k _).trans (setLane_sustains _ k _)
  · exact .refl s

theorem pollIntervalExpiry_sustains (k : LaneId) (s : State) : Sustains s (pollIntervalExpiry k s) := by
  unfold pollIntervalExpiry
  split
  · exact (setLane_sustains s k _).trans (requestLink_sustains _ k)
  · exact .refl s

/-- The safe order reaches the converter through the lanes' endings and the lines through its own part (R49, R138). -/
theorem monitorExpiry_sustains (s : State) : Sustains s (monitorExpiry s) := by
  by_cases hdue : s.holdSafe.state = .watching ∧ s.holdSafe.expiryDue = true
  · have hsafe : Sustains s (enterSafe s) := .of_eq rfl rfl
    have hclear := hsafe.trans (clearClaims_spec (enterSafe s)).1.sustains
    have hlanes := foldl_induct (Sustains s) safeLane (fun u k hu => (hu.trans (cutLane_sustains u k _)).finishAct)
      (enterSafe s).clearClaims.safeLaneOrder _ hclear
    have hintake (u : State) : Sustains u (safeIntake u) := by
      have hu := safeIntake_eq u
      exact .of_eq (by rw [hu]) (by rw [hu])
    rw [monitorExpiry_due hdue]
    exact ((hlanes.trans (hintake _)).trans (foldl_safeOn _).1.sustains).trans (foldl_safeLineOn_sustains _)
  · rw [monitorExpiry_not_due s hdue]
    exact .refl s

/-- A boundary counts the sample wait and records nothing (R102). -/
theorem tick_sustains (s : State) : Sustains s (tick s) :=
  (monitorExpiry_sustains s).trans (t := monitorExpiry s) (.of_converter rfl id)

/-! ### Conversions and lines -/

theorem endCycle_sustains (s : State) (k : LaneId) (v : StepOutcome × StepDetail) : Sustains s (endCycle s k v).1 := by
  have hhalf := (completeHalfPair_halfPairOnly s k s.converter.count).sustains
  exact (hhalf.trans (releaseConverter_sustains _)).trans (stepEnd_sustains _ k _)

theorem recordConversion_sustains (s : State) (k : LaneId) (p : CycleParams) (code : Duty) :
    Sustains s (recordConversion s k p code).1 := by
  have hrec : Sustains s { s with converter := s.converter.record code } :=
    .of_converter rfl fun h => Converter.record_ordered h code
  have hsample := hrec.trans (storeSample_halfPairOnly _ k s.converter.count code).sustains
  unfold recordConversion
  dsimp only
  generalize storeSample { s with converter := s.converter.record code } k s.converter.count code = t at hsample
  split_ifs
  · exact hsample.trans (endCycle_sustains t k _)
  · exact hsample.trans (endCycle_sustains t k _)
  · exact hsample.trans (endCycle_sustains t k _)
  · unfold beginSampleWait
    split
    · exact hsample.trans (.of_converter rfl id)
    · exact hsample.trans (.of_converter rfl id)

theorem conversionEnd_sustains (code : Duty) (s : State) : Sustains s (conversionEnd code s) := by
  unfold conversionEnd
  split
  · exact (recordConversion_sustains s _ _ code).finishAct
  · exact .refl s

theorem sampleWaitExpiry_sustains (s : State) : Sustains s (sampleWaitExpiry s) := by
  unfold sampleWaitExpiry
  split
  · exact .of_converter rfl id
  · exact .refl s

theorem confirmTrigger_sustains (s : State) (k : LaneId) (p : CycleParams) : Sustains s (confirmTrigger s k p) := by
  unfold confirmTrigger
  split
  · exact requestConverter_sustains s k
  · exact setLane_sustains s k _

theorem handLevel_sustains (s : State) (l : LineId) (k : LaneId) : Sustains s (handLevel s l k) := by
  unfold handLevel
  split
  · exact .refl s
  · split
    · split
      · exact confirmTrigger_sustains s k _
      · split
        · exact .of_converter rfl id
        · exact .refl s
      · exact .refl s
    · exact .refl s

theorem levelChange_sustains (l : LineId) (s : State) : Sustains s (levelChange l s) := by
  have hline : Sustains s (s.putLine l (s.line l).levelChanged) := by
    refine .of_line (fun m h => ?_) rfl
    rw [putLine_line]
    split
    · rename_i hm
      subst hm
      exact Line.levelChanged_detectorLegal h
    · exact h
  unfold levelChange
  dsimp only
  split
  · exact hline.trans (handLevel_sustains _ l _)
  · exact hline

/-! ### Period starts and measurements -/

theorem groupPeriodStart_sustains (g : GroupId) (s : State) : Sustains s (groupPeriodStart g s) := by
  rw [groupPeriodStart_keeps]
  exact .of_eq rfl rfl

theorem channelPeriodStart_sustains (c : ChanId) (high low : Nat) (s : State) :
    Sustains s (channelPeriodStart c high low s) := by
  unfold channelPeriodStart
  dsimp only
  split_ifs
  · exact .refl s
  · exact .of_eq rfl rfl
  · exact .of_eq rfl rfl

theorem measurementEnd_sustains (s : State) : Sustains s (measurementEnd s) := by
  have hend (k : LaneId) (c : ChanId) (mask : BitVec 16) : Sustains s (endMeasurement s k c mask).1 := by
    have hrec : Sustains s (recordMeasure s k c) := .of_eq rfl rfl
    cases hn : nextMasked mask c with
    | some d =>
      rw [endMeasurement_next hn]
      exact hrec.trans (.of_eq rfl rfl)
    | none =>
      obtain ⟨r, hr⟩ := endMeasurement_last (s := s) (k := k) hn
      rw [hr]
      exact (hrec.trans (releaseMonitor_sustains _)).trans (stepEnd_sustains _ k r)
  unfold measurementEnd
  split
  · split
    · exact .refl s
    · split
      · exact (hend _ _ _).finishAct.trans (.of_eq rfl rfl)
      · exact .refl s
  · exact .refl s

/-! ### The link -/

theorem reportWindDown_sustains (s : State) (k : LaneId) : Sustains s (reportWindDown s k).1 := by
  unfold reportWindDown
  split
  · exact endWindDown_sustains s k _
  · exact .refl s

theorem endTransfer_sustains (s : State) (k : LaneId) (outcome : StepOutcome) (detail : StepDetail) :
    Sustains s (endTransfer s k outcome detail).1 := (releaseLink_sustains s).trans (stepEnd_sustains _ k _)

theorem closeTransfer_sustains (s : State) (k : LaneId) (p : LinkParams) : Sustains s (closeTransfer s k p).1 := by
  unfold closeTransfer
  split
  · exact endTransfer_sustains s k _ _
  · exact endTransfer_sustains s k _ _
  · exact endTransfer_sustains s k _ _
  · split
    · exact (releaseLink_sustains s).trans (setLane_sustains _ k _)
    · exact endTransfer_sustains s k _ _

theorem setLink_sustains (s : State) (x : Link) : Sustains s (s.setLink x) := .of_eq rfl rfl

theorem recoveryComplete_sustains (s : State) : Sustains s (recoveryComplete s) := by
  unfold recoveryComplete
  split
  · exact .refl s
  · split
    · dsimp only
      split
      · exact ((setLink_sustains s _).trans (reportWindDown_sustains _ _)).finishAct
      · exact (setLink_sustains s _).trans (setLink_sustains _ _)
    · exact .refl s

theorem linkStopComplete_sustains (s : State) : Sustains s (linkStopComplete s) := by
  unfold linkStopComplete
  split
  · exact .refl s
  · split
    · split
      · exact (reportWindDown_sustains s _).finishAct
      · exact (closeTransfer_sustains s _ _).finishAct
    · exact .refl s

theorem busStuck_sustains (s : State) : Sustains s (busStuck s) := by
  unfold busStuck
  split
  · exact .refl s
  · split
    · dsimp only
      split
      · exact ((setLink_sustains s _).trans (reportWindDown_sustains _ _)).finishAct
      · exact ((setLink_sustains s _).trans (endTransfer_sustains _ _ _ _)).finishAct
    · exact .refl s

/-! ### Commands -/

theorem answer_sustains (s : State) (e : Byte) (code : ResultCode) (d : Byte) : Sustains s (s.answer e code d) :=
  .of_eq rfl rfl

theorem judged_sustains (s : State) (bits : Nat) (reply : List Byte) : Sustains s (s.judged bits reply) :=
  .of_eq rfl rfl

theorem renewed_sustains (s : State) : Sustains s s.renewed := .of_eq (by rw [renewed_eq]) (by rw [renewed_eq])

theorem post_sustains (b : Byte) (s : State) : Sustains s (post b s) := by
  have haccept (n : SlotId) : Sustains s (acceptPost s n).1 := by
    have ht := (acceptWrites_memOutside s n).sustains.trans (renewed_sustains _)
    unfold acceptPost
    generalize (acceptWrites s n).renewed = t at ht
    dsimp only
    split
    · exact ht.trans (.of_eq rfl rfl)
    · exact ht.trans (.of_eq rfl rfl)
  unfold post
  split
  · exact answer_sustains s _ _ _
  · split
    · exact .of_eq rfl rfl
    · exact (haccept _).finishAct

theorem abort_sustains (b : Byte) (s : State) : Sustains s (abort b s) := by
  have hunrun (u : State) (n : SlotId) : Sustains u (endUnrun .hostAbort u n) := by
    have h := endUnrun_eq .hostAbort u n
    exact .of_eq (by rw [h]) (by rw [h])
  have habort (n : SlotId) (p : Place) : Sustains s (abortAt s n p).1 := by
    cases p with
    | queued k =>
      have hleft : Sustains s (s.setQueue k ((s.queue k).erase n)) := .of_eq rfl rfl
      exact (hleft.trans (hunrun _ n)).trans (answer_sustains _ _ _ _)
    | parked =>
      have hleft : Sustains s { s with parked := s.parked.erase n } := .of_eq rfl rfl
      exact (hleft.trans (hunrun _ n)).trans (answer_sustains _ _ _ _)
    | running k => exact (answer_sustains s _ _ _).trans (cutLane_sustains _ k _)
  unfold abort
  split
  · exact answer_sustains s _ _ _
  · split
    · exact answer_sustains s _ _ _
    · exact (habort _ _).finishAct

theorem go_sustains (lanes : BitVec 4) (apply : Bool) (s : State) : Sustains s (go lanes apply s) := by
  unfold go
  refine Sustains.finishAct (.trans ?_ (answer_sustains _ _ _ _))
  cases apply with
  | true => exact reported_sustains (fun s c => applyOn_chansOnly s c) (s.appliedChans lanes) s
  | false => exact .refl s

theorem renew_sustains (s : State) : Sustains s (renew s) := by
  unfold renew
  split
  · exact (renewed_sustains s).trans (answer_sustains _ _ _ _)
  · exact answer_sustains s _ _ _
  · exact answer_sustains s _ _ _

theorem turnMonitorOn_sustains (s : State) : Sustains s (turnMonitorOn s) := by
  unfold turnMonitorOn
  split
  · exact .of_eq rfl rfl
  · exact answer_sustains s _ _ _
  · exact answer_sustains s _ _ _

theorem resume_sustains (s : State) : Sustains s (resume s) := by
  unfold resume
  split_ifs
  · exact answer_sustains s _ _ _
  · exact answer_sustains s _ _ _
  · exact .of_eq rfl rfl

theorem loadConfig_sustains (s : State) : Sustains s (loadConfig s) := by
  cases hbusy : s.busy with
  | true =>
    rw [loadConfig_busy hbusy]
    exact answer_sustains s _ _ _
  | false =>
    cases hbad : firstBadField s.mem with
    | some off =>
      rw [loadConfig_invalid hbusy hbad]
      exact answer_sustains s _ _ _
    | none =>
      obtain ⟨htaken, -⟩ := loadConfig_takes hbusy hbad
      exact .of_eq (by rw [htaken]) (by rw [htaken])

/-- Both resets stop every detector and clear the arithmetic unit (R139, R90). -/
theorem resetBlocks_sustains (s : State) : Sustains s s.resetBlocks := by
  obtain ⟨hblocks, hline⟩ := resetBlocks_spec s
  refine ⟨fun h l => ?_, fun _ => ?_⟩
  · rw [hline]
    exact Line.setTo_detectorLegal (h l) _ _
  · rw [hblocks]
    exact Converter.ordered_of_cleared rfl rfl

theorem engineReset_sustains (s : State) : Sustains s (engineReset s) := by
  have h := resetBlocks_sustains s
  unfold engineReset
  generalize s.resetBlocks = t at h
  exact h.trans (.of_eq rfl rfl)

theorem beginReset_sustains (s : State) : Sustains s (beginReset s) := by
  have h := resetBlocks_sustains s
  unfold beginReset
  generalize s.resetBlocks = t at h
  exact h.trans (.of_eq rfl rfl)

/-- After a device reset the lines have no detectors, whatever their first samples (R132, R139). -/
theorem endReset_sustains (strap : Bool) (levels : BitVec 8) (s : State) : Sustains s (endReset strap levels s) := by
  refine ⟨fun _ l => ?_, fun _ => Converter.ordered_of_cleared rfl rfl⟩
  show ((vec8 fun l => Line.reset (levels.getLsbD l.val))[l.val]).detectorLegal
  rw [vec8_get]
  exact Line.reset_detectorLegal _

theorem dispatchWord_sustains (w : Word) (s : State) : Sustains s (dispatchWord w s) := by
  unfold dispatchWord
  dsimp only
  split
  · exact post_sustains _ s
  · exact abort_sustains _ s
  · exact go_sustains _ _ s
  · exact renew_sustains s
  · exact loadConfig_sustains s
  · exact engineReset_sustains s
  · exact turnMonitorOn_sustains s
  · exact resume_sustains s
  · exact .of_eq rfl rfl
  · exact answer_sustains s _ _ _

theorem storeFrame_sustains (s : State) (a : Nat) (data : List Byte) : Sustains s (s.storeFrame a data) := by
  unfold State.storeFrame
  split
  · exact .of_eq rfl rfl
  · exact .of_eq rfl rfl

theorem fault_sustains (s : State) : Sustains s s.fault := .of_eq rfl rfl

theorem applyWrite_sustains (addr : Half) (data : List Byte) (s : State) : Sustains s (applyWrite addr data s) := by
  unfold applyWrite writeRegisters
  dsimp only
  split
  · exact storeFrame_sustains s _ data
  · exact storeFrame_sustains s _ data
  · split
    · exact fault_sustains s
    · exact storeFrame_sustains s _ data
  · exact fault_sustains s
  · split_ifs
    · exact dispatchWord_sustains _ s
    · exact .of_eq rfl rfl
    · exact fault_sustains s
  · exact fault_sustains s

theorem receiveWrite_sustains (addr : Half) (data : List Byte) (crc : Half) (s : State) :
    Sustains s (receiveWrite addr data crc s) := by
  unfold receiveWrite inWriteFrame
  refine (judged_sustains s (frameBits data.length) []).trans ?_
  split
  · exact applyWrite_sustains addr data _
  · exact .of_eq rfl rfl

theorem receiveRead_sustains (addr : Half) (l : Byte) (crc : Half) (s : State) :
    Sustains s (receiveRead addr l crc s) := by
  unfold receiveRead
  dsimp only
  split_ifs
  · exact judged_sustains s _ _
  · exact .of_eq rfl rfl
  · exact .of_eq rfl rfl

/-! ### Every command -/

theorem whenReady_sustains {f : State → State} (hf : ∀ s, Sustains s (f s)) (s : State) : Sustains s (whenReady f s) :=
  whenReady_kept Sustains hf .refl s

/-- A host command in its frame. -/
theorem asCommand_sustains {f : State → State} (hf : ∀ s, Sustains s (f s)) (s : State) : Sustains s (asCommand f s) :=
  whenReady_sustains (fun s => (judged_sustains s _ _).trans (hf _)) s

theorem exec_sustains {c : Instr} {s t : State} (hx : exec c s = .next t) : Sustains s t := by
  cases c with
  | post b => obtain rfl := next_inj hx; exact asCommand_sustains (post_sustains b) s
  | abort b => obtain rfl := next_inj hx; exact asCommand_sustains (abort_sustains b) s
  | go lanes apply => obtain rfl := next_inj hx; exact asCommand_sustains (go_sustains lanes apply) s
  | renew => obtain rfl := next_inj hx; exact asCommand_sustains renew_sustains s
  | loadConfig => obtain rfl := next_inj hx; exact asCommand_sustains loadConfig_sustains s
  | engineReset => obtain rfl := next_inj hx; exact asCommand_sustains engineReset_sustains s
  | monitorOn => obtain rfl := next_inj hx; exact asCommand_sustains turnMonitorOn_sustains s
  | resume => obtain rfl := next_inj hx; exact asCommand_sustains resume_sustains s
  | clearFlags => obtain rfl := next_inj hx; exact asCommand_sustains (f := clearFlags) (fun _ => .of_eq rfl rfl) s
  | unknownCommand code =>
    obtain rfl := next_inj hx
    split
    · exact .refl s
    · exact asCommand_sustains (f := refuseUnknown code) (fun s => answer_sustains s _ _ _) s
  | finishedWrite mask =>
    obtain rfl := next_inj hx
    exact whenReady_sustains (f := inWriteFrame 4 (acknowledge mask)) (fun _ => .of_eq rfl rfl) s
  | readOnlyRegisterWrite addr data =>
    obtain rfl := next_inj hx
    refine whenReady_sustains (fun s => ?_) s
    split
    · exact .of_eq rfl rfl
    · exact .refl s
  | writeFrame addr data crc =>
    obtain rfl := next_inj hx
    refine whenReady_sustains (fun s => ?_) s
    split
    · exact receiveWrite_sustains addr data crc s
    · exact .refl s
  | readFrame addr l crc => obtain rfl := next_inj hx; exact whenReady_sustains (receiveRead_sustains addr l crc) s
  | badOperationByte op =>
    obtain rfl := next_inj hx
    refine whenReady_sustains (fun s => ?_) s
    split
    · exact .refl s
    · exact .of_eq rfl rfl
  | earlyNcsRise bits =>
    obtain rfl := next_inj hx
    refine whenReady_sustains (fun s => ?_) s
    split
    · exact .refl s
    · exact .of_eq rfl rfl
  | deviceReset => obtain rfl := next_inj hx; exact beginReset_sustains s
  | deviceResetEnd strap levels =>
    obtain rfl := next_inj hx
    split
    · exact .refl s
    · exact endReset_sustains strap levels s
  | tick => obtain rfl := next_inj hx; exact whenReady_sustains tick_sustains s
  | monitorExpiry => obtain rfl := next_inj hx; exact whenReady_sustains monitorExpiry_sustains s
  | rampMove => obtain rfl := next_inj hx; exact whenReady_sustains rampMove_sustains s
  | stepTimeout k => obtain rfl := next_inj hx; exact whenReady_sustains (stepTimeout_sustains k) s
  | planTimeout k => obtain rfl := next_inj hx; exact whenReady_sustains (planTimeout_sustains k) s
  | delayExpiry k => obtain rfl := next_inj hx; exact whenReady_sustains (delayExpiry_sustains k) s
  | triggerDelayExpiry k => obtain rfl := next_inj hx; exact whenReady_sustains (triggerDelayExpiry_sustains k) s
  | confirmationExpiry k => obtain rfl := next_inj hx; exact whenReady_sustains (confirmationExpiry_sustains k) s
  | pollIntervalExpiry k => obtain rfl := next_inj hx; exact whenReady_sustains (pollIntervalExpiry_sustains k) s
  | sampleWaitExpiry => obtain rfl := next_inj hx; exact whenReady_sustains sampleWaitExpiry_sustains s
  | conversionEnd code => obtain rfl := next_inj hx; exact whenReady_sustains (conversionEnd_sustains code) s
  | levelChange l => obtain rfl := next_inj hx; exact whenReady_sustains (levelChange_sustains l) s
  | groupPeriodStart g => obtain rfl := next_inj hx; exact whenReady_sustains (groupPeriodStart_sustains g) s
  | channelPeriodStart ch high low =>
    obtain rfl := next_inj hx
    exact whenReady_sustains (channelPeriodStart_sustains ch high low) s
  | measurementEnd => obtain rfl := next_inj hx; exact whenReady_sustains measurementEnd_sustains s
  | linkStartDone =>
    obtain rfl := next_inj hx
    exact whenReady_sustains (fun s => (linkStartDone_elementOnly s).sustains) s
  | linkByteSent ack =>
    obtain rfl := next_inj hx
    exact whenReady_sustains (fun s => (linkByteSent_elementOnly ack s).sustains) s
  | linkByteRead b =>
    obtain rfl := next_inj hx
    exact whenReady_sustains (fun s => (linkByteRead_elementOnly b s).sustains) s
  | linkRestartDone =>
    obtain rfl := next_inj hx
    exact whenReady_sustains (fun s => (linkRestartDone_elementOnly s).sustains) s
  | linkReadAckBitEnd =>
    obtain rfl := next_inj hx
    exact whenReady_sustains (fun s => (linkReadAckBitEnd_elementOnly s).sustains) s
  | recoveryComplete => obtain rfl := next_inj hx; exact whenReady_sustains recoveryComplete_sustains s
  | linkStopComplete => obtain rfl := next_inj hx; exact whenReady_sustains linkStopComplete_sustains s
  | busStuck => obtain rfl := next_inj hx; exact whenReady_sustains busStuck_sustains s

theorem step_sustains {s t : State} (hstep : step s = .next t) : Sustains s t := by
  unfold step at hstep
  split at hstep
  · obtain rfl := next_inj hstep
    exact .refl s
  · rename_i c rest _
    exact .trans (t := { s with pending := rest }) (.of_eq rfl rfl) (exec_sustains hstep)

end Sys2Proof.Machine

open Sys2Proof Sys2Proof.Machine

/-- Settles O10: a detector changes with its line's mode or level alone, the arithmetic unit by a record, a grant or a reset
alone, and the average of codes between two bounds lies between them. -/
theorem everyStepKeepsDetectorsAndStatistics : Obligations.EveryStepKeepsDetectorsAndStatistics := by
  unfold Obligations.EveryStepKeepsDetectorsAndStatistics
  exact ⟨fun s t h hstep => (step_sustains hstep).detectors h, fun s t h hstep => (step_sustains hstep).statistics h,
    fun c h hc => Converter.average_bounds h hc⟩

end

