-- ==== Sys2Proof/Proofs/Conversions.lean ====
section
/-! CONVERSION_END and SAMPLE_WAIT_EXPIRY (O36): where a CAPTURE puts a sample and a half pair (R107–R110), how a cycle
ends and is judged (R101, R104), and what comes before its next conversion (R102, R103). -/

namespace Sys2Proof.Machine

/-! ### Storage -/

/-- Bytes that lie whole in a window are stored there side by side (R3). -/
theorem storeWindow_inside (s : State) (k : LaneId) {off : Nat} {bs : List Byte} (h : off + bs.length ≤ 1024) :
    s.storeWindow k off bs = s.store (0x3000 + 0x400 * k.val + off) bs := by
  induction bs generalizing s off with
  | nil => rfl
  | cons b bs ih =>
    rw [List.length_cons] at h
    calc s.storeWindow k off (b :: bs)
        = (s.storeWindow k off [b]).storeWindow k (off + 1) bs := rfl
      _ = (s.store (0x3000 + 0x400 * k.val + off) [b]).store (0x3000 + 0x400 * k.val + (off + 1)) bs := by
        rw [storeWindow_byte s k (by omega), ih _ (by omega)]
      _ = s.store (0x3000 + 0x400 * k.val + off) (b :: bs) := rfl

/-- The packings of one sample, and those of a pair (R107), by the byte that comes first. -/
def Packing.word (high : Bool) : Packing := if high then .wordHigh else .wordLow
def Packing.pair (high : Bool) : Packing := if high then .pairHigh else .pairLow

section
variable {s : State} {k : LaneId} {p : CycleParams} {off : Nat} {high : Bool} {a : Duty}

/-- Only a step with cycle parameters stores samples. -/
theorem storeSample_without_cycle (hp : (s.lane k).cycleParams = none) (n : Nat) (code : Duty) :
    storeSample s k n code = s := by
  unfold storeSample
  rw [hp]

/-- A MEASURE stores nothing. -/
theorem storeSample_measure (hp : (s.lane k).cycleParams = some p) (hc : p.capture = none) (n : Nat) (code : Duty) :
    storeSample s k n code = s := by
  have hp' : (s.lane k).cycleParams = some { p with capture := none } := by rw [hp, ← hc]
  unfold storeSample
  rw [hp']

/-- Packing modes 0 and 1: sample n takes the two bytes from 2n on (R108). -/
theorem storeSample_word (hp : (s.lane k).cycleParams = some p) (hc : p.capture = some ⟨off, .word high⟩) {n : Nat}
    (hin : off + 2 * n + 2 ≤ 1024) (code : Duty) :
    storeSample s k n code = s.store (0x3000 + 0x400 * k.val + (off + 2 * n)) (sampleBytes high code) := by
  have hp' : (s.lane k).cycleParams = some { p with capture := some ⟨off, .word high⟩ } := by rw [hp, ← hc]
  have hlength : (sampleBytes high code).length = 2 := by cases high <;> rfl
  rw [← storeWindow_inside s k (by rwa [hlength])]
  unfold storeSample
  rw [hp']
  cases high <;> rfl

/-- Packing modes 2 and 3: the first sample of a pair is kept (R109). -/
theorem storeSample_first (hp : (s.lane k).cycleParams = some p) (hc : p.capture = some ⟨off, .pair high⟩)
    (hh : (s.lane k).halfPair = none) (n : Nat) (code : Duty) :
    storeSample s k n code = s.setLane k { s.lane k with halfPair := some code } := by
  have hp' : (s.lane k).cycleParams = some { p with capture := some ⟨off, .pair high⟩ } := by rw [hp, ← hc]
  unfold storeSample
  rw [hp']
  dsimp only
  rw [hh]
  cases high <;> rfl

/-- The second sample completes pair n / 2, which takes the three bytes from 3 (n / 2) on (R109). -/
theorem storeSample_second (hp : (s.lane k).cycleParams = some p) (hc : p.capture = some ⟨off, .pair high⟩)
    (hh : (s.lane k).halfPair = some a) {n : Nat} (hin : off + 3 * (n / 2) + 3 ≤ 1024) (code : Duty) :
    storeSample s k n code =
      (s.store (0x3000 + 0x400 * k.val + (off + 3 * (n / 2))) (pairBytes high a code)).setLane k
        { s.lane k with halfPair := none } := by
  have hp' : (s.lane k).cycleParams = some { p with capture := some ⟨off, .pair high⟩ } := by rw [hp, ← hc]
  have hlength : (pairBytes high a code).length = 3 := by cases high <;> rfl
  have hstored := storeWindow_inside s k (off := off + 3 * (n / 2)) (bs := pairBytes high a code) (by rwa [hlength])
  unfold storeSample
  rw [hp']
  dsimp only
  rw [hh]
  cases high
  · exact congrArg (fun t : State => t.setLane k { t.lane k with halfPair := none }) hstored
  · exact congrArg (fun t : State => t.setLane k { t.lane k with halfPair := none }) hstored

/-! ### Half pairs -/

/-- Without a half pair, or without a cycle to store it for, there is nothing to complete (R110). -/
theorem completeHalfPair_idle (h : (s.lane k).halfPair = none ∨ (s.lane k).cycleParams = none) (n : Nat) :
    completeHalfPair s k n = s := by
  unfold completeHalfPair
  split
  · rfl
  · rename_i a hheld
    exact storeSample_without_cycle (h.resolve_left (hheld ▸ nofun)) n 0

/-- A half pair still held is completed as if a sample 0 came (R110). -/
theorem completeHalfPair_held (h : (s.lane k).halfPair = some a) (n : Nat) :
    completeHalfPair s k n = storeSample s k n 0 := by
  unfold completeHalfPair
  rw [h]

end

/-- A pair whose second sample is 0 (R110). -/
theorem pairBytes_low_zero (a : Duty) :
    pairBytes false a 0 = [a.extractLsb' 0 8, (a.extractLsb' 8 4).zeroExtend 8, 0x00#8] := by
  have hmiddle : ((0#12).extractLsb' 0 4 ++ a.extractLsb' 8 4 : BitVec 8) = (a.extractLsb' 8 4).zeroExtend 8 := by
    rw [BitVec.zeroExtend, BitVec.setWidth_eq_append (by decide)]
    rfl
  show [_, ((0#12).extractLsb' 0 4 ++ a.extractLsb' 8 4 : BitVec 8), _] = _
  rw [hmiddle]
  rfl

theorem pairBytes_high_zero (a : Duty) :
    pairBytes true a 0 = [a.extractLsb' 4 8, (a.extractLsb' 0 4 ++ 0x0#4 : BitVec 8), 0x00#8] := rfl

/-! ### Recording -/

/-- The cycle with a code recorded and stored (R101). -/
def State.sampled (s : State) (k : LaneId) (code : Duty) : State :=
  storeSample { s with converter := s.converter.record code } k s.converter.count code

theorem sampled_halfPairOnly (s : State) (k : LaneId) (code : Duty) :
    HalfPairOnly k { s with converter := s.converter.record code } (s.sampled k code) :=
  storeSample_halfPairOnly _ k _ code

theorem sampled_converter (s : State) (k : LaneId) (code : Duty) :
    (s.sampled k code).converter = s.converter.record code := by rw [(sampled_halfPairOnly s k code).1]

theorem sampled_line (s : State) (k : LaneId) (code : Duty) (l : LineId) : (s.sampled k code).line l = s.line l := by
  rw [(sampled_halfPairOnly s k code).1]
  rfl

theorem sampled_cycleParams (s : State) (k : LaneId) (code : Duty) :
    ((s.sampled k code).lane k).cycleParams = (s.lane k).cycleParams := by
  rw [(sampled_halfPairOnly s k code).2 k, if_pos rfl]
  rfl

/-! ### The end of a cycle -/

/-- The values of a cycle that has recorded something (R105). -/
theorem Converter.toResult_recorded {x : Converter} (h : x.count ≠ 0) (o : StepOutcome) (d : StepDetail) :
    x.toResult o d = ⟨o, d, x.count, x.min.zeroExtend 16, x.max.zeroExtend 16, BitVec.ofNat 16 (x.sum / x.count),
      x.last.zeroExtend 16⟩ := by
  unfold Converter.toResult Converter.average
  rw [if_neg h]

theorem recordConversion_ends (s : State) (k : LaneId) (p : CycleParams) (code : Duty) :
    (code < p.abortLo → recordConversion s k p code = endCycle (s.sampled k code) k (.fail, .limitLow)) ∧
    (p.abortLo ≤ code → p.abortHi < code →
      recordConversion s k p code = endCycle (s.sampled k code) k (.fail, .limitHigh)) ∧
    (p.abortLo ≤ code → code ≤ p.abortHi → p.samples ≤ s.converter.count + 1 →
      recordConversion s k p code = endCycle (s.sampled k code) k (judgeCycle (s.converter.record code) p)) ∧
    (p.abortLo ≤ code → code ≤ p.abortHi → s.converter.count + 1 < p.samples →
      recordConversion s k p code = (beginSampleWait (s.sampled k code) k p, [])) := by
  have hx := sampled_converter s k code
  have hcount : (s.sampled k code).converter.count = s.converter.count + 1 := congrArg Converter.count hx
  have hrecord : recordConversion s k p code =
      if code < p.abortLo then endCycle (s.sampled k code) k (.fail, .limitLow)
      else if p.abortHi < code then endCycle (s.sampled k code) k (.fail, .limitHigh)
      else if p.samples ≤ (s.sampled k code).converter.count then
        endCycle (s.sampled k code) k (judgeCycle (s.sampled k code).converter p)
      else (beginSampleWait (s.sampled k code) k p, []) := rfl
  rw [hrecord, hcount, hx]
  refine ⟨fun h => if_pos h, fun hlo hhi => ?_, fun hlo hhi hn => ?_, fun hlo hhi hn => ?_⟩
  · rw [if_neg (BitVec.not_lt.mpr hlo), if_pos hhi]
  · rw [if_neg (BitVec.not_lt.mpr hlo), if_neg (BitVec.not_lt.mpr hhi), if_pos hn]
  · rw [if_neg (BitVec.not_lt.mpr hlo), if_neg (BitVec.not_lt.mpr hhi), if_neg (Nat.not_le.mpr hn)]

/-- Without a statistic to judge the cycle passes (R104). -/
theorem judgeCycle_unjudged {x : Converter} {p : CycleParams} (h : p.stat = .none) :
    judgeCycle x p = (.pass, .none) := by
  unfold judgeCycle
  rw [h]
  rfl

/-- A statistic is judged by the judge window (R104). -/
theorem judgeCycle_judged {x : Converter} {p : CycleParams} {v : Nat} (h : x.statistic p.stat = some v) :
    (v < p.judgeLo.toNat → judgeCycle x p = (.fail, .judgeLow)) ∧
    (p.judgeLo.toNat ≤ v → p.judgeHi.toNat < v → judgeCycle x p = (.fail, .judgeHigh)) ∧
    (p.judgeLo.toNat ≤ v → v ≤ p.judgeHi.toNat → judgeCycle x p = (.pass, .none)) := by
  have hjudge : judgeCycle x p =
      if v < p.judgeLo.toNat then (.fail, .judgeLow)
      else if p.judgeHi.toNat < v then (.fail, .judgeHigh) else (.pass, .none) := by
    unfold judgeCycle
    rw [h]
  rw [hjudge]
  refine ⟨fun hlo => if_pos hlo, fun hlo hhi => ?_, fun hlo hhi => ?_⟩
  · rw [if_neg (Nat.not_lt.mpr hlo), if_pos hhi]
  · rw [if_neg (Nat.not_lt.mpr hlo), if_neg (Nat.not_lt.mpr hhi)]

/-! ### The next conversion -/

/-- The next conversion of a cycle need not wait: no HOLDOFF, or the trigger line at the active level (R103). -/
def State.converts (s : State) (p : CycleParams) : Prop :=
  p.holdoff = false ∨ ((p.mode = .edgeFall) ↔ (s.line p.line).level = false)

/-- The active level is low for a falling edge alone (R93). -/
theorem CycleParams.eq_activeLevel_iff (p : CycleParams) (b : Bool) :
    b = p.activeLevel ↔ (p.mode = .edgeFall ↔ b = false) := by
  unfold CycleParams.activeLevel
  cases p.mode <;> cases b <;> decide

section
variable {s : State} {k : LaneId} {p : CycleParams}

theorem converts_iff (hp : (s.lane k).cycleParams = some p) :
    (!p.holdoff || s.triggerActive k) = true ↔ s.converts p := by
  unfold State.converts State.triggerActive
  rw [hp, Bool.or_eq_true, Bool.not_eq_true']
  exact or_congr_right (beq_iff_eq.trans (p.eq_activeLevel_iff _))

theorem nextConversion_starts (hp : (s.lane k).cycleParams = some p) (h : s.converts p) :
    nextConversion s k p = { s with converter := { s.converter with phase := .converting, waitLeft := none } } := by
  unfold nextConversion
  rw [(converts_iff hp).mpr h]
  rfl

theorem nextConversion_waits (hp : (s.lane k).cycleParams = some p) (h : ¬s.converts p) :
    nextConversion s k p = { s with converter := { s.converter with phase := .holdoffWait, waitLeft := none } } := by
  unfold nextConversion
  rw [Bool.eq_false_iff.mpr (mt (converts_iff hp).mp h)]
  rfl

theorem beginSampleWait_waits (h : 1 ≤ p.wait) :
    beginSampleWait s k p = { s with converter := { s.converter with phase := .sampleWait, waitLeft := some p.wait } } :=
  if_neg (Nat.one_le_iff_ne_zero.mp h)

theorem beginSampleWait_without (h : p.wait = 0) : beginSampleWait s k p = nextConversion s k p := if_pos h

/-! ### The two events -/

theorem cycleHolder_of_serves {ph : SamplingPhase} (h : s.converterServes k p ph) : s.cycleHolder = some (k, p) := by
  obtain ⟨hg, hp, -⟩ := h
  unfold State.cycleHolder
  rw [hg]
  dsimp only
  rw [hp]
  rfl

/-- CONVERSION_END of a conversion in flight (R101). -/
theorem exec_conversionEnd (hready : s.ready = true) (h : s.converterServes k p .converting) (code : Duty) :
    exec (.conversionEnd code) s = .next (finishAct (recordConversion s k p code)) := by
  refine congrArg Host.Outcome.next ((whenReady_ready hready _).trans ?_)
  unfold conversionEnd
  rw [h.2.2, cycleHolder_of_serves h]

/-- A cycle that ends completes its half pair, releases the converter and then writes its result (R101, R104, R105). -/
theorem exec_conversionEnd_ends (hready : s.ready = true) (h : s.converterServes k p .converting) {code : Duty}
    {o : StepOutcome} {d : StepDetail} (hend : recordConversion s k p code = endCycle (s.sampled k code) k (o, d)) :
    exec (.conversionEnd code) s =
      .next (finishAct (stepEnd (releaseConverter (completeHalfPair (s.sampled k code) k (s.converter.record code).count)) k
        ((s.converter.record code).toResult o d))) := by
  rw [exec_conversionEnd hready h, hend]
  unfold endCycle
  rw [sampled_converter]

/-- SAMPLE_WAIT_EXPIRY of a sample wait that has run out (R102). -/
theorem exec_sampleWaitExpiry (hready : s.ready = true) (h : s.converterServes k p .sampleWait)
    (hw : s.converter.waitLeft = some 0) : exec .sampleWaitExpiry s = .next (nextConversion s k p) := by
  refine congrArg Host.Outcome.next ((whenReady_ready hready _).trans ?_)
  unfold sampleWaitExpiry
  rw [h.2.2, hw, cycleHolder_of_serves h]
  rfl

end

end Sys2Proof.Machine

open Sys2Proof Sys2Proof.Machine

/-- Settles O36: the half pair, then CONVERSION_END by what it stores, how it ends and what it waits for, then
SAMPLE_WAIT_EXPIRY. -/
theorem conversionEndRecordsStoresJudges : Obligations.ConversionEndRecordsStoresJudges := by
  unfold Obligations.ConversionEndRecordsStoresJudges
  refine ⟨fun s k n => ⟨fun h => completeHalfPair_idle h n, fun p off pk a hp hc hh hin => ⟨?low, ?high⟩⟩,
    fun s k p code hready => ?events⟩
  case low =>
    rintro rfl
    rw [completeHalfPair_held hh, storeSample_second (high := false) hp hc hh hin, pairBytes_low_zero]
    rfl
  case high =>
    rintro rfl
    rw [completeHalfPair_held hh, storeSample_second (high := true) hp hc hh hin, pairBytes_high_zero]
    rfl
  case events =>
    intro x active
    refine ⟨fun hserves => ?conversion, fun hserves hwait => ?expiry⟩
    case conversion =>
      intro y u stored low top pairLow pairHigh ends judged
      let w : State := { s with converter := y }
      have hp : (w.lane k).cycleParams = some p := hserves.2.1
      have hrec : s.converter.record code = y := x.record_eq code
      have hu : s.sampled k code = u := by
        unfold State.sampled
        rw [hrec]
      have hends (o : StepOutcome) (d : StepDetail) (h : recordConversion s k p code = endCycle u k (o, d)) : ends o d := by
        have hresult := Converter.toResult_recorded (x := y) (Nat.succ_ne_zero _) o d
        show exec (.conversionEnd code) s = _
        rw [exec_conversionEnd_ends hready hserves (h.trans (by rw [hu])), hu, hrec, hresult]
      obtain ⟨hlow, hhigh, hlast, hmore⟩ := recordConversion_ends s k p code
      rw [hu] at hlow hhigh hlast hmore
      refine ⟨fun hc => storeSample_measure hp hc _ _, fun off hc hin => ?wordLow, fun off hc hin => ?wordHigh,
        fun off pk hc hpk hh => ?first, fun off a hc hh hin => ?secondLow, fun off a hc hh hin => ?secondHigh,
        fun h => hends _ _ (hlow h), fun hlo hhi => hends _ _ (hhigh hlo hhi),
        fun hlo hhi => ⟨fun hn => ?judge, fun hn => ?next⟩⟩
      case wordLow => exact storeSample_word (s := w) (high := false) hp hc hin _
      case wordHigh => exact storeSample_word (s := w) (high := true) hp hc hin _
      case first =>
        rcases hpk with rfl | rfl
        · exact storeSample_first (s := w) (high := false) hp hc hh _ _
        · exact storeSample_first (s := w) (high := true) hp hc hh _ _
      case secondLow => exact storeSample_second (s := w) (high := false) hp hc hh hin _
      case secondHigh => exact storeSample_second (s := w) (high := true) hp hc hh hin _
      case judge =>
        have hverdict := hlast hlo hhi hn
        rw [hrec] at hverdict
        have hjudged (v : Nat) (hv : y.statistic p.stat = some v) : judged v := by
          obtain ⟨hfailLow, hfailHigh, hpass⟩ := judgeCycle_judged hv
          exact ⟨fun h => hends _ _ (hverdict.trans (by rw [hfailLow h])),
            fun h g => hends _ _ (hverdict.trans (by rw [hfailHigh h g])),
            fun h g => hends _ _ (hverdict.trans (by rw [hpass h g]))⟩
        refine ⟨fun h => hends _ _ (hverdict.trans (by rw [judgeCycle_unjudged h])), fun h => hjudged _ (by rw [h]; rfl),
          fun h => hjudged _ (by rw [h]; rfl), fun h => hjudged _ (by rw [h]; rfl), fun h => hjudged _ (by rw [h]; rfl)⟩
      case next =>
        have hconv : u.converter = y := by rw [← hu, sampled_converter, hrec]
        have hpu : (u.lane k).cycleParams = some p := by rw [← hu, sampled_cycleParams, hserves.2.1]
        have hconverts : u.converts p ↔ active := by
          unfold State.converts
          rw [← hu, sampled_line]
        rw [exec_conversionEnd hready hserves, hmore hlo hhi hn, finishAct_nil]
        refine ⟨fun h => ?_, fun h ha => ?_, fun h ha => ?_⟩
        · rw [beginSampleWait_waits h, hconv]
        · rw [beginSampleWait_without h, nextConversion_starts hpu (hconverts.mpr ha), hconv]
        · rw [beginSampleWait_without h, nextConversion_waits hpu (mt hconverts.mp ha), hconv]
    case expiry =>
      rw [exec_sampleWaitExpiry hready hserves hwait]
      exact ⟨fun ha => congrArg _ (nextConversion_starts hserves.2.1 ha),
        fun ha => congrArg _ (nextConversion_waits hserves.2.1 ha)⟩

end

