-- ==== Sys2Proof/Proofs/Verifications.lean ====
section
/-! What a VERIFY's watch tells: the mask of its failing channels and the worst of them (O40); and MEASUREMENT_END, which
records one channel and then selects the next or ends the step (O39; R122–R127). -/

namespace Sys2Proof.Machine

/-! ### The mask of the failing channels -/

theorem inChans_foldl_or (l : List Measured) (acc : BitVec 16) (c : ChanId) :
    inChans (l.foldl (fun acc m => acc ||| (1#16 <<< m.chan.val)) acc) c = true ↔
      inChans acc c = true ∨ ∃ m ∈ l, m.chan = c := by
  induction l generalizing acc with
  | nil => simp
  | cons a l ih => rw [List.foldl_cons, ih, inChans_or_bit, or_assoc, List.exists_mem_cons_iff, eq_comm (a := c)]

/-- The mask names exactly the channels whose measurement failed (R125). -/
theorem inChans_failMask (measured : List Measured) (c : ChanId) :
    inChans (failMask measured) c = true ↔ ∃ m ∈ measured, m.failed = true ∧ m.chan = c := by
  unfold failMask
  rw [inChans_foldl_or, or_iff_right (inChans_zero c)]
  simp [List.mem_filter, and_assoc]

theorem failMask_eq_zero_iff (measured : List Measured) :
    failMask measured = 0 ↔ ∀ m ∈ measured, m.failed = false := by
  constructor
  · intro hzero m hm
    by_contra hfailed
    have hin := (inChans_failMask measured m.chan).mpr ⟨m, hm, Bool.eq_true_of_not_eq_false hfailed, rfl⟩
    exact inChans_zero m.chan (hzero ▸ hin)
  · intro hpass
    refine BitVec.eq_of_getLsbD_eq fun i hi => ?_
    have hout : ¬inChans (failMask measured) ⟨i, hi⟩ = true := fun hin => by
      obtain ⟨m, hm, hfailed, -⟩ := (inChans_failMask _ _).mp hin
      exact absurd hfailed (by simp [hpass m hm])
    exact (Bool.eq_false_iff.mpr hout).trans BitVec.getLsbD_zero.symm

/-! ### The worst of the failing channels -/

/-- The worse of the worst measurement so far and the next one: the next only when its deviation is larger (R125). -/
def worse (best : Option Measured) (m : Measured) : Option Measured :=
  match best with
  | none => some m
  | some b => if b.deviation < m.deviation then some m else some b

theorem worstOf_eq_foldl_worse (measured : List Measured) :
    worstOf measured = (measured.filter fun m => m.failed).foldl worse none := rfl

theorem worse_of_all_lt {best : Option Measured} {m : Measured} (h : ∀ b ∈ best, b.deviation < m.deviation) :
    worse best m = some m := by
  cases best with
  | none => rfl
  | some b => exact if_pos (h b rfl)

theorem mem_worse {best : Option Measured} {m x : Measured} (h : x ∈ worse best m) : x ∈ best ∨ x = m := by
  cases best with
  | none => exact .inr (Option.some.inj h).symm
  | some b =>
    by_cases hlt : b.deviation < m.deviation
    · exact .inr (Option.some.inj ((if_pos hlt).symm.trans h)).symm
    · exact .inl ((if_neg hlt).symm.trans h)

theorem foldl_worse_keeps {b : Measured} {l : List Measured} (h : ∀ x ∈ l, x.deviation ≤ b.deviation) :
    l.foldl worse (some b) = some b := by
  induction l with
  | nil => rfl
  | cons a l ih =>
    obtain ⟨ha, hl⟩ := List.forall_mem_cons.mp h
    have hkept : worse (some b) a = some b := if_neg (BitVec.not_lt.mpr ha)
    rw [List.foldl_cons, hkept, ih hl]

/-- In ascending channel order the fold ends with the largest deviation and, among equals, the lowest channel (R125). -/
theorem foldl_worse_eq_some {m : Measured} {l : List Measured} {best : Option Measured}
    (horder : l.Pairwise fun x y => x.chan < y.chan) (hm : m ∈ l) (hbest : ∀ b ∈ best, b.deviation < m.deviation)
    (hworst : ∀ x ∈ l, x.deviation < m.deviation ∨ (x.deviation = m.deviation ∧ m.chan ≤ x.chan)) :
    l.foldl worse best = some m := by
  induction l generalizing best with
  | nil => cases hm
  | cons a l ih =>
    obtain ⟨habove, horder⟩ := List.pairwise_cons.mp horder
    obtain ⟨ha, hl⟩ := List.forall_mem_cons.mp hworst
    rw [List.foldl_cons]
    rcases List.mem_cons.mp hm with rfl | hm
    · rw [worse_of_all_lt hbest]
      exact foldl_worse_keeps fun x hx => (hl x hx).elim BitVec.le_of_lt fun ⟨heq, _⟩ => BitVec.le_of_eq heq
    · have hlt : a.deviation < m.deviation := ha.resolve_right fun ⟨_, hle⟩ => absurd (habove m hm) (not_lt.mpr hle)
      exact ih horder hm (fun b hb => (mem_worse hb).elim (hbest b) fun heq => heq ▸ hlt) hl

theorem worstOf_eq_none {measured : List Measured} (h : ∀ m ∈ measured, m.failed = false) : worstOf measured = none := by
  rw [worstOf_eq_foldl_worse, List.filter_eq_nil_iff.mpr fun m hm => by simp [h m hm]]
  rfl

theorem worstOf_eq_some {measured : List Measured} {m : Measured}
    (horder : measured.Pairwise fun x y => x.chan < y.chan) (hm : m ∈ measured) (hfailed : m.failed = true)
    (hworst : ∀ x ∈ measured, x.failed = true →
      x.deviation < m.deviation ∨ (x.deviation = m.deviation ∧ m.chan ≤ x.chan)) :
    worstOf measured = some m := by
  rw [worstOf_eq_foldl_worse]
  refine foldl_worse_eq_some (horder.filter _) (List.mem_filter.mpr ⟨hm, hfailed⟩) nofun fun x hx => ?_
  obtain ⟨hx, hxfailed⟩ := List.mem_filter.mp hx
  exact hworst x hx hxfailed

/-! ### The values of a result -/

theorem Watch.toResult_none {w : Watch} (h : worstOf w.measured = none) (o : StepOutcome) (d : StepDetail) (ticks : Nat) :
    w.toResult o d ticks = ⟨o, d, ticks, failMask w.measured, 0xFFFF#16, 0, 0⟩ := by
  unfold Watch.toResult
  rw [h]

theorem Watch.toResult_worst {w : Watch} {m : Measured} (h : worstOf w.measured = some m) (o : StepOutcome)
    (d : StepDetail) (ticks : Nat) :
    w.toResult o d ticks = ⟨o, d, ticks, failMask w.measured, BitVec.ofNat 16 m.chan.val, m.duty.zeroExtend 16,
      m.deviation.zeroExtend 16⟩ := by
  unfold Watch.toResult
  rw [h]

/-! ### One measurement -/

/-- The measured duty with its limit as a case (R122). -/
theorem measuredDuty_eq (x : DutyMonitor) :
    x.measuredDuty = if x.time = 0 then Config.dutyOfNoTime x.high
      else if x.high * 4096 / x.time ≤ 4095 then BitVec.ofNat 12 (x.high * 4096 / x.time) else 4095 := by
  have hmin : Nat.min 4095 (x.high * 4096 / x.time) =
      if x.high * 4096 / x.time ≤ 4095 then x.high * 4096 / x.time else 4095 := by
    show min _ _ = _
    split_ifs <;> omega
  unfold DutyMonitor.measuredDuty
  rw [hmin, apply_ite (BitVec.ofNat 12)]
  rfl

theorem dutyDistance_toNat (a b : Duty) :
    (b.toNat ≤ a.toNat → (dutyDistance a b).toNat = a.toNat - b.toNat) ∧
    (a.toNat ≤ b.toNat → (dutyDistance a b).toNat = b.toNat - a.toNat) := by
  unfold dutyDistance
  split_ifs with hle
  · rw [BitVec.toNat_sub_of_le hle]
    have := BitVec.le_def.mp hle
    omega
  · have hlt := BitVec.not_le.mp hle
    rw [BitVec.toNat_sub_of_le (BitVec.le_of_lt hlt)]
    have := BitVec.lt_def.mp hlt
    omega

/-- The watch of lane k with channel c's measurement in it (R122, R123). -/
def State.watchWith (s : State) (k : LaneId) (c : ChanId) : Watch :=
  ⟨(s.watch k).disturbed, (s.watch k).measured ++ [s.measure k c]⟩

/-- Recording writes the last verified duties, the watch and the act's instant, and nothing else. -/
theorem recordMeasure_eq (s : State) (k : LaneId) (c : ChanId) :
    recordMeasure s k c = { s with lastVerified := (recordMeasure s k c).lastVerified,
                                   watches := (recordMeasure s k c).watches,
                                   monitor := { s.monitor with instant := some c } } := rfl

theorem recordMeasure_verified (s : State) (k : LaneId) (c d : ChanId) :
    (recordMeasure s k c).verified d = if d = c then some s.monitor.measuredDuty else s.verified d :=
  (State.putVerified_get s c d _).trans (if_congr eq_comm rfl rfl)

theorem recordMeasure_watch (s : State) (k : LaneId) (c : ChanId) (j : LaneId) :
    (recordMeasure s k c).watch j = if j = k then s.watchWith k c else s.watch j :=
  (State.putWatch_get _ k j _).trans (if_congr eq_comm rfl rfl)

/-! ### The next channel -/

theorem nextMasked_eq_some {mask : BitVec 16} {c e : ChanId} (hlt : c < e) (he : inChans mask e = true)
    (hmin : ∀ d : ChanId, c < d → d < e → inChans mask d = false) : nextMasked mask c = some e := by
  unfold nextMasked
  rw [List.find?_filter, List.find?_eq_findSome?_guard]
  refine findSome?_of_least (by decide) (mem_allChans e) (by simp [he, hlt]) fun d _ hd => ?_
  by_cases hcd : c < d
  · simp [hmin d hcd hd]
  · simp [hcd]

theorem nextMasked_eq_none {mask : BitVec 16} {c : ChanId} (h : ∀ e : ChanId, c < e → inChans mask e = false) :
    nextMasked mask c = none := by
  refine List.find?_eq_none.mpr fun d hd hlt => ?_
  have hin := (List.mem_filter.mp hd).2
  rw [h d (of_decide_eq_true hlt)] at hin
  cases hin

/-- The next channel is measured at once when it shares the recorded channel's period start (R122; log 20). -/
theorem recordMeasure_atPeriodStartOf (s : State) (k : LaneId) (c e : ChanId) :
    (recordMeasure s k c).atPeriodStartOf e = true ↔
      e.val / 4 = c.val / 4 ∧ s.quarterOf c = s.quarterOf e ∧ (s.chan e).started = true := by
  rw [atPeriodStartOf_iff]
  constructor
  · rintro ⟨d, hd, hgroup, hquarter, hstarted⟩
    obtain rfl : c = d := Option.some.inj hd
    exact ⟨hgroup.symm, hquarter, hstarted⟩
  · rintro ⟨hgroup, hquarter, hstarted⟩
    exact ⟨c, rfl, hgroup.symm, hquarter, hstarted⟩

/-- The duty monitor when the act that selected channel e is over. -/
def DutyMonitor.selecting (x : DutyMonitor) (e : ChanId) (ph : MeasurePhase) : DutyMonitor :=
  { x with selected := some e, phase := ph, periods := 0, high := 0, time := 0, instant := none }

/-- Selecting a channel writes the monitor alone (R122). -/
theorem selectChannel_instantOver (s : State) (e : ChanId) :
    (selectChannel s e).instantOver =
      { s with monitor := s.monitor.selecting e (if s.atPeriodStartOf e then .counting else .align) } := rfl

/-- Recording, and then any change of the monitor, writes the last verified duties, the watch and the monitor alone. -/
theorem recordMeasure_withMonitor (s : State) (k : LaneId) (c : ChanId) (x : DutyMonitor) :
    { recordMeasure s k c with monitor := x } =
      { s with lastVerified := (recordMeasure s k c).lastVerified, watches := (recordMeasure s k c).watches,
               monitor := x } := rfl

/-! ### The verdict -/

theorem Watch.verdict_of_disturbed {w : Watch} (h : w.disturbed ≠ 0) : w.verdict = (.error, .disturbed) := if_pos h

theorem Watch.verdict_of_failed {w : Watch} (h : w.disturbed = 0) (hfailed : ∃ m ∈ w.measured, m.failed = true) :
    w.verdict = (.fail, .dutyMismatch) := by
  obtain ⟨m, hm, hmfailed⟩ := hfailed
  have hmask : failMask w.measured ≠ 0 := fun hzero =>
    absurd ((failMask_eq_zero_iff _).mp hzero m hm) (by simp [hmfailed])
  exact (if_neg (not_not.mpr h)).trans (if_pos hmask)

theorem Watch.verdict_of_passed {w : Watch} (h : w.disturbed = 0) (hpassed : ∀ m ∈ w.measured, m.failed = false) :
    w.verdict = (.pass, .none) :=
  (if_neg (not_not.mpr h)).trans (if_neg (not_not.mpr ((failMask_eq_zero_iff _).mpr hpassed)))

/-! ### The event -/

section
variable {s : State} {k : LaneId} {c : ChanId} {mask : BitVec 16} {P : Nat}

/-- The last channel's end releases the monitor and ends the step by the verdict (R125). -/
theorem endMeasurement_verdict {o : StepOutcome} {d : StepDetail} (hlast : nextMasked mask c = none)
    (hv : (s.watchWith k c).verdict = (o, d)) :
    endMeasurement s k c mask =
      stepEnd (releaseMonitor (recordMeasure s k c)) k ((s.watchWith k c).toResult o d (s.lane k).ticks) := by
  have hend : endMeasurement s k c mask = stepEnd (releaseMonitor (recordMeasure s k c)) k
      ((s.watchWith k c).toResult (s.watchWith k c).verdict.1 (s.watchWith k c).verdict.2 (s.lane k).ticks) := by
    unfold endMeasurement
    dsimp only
    rw [hlast]
    rfl
  rw [hend, hv]

/-- MEASUREMENT_END in COUNTING has effect once the period count has reached P (R122). -/
theorem exec_measurementEnd (hready : s.ready = true) (hphase : s.monitor.phase = .counting)
    (hg : s.monitor.grantee = some k) (hsel : s.monitor.selected = some c) (hv : (s.lane k).verifyParams = some (mask, P)) :
    exec .measurementEnd s =
      .next (if s.monitor.periods = P then (finishAct (endMeasurement s k c mask)).instantOver else s) := by
  refine congrArg Host.Outcome.next ((whenReady_ready hready _).trans ?_)
  unfold measurementEnd
  rw [hphase, hg, hsel]
  dsimp only
  rw [hv]

end

end Sys2Proof.Machine

open Sys2Proof Sys2Proof.Machine

/-- Settles O40: the mask by its members, then the values of the worst channel. -/
theorem verifyResultNamesTheWorstChannel : Obligations.VerifyResultNamesTheWorstChannel := by
  unfold Obligations.VerifyResultNamesTheWorstChannel
  intro w o d ticks
  refine ⟨rfl, rfl, rfl, inChans_failMask w.measured, fun hpass => ?none, fun m hm horder hfailed hworst => ?worst⟩
  case none =>
    rw [Watch.toResult_none (worstOf_eq_none hpass)]
    exact ⟨rfl, rfl, rfl⟩
  case worst =>
    rw [Watch.toResult_worst (worstOf_eq_some horder hm hfailed hworst)]
    refine ⟨Nat.mod_eq_of_lt (by omega), ?_, ?_⟩
    · exact BitVec.toNat_setWidth_of_le (by decide)
    · exact BitVec.toNat_setWidth_of_le (by decide)

/-- Settles O39: what is recorded, then the next channel's selection or the step's end by its verdict. -/
theorem measurementEndRecordsThenSelects : Obligations.MeasurementEndRecordsThenSelects := by
  unfold Obligations.MeasurementEndRecordsThenSelects
  intro s k c mask P hready hphase hg hsel hv
  have hexec := exec_measurementEnd hready hphase hg hsel hv
  refine ⟨fun hne => hexec.trans (by rw [if_neg hne]), fun heq => ?_⟩
  rw [if_pos heq] at hexec
  obtain ⟨habove, hbelow⟩ := dutyDistance_toNat s.monitor.measuredDuty (s.chan c).duty
  refine ⟨s.monitor.measuredDuty, dutyDistance s.monitor.measuredDuty (s.chan c).duty, measuredDuty_eq s.monitor, habove,
    hbelow, fun e hlt he hmin => ?next, fun hnone => ?last⟩
  case next =>
    rw [endMeasurement_next (nextMasked_eq_some hlt he hmin), finishAct_nil, selectChannel_instantOver] at hexec
    exact ⟨_, hexec, recordMeasure_withMonitor s k c _, recordMeasure_verified s k c, recordMeasure_watch s k c, _, rfl,
      if_congr (recordMeasure_atPeriodStartOf s k c e) rfl rfl⟩
  case last =>
    refine ⟨recordMeasure s k c, recordMeasure_eq s k c, recordMeasure_verified s k c, recordMeasure_watch s k c, ?_⟩
    have hends (o : StepOutcome) (dt : StepDetail) (hverdict : (s.watchWith k c).verdict = (o, dt)) :
        exec .measurementEnd s = .next (State.instantOver (finishAct (stepEnd (releaseMonitor (recordMeasure s k c)) k
          ((s.watchWith k c).toResult o dt (s.lane k).ticks)))) := by
      rw [hexec, endMeasurement_verdict (nextMasked_eq_none hnone) hverdict]
    exact ⟨fun h => hends _ _ (Watch.verdict_of_disturbed h), fun h hfailed => hends _ _ (Watch.verdict_of_failed h hfailed),
      fun h hpassed => hends _ _ (Watch.verdict_of_passed h hpassed)⟩

end

section
/-! LEVEL_CHANGE (O37): what a change of a sampled level makes of the line (R132, R136), and what the owning lane does with
it by the phase it is in (R97, R98, R103). -/

namespace Sys2Proof.Machine

/-! ### The line -/

theorem Line.levelChanged_eq (x : Line) :
    x.levelChanged =
      { x with level := !x.level, detector := if x.detector = none then none else some (!x.level) } := by
  obtain ⟨mode, latch, level, detector⟩ := x
  cases detector <;> rfl

/-- A matching edge leaves the line at the active level (R93, R97). -/
theorem CycleParams.activeLevel_of_matching {p : CycleParams} {b : Bool}
    (h : (p.mode = .edgeRise ∧ b = false) ∨ (p.mode = .edgeFall ∧ b = true)) : (!b) = p.activeLevel := by
  rw [p.eq_activeLevel_iff]
  rcases h with ⟨hm, rfl⟩ | ⟨hm, rfl⟩ <;> simp [hm]

/-- The opposite edge leaves the line at the inactive level (R93). -/
theorem CycleParams.activeLevel_of_opposite {p : CycleParams} {b : Bool}
    (h : (p.mode = .edgeRise ∧ b = true) ∨ (p.mode = .edgeFall ∧ b = false)) : (!b) ≠ p.activeLevel := by
  rw [ne_eq, p.eq_activeLevel_iff]
  rcases h with ⟨hm, rfl⟩ | ⟨hm, rfl⟩ <;> simp [hm]

/-! ### The owning lane -/

section
variable {s : State} {l : LineId} {k : LaneId} {p : CycleParams}

theorem confirmTrigger_at_once (h : p.delay = 0) : confirmTrigger s k p = requestConverter s k := if_pos h

theorem confirmTrigger_delayed (h : 1 ≤ p.delay) :
    confirmTrigger s k p = s.setLane k { s.lane k with phase := .confirm, interval := some p.delay } :=
  if_neg (Nat.one_le_iff_ne_zero.mp h)

/-- The line stands at the active level of the cycle the lane runs on it (R97, R103). -/
def State.lineTriggers (s : State) (l : LineId) (k : LaneId) (p : CycleParams) : Prop :=
  (s.lane k).cycleParams = some p ∧ p.line = l ∧ (s.line l).level = p.activeLevel

theorem handLevel_edgeWait (h : s.lineTriggers l k p) (hphase : (s.lane k).phase = .edgeWait) :
    handLevel s l k = confirmTrigger s k p := by
  obtain ⟨hp, hline, hlevel⟩ := h
  unfold handLevel
  rw [hp]
  dsimp only
  rw [if_pos ⟨hline, hlevel⟩, hphase]

theorem handLevel_holdoffWait (h : s.lineTriggers l k p) (hphase : (s.lane k).phase = .converting)
    (hwait : s.converter.phase = .holdoffWait) :
    handLevel s l k = { s with converter := { s.converter with phase := .converting } } := by
  obtain ⟨hp, hline, hlevel⟩ := h
  unfold handLevel
  rw [hp]
  dsimp only
  rw [if_pos ⟨hline, hlevel⟩, hphase]
  exact if_pos hwait

/-- A lane in neither wait ignores the change. -/
theorem handLevel_not_waiting (hedge : (s.lane k).phase ≠ .edgeWait)
    (hholdoff : (s.lane k).phase ≠ .converting ∨ s.converter.phase ≠ .holdoffWait) : handLevel s l k = s := by
  unfold handLevel
  split
  · rfl
  · split
    · split
      · rename_i hphase
        exact absurd hphase hedge
      · rename_i hphase
        exact if_neg (hholdoff.resolve_left (not_not_intro hphase))
      · rfl
    · rfl

/-- A lane whose step has no cycle, or whose cycle the line does not trigger, ignores the change. -/
theorem handLevel_not_triggered (h : ∀ p, ¬s.lineTriggers l k p) : handLevel s l k = s := by
  unfold handLevel
  split
  · rfl
  · rename_i p hp
    exact if_neg fun hactive => h p ⟨hp, hactive⟩

/-! ### The event -/

theorem exec_levelChange_unowned (hready : s.ready = true)
    (h : (s.line l).mode ≠ .inputEdge ∨ s.lineOwnerOf l = none) :
    exec (.levelChange l) s = .next (s.putLine l (s.line l).levelChanged) := by
  refine congrArg Host.Outcome.next ((whenReady_ready hready _).trans ?_)
  unfold levelChange
  split
  · rename_i hmode howner
    rcases h with h | h
    · exact absurd hmode h
    · cases howner.symm.trans h
  · rfl

theorem exec_levelChange_owned (hready : s.ready = true) (hmode : (s.line l).mode = .inputEdge)
    (howner : s.lineOwnerOf l = some k) :
    exec (.levelChange l) s = .next (handLevel (s.putLine l (s.line l).levelChanged) l k) := by
  refine congrArg Host.Outcome.next ((whenReady_ready hready _).trans ?_)
  unfold levelChange
  rw [hmode, howner]

/-- A line whose level changes triggers the cycle exactly when the new level is the active one. -/
theorem lineTriggers_levelChanged :
    (s.putLine l (s.line l).levelChanged).lineTriggers l k p ↔
      (s.lane k).cycleParams = some p ∧ p.line = l ∧ (!(s.line l).level) = p.activeLevel := by
  unfold State.lineTriggers
  rw [State.putLine_get_self, State.putLine_lane]
  rfl

end

end Sys2Proof.Machine

open Sys2Proof Sys2Proof.Machine

/-- Settles O37: a change no lane is handed, then the owning lane's answer by its phase and by the new level. -/
theorem levelChangeIsHandedOn : Obligations.LevelChangeIsHandedOn := by
  unfold Obligations.LevelChangeIsHandedOn
  intro s l hready x t
  have ht : s.putLine l x.levelChanged = t := congrArg (s.putLine l) x.levelChanged_eq
  refine ⟨fun h => (exec_levelChange_unowned hready h).trans (congrArg _ ht), ?_⟩
  intro k hmode howner matching
  have hexec : exec (.levelChange l) s = .next (handLevel t l k) := by
    rw [exec_levelChange_owned hready hmode howner, ht]
  have htriggers (p : CycleParams) :
      t.lineTriggers l k p ↔ (s.lane k).cycleParams = some p ∧ p.line = l ∧ (!x.level) = p.activeLevel := by
    rw [← ht]
    exact lineTriggers_levelChanged
  rw [hexec]
  refine ⟨fun p hp ⟨hline, hedge⟩ => ?handed, fun h => congrArg _ ?ignored⟩
  case handed =>
    have h := (htriggers p).mpr ⟨hp, hline, CycleParams.activeLevel_of_matching hedge⟩
    exact ⟨fun hphase hdelay => congrArg _ ((handLevel_edgeWait h hphase).trans (confirmTrigger_at_once hdelay)),
      fun hphase hdelay => congrArg _ ((handLevel_edgeWait h hphase).trans (confirmTrigger_delayed hdelay)),
      fun hphase hwait => congrArg _ (handLevel_holdoffWait h hphase hwait)⟩
  case ignored =>
    rcases h with ⟨hedge, hholdoff⟩ | hnone | ⟨p, hp, hother⟩
    · exact handLevel_not_waiting hedge hholdoff
    · refine handLevel_not_triggered fun p h => ?_
      obtain ⟨hp, -⟩ := (htriggers p).mp h
      cases hnone.symm.trans hp
    · refine handLevel_not_triggered fun q h => ?_
      obtain ⟨hq, hline, hlevel⟩ := (htriggers q).mp h
      obtain rfl := Option.some.inj (hp.symm.trans hq)
      rcases hother with hne | hopposite
      · exact hne hline
      · exact CycleParams.activeLevel_of_opposite hopposite hlevel

end

section
/-! The fixture link without a wind-down and at its end: how one element of a transfer follows another (O41; R144,
R146–R148, R150, R151), and how STOP, recovery and a stuck bus end a transfer (O42; R142, R145, R149–R153). -/

namespace Sys2Proof.Machine

/-! ### Events and the stuck bus -/

theorem exec_of_ready {s : State} (hready : s.ready = true) (c : Instr) (f : State → State)
    (hc : exec c s = .next (whenReady f s)) : exec c s = .next (f s) := by
  rw [hc, whenReady_ready hready]

theorem whenReady_still {s : State} {f : State → State} (h : f s = s) : whenReady f s = s :=
  ite_eq_right_iff.mpr fun _ => h

section
variable {s : State} (hover : s.linkWaitOver = true)
include hover

/-! Once the wait for a wire has run out, no element and no STOP ends (R142, R153). -/

theorem linkStartDone_over : linkStartDone s = s := by
  unfold linkStartDone
  rw [linkServed_of_over s hover]

theorem linkRestartDone_over : linkRestartDone s = s := by
  unfold linkRestartDone
  rw [linkServed_of_over s hover]

theorem linkByteSent_over (ack : Bool) : linkByteSent ack s = s := by
  unfold linkByteSent
  rw [linkServed_of_over s hover]

theorem linkByteRead_over (b : Byte) : linkByteRead b s = s := by
  unfold linkByteRead
  rw [linkServed_of_over s hover]

theorem linkReadAckBitEnd_over : linkReadAckBitEnd s = s := by
  unfold linkReadAckBitEnd
  rw [linkServed_of_over s hover]

theorem linkStopComplete_over : linkStopComplete s = s := by
  unfold linkStopComplete
  rw [linkServed_of_over s hover]

theorem recoveryComplete_over : recoveryComplete s = s := by
  unfold recoveryComplete
  rw [linkServed_of_over s hover]

end

/-! ### What follows a byte sent -/

section
variable {s : State} {k : LaneId} {p : LinkParams}

theorem LinkMode.probes_eq_false {m : LinkMode} (hprobe : m ≠ .probe) (huntil : m ≠ .probeUntil) : m.probes = false :=
  Bool.eq_false_iff.mpr (mt m.probes_iff.mp (not_or.mpr ⟨hprobe, huntil⟩))

/-- A byte of a window that lies whole in it. -/
theorem windowByte_eq {off : Nat} (h : off < 1024) :
    s.windowByte k off = Memory.read s.mem (0x3000 + 0x400 * k.val + off) := by
  unfold State.windowByte windowAddr Config.captureBase Config.windowSize
  congr 1
  omega

theorem beginWrite_eq (h : p.offset + s.link.bytes < 1024) :
    beginWrite s k p = s.setLink { s.link with
      phase := .write, sending := Memory.read s.mem (0x3000 + 0x400 * k.val + (p.offset + s.link.bytes)), waited := 0 } := by
  unfold beginWrite
  rw [windowByte_eq h]

theorem addressSent_probe (h : p.mode.probes = true) (ack : Bool) :
    addressSent s p ack = s.setLink (s.link.countAttempt.beginStop (if ack then .normal else .busy)) := if_pos h

/-- No device has answered to the address (R147, R150). -/
theorem addressSent_refused (h : p.mode.probes = false) :
    addressSent s p false = s.setLink (s.link.beginStop .noDevice) := by
  unfold addressSent
  rw [h]
  rfl

theorem addressSent_read (h : p.mode.probes = false) (hr : s.link.readBit = true) :
    addressSent s p true = s.setLink (s.link.beginRead false) := by
  unfold addressSent
  dsimp only
  rw [h, hr]
  rfl

theorem addressSent_register (h : p.mode.probes = false) (hr : s.link.readBit = false) :
    addressSent s p true = s.setLink (s.link.beginRegister p (p.width - 1)) := by
  unfold addressSent
  dsimp only
  rw [h, hr]
  rfl

theorem registerSent_refused : registerSent s k p false = s.setLink (s.link.beginStop .refused) := rfl

theorem registerSent_more (h : 0 < s.link.regLeft) :
    registerSent s k p true = s.setLink (s.link.beginRegister p (s.link.regLeft - 1)) := if_pos h

theorem registerSent_last (h : s.link.regLeft = 0) : registerSent s k p true = registersSent s k p :=
  if_neg (Nat.not_lt.mpr h.le)

theorem registersSent_store (h : p.mode = .store) : registersSent s k p = beginWrite s k p := by
  unfold registersSent
  rw [h]

theorem registersSent_fetchAt (h : p.mode = .fetchAt) :
    registersSent s k p = s.setLink { s.link with phase := .restart, waited := 0 } := by
  unfold registersSent
  rw [h]

theorem registersSent_point (h : p.mode = .point) : registersSent s k p = s.setLink (s.link.beginStop .normal) := by
  unfold registersSent
  rw [h]

theorem dataSent_refused : dataSent s k p false = s.setLink (s.link.beginStop .refused) := rfl

theorem dataSent_last (h : p.length ≤ s.link.bytes + 1) :
    dataSent s k p true = s.setLink ({ s.link with bytes := s.link.bytes + 1 }.beginStop .normal) :=
  if_neg (Nat.not_lt.mpr h)

theorem dataSent_more (h : s.link.bytes + 1 < p.length) :
    dataSent s k p true = beginWrite (s.setLink { s.link with bytes := s.link.bytes + 1 }) k p := if_pos h

end

/-! ### Elements of a transfer that goes on -/

section
variable {s : State} {k : LaneId} {p : LinkParams} (hover : s.linkWaitOver = false)
include hover

theorem linkByteRead_stores (h : s.linkServes k p .read) (hninth : s.link.ninth = false) (hextra : s.link.extra = false)
    (hin : p.offset + s.link.bytes < 1024) (b : Byte) :
    linkByteRead b s = (s.store (0x3000 + 0x400 * k.val + (p.offset + s.link.bytes)) [b]).setLink
      { s.link with ninth := true, bytes := s.link.bytes + 1, waited := 0 } := by
  unfold linkByteRead
  rw [linkServed_of_serves h hover]
  refine (if_pos ⟨h.2.2, hninth⟩).trans ((if_neg (Bool.eq_false_iff.mp hextra)).trans ?_)
  rw [storeWindow_byte s k hin]

variable (hw : s.link.windDown = false)
include hw

theorem linkStartDone_goes_on (h : s.linkServes k p .start) :
    linkStartDone s = s.setLink (s.link.beginAddress p (p.mode == .fetchHere)) := by
  unfold linkStartDone
  rw [linkServed_of_serves h hover]
  exact (if_pos h.2.2).trans (if_neg (Bool.eq_false_iff.mp hw))

theorem linkRestartDone_goes_on (h : s.linkServes k p .restart) :
    linkRestartDone s = s.setLink (s.link.beginAddress p true) := by
  unfold linkRestartDone
  rw [linkServed_of_serves h hover]
  exact (if_pos h.2.2).trans (if_neg (Bool.eq_false_iff.mp hw))

theorem linkByteSent_address (h : s.linkServes k p .address) (ack : Bool) :
    linkByteSent ack s = addressSent s p ack := by
  have hphase : s.link.phase = .address := h.2.2
  unfold linkByteSent
  rw [linkServed_of_serves h hover, hphase, hw]
  rfl

theorem linkByteSent_register (h : s.linkServes k p .register) (ack : Bool) :
    linkByteSent ack s = registerSent s k p ack := by
  have hphase : s.link.phase = .register := h.2.2
  unfold linkByteSent
  rw [linkServed_of_serves h hover, hphase, hw]
  rfl

theorem linkByteSent_write (h : s.linkServes k p .write) (ack : Bool) : linkByteSent ack s = dataSent s k p ack := by
  have hphase : s.link.phase = .write := h.2.2
  unfold linkByteSent
  rw [linkServed_of_serves h hover, hphase, hw]
  rfl

/-- The ninth clock of a byte read ends: the next byte, or STOP after the last one (R148). -/
theorem linkReadAckBitEnd_goes_on (h : s.linkServes k p .read) (hninth : s.link.ninth = true)
    (hextra : s.link.extra = false) :
    linkReadAckBitEnd s =
      s.setLink (if p.length ≤ s.link.bytes then s.link.beginStop .normal else s.link.beginRead false) := by
  unfold linkReadAckBitEnd
  rw [linkServed_of_serves h hover]
  refine (if_pos ⟨h.2.2, hninth⟩).trans ?_
  rw [hw, hextra, apply_ite s.setLink]
  exact if_congr decide_eq_true_iff rfl rfl

end

/-! ### Endings of a transfer -/

section
variable {s : State} {k : LaneId} {p : LinkParams}

theorem reportWindDown_by_cause {cause : EndCause} (h : (s.lane k).cause = some cause) :
    reportWindDown s k = endWindDown s k cause := by
  unfold reportWindDown
  rw [h]

theorem linkHolder_of_serves {ph : LinkPhase} (h : s.linkServes k p ph) : s.linkHolder = some (k, p) := by
  obtain ⟨hg, hp, -⟩ := h
  unfold State.linkHolder
  rw [hg]
  dsimp only
  rw [hp]
  rfl

theorem linkStopComplete_of_serves (h : s.linkServes k p .stop) (hover : s.linkWaitOver = false) :
    linkStopComplete s = finishAct (if s.link.windDown then reportWindDown s k else closeTransfer s k p) := by
  unfold linkStopComplete
  rw [linkServed_of_serves h hover]
  exact if_pos h.2.2

theorem recoveryComplete_of_serves (h : s.linkServes k p .recovery) (hover : s.linkWaitOver = false) :
    recoveryComplete s =
      if s.link.windDown then finishAct (reportWindDown (s.setLink { s.link with busUncertain := false }) k)
      else s.setLink { s.link with busUncertain := false, phase := .start, waited := 0 } := by
  unfold recoveryComplete
  rw [linkServed_of_serves h hover]
  exact if_pos h.2.2

theorem busStuck_over {ph : LinkPhase} (h : s.linkServes k p ph) (hover : s.linkWaitOver = true) :
    busStuck s =
      let t := s.setLink { s.link with busUncertain := true }
      finishAct (if s.link.windDown then reportWindDown t k else endTransfer t k .error .stuck) := by
  unfold busStuck
  rw [linkHolder_of_serves h]
  exact if_pos hover

/-- Before the limit the bus is not stuck (R142). -/
theorem busStuck_waiting (hover : s.linkWaitOver = false) : busStuck s = s := by
  unfold busStuck
  split
  · rfl
  · exact if_neg (Bool.eq_false_iff.mp hover)

theorem closeTransfer_normal (h : s.link.ending = .normal) : closeTransfer s k p = endTransfer s k .pass .none := by
  unfold closeTransfer
  rw [h]

theorem closeTransfer_noDevice (h : s.link.ending = .noDevice) :
    closeTransfer s k p = endTransfer s k .error .noDevice := by
  unfold closeTransfer
  rw [h]

theorem closeTransfer_refused (h : s.link.ending = .refused) :
    closeTransfer s k p = endTransfer s k .error .refused := by
  unfold closeTransfer
  rw [h]

/-- A probe that no device has answered ends FAIL, or waits to be tried again (R151). -/
theorem closeTransfer_busy (h : s.link.ending = .busy) :
    closeTransfer s k p =
      if p.mode = .probeUntil then (beginPollInterval s k, []) else endTransfer s k .fail .busy := by
  unfold closeTransfer
  rw [h]

end

end Sys2Proof.Machine

open Sys2Proof Sys2Proof.Machine

/-- Settles O41: the stuck bus, then the elements by the phase they end in. -/
theorem linkElementsFollowOneAnother : Obligations.LinkElementsFollowOneAnother := by
  unfold Obligations.LinkElementsFollowOneAnother
  refine ⟨fun c s hlimit hc => ?stuck, fun s k p hready hw hlimit => ?elements⟩
  case stuck =>
    have hover := (linkWaitOver_eq_true s).mpr hlimit
    rcases hc with rfl | rfl | ⟨ack, rfl⟩ | ⟨b, rfl⟩ | rfl
    · exact congrArg _ (whenReady_still (linkStartDone_over hover))
    · exact congrArg _ (whenReady_still (linkRestartDone_over hover))
    · exact congrArg _ (whenReady_still (linkByteSent_over hover ack))
    · exact congrArg _ (whenReady_still (linkByteRead_over hover b))
    · exact congrArg _ (whenReady_still (linkReadAckBitEnd_over hover))
  case elements =>
    intro x stops window
    have hover : s.linkWaitOver = false := (linkWaitOver_eq_false s).mpr hlimit
    refine ⟨fun h => ?start, fun h => ?restart, fun h => ?address, fun h => ?register, fun h => ?write, fun h => ?read⟩
    case start =>
      have hstart := (exec_of_ready hready .linkStartDone linkStartDone rfl).trans
        (congrArg _ (linkStartDone_goes_on hover hw h))
      refine ⟨fun hm => ?_, fun hm => ?_⟩
      · rw [hstart, beq_false_of_ne hm]
        rfl
      · rw [hstart, hm]
        rfl
    case restart =>
      exact (exec_of_ready hready .linkRestartDone linkRestartDone rfl).trans
        (congrArg _ (linkRestartDone_goes_on hover hw h))
    case address =>
      have hsent (ack : Bool) : exec (.linkByteSent ack) s = .next (addressSent s p ack) :=
        (exec_of_ready hready _ (linkByteSent ack) rfl).trans (congrArg _ (linkByteSent_address hover hw h ack))
      refine ⟨fun hm => ?probe, fun hprobe huntil => ?transfer⟩
      case probe =>
        have hprobes := p.mode.probes_iff.mpr hm
        exact ⟨(hsent true).trans (congrArg _ (addressSent_probe hprobes true)),
          (hsent false).trans (congrArg _ (addressSent_probe hprobes false))⟩
      case transfer =>
        have hprobes := LinkMode.probes_eq_false hprobe huntil
        refine ⟨(hsent false).trans (congrArg _ (addressSent_refused hprobes)),
          fun hr => (hsent true).trans (congrArg _ (addressSent_read hprobes hr)), fun hr hwidth => ?_, fun hr hwidth => ?_⟩
        · rw [hsent, addressSent_register hprobes hr, hwidth]
          rfl
        · rw [hsent, addressSent_register hprobes hr, hwidth]
          rfl
    case register =>
      have hsent (ack : Bool) : exec (.linkByteSent ack) s = .next (registerSent s k p ack) :=
        (exec_of_ready hready _ (linkByteSent ack) rfl).trans (congrArg _ (linkByteSent_register hover hw h ack))
      refine ⟨(hsent false).trans (congrArg _ registerSent_refused),
        fun (hleft : s.link.regLeft = 1) => ?more, fun hleft => ?last⟩
      case more =>
        rw [hsent, registerSent_more (Nat.one_pos.trans_eq hleft.symm), hleft]
        rfl
      case last =>
        have hlast := (hsent true).trans (congrArg _ (registerSent_last hleft))
        exact ⟨fun hm hin => hlast.trans (congrArg _ ((registersSent_store hm).trans (beginWrite_eq hin))),
          fun hm => hlast.trans (congrArg _ (registersSent_fetchAt hm)),
          fun hm => hlast.trans (congrArg _ (registersSent_point hm))⟩
    case write =>
      have hsent (ack : Bool) : exec (.linkByteSent ack) s = .next (dataSent s k p ack) :=
        (exec_of_ready hready _ (linkByteSent ack) rfl).trans (congrArg _ (linkByteSent_write hover hw h ack))
      exact ⟨(hsent false).trans (congrArg _ dataSent_refused),
        fun hlast => (hsent true).trans (congrArg _ (dataSent_last hlast)),
        fun hmore hin => (hsent true).trans (congrArg _ ((dataSent_more hmore).trans (beginWrite_eq hin)))⟩
    case read =>
      refine ⟨fun hninth hextra hin b => (exec_of_ready hready _ (linkByteRead b) rfl).trans
        (congrArg _ (linkByteRead_stores hover h hninth hextra hin b)), fun hninth hextra => ?_⟩
      have hend := (exec_of_ready hready .linkReadAckBitEnd linkReadAckBitEnd rfl).trans
        (congrArg _ (linkReadAckBitEnd_goes_on hover hw h hninth hextra))
      exact ⟨fun hmore => hend.trans (congrArg _ (congrArg s.setLink (if_neg (Nat.not_le.mpr hmore)))),
        fun hlast => hend.trans (congrArg _ (congrArg s.setLink (if_pos hlast)))⟩

/-- Settles O42: the three ends of a transfer, first without a wind-down and then under one, and what the stretch limit
leaves of each. -/
theorem transfersEndWithTheirStop : Obligations.TransfersEndWithTheirStop := by
  unfold Obligations.TransfersEndWithTheirStop
  intro s k p cont timeout hready hg hr hp stuck limit freed result
  have hserves {ph : LinkPhase} (h : s.link.phase = ph) : s.linkServes k p ph := by
    refine ⟨hg, ?_, h⟩
    unfold Lane.linkParams
    rw [hr]
  have hover : limit → s.linkWaitOver = true := (linkWaitOver_eq_true s).mpr
  have hwaiting (h : ¬limit) : s.linkWaitOver = false := (linkWaitOver_eq_false s).mpr (Nat.not_le.mp h)
  have hstop (h : ¬limit) (hphase : s.link.phase = .stop) :=
    (exec_of_ready hready .linkStopComplete linkStopComplete rfl).trans
      (congrArg Host.Outcome.next (linkStopComplete_of_serves (hserves hphase) (hwaiting h)))
  have hrecovery (h : ¬limit) (hphase : s.link.phase = .recovery) :=
    (exec_of_ready hready .recoveryComplete recoveryComplete rfl).trans
      (congrArg Host.Outcome.next (recoveryComplete_of_serves (hserves hphase) (hwaiting h)))
  have hstuck (h : limit) := (exec_of_ready hready .busStuck busStuck rfl).trans
    (congrArg Host.Outcome.next (busStuck_over (hserves rfl) (hover h)))
  refine ⟨fun hw => ?proper, fun cause hw hc => ?winding, fun h => ?unserved, fun h => ?unstuck⟩
  case proper =>
    have hnot := Bool.eq_false_iff.mp hw
    intro ends
    refine ⟨fun h hphase => ?stopped, fun h hphase => (hrecovery h hphase).trans (congrArg _ (if_neg hnot)), fun h => ?stuck⟩
    case stopped =>
      have hclose := (hstop h hphase).trans (congrArg _ (congrArg finishAct (if_neg hnot)))
      have hends {o : StepOutcome} {d : StepDetail} (ht : closeTransfer s k p = endTransfer s k o d) : ends o d := by
        show exec .linkStopComplete s = _
        rw [hclose, ht, endTransfer, partialResult_linking hr hp]
      refine ⟨fun he => hends (closeTransfer_normal he), fun he => hends (closeTransfer_noDevice he),
        fun he => hends (closeTransfer_refused he), fun he hm => hends ((closeTransfer_busy he).trans (if_neg hm)),
        fun he hm => ?_⟩
      rw [hclose, closeTransfer_busy he, if_pos hm, finishAct_nil]
      rfl
    case stuck =>
      rw [hstuck h]
      refine congrArg _ (congrArg finishAct ((if_neg hnot).trans ?_))
      exact congrArg (stepEnd (releaseLink stuck) k) (partialResult_linking (s := stuck) hr hp _ _)
  case winding =>
    refine ⟨fun h hphase => (hstop h hphase).trans (congrArg _ (congrArg finishAct ((if_pos hw).trans ?_))),
      fun h hphase => (hrecovery h hphase).trans (congrArg _ ((if_pos hw).trans (congrArg finishAct ?_))),
      fun h => (hstuck h).trans (congrArg _ (congrArg finishAct ((if_pos hw).trans ?_)))⟩
    · exact reportWindDown_by_cause hc
    · exact reportWindDown_by_cause (s := freed) hc
    · exact reportWindDown_by_cause (s := stuck) hc
  case unserved =>
    exact ⟨congrArg _ (whenReady_still (linkStopComplete_over (hover h))),
      congrArg _ (whenReady_still (recoveryComplete_over (hover h)))⟩
  case unstuck => exact congrArg _ (whenReady_still (busStuck_waiting (hwaiting h)))

end

section
/-! The commands that touch the hold-safe monitor or the port's flags alone (O49): RENEW, MONITOR_ON and RESUME by the
monitor's state (R157, R159, R164), CLEAR_FLAGS (R179) and an unknown code (R176). -/

namespace Sys2Proof.Machine

/-! ### One command, one answer -/

section
variable {s : State}

theorem renewed_watching (h : s.holdSafe.state = .watching) :
    s.renewed = { s with holdSafe := ⟨.watching, 0, false⟩ } := by
  unfold State.renewed
  rw [if_pos h, ← h]

theorem renew_watching (h : s.holdSafe.state = .watching) :
    renew s = { s with holdSafe := ⟨.watching, 0, false⟩, result := ⟨.accepted, 0x04#8, 0⟩ } := by
  unfold renew
  rw [h]
  exact congrArg (fun t : State => t.answer codeRenew .accepted 0) (renewed_watching h)

theorem renew_disabled (h : s.holdSafe.state = .disabled) : renew s = { s with result := ⟨.accepted, 0x04#8, 1⟩ } := by
  unfold renew
  rw [h]
  rfl

theorem renew_safe (h : s.holdSafe.state = .safe) : renew s = { s with result := ⟨.safeActive, 0x04#8, 0xFF#8⟩ } := by
  unfold renew
  rw [h]
  rfl

theorem turnMonitorOn_disabled (h : s.holdSafe.state = .disabled) :
    turnMonitorOn s = { s with holdSafe := ⟨.watching, 0, false⟩, result := ⟨.accepted, 0x07#8, 0⟩ } := by
  unfold turnMonitorOn
  rw [h]
  rfl

/-- A monitor that is on is left as it is (R157). -/
theorem turnMonitorOn_on (h : s.holdSafe.state ≠ .disabled) :
    turnMonitorOn s = { s with result := ⟨.accepted, 0x07#8, 1⟩ } := by
  unfold turnMonitorOn
  split
  next hd => exact absurd hd h
  next => rfl
  next => rfl

theorem resume_notSafe (h : s.holdSafe.state ≠ .safe) : resume s = { s with result := ⟨.notSafe, 0x08#8, 0xFF#8⟩ } :=
  if_pos (by rw [safe_eq_decide, decide_eq_false h])

theorem resume_busy (h : s.holdSafe.state = .safe) (hw : s.windingLanes ≠ []) :
    resume s = { s with result := ⟨.busy, 0x08#8, laneMask s.windingLanes⟩ } :=
  (if_neg (by simp [safe_eq_decide, h])).trans (if_pos hw)

theorem resume_free (h : s.holdSafe.state = .safe) (hw : s.windingLanes = []) :
    resume s = { s with holdSafe := ⟨.watching, 0, false⟩, result := ⟨.accepted, 0x08#8, 0⟩ } :=
  (if_neg (by simp [safe_eq_decide, h])).trans (if_neg (not_not_intro hw))

theorem windingLanes_eq_nil_iff : s.windingLanes = [] ↔ ∀ k, (s.lane k).state ≠ .winding := by
  unfold State.windingLanes
  simp [mem_allLanes]

/-- A host command leaves what its act makes of the state, and its frame (R166, R183). -/
theorem exec_answers (hready : s.ready = true) {c : Instr} {f : State → State} {t : State}
    (hc : exec c s = .next (asCommand f s)) (hf : f (s.judged 80 []) = { t with frame := ⟨80, []⟩ }) :
    ∃ frame : PortFrame, exec c s = .next { t with frame := frame } :=
  ⟨⟨80, []⟩, by rw [hc, asCommand_ready f s hready, hf]⟩

end

theorem namesCommand_eq_false {code : Byte} (h : code.toNat = 0 ∨ 10 ≤ code.toNat) : namesCommand code = false := by
  unfold namesCommand
  rw [Bool.and_eq_false_iff, decide_eq_false_iff_not, decide_eq_false_iff_not]
  omega

end Sys2Proof.Machine

open Sys2Proof Sys2Proof.Machine

/-- Settles O49: each command by the monitor's state. -/
theorem shortCommandsAnswerAtOnce : Obligations.ShortCommandsAnswerAtOnce := by
  unfold Obligations.ShortCommandsAnswerAtOnce
  intro s hready answers
  let u : State := s.judged 80 []
  have hrenew {t : State} (h : renew u = { t with frame := ⟨80, []⟩ }) : answers .renew t := exec_answers hready rfl h
  have hon {t : State} (h : turnMonitorOn u = { t with frame := ⟨80, []⟩ }) : answers .monitorOn t :=
    exec_answers hready rfl h
  have hresume {t : State} (h : resume u = { t with frame := ⟨80, []⟩ }) : answers .resume t := exec_answers hready rfl h
  refine ⟨fun hw => ?watching, fun hd => ?disabled, fun hs => ?safe, ?clearFlags, fun code hcode => ?unknown⟩
  case watching =>
    exact ⟨hrenew (renew_watching (s := u) hw), hon (turnMonitorOn_on (s := u) (by simp [u, hw])),
      hresume (resume_notSafe (s := u) (by simp [u, hw]))⟩
  case disabled =>
    exact ⟨hrenew (renew_disabled (s := u) hd), hon (turnMonitorOn_disabled (s := u) hd),
      hresume (resume_notSafe (s := u) (by simp [u, hd]))⟩
  case safe =>
    refine ⟨hrenew (renew_safe (s := u) hs), hon (turnMonitorOn_on (s := u) (by simp [u, hs])), fun hfree => ?_,
      fun k hk => ?_⟩
    · exact hresume (resume_free (s := u) hs (windingLanes_eq_nil_iff.mpr hfree))
    · exact hresume (resume_busy (s := u) hs fun hnil => windingLanes_eq_nil_iff.mp hnil k hk)
  case clearFlags => exact exec_answers hready (f := clearFlags) rfl rfl
  case unknown =>
    refine exec_answers hready (f := refuseUnknown code) (congrArg Host.Outcome.next (if_neg ?_)) rfl
    rw [namesCommand_eq_false hcode]
    decide

end

section
/-! The eleventh and the twelfth law (O14): no act but the end of a device reset lets the CRC error count fall (R170) or
brings a monitor that is on back to DISABLED (R156). -/

namespace Sys2Proof.Machine

/-! ### Both laws carried on -/

/-- The CRC error count has not fallen, and a monitor that was on has not gone back to DISABLED. -/
structure Advances (s t : State) : Prop where
  crcCount : s.crcCount ≤ t.crcCount
  monitor : s.holdSafe.state ≠ .disabled → t.holdSafe.state ≠ .disabled

theorem Advances.refl (s : State) : Advances s s := ⟨BitVec.le_refl _, id⟩

theorem Advances.trans {s t u : State} (h : Advances s t) (g : Advances t u) : Advances s u :=
  ⟨BitVec.le_trans h.crcCount g.crcCount, g.monitor ∘ h.monitor⟩

/-- An act that leaves the count, and a monitor that is on if it was. -/
theorem Advances.of_monitor {s t : State} (hc : t.crcCount = s.crcCount)
    (hm : s.holdSafe.state ≠ .disabled → t.holdSafe.state ≠ .disabled) : Advances s t :=
  ⟨by rw [hc]; exact BitVec.le_refl _, hm⟩

/-- An act that leaves both the count and the monitor. -/
theorem Advances.of_eq {s t : State} (hc : t.crcCount = s.crcCount) (hm : t.holdSafe = s.holdSafe) : Advances s t :=
  .of_monitor hc fun h => by rwa [hm]

theorem EngineOnly.advances {s t : State} (h : EngineOnly s t) : Advances s t := by
  obtain ⟨-, -, -, -, -, hc, -, -, -, -, -, -, -, hm⟩ := h.keeps
  exact .of_eq hc hm

theorem Advances.finishAct {s : State} {a : Act} (h : Advances s a.1) : Advances s (finishAct a) :=
  h.trans (finishAct_engine a).advances

theorem answer_advances (s : State) (e : Byte) (code : ResultCode) (d : Byte) : Advances s (s.answer e code d) :=
  .of_eq rfl rfl

theorem judged_advances (s : State) (bits : Nat) (reply : List Byte) : Advances s (s.judged bits reply) := .of_eq rfl rfl

theorem fault_advances (s : State) : Advances s s.fault := .of_eq rfl rfl

/-- The CRC error count rises, or stays at 255 (R170). -/
theorem crcError_advances (s : State) : Advances s s.crcError := by
  refine ⟨?_, id⟩
  show s.crcCount ≤ if s.crcCount = 0xFF#8 then s.crcCount else s.crcCount + 1
  split
  next => exact BitVec.le_refl _
  next hlow => bv_omega

/-! ### The monitor -/

theorem renewed_advances (s : State) : Advances s s.renewed := by
  refine .of_monitor (by rw [renewed_eq]) fun h => ?_
  rw [renewed_holdSafe]
  split
  · exact h
  · exact h

theorem renew_advances (s : State) : Advances s (renew s) := by
  unfold renew
  split
  · exact (renewed_advances s).trans (answer_advances _ _ _ _)
  · exact answer_advances s _ _ _
  · exact answer_advances s _ _ _

theorem turnMonitorOn_advances (s : State) : Advances s (turnMonitorOn s) := by
  by_cases h : s.holdSafe.state = .disabled
  · rw [turnMonitorOn_disabled h]
    exact .of_monitor rfl fun hon => absurd h hon
  · rw [turnMonitorOn_on h]
    exact .of_eq rfl rfl

theorem resume_advances (s : State) : Advances s (resume s) := by
  unfold resume
  split_ifs
  · exact answer_advances s _ _ _
  · exact answer_advances s _ _ _
  · exact .of_monitor rfl fun _ => HoldState.noConfusion

/-- An engine reset leaves a monitor that is on WATCHING (R165). -/
theorem HoldSafe.engineReset_ne_disabled {h : HoldSafe} (hon : h.state ≠ .disabled) : h.engineReset.state ≠ .disabled := by
  unfold HoldSafe.engineReset
  dsimp only
  rw [if_neg hon]
  decide

theorem HoldSafe.atTick_state (h : HoldSafe) (window : Nat) : (h.atTick window).state = h.state := by
  unfold HoldSafe.atTick
  split
  · rfl
  · rfl

theorem monitorExpiry_advances (s : State) : Advances s (monitorExpiry s) := by
  by_cases h : s.holdSafe.state = .watching ∧ s.holdSafe.expiryDue = true
  · have henter : Advances s (enterSafe s) := .of_monitor rfl fun _ => HoldState.noConfusion
    exact henter.trans (monitorExpiry_engine h).advances
  · rw [monitorExpiry_not_due s h]
    exact .refl s

theorem tick_advances (s : State) : Advances s (tick s) := by
  have hboundary (u : State) : Advances u (tickBoundary u) :=
    .of_monitor rfl fun h => (HoldSafe.atTick_state u.holdSafe u.config.window).symm ▸ h
  exact (monitorExpiry_advances s).trans (hboundary _)

/-! ### Commands -/

theorem postedParked_advances {s : State} {w : HoldSafe} (hw : s.holdSafe.state ≠ .disabled → w.state ≠ .disabled)
    (n : SlotId) (m : Memory) : Advances s (s.postedParked n m w) := .of_monitor rfl hw

theorem postedQueued_advances {s : State} {w : HoldSafe} (hw : s.holdSafe.state ≠ .disabled → w.state ≠ .disabled)
    (n : SlotId) (m : Memory) : Advances s (s.postedQueued n m w) := .of_monitor rfl hw

theorem post_advances (b : Byte) (s : State) : Advances s (post b s) := by
  have haccept (n : SlotId) : Advances s (acceptPost s n).1 := by
    cases hpark : s.parkFlag n with
    | true =>
      rw [acceptPost_park hpark]
      exact postedParked_advances (renewed_advances s).monitor n _
    | false =>
      rw [acceptPost_queue hpark]
      exact postedQueued_advances (renewed_advances s).monitor n _
  unfold post
  split
  · exact answer_advances s _ _ _
  · split
    · exact .of_eq rfl rfl
    · exact (haccept _).finishAct

theorem endUnrun_advances (reason : EndReason) (s : State) (n : SlotId) : Advances s (endUnrun reason s n) := by
  have h := endUnrun_eq reason s n
  exact .of_eq (by rw [h]) (by rw [h])

theorem abortAt_advances (s : State) (n : SlotId) (p : Place) : Advances s (abortAt s n p).1 := by
  cases p with
  | queued k =>
    have hleft : Advances s (s.setQueue k ((s.queue k).erase n)) := .of_eq rfl rfl
    exact (hleft.trans (endUnrun_advances _ _ n)).trans (answer_advances _ _ _ _)
  | parked =>
    have hleft : Advances s { s with parked := s.parked.erase n } := .of_eq rfl rfl
    exact (hleft.trans (endUnrun_advances _ _ n)).trans (answer_advances _ _ _ _)
  | running k => exact (answer_advances s _ _ _).trans (cutLane_engine _ k _).advances

theorem abort_advances (b : Byte) (s : State) : Advances s (abort b s) := by
  unfold abort
  split
  · exact answer_advances s _ _ _
  · split
    · exact answer_advances s _ _ _
    · exact (abortAt_advances s _ _).finishAct

theorem go_advances (lanes : BitVec 4) (apply : Bool) (s : State) : Advances s (go lanes apply s) := by
  unfold go
  refine Advances.finishAct (.trans ?_ (answer_advances _ _ _ _))
  cases apply with
  | true => exact (reported_engine (fun s c => (applyOn_chansOnly s c).engine) (s.appliedChans lanes) s).advances
  | false => exact .refl s

theorem loadConfig_advances (s : State) : Advances s (loadConfig s) := by
  cases hbusy : s.busy with
  | true =>
    rw [loadConfig_busy hbusy]
    exact answer_advances s _ _ _
  | false =>
    cases hbad : firstBadField s.mem with
    | some off =>
      rw [loadConfig_invalid hbusy hbad]
      exact answer_advances s _ _ _
    | none =>
      obtain ⟨htaken, -⟩ := loadConfig_takes hbusy hbad
      exact .of_eq (by rw [htaken]) (by rw [htaken])

theorem engineReset_advances (s : State) : Advances s (engineReset s) := by
  obtain ⟨lines, h, -⟩ := engineReset_eq s
  rw [h]
  exact .of_monitor rfl HoldSafe.engineReset_ne_disabled

/-- Count and monitor keep their values until a device reset's end (log 22). -/
theorem beginReset_advances (s : State) : Advances s (beginReset s) := by
  have h := (resetBlocks_spec s).1
  unfold beginReset
  generalize s.resetBlocks = t at h ⊢
  exact .of_eq (by rw [h]) (by rw [h])

theorem dispatchWord_advances (w : Word) (s : State) : Advances s (dispatchWord w s) := by
  unfold dispatchWord
  dsimp only
  split
  · exact post_advances _ s
  · exact abort_advances _ s
  · exact go_advances _ _ s
  · exact renew_advances s
  · exact loadConfig_advances s
  · exact engineReset_advances s
  · exact turnMonitorOn_advances s
  · exact resume_advances s
  · exact .of_eq rfl rfl
  · exact answer_advances s _ _ _

/-! ### Frames -/

theorem storeFrame_advances (s : State) (a : Nat) (data : List Byte) : Advances s (s.storeFrame a data) := by
  unfold State.storeFrame
  split
  · exact .of_eq rfl rfl
  · exact .of_eq rfl rfl

theorem writeRegisters_advances (a : Nat) (data : List Byte) (s : State) : Advances s (writeRegisters a data s) := by
  unfold writeRegisters
  split_ifs
  · exact dispatchWord_advances _ s
  · exact .of_eq rfl rfl
  · exact fault_advances s

theorem applyWrite_advances (addr : Half) (data : List Byte) (s : State) : Advances s (applyWrite addr data s) := by
  unfold applyWrite
  dsimp only
  split
  · exact storeFrame_advances s _ data
  · exact storeFrame_advances s _ data
  · split
    · exact fault_advances s
    · exact storeFrame_advances s _ data
  · exact fault_advances s
  · exact writeRegisters_advances _ data s
  · exact fault_advances s

theorem receiveWrite_advances (addr : Half) (data : List Byte) (crc : Half) (s : State) :
    Advances s (receiveWrite addr data crc s) := by
  unfold receiveWrite inWriteFrame
  refine (judged_advances s (frameBits data.length) []).trans ?_
  split
  · exact applyWrite_advances addr data _
  · exact crcError_advances _

theorem receiveRead_advances (addr : Half) (l : Byte) (crc : Half) (s : State) :
    Advances s (receiveRead addr l crc s) := by
  unfold receiveRead
  dsimp only
  split_ifs
  · exact judged_advances s _ _
  · exact (judged_advances s _ _).trans (fault_advances _)
  · exact (judged_advances s _ _).trans (crcError_advances _)

/-! ### Every command -/

theorem whenReady_advances {f : State → State} (hf : ∀ s, Advances s (f s)) (s : State) : Advances s (whenReady f s) :=
  whenReady_kept Advances hf .refl s

theorem asCommand_advances {f : State → State} (hf : ∀ s, Advances s (f s)) (s : State) : Advances s (asCommand f s) :=
  whenReady_advances (fun s => (judged_advances s _ _).trans (hf _)) s

/-- Of the events inside the part, only TICK and MONITOR_EXPIRY reach the monitor, and none the count. -/
theorem exec_event_advances {c : Instr} {s t : State} (hc : c.isEvent = true) (hx : exec c s = .next t) :
    Advances s t := by
  by_cases htick : c = .tick
  · subst htick
    obtain rfl := next_inj hx
    exact whenReady_advances tick_advances s
  by_cases hexpiry : c = .monitorExpiry
  · subst hexpiry
    obtain rfl := next_inj hx
    exact whenReady_advances monitorExpiry_advances s
  obtain ⟨-, -, -, -, hcount, -, -, -, -, -, hmonitor⟩ := eventsLeaveThePortAlone.2 c s t hc hx
  exact .of_eq hcount (hmonitor htick hexpiry)

theorem exec_advances {c : Instr} {s t : State} (hend : ∀ strap levels, c ≠ .deviceResetEnd strap levels)
    (hx : exec c s = .next t) : Advances s t := by
  cases c with
  | post b => obtain rfl := next_inj hx; exact asCommand_advances (post_advances b) s
  | abort b => obtain rfl := next_inj hx; exact asCommand_advances (abort_advances b) s
  | go lanes apply => obtain rfl := next_inj hx; exact asCommand_advances (go_advances lanes apply) s
  | renew => obtain rfl := next_inj hx; exact asCommand_advances renew_advances s
  | loadConfig => obtain rfl := next_inj hx; exact asCommand_advances loadConfig_advances s
  | engineReset => obtain rfl := next_inj hx; exact asCommand_advances engineReset_advances s
  | monitorOn => obtain rfl := next_inj hx; exact asCommand_advances turnMonitorOn_advances s
  | resume => obtain rfl := next_inj hx; exact asCommand_advances resume_advances s
  | clearFlags => obtain rfl := next_inj hx; exact asCommand_advances (f := clearFlags) (fun _ => .of_eq rfl rfl) s
  | unknownCommand code =>
    obtain rfl := next_inj hx
    split
    · exact .refl s
    · exact asCommand_advances (f := refuseUnknown code) (fun s => answer_advances s _ _ _) s
  | finishedWrite mask =>
    obtain rfl := next_inj hx
    exact whenReady_advances (f := inWriteFrame 4 (acknowledge mask)) (fun _ => .of_eq rfl rfl) s
  | readOnlyRegisterWrite addr data =>
    obtain rfl := next_inj hx
    refine whenReady_advances (fun s => ?_) s
    split
    · exact (judged_advances s _ _).trans (fault_advances _)
    · exact .refl s
  | writeFrame addr data crc =>
    obtain rfl := next_inj hx
    refine whenReady_advances (fun s => ?_) s
    split
    · exact receiveWrite_advances addr data crc s
    · exact .refl s
  | readFrame addr l crc => obtain rfl := next_inj hx; exact whenReady_advances (receiveRead_advances addr l crc) s
  | badOperationByte op =>
    obtain rfl := next_inj hx
    refine whenReady_advances (fun s => ?_) s
    split
    · exact .refl s
    · exact (judged_advances s _ _).trans (fault_advances _)
  | earlyNcsRise bits =>
    obtain rfl := next_inj hx
    refine whenReady_advances (fun s => ?_) s
    split
    · exact .refl s
    · exact (judged_advances s _ _).trans (fault_advances _)
  | deviceReset => obtain rfl := next_inj hx; exact beginReset_advances s
  | deviceResetEnd strap levels => exact absurd rfl (hend strap levels)
  | _ => exact exec_event_advances rfl hx

/-- A device reset that ends clears the count (R181); one that is not in progress does not end. -/
theorem exec_deviceResetEnd_advances {strap : Bool} {levels : BitVec 8} {s t : State}
    (hx : exec (.deviceResetEnd strap levels) s = .next t) : Advances s t ∨ t.crcCount = 0 := by
  obtain rfl := next_inj hx
  split
  · exact .inl (.refl s)
  · exact .inr rfl

theorem step_advances {s t : State} (hstep : step s = .next t) :
    Advances s t ∨ t.crcCount = 0 ∧ ∃ strap levels rest, s.pending = .deviceResetEnd strap levels :: rest := by
  unfold step at hstep
  split at hstep
  next =>
    obtain rfl := next_inj hstep
    exact .inl (.refl s)
  next c rest hpending =>
    have hrest : Advances s { s with pending := rest } := .of_eq rfl rfl
    by_cases hend : ∃ strap levels, c = .deviceResetEnd strap levels
    · obtain ⟨strap, levels, rfl⟩ := hend
      exact (exec_deviceResetEnd_advances hstep).imp hrest.trans fun hzero => ⟨hzero, strap, levels, rest, hpending⟩
    · exact .inl (hrest.trans (exec_advances (fun strap levels hc => hend ⟨strap, levels, hc⟩) hstep))

end Sys2Proof.Machine

open Sys2Proof Sys2Proof.Machine

/-- Settles O14: every act but the end of a device reset carries both laws on. -/
theorem everyStepKeepsTheLastTwoLaws : Obligations.EveryStepKeepsTheLastTwoLaws := by
  unfold Obligations.EveryStepKeepsTheLastTwoLaws
  intro s t hstep
  rcases step_advances hstep with h | ⟨hzero, hreset⟩
  · exact ⟨.inl h.crcCount, fun hon hoff => absurd hoff (h.monitor hon)⟩
  · exact ⟨.inr ⟨hzero, hreset⟩, fun _ _ => hreset⟩

end

section
/-! The state after a device reset meets every invariant (O15), and nothing reaches the part while one is in progress
(O3). -/

namespace Sys2Proof.Machine

/-! ### After a device reset -/

theorem afterReset_cleared (strap : Bool) (levels : BitVec 8) : Cleared (State.afterReset strap levels) :=
  endReset_cleared strap levels (State.afterReset strap levels)

/-- Where every block is cleared no slot is held (R27). -/
theorem Cleared.heldList {s : State} (h : Cleared s) : s.heldList = [] := by
  have hqueue : s.queue = fun _ => [] := funext h.queue
  have hrunning : (fun k => (s.lane k).running) = fun _ => none := funext fun k => by rw [h.lane]; rfl
  unfold State.heldList
  rw [hqueue, h.parked, hrunning]
  rfl

theorem Cleared.slotsApart {s : State} (h : Cleared s) : s.slotsApart := by
  unfold State.slotsApart
  rw [h.heldList]
  exact ⟨List.nodup_nil, fun _ hn => absurd hn List.not_mem_nil⟩

theorem Cleared.queuesBounded {s : State} (h : Cleared s) : s.queuesBounded := fun k => by
  rw [h.queue]
  exact ⟨Nat.zero_le 8, List.nodup_nil⟩

/-- No line has a detector, whatever its first sample (R132, R139). -/
theorem afterReset_detectorsLegal (strap : Bool) (levels : BitVec 8) : (State.afterReset strap levels).detectorsLegal :=
  fun l => by
    have hline : (State.afterReset strap levels).line l = Line.reset (levels.getLsbD l.val) :=
      vec8_get (fun l => Line.reset (levels.getLsbD l.val)) l
    rw [hline]
    exact Line.reset_detectorLegal _

/-! ### During a device reset -/

theorem whenReady_reset {s : State} (h : s.ready = false) (f : State → State) : whenReady f s = s :=
  if_neg (Bool.eq_false_iff.mp h)

/-- Every command but the two of the device reset itself waits for READY (R181). -/
theorem exec_eq_whenReady {c : Instr} (hbegin : c ≠ .deviceReset)
    (hend : ∀ strap levels, c ≠ .deviceResetEnd strap levels) :
    ∃ f : State → State, ∀ s, exec c s = .next (whenReady f s) := by
  cases c with
  | deviceReset => exact absurd rfl hbegin
  | deviceResetEnd strap levels => exact absurd rfl (hend strap levels)
  | unknownCommand code =>
    cases hnamed : namesCommand code with
    | true =>
      have hidle (s : State) : whenReady id s = s := by
        unfold whenReady
        split
        · rfl
        · rfl
      exact ⟨id, fun s => congrArg Host.Outcome.next ((if_pos hnamed).trans (hidle s).symm)⟩
    | false =>
      exact ⟨inWriteFrame 4 (refuseUnknown code), fun s => congrArg Host.Outcome.next (if_neg (by simp [hnamed]))⟩
  | _ => exact ⟨_, fun _ => rfl⟩

end Sys2Proof.Machine

open Sys2Proof Sys2Proof.Machine

/-- Settles O15: the cleared blocks meet the invariants of the engine, the reset channels and lines their own. -/
theorem resetMeetsEveryInvariant : Obligations.ResetMeetsEveryInvariant := by
  have hcleared : Cleared State.reset := afterReset_cleared false 0xFF#8
  exact ⟨State.reset_memory.2, channelsLegal_of_reset rfl, hcleared.queuesBounded, hcleared.slotsApart,
    afterReset_detectorsLegal false 0xFF#8, hcleared.unitsQuiet, Converter.ordered_of_cleared rfl rfl,
    hcleared.lanesServed, (tenthLaw_iff State.reset).mpr fun _ => hcleared.atRest⟩

/-- Settles O3: the command waits for READY. -/
theorem nothingHappensDuringDeviceReset : Obligations.NothingHappensDuringDeviceReset := by
  unfold Obligations.NothingHappensDuringDeviceReset
  intro c s hready hbegin hend
  obtain ⟨f, hf⟩ := exec_eq_whenReady hbegin hend
  rw [hf, whenReady_reset hready]

end

section
/-! A frame with a bad CRC (O57), and the host command that a word written to COMMAND spells, with its frame (O54). -/

namespace Sys2Proof.Machine

/-! ### A bad CRC -/

/-- The check value of the CRC, and its bytes in the order they are sent (R167). -/
theorem crc16_check :
    crc16 [0x31#8, 0x32#8, 0x33#8, 0x34#8, 0x35#8, 0x36#8, 0x37#8, 0x38#8, 0x39#8] = 0x29B1#16 ∧
      halfBytes 0x29B1#16 = [0xB1#8, 0x29#8] := by decide +kernel

theorem crcError_eq (s : State) :
    s.crcError = { s with crcCount := if s.crcCount = 0xFF#8 then 0xFF#8 else s.crcCount + 1, crcFlag := true } := by
  unfold State.crcError
  split
  next hfull => rw [hfull]
  next => rfl

section
variable {s : State} (h : s.ready = true)
include h

theorem exec_writeFrame_badCrc {addr crc : Half} {data : List Byte} (h1 : 1 ≤ data.length) (h2 : data.length ≤ 256)
    (hcrc : crc ≠ writeCrc addr data) :
    exec (.writeFrame addr data crc) s = .next (s.judged (8 * (6 + data.length)) []).crcError := by
  have hlength : frameLengthOk data = true := by
    unfold frameLengthOk
    rw [Bool.and_eq_true, decide_eq_true_iff, decide_eq_true_iff]
    exact ⟨h1, h2⟩
  exact congrArg Host.Outcome.next
    ((whenReady_ready h _).trans ((if_pos hlength).trans (congrFun (if_neg (Ne.symm hcrc)) _)))

theorem exec_readFrame_badCrc {addr crc : Half} {l : Byte} (hcrc : crc ≠ readCrc addr l) :
    exec (.readFrame addr l crc) s = .next (s.judged 48 (refusedBytes (l.toNat + 1))).crcError :=
  congrArg Host.Outcome.next ((whenReady_ready h _).trans (if_neg (Ne.symm hcrc)))

end

/-! ### What a host command leaves of its frame -/

theorem EngineOnly.frame {s t : State} (h : EngineOnly s t) : t.frame = s.frame := by
  obtain ⟨-, -, -, -, -, -, -, hframe, -⟩ := h.keeps
  exact hframe

theorem finishAct_frame (a : Act) : (finishAct a).frame = a.1.frame := (finishAct_engine a).frame

theorem postedParked_frame (s : State) (n : SlotId) (m : Memory) (w : HoldSafe) :
    (s.postedParked n m w).frame = s.frame := rfl

theorem postedQueued_frame (s : State) (n : SlotId) (m : Memory) (w : HoldSafe) :
    (s.postedQueued n m w).frame = s.frame := rfl

theorem acceptPost_frame (s : State) (n : SlotId) : (acceptPost s n).1.frame = s.frame := by
  cases hpark : s.parkFlag n with
  | true => rw [acceptPost_park hpark, postedParked_frame]
  | false => rw [acceptPost_queue hpark, postedQueued_frame]

theorem post_frame (b : Byte) (s : State) : (post b s).frame = s.frame := by
  unfold post
  split
  next => rfl
  next =>
    split
    next => rfl
    next => rw [finishAct_frame, acceptPost_frame]

theorem abortAt_frame (s : State) (n : SlotId) (p : Place) : (abortAt s n p).1.frame = s.frame := by
  unfold abortAt
  cases p with
  | queued k => dsimp only; rw [endUnrun_eq]; rfl
  | parked => dsimp only; rw [endUnrun_eq]; rfl
  | running k => exact (cutLane_engine _ k _).frame

theorem abort_frame (b : Byte) (s : State) : (abort b s).frame = s.frame := by
  unfold abort
  split
  next => rfl
  next =>
    split
    next => rfl
    next => rw [finishAct_frame, abortAt_frame]

theorem go_frame (lanes : BitVec 4) (apply : Bool) (s : State) : (go lanes apply s).frame = s.frame := by
  unfold go
  rw [finishAct_frame]
  cases apply with
  | false => rfl
  | true => exact (reported_engine (fun s c => (applyOn_chansOnly s c).engine) (s.appliedChans lanes) s).frame

theorem renew_frame (s : State) : (renew s).frame = s.frame := by
  cases hstate : s.holdSafe.state with
  | watching => rw [renew_watching hstate]
  | disabled => rw [renew_disabled hstate]
  | safe => rw [renew_safe hstate]

theorem loadConfig_frame (s : State) : (loadConfig s).frame = s.frame := by
  cases hbusy : s.busy with
  | true => rw [loadConfig_busy hbusy]; rfl
  | false =>
    cases hbad : firstBadField s.mem with
    | some off => rw [loadConfig_invalid hbusy hbad]; rfl
    | none =>
      obtain ⟨htaken, -⟩ := loadConfig_takes hbusy hbad
      rw [htaken]

theorem engineReset_frame (s : State) : (engineReset s).frame = s.frame := by
  obtain ⟨lines, hreset, -⟩ := engineReset_eq s
  rw [hreset]
  rfl

theorem turnMonitorOn_frame (s : State) : (turnMonitorOn s).frame = s.frame := by
  by_cases hoff : s.holdSafe.state = .disabled
  · rw [turnMonitorOn_disabled hoff]
  · rw [turnMonitorOn_on hoff]

theorem resume_frame (s : State) : (resume s).frame = s.frame := by
  unfold resume
  split_ifs
  · rfl
  · rfl
  · rfl

theorem dispatchWord_frame (w : Word) (s : State) : (dispatchWord w s).frame = s.frame := by
  unfold dispatchWord
  dsimp only
  split
  · exact post_frame _ s
  · exact abort_frame _ s
  · exact go_frame _ _ s
  · exact renew_frame s
  · exact loadConfig_frame s
  · exact engineReset_frame s
  · exact turnMonitorOn_frame s
  · exact resume_frame s
  · rfl
  · rfl

/-! ### The fields of a command word -/

section
variable (b0 b1 b2 b3 : Byte)

theorem word_code : (word b0 b1 b2 b3).extractLsb' 0 8 = b0 := by
  unfold word
  rw [BitVec.extractLsb'_append_eq_right]

theorem word_slot : (word b0 b1 b2 b3).extractLsb' 8 8 = b1 := by
  unfold word
  rw [BitVec.extractLsb'_append_eq_of_le (by decide)]
  exact BitVec.extractLsb'_append_eq_right

theorem word_lanes : (word b0 b1 b2 b3).extractLsb' 8 4 = b1.setWidth 4 := by
  unfold word
  rw [BitVec.extractLsb'_append_eq_of_le (by decide), BitVec.extractLsb'_append_eq_of_add_le (by decide),
    BitVec.setWidth_eq_extractLsb' (by decide)]

theorem word_apply : (word b0 b1 b2 b3).getLsbD 16 = b2.getLsbD 0 := by
  unfold word
  rw [BitVec.getLsbD_append, BitVec.getLsbD_append, BitVec.getLsbD_append]
  rfl

/-! ### The dispatcher -/

/-- A WRITE of four bytes to COMMAND is dispatched as their word (R183). -/
theorem applyWrite_command (s : State) :
    applyWrite 0x7F08#16 [b0, b1, b2, b3] s = dispatchWord (word b0 b1 b2 b3) s := by
  have harea : areaOfRange (0x7F08#16 : Half).toNat [b0, b1, b2, b3].length = some .registers :=
    (areaOfRange_eq_some 0x7F08 4 (by decide) .registers).mpr (by decide)
  unfold applyWrite
  dsimp only
  rw [harea]
  exact if_pos ⟨rfl, rfl⟩

/-- The command that the first three bytes written to COMMAND spell (R183, R176). -/
def commandOf (b0 b1 b2 : Byte) : Instr :=
  match b0.toNat with
  | 1 => .post b1
  | 2 => .abort b1
  | 3 => .go (b1.setWidth 4) (b2.getLsbD 0)
  | 4 => .renew
  | 5 => .loadConfig
  | 6 => .engineReset
  | 7 => .monitorOn
  | 8 => .resume
  | 9 => .clearFlags
  | _ => .unknownCommand b0

/-- A code that names no command (R176). -/
theorem dispatchWord_unknown (h : b0.toNat = 0 ∨ 10 ≤ b0.toNat) :
    dispatchWord (word b0 b1 b2 b3) = refuseUnknown b0 := by
  funext s
  unfold dispatchWord
  simp only [word_code]
  split
  case h_10 => rfl
  all_goals omega

theorem commandOf_unknown (h : b0.toNat = 0 ∨ 10 ≤ b0.toNat) : commandOf b0 b1 b2 = .unknownCommand b0 := by
  unfold commandOf
  split
  case h_10 => rfl
  all_goals omega

/-- The command that the bytes spell acts as their word is dispatched (R183). -/
theorem exec_commandOf (s : State) :
    exec (commandOf b0 b1 b2) s = .next (asCommand (dispatchWord (word b0 b1 b2 b3)) s) := by
  by_cases hunknown : b0.toNat = 0 ∨ 10 ≤ b0.toNat
  · rw [commandOf_unknown b0 b1 b2 hunknown, dispatchWord_unknown b0 b1 b2 b3 hunknown]
    exact congrArg Host.Outcome.next (if_neg (Bool.eq_false_iff.mp (namesCommand_eq_false hunknown)))
  · have hcode : b0 = 0x01#8 ∨ b0 = 0x02#8 ∨ b0 = 0x03#8 ∨ b0 = 0x04#8 ∨ b0 = 0x05#8 ∨ b0 = 0x06#8 ∨ b0 = 0x07#8 ∨
        b0 = 0x08#8 ∨ b0 = 0x09#8 := by bv_omega
    unfold dispatchWord
    simp only [word_code, word_slot, word_lanes, word_apply]
    rcases hcode with rfl | rfl | rfl | rfl | rfl | rfl | rfl | rfl | rfl <;> rfl

end

end Sys2Proof.Machine

open Sys2Proof Sys2Proof.Machine

/-- Settles O54: the WRITE and the command are the same dispatched word in the same frame. -/
theorem commandWordRunsItsCommand : Obligations.CommandWordRunsItsCommand := by
  unfold Obligations.CommandWordRunsItsCommand
  intro b0 b1 b2 b3 s hready runs
  have hruns : runs (commandOf b0 b1 b2) := by
    have hexec := exec_commandOf b0 b1 b2 b3 s
    rw [asCommand_ready _ s hready] at hexec
    refine ⟨?_, _, hexec, dispatchWord_frame _ _⟩
    rw [hexec, exec_writeFrame hready (by simp) (by simp), applyWrite_command]
    rfl
  refine ⟨?post, ?abort, ?go, ?renew, ?loadConfig, ?engineReset, ?monitorOn, ?resume, ?clearFlags, ?unknown⟩
  case unknown =>
    intro hcode
    rwa [commandOf_unknown b0 b1 b2 hcode] at hruns
  all_goals
    rintro rfl
    exact hruns

/-- Settles O57: the count of a bad CRC, after the frame it was judged in. -/
theorem badCrcIsCounted : Obligations.BadCrcIsCounted := by
  unfold Obligations.BadCrcIsCounted
  refine ⟨crc16_check, fun s hready => ⟨fun addr crc data h1 h2 hcrc => ?write, fun addr crc l hcrc => ?read⟩⟩
  case write =>
    rw [exec_writeFrame_badCrc hready h1 h2 hcrc, crcError_eq]
    rfl
  case read =>
    rw [exec_readFrame_badCrc hready hcrc, crcError_eq]
    rfl

end

section
/-! The configuration page (O51): the first field out of range, and the set a good page holds (R177, section 11.3). -/

namespace Sys2Proof.Machine

/-! ### A field and a run of fields -/

/-- The field's value lies outside its range (R177). -/
def PageField.outside (f : PageField) (m : Memory) : Prop := f.value m < f.lo ∨ f.hi < f.value m

theorem outside_byte (off lo hi : Nat) (m : Memory) :
    PageField.outside ⟨off, 1, lo, hi⟩ m ↔ (m.read off).toNat < lo ∨ hi < (m.read off).toNat := Iff.rfl

theorem outside_half (off lo hi : Nat) (m : Memory) :
    PageField.outside ⟨off, 2, lo, hi⟩ m ↔ (m.read16 off).toNat < lo ∨ hi < (m.read16 off).toNat := Iff.rfl

theorem outside_word (off lo hi : Nat) (m : Memory) :
    PageField.outside ⟨off, 4, lo, hi⟩ m ↔ (m.read32 off).toNat < lo ∨ hi < (m.read32 off).toNat := Iff.rfl

section
variable {offset size lo hi count : Nat} {m : Memory}

theorem mem_pageFields {f : PageField} :
    f ∈ pageFields offset size lo hi count ↔ ∃ i : Fin count, f = ⟨offset + size * i.val, size, lo, hi⟩ := by
  unfold pageFields
  simp only [List.mem_map, List.mem_range, Fin.exists_iff, exists_prop, eq_comm, Nat.mul_comm size]

/-- A run is out of range at an offset where that is the offset of an entry out of range. -/
theorem exists_outside_pageFields {off : Nat} :
    (∃ f ∈ pageFields offset size lo hi count, f.offset = off ∧ f.outside m) ↔
      ∃ i : Fin count, off = offset + size * i.val ∧ PageField.outside ⟨off, size, lo, hi⟩ m := by
  constructor
  · rintro ⟨f, hf, rfl, hout⟩
    obtain ⟨i, rfl⟩ := mem_pageFields.mp hf
    exact ⟨i, rfl, hout⟩
  · rintro ⟨i, rfl, hout⟩
    exact ⟨_, mem_pageFields.mpr ⟨i, rfl⟩, rfl, hout⟩

/-- A run is in range where every entry is. -/
theorem forall_inside_pageFields :
    (∀ f ∈ pageFields offset size lo hi count, ¬f.outside m) ↔
      ∀ i : Fin count, ¬PageField.outside ⟨offset + size * i.val, size, lo, hi⟩ m := by
  constructor
  · exact fun h i => h _ (mem_pageFields.mpr ⟨i, rfl⟩)
  · intro h f hf
    obtain ⟨i, rfl⟩ := mem_pageFields.mp hf
    exact h i

end

/-! ### The first bad field -/

theorem checkedFields_ascend : checkedFields.Pairwise fun f g => f.offset < g.offset := by
  have htrans : Trans (fun f g : PageField => f.offset < g.offset) (fun f g : PageField => f.offset < g.offset)
      (fun f g : PageField => f.offset < g.offset) := ⟨Nat.lt_trans⟩
  rw [← List.isChain_iff_pairwise]
  decide +kernel

/-- Of fields in ascending offset the first hit is the one of the lowest offset. -/
theorem find_lowest_offset {fs : List PageField} (hfs : fs.Pairwise fun f g => f.offset < g.offset)
    (p : PageField → Bool) (off : Nat) :
    (fs.find? p).map PageField.offset = some off ↔
      (∃ f ∈ fs, f.offset = off ∧ p f = true) ∧ ∀ lower < off, ¬∃ f ∈ fs, f.offset = lower ∧ p f = true := by
  induction fs with
  | nil => simp
  | cons g fs ih =>
    obtain ⟨hg, hfs⟩ := List.pairwise_cons.mp hfs
    cases hp : p g with
    | true =>
      rw [List.find?_cons_of_pos hp]
      constructor
      · rintro ⟨⟩
        refine ⟨⟨g, List.mem_cons_self, rfl, hp⟩, fun lower hlower ⟨f, hf, hoff, _⟩ => ?_⟩
        rcases List.mem_cons.mp hf with rfl | hf
        · omega
        · have := hg f hf
          omega
      · rintro ⟨⟨f, hf, rfl, -⟩, hlowest⟩
        rcases List.mem_cons.mp hf with rfl | hf
        · rfl
        · exact absurd ⟨g, List.mem_cons_self, rfl, hp⟩ (hlowest g.offset (hg f hf))
    | false =>
      rw [List.find?_cons_of_neg (by simp [hp]), ih hfs]
      simp [hp]

/-- The field at an offset of the page is out of its range (section 11.3). -/
def Memory.badField (m : Memory) (off : Nat) : Prop := ∃ f ∈ checkedFields, f.offset = off ∧ f.outside m

theorem firstBadField_eq_some (m : Memory) (off : Nat) :
    firstBadField m = some off ↔ m.badField off ∧ ∀ lower < off, ¬m.badField lower := by
  unfold firstBadField Memory.badField PageField.outside
  rw [find_lowest_offset checkedFields_ascend]
  simp only [Bool.or_eq_true, decide_eq_true_eq]

theorem firstBadField_eq_none (m : Memory) : firstBadField m = none ↔ ∀ f ∈ checkedFields, ¬f.outside m := by
  unfold firstBadField PageField.outside
  rw [Option.map_eq_none_iff, List.find?_eq_none]
  simp only [Bool.or_eq_true, decide_eq_true_eq]

/-- The fields that are checked and their ranges (R177, section 11.3). -/
theorem badField_iff (m : Memory) (off : Nat) :
    m.badField off ↔
      (off = 0x000 ∧ m.read 0x000 ≠ 1) ∨
      (∃ g : GroupId, off = 0x004 + 2 * g.val ∧ ((m.read16 off).toNat < 50 ∨ 10000 < (m.read16 off).toNat)) ∨
      (∃ c : ChanId, off = 0x010 + 2 * c.val ∧ ((m.read16 off).toNat < 0 ∨ 4095 < (m.read16 off).toNat)) ∨
      (∃ c : ChanId, off = 0x030 + 2 * c.val ∧ ((m.read16 off).toNat < 0 ∨ 4095 < (m.read16 off).toNat)) ∨
      (∃ c : ChanId, off = 0x050 + c.val ∧ ((m.read off).toNat < 0 ∨ 3 < (m.read off).toNat)) ∨
      (∃ l : LineId, off = 0x060 + l.val ∧ ((m.read off).toNat < 0 ∨ 4 < (m.read off).toNat)) ∨
      (∃ l : LineId, off = 0x068 + l.val ∧ ((m.read off).toNat < 0 ∨ 1 < (m.read off).toNat)) ∨
      (off = 0x074 ∧ ((m.read32 off).toNat < 1000 ∨ 100000000 < (m.read32 off).toNat)) ∨
      (off = 0x078 ∧ ((m.read16 off).toNat < 10 ∨ 400 < (m.read16 off).toNat)) ∨
      (off = 0x07A ∧ ((m.read16 off).toNat < 1 ∨ 1000 < (m.read16 off).toNat)) ∨
      (off = 0x07C ∧ ((m.read16 off).toNat < 1 ∨ 1000 < (m.read16 off).toNat)) := by
  have hversion : off = 0x000 ∧ m.read 0x000 ≠ 1 ↔ off = 0x000 ∧ ((m.read off).toNat < 1 ∨ 1 < (m.read off).toNat) :=
    and_congr_right fun hoff => by rw [hoff]; generalize m.read 0x000 = b; bv_omega
  rw [hversion]
  unfold Memory.badField checkedFields
  simp only [List.mem_append, or_and_right, exists_or, exists_outside_pageFields, outside_byte, outside_half,
    outside_word, or_assoc, Nat.one_mul, Fin.exists_fin_one, Fin.val_zero, Nat.mul_zero, Nat.add_zero]

/-! ### A good page -/

/-- Every field of the page lies in its range (R177, section 11.3). -/
structure Memory.GoodPage (m : Memory) : Prop where
  version : m.read 0x000 = 1
  period : ∀ g : GroupId, 50 ≤ (m.read16 (0x004 + 2 * g.val)).toNat ∧ (m.read16 (0x004 + 2 * g.val)).toNat ≤ 10000
  safeDuty : ∀ c : ChanId, (m.read16 (0x010 + 2 * c.val)).toNat ≤ 4095
  safeRate : ∀ c : ChanId, (m.read16 (0x030 + 2 * c.val)).toNat ≤ 4095
  quarter : ∀ c : ChanId, (m.read (0x050 + c.val)).toNat ≤ 3
  safeMode : ∀ l : LineId, (m.read (0x060 + l.val)).toNat ≤ 4
  safeLevel : ∀ l : LineId, (m.read (0x068 + l.val)).toNat ≤ 1
  window : 1000 ≤ (m.read32 0x074).toNat ∧ (m.read32 0x074).toNat ≤ 100000000
  linkRate : 10 ≤ (m.read16 0x078).toNat ∧ (m.read16 0x078).toNat ≤ 400
  stretch : 1 ≤ (m.read16 0x07A).toNat ∧ (m.read16 0x07A).toNat ≤ 1000
  poll : 1 ≤ (m.read16 0x07C).toNat ∧ (m.read16 0x07C).toNat ≤ 1000

theorem firstBadField_eq_none_iff_goodPage (m : Memory) : firstBadField m = none ↔ m.GoodPage := by
  have hversion : 1 ≤ (m.read 0x000).toNat ∧ (m.read 0x000).toNat ≤ 1 ↔ m.read 0x000 = 1 := by
    generalize m.read 0x000 = b
    bv_omega
  rw [firstBadField_eq_none]
  unfold checkedFields
  simp only [List.forall_mem_append, forall_inside_pageFields, outside_byte, outside_half, outside_word,
    Nat.one_mul, Fin.forall_fin_one, Fin.val_zero, Nat.mul_zero, Nat.add_zero, not_or, Nat.not_lt, Nat.zero_le, true_and,
    hversion]
  constructor
  · rintro ⟨⟨⟨⟨⟨⟨⟨⟨⟨⟨version, period⟩, safeDuty⟩, safeRate⟩, quarter⟩, safeMode⟩, safeLevel⟩, window⟩,
      linkRate⟩, stretch⟩, poll⟩
    exact { version, period, safeDuty, safeRate, quarter, safeMode, safeLevel, window, linkRate, stretch, poll }
  · rintro ⟨version, period, safeDuty, safeRate, quarter, safeMode, safeLevel, window, linkRate, stretch, poll⟩
    exact ⟨⟨⟨⟨⟨⟨⟨⟨⟨⟨version, period⟩, safeDuty⟩, safeRate⟩, quarter⟩, safeMode⟩, safeLevel⟩, window⟩,
      linkRate⟩, stretch⟩, poll⟩

/-! ### The set a good page holds -/

theorem code_ofByte {b : Byte} (h : b.toNat ≤ 4) : ((LineMode.ofByte b).getD .inputPullup).code = b := by
  have hb : b = 0#8 ∨ b = 1#8 ∨ b = 2#8 ∨ b = 3#8 ∨ b = 4#8 := by bv_omega
  rcases hb with rfl | rfl | rfl | rfl | rfl <;> rfl

theorem boolByte_bit {b : Byte} (h : b.toNat ≤ 1) : boolByte (b.getLsbD 0) = b := by
  have hb : b = 0#8 ∨ b = 1#8 := by bv_omega
  rcases hb with rfl | rfl <;> rfl

section
variable (m : Memory)

theorem timing_period (g : GroupId) : ((configOfPage m).timing g).period = m.read16 (0x004 + 2 * g.val) :=
  vec4_get (fun g => m.read16 (0x004 + 2 * g.val)) g

theorem timing_quarter (g : GroupId) (j : Fin 4) :
    ((configOfPage m).timing g).quarters[j] = (m.read (0x050 + (4 * g.val + j.val))).setWidth 2 :=
  (vec4_get _ j).trans (vec16_get (fun c => (m.read (0x050 + c.val)).setWidth 2) ⟨4 * g.val + j.val, by omega⟩)

theorem configOfPage_safeDuty (c : ChanId) :
    (configOfPage m).safeDuty[c] = (m.read16 (0x010 + 2 * c.val)).setWidth 12 :=
  vec16_get (fun c => (m.read16 (0x010 + 2 * c.val)).setWidth 12) c

theorem configOfPage_safeRate (c : ChanId) :
    (configOfPage m).safeRate[c] = (m.read16 (0x030 + 2 * c.val)).setWidth 12 :=
  vec16_get (fun c => (m.read16 (0x030 + 2 * c.val)).setWidth 12) c

theorem configOfPage_safeMode (l : LineId) :
    (configOfPage m).safeMode[l] = (LineMode.ofByte (m.read (0x060 + l.val))).getD .inputPullup :=
  vec8_get (fun l => (LineMode.ofByte (m.read (0x060 + l.val))).getD .inputPullup) l

theorem configOfPage_safeLevel (l : LineId) :
    inLines (configOfPage m).safeLevel l = (m.read (0x068 + l.val)).getLsbD 0 := by
  have h := getLsbD_gather8 (fun l : LineId => l.val) (fun l => (m.read (0x068 + l.val)).getLsbD 0) allLines 0#8
    l.val l.isLt
  refine h.trans ?_
  rw [Bool.eq_iff_iff]
  simp only [BitVec.getLsbD_zero, Bool.false_or, List.any_eq_true, Bool.and_eq_true, beq_iff_eq]
  constructor
  · rintro ⟨d, -, hd, he⟩
    rwa [Fin.val_inj.mp he] at hd
  · exact fun hl => ⟨l, mem_allLines l, hl, rfl⟩

end

/-- A field keeps its value where its range fits the width it is held in. -/
theorem toNat_setWidth_of_lt {v w : Nat} {x : BitVec v} (h : x.toNat < 2 ^ w) : (x.setWidth w).toNat = x.toNat := by
  rw [BitVec.toNat_setWidth, Nat.mod_eq_of_lt h]

end Sys2Proof.Machine

open Sys2Proof Sys2Proof.Machine

/-- Settles O51: the fields in the order of the page, then each entry of the set a good page holds. -/
theorem configurationFieldsAreChecked : Obligations.ConfigurationFieldsAreChecked := by
  unfold Obligations.ConfigurationFieldsAreChecked
  intro m outside bad
  have hbad : ∀ off, m.badField off ↔ bad off := badField_iff m
  refine ⟨fun off => ?first, ?good, fun hgood => ?set⟩
  case first =>
    simp only [firstBadField_eq_some, hbad]
  case good =>
    rw [firstBadField_eq_none_iff_goodPage]
    constructor
    · exact fun h => ⟨h.version, h.period, fun c => ⟨h.safeDuty c, h.safeRate c, h.quarter c⟩,
        fun l => ⟨h.safeMode l, h.safeLevel l⟩, h.window.1, h.window.2, h.linkRate.1, h.linkRate.2,
        h.stretch.1, h.stretch.2, h.poll⟩
    · rintro ⟨hversion, hperiod, hchan, hline, hw, hw', hr, hr', hs, hs', hpoll⟩
      exact ⟨hversion, hperiod, fun c => (hchan c).1, fun c => (hchan c).2.1, fun c => (hchan c).2.2,
        fun l => (hline l).1, fun l => (hline l).2, ⟨hw, hw'⟩, ⟨hr, hr'⟩, ⟨hs, hs'⟩, hpoll⟩
  case set =>
    obtain ⟨-, -, hduty, hrate, hquarter, hmode, hlevel, -⟩ := (firstBadField_eq_none_iff_goodPage m).mp hgood
    refine ⟨rfl, rfl, rfl, rfl, rfl, rfl, fun g => ⟨timing_period m g, fun j => ?quarter⟩, fun c => ⟨?duty, ?rate⟩,
      fun l => ⟨?mode, ?level⟩⟩
    case quarter =>
      have hle := hquarter ⟨4 * g.val + j.val, by omega⟩
      rw [timing_quarter, toNat_setWidth_of_lt (Nat.lt_of_le_of_lt hle (by decide))]
    case duty => rw [configOfPage_safeDuty, toNat_setWidth_of_lt (Nat.lt_of_le_of_lt (hduty c) (by decide))]
    case rate => rw [configOfPage_safeRate, toNat_setWidth_of_lt (Nat.lt_of_le_of_lt (hrate c) (by decide))]
    case mode => rw [configOfPage_safeMode, code_ofByte (hmode l)]
    case level => rw [configOfPage_safeLevel, boolByte_bit (hlevel l)]

end

section
/-! What one step does, by the queue it finds (O1): the front command, or nothing on an empty queue (log 2). -/

namespace Sys2Proof.Machine

/-- The front command takes effect on the state that holds the queue's rest. -/
theorem step_of_pending_cons {s : State} {c : Instr} {rest : List Instr} (h : s.pending = c :: rest) :
    step s = exec c { s with pending := rest } := by
  unfold step
  rw [h]

/-- On an empty queue the block idles (log 2). -/
theorem step_of_pending_nil {s : State} (h : s.pending = []) : step s = .next s := by
  unfold step
  rw [h]

end Sys2Proof.Machine

open Sys2Proof Sys2Proof.Machine

/-- Settles O1: the two shapes of the queue; the state with a queue put in place has that queue pending. -/
theorem stepRunsTheFrontCommand : Obligations.StepRunsTheFrontCommand := by
  unfold Obligations.StepRunsTheFrontCommand
  exact ⟨fun _ _ _ => step_of_pending_cons rfl, fun _ => step_of_pending_nil⟩

end

section
/-! SUPPORT. The bytes of a slot that the safe order ends (O53): its verdict, its end tick and its results, and that they stand
while other slots end (R7, R17). -/

namespace Sys2Proof.Machine

/-! ### The bytes of a slot that has ended -/

/-- Memory m in which slot n has ended ABORTED with SAFE_ABORT: its verdict with the detail, its end tick, and its steps
from `first` on SKIPPED (R17, R49, R161). -/
structure SafeEnded (tick : Word) (n : SlotId) (detail : Byte) (first count : Nat) (m : Memory) : Prop where
  verdict : Memory.bytes m (slotBase n + 0x01) 3 = [0x07#8, 0x36#8, detail]
  endTick : Memory.bytes m (slotBase n + 0x1C) 4 = wordBytes tick
  skipped : ∀ i : StepId, first ≤ i.val → i.val < count →
    Memory.bytes m (stepBase n i + 0x1C) 12 = 0x06#8 :: List.replicate 11 0x00#8

/-- What the part may write in a slot lies in the slot (R7). -/
theorem inSlot_of_deviceAddr {n : SlotId} {a : Nat} (h : deviceAddr n a) : inSlot n a := by
  unfold inSlot Config.slotSize
  rcases h with h | h | h | ⟨i, -, -, h1, h2⟩
  case inr.inr.inr =>
    have := stepBase_bounds n i
    omega
  all_goals
    unfold inHeader at h
    omega

/-- Writes in other slots leave every byte of the slot. -/
theorem SlotWrites.bytes {n : SlotId} {m m' : Memory} (h : SlotWrites (· ≠ n) m m') {a len : Nat} (ha : slotBase n ≤ a)
    (hb : a + len ≤ slotBase n + 0x200) : Memory.bytes m' a len = Memory.bytes m a len := by
  refine Memory.bytes_congr fun b h1 h2 => h.frame b (fun j hj hd => ?_) (.inl ?_)
  · have hin := inSlot_of_deviceAddr hd
    have := slotBase_apart hj
    unfold inSlot Config.slotSize at hin
    omega
  · have := n.isLt
    have := slotBase_eq n
    omega

/-- The part never writes a slot's step count (R7). -/
theorem SlotWrites.stepCount {H : SlotId → Prop} {s t : State} (h : SlotWrites H s.mem t.mem) (n : SlotId) :
    t.stepCount n = s.stepCount n := by
  refine congrArg BitVec.toNat (h.frame _ (fun j _ hd => ?_) (.inl ?_))
  · have hin := inSlot_of_deviceAddr hd
    have hj : j = n := by
      by_contra hne
      have := slotBase_apart hne
      unfold inSlot Config.slotSize at hin
      omega
    subst hj
    rcases hd with hd | hd | hd | ⟨i, -, -, h1, -⟩
    case inr.inr.inr =>
      have := stepBase_bounds j i
      omega
    all_goals
      unfold inHeader at hd
      omega
  · have := n.isLt
    have := slotBase_eq n
    omega

section
variable {tick : Word} {n : SlotId} {detail : Byte} {first count : Nat} {m m' : Memory}

/-- An ending stands while other slots end. -/
theorem SafeEnded.kept (h : SafeEnded tick n detail first count m) (hw : SlotWrites (· ≠ n) m m') :
    SafeEnded tick n detail first count m' := by
  refine ⟨(hw.bytes ?_ ?_).trans h.verdict, (hw.bytes ?_ ?_).trans h.endTick, fun i h1 h2 =>
    (hw.bytes ?_ ?_).trans (h.skipped i h1 h2)⟩
  case refine_5 | refine_6 =>
    have := stepBase_bounds n i
    omega
  all_goals omega

/-- A slot that ends without having run. -/
theorem EndedUnrun.safeEnded {s : State} (h : EndedUnrun s.mem tick n 0x36#8 m) :
    SafeEnded tick n 0xFF#8 0 (s.stepCount n) m := ⟨h.verdict, h.endTick, fun i _ hi => h.results i hi⟩

end

/-- A slot's verdict leaves its result parts. -/
theorem finishSlot_results (s : State) (n : SlotId) (st : SlotState) (reason : EndReason) (detail : Byte) (i : StepId) :
    Memory.bytes (finishSlot s n st reason detail).mem (stepBase n i + 0x1C) 12 =
      Memory.bytes s.mem (stepBase n i + 0x1C) 12 := by
  have := stepBase_bounds n i
  exact Memory.bytes_congr fun b h1 h2 =>
    finishSlot_read s n st reason detail b (by unfold inHeader; omega) (by unfold inHeader; omega)

/-- SKIPPED results leave those of the steps before them. -/
theorem skipFrom_before (s : State) (n : SlotId) {first : Nat} {i : StepId} (hi : i.val < first) :
    Memory.bytes (skipFrom s n first).mem (stepBase n i + 0x1C) 12 = Memory.bytes s.mem (stepBase n i + 0x1C) 12 := by
  refine Memory.bytes_congr fun b h1 h2 => (skipFrom_spec s n first).1.2 b ?_
  rintro ⟨j, hj, -, h3, h4⟩
  have hne : i ≠ j := by
    rintro rfl
    omega
  have := stepBase_apart n hne
  omega

/-- Recording a result writes the step's result part (R35). -/
theorem recordResult_result {s : State} (hw : Memory.wf s.mem) (k : LaneId) (n : SlotId) (i : StepId) (r : StepResult) :
    Memory.wf (recordResult s k n i r).mem ∧
      Memory.bytes (recordResult s k n i r).mem (stepBase n i + 0x1C) 12 = r.bytes := by
  have hb := stepBase_bounds n i
  have hw' := Memory.wf_writeBytes hw (stepBase n i + 0x1C) r.bytes
  rw [(recordResult_spec s k n i r).2.1]
  refine ⟨Memory.wf_writeBytes hw' _ _, (Memory.bytes_writeBytes_out _ _ _ _ _ (.inr ?_)).trans
    (Memory.bytes_writeBytes hw _ r.bytes)⟩
  simp only [List.length_cons, List.length_nil]
  omega

/-- A step that ends in SAFE, and its slot with it: the slot's ending and the step's result. -/
theorem stepEndedIn_safeEnded {s : State} (hw : Memory.wf s.mem) (k : LaneId) (n : SlotId) (i : StepId) (r : StepResult) :
    SafeEnded s.tick n (BitVec.ofNat 8 i.val) (i.val + 1) (s.stepCount n) (stepEndedIn s k n i r .aborted .safeAbort).mem ∧
      Memory.bytes (stepEndedIn s k n i r .aborted .safeAbort).mem (stepBase n i + 0x1C) 12 = r.bytes := by
  obtain ⟨hwr, hr⟩ := recordResult_result hw k n i r
  have hcount := (recordResult_writes (H := (· = n)) rfl s k i r).stepCount n
  have hrtick : (recordResult s k n i r).tick = s.tick := by rw [(recordResult_spec s k n i r).1]
  unfold stepEndedIn endedIn
  rw [State.setLane_mem]
  generalize recordResult s k n i r = a at hwr hr hcount hrtick
  obtain ⟨hmem, hskip⟩ := skipFrom_spec a n (i.val + 1)
  obtain ⟨hwb, hskipped⟩ := hskip hwr
  have hbefore := skipFrom_before a n (Nat.lt_succ_self i.val)
  have htick : (skipFrom a n (i.val + 1)).tick = s.tick := by rw [hmem.1]; exact hrtick
  generalize skipFrom a n (i.val + 1) = b at hwb hskipped hbefore htick
  obtain ⟨hverdict, hend⟩ := finishSlot_bytes hwb n .aborted .safeAbort (BitVec.ofNat 8 i.val)
  refine ⟨⟨hverdict, htick ▸ hend, fun j h1 h2 => ?_⟩, ?_⟩
  · rw [finishSlot_results]
    exact hskipped j h1 (hcount ▸ h2)
  · rw [finishSlot_results, hbefore, hr]

theorem Memory.bytes_add (m : Memory) (a p q : Nat) :
    Memory.bytes m a (p + q) = Memory.bytes m a p ++ Memory.bytes m (a + p) q := by
  unfold Memory.bytes
  simp [List.range_add, Nat.add_assoc]

end Sys2Proof.Machine

end

section
/-! SUPPORT. The safe order lane by lane (O53): each lane's turn finds it as it was but for a phase that a unit has passed to
it, and its slot's bytes stand after it (R49, R155; log 5). -/

namespace Sys2Proof.Machine

/-! ### The safe order on several lanes -/

/-- Endings of the lanes ks change those lanes, their slots, the units and the phases of the lanes that a unit passes to. -/
structure CutOffs (ks : List LaneId) (s t : State) : Prop where
  rest : t = { s with mem := t.mem, finished := t.finished, lanes := t.lanes, watches := t.watches,
                      converter := t.converter, monitor := t.monitor, link := t.link, freeIndex := t.freeIndex }
  lanes : ∀ j, j ∉ ks → t.lane j = { s.lane j with phase := (t.lane j).phase }
  writes : ∀ H : SlotId → Prop, (∀ k ∈ ks, ∀ n, (s.lane k).running = some n → H n) → SlotWrites H s.mem t.mem
  finished : ∀ n, s.isFinished n = true → t.isFinished n = true

/-- The fields that endings keep. -/
theorem CutOffs.keeps {ks : List LaneId} {s t : State} (h : CutOffs ks s t) :
    t.tick = s.tick ∧ t.config = s.config ∧ t.queues = s.queues ∧ t.parked = s.parked ∧ t.lines = s.lines ∧
      t.channels = s.channels := by
  rw [h.rest]
  simp

theorem CutOffs.nil (s : State) : CutOffs [] s s := ⟨rfl, fun _ _ => rfl, fun _ _ => .refl _ _, fun _ => id⟩

theorem CutOff.cons {k : LaneId} {ks : List LaneId} {s t u : State} (h : CutOff k s t) (hk : k ∉ ks)
    (g : CutOffs ks t u) : CutOffs (k :: ks) s u := by
  refine ⟨by rw [g.rest, h.rest], fun j hj => ?_, fun H hH => ?_, fun n hn => g.finished n (h.finished n hn)⟩
  · obtain ⟨hjk, hj⟩ := not_or.mp (mt List.mem_cons.mpr hj)
    rw [g.lanes j hj, h.lanes j hjk]
  · refine (h.writes H (hH k List.mem_cons_self)).trans (g.writes H fun j hj n hn => ?_)
    rw [h.lanes j (ne_of_mem_of_not_mem hj hk)] at hn
    exact hH j (List.mem_cons_of_mem k hj) n hn

theorem State.Calm.foldl_safeLane_cutOffs {s : State} (hc : s.Calm) {ks : List LaneId} (hn : ks.Nodup) :
    CutOffs ks s (ks.foldl safeLane s) := by
  induction ks generalizing s with
  | nil => exact .nil s
  | cons k ks ih =>
    obtain ⟨hk, hn⟩ := List.nodup_cons.mp hn
    have hcut := hc.safeLane_cutOff k
    exact hcut.cons hk (ih (hcut.calm hc) hn)

/-- The part's writes for slots other than n alone. -/
theorem CutOffs.writesBut {ks : List LaneId} {s t : State} (h : CutOffs ks s t) {n : SlotId}
    (hn : ∀ k ∈ ks, (s.lane k).running ≠ some n) : SlotWrites (· ≠ n) s.mem t.mem :=
  h.writes _ fun k hk _ hm hmn => hn k hk (hmn ▸ hm)

/-! ### Lanes that hold no transfer -/

/-- Giving a unit up passes the link to no lane. -/
theorem stopServing_notLinking {s : State} (k : LaneId) {j : LaneId} (h : (s.lane j).phase ≠ .linking) :
    ((stopServing s k).lane j).phase ≠ .linking := by
  have hpassed {u : SharedUnit} {t : State} (hp : Passed u s t) (hu : u.hold ≠ .linking) :
      (t.lane j).phase ≠ .linking := by
    rw [hp.lane]
    split
    · exact hu
    · exact h
  unfold stopServing
  split
  case h_2 => exact hpassed (releaseConverter_passed s) nofun
  case h_4 => exact hpassed (releaseMonitor_passed s) nofun
  all_goals exact h

/-- Giving a unit up changes the link's queue at most. -/
theorem stopServing_link (s : State) (k : LaneId) :
    (stopServing s k).link = { s.link with queue := (stopServing s k).link.queue } := by
  unfold stopServing
  split
  case h_2 =>
    unfold releaseConverter
    split
    · rfl
    · rfl
  case h_4 =>
    have hgrant (t : State) (j : LaneId) : (grantMonitor t j).link = t.link := by rw [(grantMonitor_eq t j).1]; rfl
    unfold releaseMonitor
    split
    · rfl
    · rw [hgrant]
  all_goals rfl

theorem endedIn_link (s : State) (k : LaneId) (n : SlotId) (st : SlotState) (reason : EndReason) (detail : Byte) :
    (endedIn s k n st reason detail).link = s.link := by
  unfold endedIn
  rw [finishSlot_eq]
  rfl

theorem stepEndedIn_link (s : State) (k : LaneId) (n : SlotId) (i : StepId) (r : StepResult) (st : SlotState)
    (reason : EndReason) : (stepEndedIn s k n i r st reason).link = s.link := by
  unfold stepEndedIn
  rw [endedIn_link, (skipFrom_spec _ n _).1.1, (recordResult_spec s k n i r).1]

/-- From s to t the link loses waiting lanes at most, and no lane comes to hold a transfer. -/
structure LinkSpared (s t : State) : Prop where
  link : t.link = { s.link with queue := t.link.queue }
  phase : ∀ j, (s.lane j).phase ≠ .linking → (t.lane j).phase ≠ .linking

theorem LinkSpared.refl (s : State) : LinkSpared s s := ⟨rfl, fun _ => id⟩

theorem LinkSpared.trans {s t u : State} (h : LinkSpared s t) (g : LinkSpared t u) : LinkSpared s u :=
  ⟨by rw [g.link, h.link], fun j hj => g.phase j (h.phase j hj)⟩

/-- Endings that make their lane IDLE and leave the link and the other lanes' standing. -/
theorem linkSpared_of_idled {s t : State} {k : LaneId} (hl : t.link = s.link) (ha : Aside k s t)
    (hk : t.lane k = Lane.idle) : LinkSpared s t := by
  refine ⟨by rw [hl], fun j hj => ?_⟩
  by_cases hjk : j = k
  · subst hjk
    rw [hk]
    nofun
  · obtain ⟨-, -, -, hphase, -⟩ := ha.2 j hjk
    rwa [hphase]

theorem stopServing_linkSpared (s : State) (k : LaneId) : LinkSpared s (stopServing s k) :=
  ⟨stopServing_link s k, fun _ => stopServing_notLinking k⟩

theorem State.Calm.endWaiting_linkSpared {s : State} (hc : s.Calm) (k : LaneId) (cause : EndCause) :
    LinkSpared s (finishAct (endWaiting s k cause)) := by
  cases hn : (s.lane k).running with
  | none =>
    unfold endWaiting
    rw [hn, finishAct_nil]
    exact .refl s
  | some n =>
    rw [hc.endWaiting_eq hn]
    refine linkSpared_of_idled ?_ ((skipFrom_aside k s n 0).trans (endedIn_aside _ k n _ _ _)) (endedIn_lane _ k n _ _ _)
    rw [endedIn_link, (skipFrom_spec s n 0).1.1]

theorem State.Calm.stepEndsSlot_linkSpared {s : State} (hc : s.Calm) (k : LaneId) (r : StepResult) (st : SlotState)
    (reason : EndReason) : LinkSpared s (finishAct (stepEndsSlot s k r st reason)) := by
  have hnothing (h : stepEndsSlot s k r st reason = (s, [])) :
      LinkSpared s (finishAct (stepEndsSlot s k r st reason)) := by
    rw [h, finishAct_nil]
    exact .refl s
  cases hn : (s.lane k).running with
  | none => exact hnothing (by unfold stepEndsSlot; rw [hn])
  | some n =>
    cases hi : (s.lane k).step with
    | none => exact hnothing (by unfold stepEndsSlot; rw [hn, hi])
    | some i =>
      rw [hc.stepEndsSlot_eq hn hi]
      exact linkSpared_of_idled (stepEndedIn_link s k n i r st reason) (stepEndedIn_aside s k n i r st reason)
        (stepEndedIn_lane s k n i r st reason)

theorem State.Calm.safeLane_linkSpared {s : State} (hc : s.Calm) {k : LaneId} (hp : (s.lane k).phase ≠ .linking) :
    LinkSpared s (safeLane s k) := by
  cases hs : (s.lane k).state with
  | idle => exact (safeLane_idle hs).symm ▸ .refl s
  | claiming =>
    rw [safeLane_waiting (.inl hs)]
    exact hc.endWaiting_linkSpared k _
  | gated =>
    rw [safeLane_waiting (.inr hs)]
    exact hc.endWaiting_linkSpared k _
  | stepping =>
    rw [safeLane_stepping hs hp]
    have hcalm := ((stopServing_phasesOnly s k).cutOff k).calm hc
    exact (stopServing_linkSpared s k).trans (hcalm.stepEndsSlot_linkSpared k _ _ _)
  | winding =>
    rw [safeLane_winding hs]
    split
    · refine ⟨rfl, fun j hj => ?_⟩
      rw [State.setLane_at]
      split
      · exact hp
      · exact hj
    · exact .refl s

theorem State.Calm.foldl_safeLane_linkSpared {s : State} (hc : s.Calm) {ks : List LaneId}
    (hks : ∀ k ∈ ks, (s.lane k).phase ≠ .linking) : LinkSpared s (ks.foldl safeLane s) := by
  induction ks generalizing s with
  | nil => exact .refl s
  | cons k ks ih =>
    obtain ⟨hk, hks⟩ := List.forall_mem_cons.mp hks
    have hspared := hc.safeLane_linkSpared hk
    exact hspared.trans (ih ((hc.safeLane_cutOff k).calm hc) fun j hj => hspared.phase j (hks j hj))

/-! ### One lane's turn -/

/-- The lanes that hold no transfer, in the order they take the safe order; then the others. -/
def State.atOnceLanes (s : State) : List LaneId := allLanes.filter fun k => (s.lane k).phase != .linking
def State.linkingLanes (s : State) : List LaneId := allLanes.filter fun k => (s.lane k).phase == .linking

theorem safeLaneOrder_eq (s : State) : s.safeLaneOrder = s.atOnceLanes ++ s.linkingLanes := rfl

theorem mem_atOnceLanes {s : State} {k : LaneId} : k ∈ s.atOnceLanes ↔ (s.lane k).phase ≠ .linking := by
  unfold State.atOnceLanes
  rw [List.mem_filter, bne_iff_ne]
  exact and_iff_right (mem_allLanes k)

theorem mem_linkingLanes {s : State} {k : LaneId} : k ∈ s.linkingLanes ↔ (s.lane k).phase = .linking := by
  unfold State.linkingLanes
  rw [List.mem_filter, beq_iff_eq]
  exact and_iff_right (mem_allLanes k)

theorem nodup_atOnceLanes (s : State) : s.atOnceLanes.Nodup := nodup_allLanes.filter _

theorem nodup_linkingLanes (s : State) : s.linkingLanes.Nodup := nodup_allLanes.filter _

theorem nodup_safeLaneOrder (s : State) : s.safeLaneOrder.Nodup :=
  (nodup_atOnceLanes s).append (nodup_linkingLanes s) fun _ h1 h2 => mem_atOnceLanes.mp h1 (mem_linkingLanes.mp h2)

/-- Of the lanes before one that holds no transfer, none holds one. -/
theorem exists_safeLaneOrder_split (s : State) (k : LaneId) : ∃ before after, s.safeLaneOrder = before ++ k :: after ∧
    ((s.lane k).phase ≠ .linking → ∀ j ∈ before, (s.lane j).phase ≠ .linking) := by
  by_cases hp : (s.lane k).phase = .linking
  · obtain ⟨before, after, h⟩ := List.append_of_mem (mem_safeLaneOrder s k)
    exact ⟨before, after, h, fun hne => absurd hp hne⟩
  · obtain ⟨before, after, h⟩ := List.append_of_mem (mem_atOnceLanes.mpr hp)
    refine ⟨before, after ++ s.linkingLanes, ?_, fun _ j hj => mem_atOnceLanes.mp ?_⟩
    · rw [safeLaneOrder_eq, h, List.append_assoc, List.cons_append]
    · rw [h]
      exact List.mem_append_left _ hj

/-- Lane k's turn in the safe order on the lanes of u comes in state v: k is as it was but for a phase that a unit has
passed to it, no transfer among them, and neither the lanes before nor those after it write its slot. -/
structure SafeTurn (u : State) (k : LaneId) (v : State) : Prop where
  calm : v.Calm
  seated : u.AllSeated → v.AllSeated
  tick : v.tick = u.tick
  lane : v.lane k = { u.lane k with phase := (v.lane k).phase }
  phase : (u.lane k).phase ≠ .linking → (v.lane k).phase ≠ .linking
  after : (safeLanes u).lane k = { (safeLane v k).lane k with phase := ((safeLanes u).lane k).phase }
  finished : ∀ n, (safeLane v k).isFinished n = true → (safeLanes u).isFinished n = true
  writes : ∀ n, (∀ j, j ≠ k → (u.lane j).running ≠ some n) →
    SlotWrites (· ≠ n) u.mem v.mem ∧ SlotWrites (· ≠ n) (safeLane v k).mem (safeLanes u).mem

theorem State.Calm.exists_safeTurn {u : State} (hc : u.Calm) (k : LaneId) : ∃ v, SafeTurn u k v := by
  obtain ⟨before, after, horder, hphase⟩ := exists_safeLaneOrder_split u k
  obtain ⟨hk, hnodup⟩ := List.nodup_cons.mp (List.nodup_middle.mp (horder ▸ nodup_safeLaneOrder u))
  obtain ⟨hbefore, hafter⟩ := not_or.mp (mt List.mem_append.mpr hk)
  obtain ⟨hnodupBefore, hnodupAfter, hapart⟩ := List.nodup_append'.mp hnodup
  have hcalm := hc.foldl_safeLane before
  have hcut := hc.foldl_safeLane_cutOffs hnodupBefore
  have hspared (hp : (u.lane k).phase ≠ .linking) := hc.foldl_safeLane_linkSpared (hphase hp)
  have hseated (h : u.AllSeated) := hc.foldl_safeLane_allSeated h before
  have hlast : safeLanes u = after.foldl safeLane (safeLane (before.foldl safeLane u) k) := by
    unfold safeLanes
    rw [horder, List.foldl_append, List.foldl_cons]
  generalize before.foldl safeLane u = v at hcalm hcut hspared hseated hlast
  have hturn := hcalm.safeLane_cutOff k
  have hrest := (hturn.calm hcalm).foldl_safeLane_cutOffs hnodupAfter
  rw [← hlast] at hrest
  refine ⟨v, hcalm, hseated, by rw [hcut.rest], hcut.lanes k hbefore, fun hp => (hspared hp).phase k hp,
    hrest.lanes k hafter, hrest.finished, fun n hn => ⟨hcut.writesBut fun j hj => ?_, hrest.writesBut fun j hj => ?_⟩⟩
  · exact hn j (ne_of_mem_of_not_mem hj hbefore)
  · have hjk := ne_of_mem_of_not_mem hj hafter
    rw [hturn.lanes j hjk, hcut.lanes j fun hmem => hapart hmem hj]
    exact hn j hjk

/-! ### What the safe order leaves of a lane and its slot -/

section
variable {u v : State} {k : LaneId} {n : SlotId} (h : SafeTurn u k v)
include h

theorem SafeTurn.state : (v.lane k).state = (u.lane k).state := by rw [h.lane]
theorem SafeTurn.running : (v.lane k).running = (u.lane k).running := by rw [h.lane]
theorem SafeTurn.step : (v.lane k).step = (u.lane k).step := by rw [h.lane]
theorem SafeTurn.entered : (v.lane k).entered = (u.lane k).entered := by rw [h.lane]

/-- A CLAIMING or GATED lane ends its slot unrun (R49). -/
theorem SafeTurn.waiting (hs : (u.lane k).state = .claiming ∨ (u.lane k).state = .gated)
    (hn : (u.lane k).running = some n) : (safeLanes u).isFinished n = true ∧
      (Memory.wf u.mem → (∀ j, j ≠ k → (u.lane j).running ≠ some n) →
        SafeEnded u.tick n 0xFF#8 0 (u.stepCount n) (safeLanes u).mem) := by
  have hlane : safeLane v k = endedIn (skipFrom v n 0) k n .aborted .safeAbort 0xFF#8 := by
    rw [← h.state] at hs
    rw [safeLane_waiting hs, h.calm.endWaiting_eq (h.running.trans hn), safeCause_slotEnding]
  refine ⟨h.finished n ?_, fun hw hothers => ?_⟩
  · rw [hlane]
    exact endedIn_isFinished _ k n _ _ _
  · obtain ⟨hbefore, hafter⟩ := h.writes n hothers
    have hend := (endUnrun_ended (hbefore.wf hw) n .safeAbort).safeEnded
    rw [hbefore.stepCount, h.tick] at hend
    rw [hlane] at hafter
    exact hend.kept hafter

/-- A STEPPING lane that holds no transfer ends its step and its slot (R49). -/
theorem SafeTurn.stepping {i : StepId} (hs : (u.lane k).state = .stepping) (hp : (u.lane k).phase ≠ .linking)
    (hn : (u.lane k).running = some n) (hi : (u.lane k).step = some i) : (safeLanes u).isFinished n = true ∧
      (Memory.wf u.mem → (∀ j, j ≠ k → (u.lane j).running ≠ some n) →
        SafeEnded u.tick n (BitVec.ofNat 8 i.val) (i.val + 1) (u.stepCount n) (safeLanes u).mem ∧
          Memory.bytes (safeLanes u).mem (stepBase n i + 0x1C) 12 = (v.resultBy k (v.lane k).safeCause).bytes) := by
  have hphases := stopServing_phasesOnly v k
  obtain ⟨hrun, hstep⟩ := hphases.running k
  have hlane := safeLane_stepping (h.state.trans hs) (h.phase hp)
  rw [((hphases.cutOff k).calm h.calm).stepEndsSlot_eq (hrun.trans (h.running.trans hn))
    (hstep.trans (h.step.trans hi))] at hlane
  refine ⟨h.finished n ?_, fun hw hothers => ?_⟩
  · rw [hlane]
    exact endedIn_isFinished _ k n _ _ _
  · obtain ⟨hbefore, hafter⟩ := h.writes n hothers
    have hmem : (stopServing v k).mem = v.mem := by rw [hphases.1]
    have htick : (stopServing v k).tick = v.tick := by rw [hphases.1]
    have hcount : (stopServing v k).stepCount n = v.stepCount n := congrArg _ (congrArg (Memory.read · _) hmem)
    obtain ⟨hend, hresult⟩ := stepEndedIn_safeEnded (hmem ▸ hbefore.wf hw) k n i (v.resultBy k (v.lane k).safeCause)
    rw [htick, h.tick, hcount, hbefore.stepCount, ← hlane] at hend
    rw [← hlane] at hresult
    have hbounds := stepBase_bounds n i
    exact ⟨hend.kept hafter, (hafter.bytes (by omega) (by omega)).trans hresult⟩

end

end Sys2Proof.Machine

end

section
/-! SUPPORT. What the safe order leaves of the step in flight and of the lane that holds a transfer (O53), and that lanes and
units that agree are then at rest (R48, R162, R163). -/

namespace Sys2Proof.Machine

/-! ### The step in flight -/

theorem partialResult_verdict (s : State) (k : LaneId) (o : StepOutcome) (d : StepDetail) :
    (s.partialResult k o d).outcome = o ∧ (s.partialResult k o d).detail = d := by
  unfold State.partialResult
  dsimp only
  split
  · split
    · exact ⟨rfl, rfl⟩
    · exact ⟨rfl, rfl⟩
  · exact ⟨rfl, rfl⟩
  · split
    · exact ⟨rfl, rfl⟩
    · exact ⟨rfl, rfl⟩
  · exact ⟨rfl, rfl⟩

/-- The step in flight is ABORTED with detail SAFE, or SKIPPED in the race of R162 (R49; log 35). -/
theorem resultBy_safeCause_bytes {s : State} {k : LaneId} {m : Memory} {a : Nat}
    (h : Memory.bytes m a 12 = (s.resultBy k (s.lane k).safeCause).bytes) :
    Memory.bytes m a 2 = (if (s.lane k).entered then [0x06#8, 0x00#8] else [0x05#8, 0x0F#8]) ∧
      ((s.lane k).entered = true → Memory.bytes m (a + 2) 10 = List.replicate 10 0x00#8) := by
  rw [Memory.bytes_add m a 2 10] at h
  have hlength : (Memory.bytes m a 2).length = 2 := by simp [Memory.bytes]
  unfold Lane.safeCause at h
  cases he : (s.lane k).entered with
  | true =>
    rw [he, if_pos rfl, resultBy_safeRace, skipped_bytes] at h
    have hskipped : Memory.bytes m a 2 ++ Memory.bytes m (a + 2) 10 =
      [0x06#8, 0x00#8] ++ List.replicate 10 0x00#8 := h
    obtain ⟨h1, h2⟩ := List.append_inj hskipped hlength
    exact ⟨h1, fun _ => h2⟩
  | false =>
    obtain ⟨ho, hd⟩ := partialResult_verdict s k .aborted .safe
    rw [he, if_neg Bool.false_ne_true, resultBy_partial s k .safeOrder nofun] at h
    unfold StepResult.bytes at h
    simp only [EndCause.outcome, ho, hd, List.append_assoc] at h
    exact ⟨(List.append_inj h hlength).1, nofun⟩

/-! ### Every lane that holds a transfer -/

/-- An ordered lane that is settled is IDLE and quiet, or WINDING with its transfer. -/
theorem Lane.ordered.of_settled {l : Lane} (h : l.ordered) (hs : l.settled) :
    (l.state = .idle ∧ l.phase = .none) ∨ (l.state = .winding ∧ l.phase = .linking) := by
  obtain ⟨-, -, hquiet, hwind⟩ := h
  exact hs.imp (fun hs => ⟨hs, hquiet (.inl hs)⟩) fun hs => ⟨hs, (hwind hs).1⟩

/-- A lane that holds no transfer never winds one down. -/
theorem SafeTurn.linking_of_winding {u v : State} {k : LaneId} (h : SafeTurn u k v) (hu : u.AllSeated)
    (hs : ((safeLanes u).lane k).state = .winding) : (u.lane k).phase = .linking := by
  by_contra hp
  have hp := h.phase hp
  have hseat := (h.calm.safeLane_allSeated (h.seated hu) k).seated k
  rw [h.after] at hs
  exact (h.calm.safeLane_linkSpared hp).phase k hp (hseat.ordered.2.2.2 hs).1

theorem State.AllSeated.grantee_of_linking {s : State} (h : s.AllSeated) {k : LaneId} (hp : (s.lane k).phase = .linking) :
    s.link.grantee = some k := ((h.seated k).holds .link).mp hp

theorem State.AllSeated.linkingLanes_eq {s : State} (h : s.AllSeated) {k : LaneId} (hp : (s.lane k).phase = .linking) :
    s.linkingLanes = [k] := by
  refine List.perm_singleton.mp ((List.perm_ext_iff_of_nodup (nodup_linkingLanes s) (List.nodup_singleton k)).mpr fun j => ?_)
  rw [mem_linkingLanes, List.mem_singleton]
  constructor
  · exact fun hj => Option.some.inj ((h.grantee_of_linking hj).symm.trans (h.grantee_of_linking hp))
  · rintro rfl
    exact hp

/-- The turn of the lane that holds a transfer comes last, in state v: no other lane waits for the link any more, and the
lane and its transfer are as they were (R155; log 5). -/
structure LinkTurn (u : State) (k : LaneId) (v : State) : Prop where
  calm : v.Calm
  seated : v.AllSeated
  lane : v.lane k = u.lane k
  link : v.link = { u.link with queue := [] }
  config : v.config = u.config
  last : safeLanes u = safeLane v k

theorem State.Calm.exists_linkTurn {u : State} (hc : u.Calm) (h : u.AllSeated) {k : LaneId}
    (hp : (u.lane k).phase = .linking) : ∃ v, LinkTurn u k v := by
  have hlast : safeLanes u = safeLane (u.atOnceLanes.foldl safeLane u) k := by
    unfold safeLanes
    rw [safeLaneOrder_eq, h.linkingLanes_eq hp, List.foldl_append]
    rfl
  have hcalm := hc.foldl_safeLane u.atOnceLanes
  have hseated := hc.foldl_safeLane_allSeated h u.atOnceLanes
  have hcut := hc.foldl_safeLane_cutOffs (nodup_atOnceLanes u)
  have hspared := hc.foldl_safeLane_linkSpared fun j hj => mem_atOnceLanes.mp hj
  have hsettled := fun j hj => hc.foldl_safeLane_settled h.runsAll u.atOnceLanes (j := j) (.inl hj)
  generalize u.atOnceLanes.foldl safeLane u = v at hlast hcalm hseated hcut hspared hsettled
  have hphase : (v.lane k).phase = .linking := ((hseated.seated k).holds .link).mpr (by
    show v.link.grantee = some k
    rw [hspared.link]
    exact h.grantee_of_linking hp)
  have hqueue : v.link.queue = [] := List.eq_nil_iff_forall_not_mem.mpr fun j hj => by
    have hwaits : (v.lane j).phase = .linkQueue := ((hseated.seated j).queued .link).mpr hj
    have hat : j ∈ u.atOnceLanes := mem_atOnceLanes.mpr fun hlinking => by
      have hjk : j = k := Option.some.inj ((h.grantee_of_linking hlinking).symm.trans (h.grantee_of_linking hp))
      rw [hjk, hphase] at hwaits
      cases hwaits
    rcases (hseated.seated j).ordered.of_settled (hsettled j hat) with ⟨-, hn⟩ | ⟨-, hn⟩ <;> cases hwaits.symm.trans hn
  refine ⟨v, hcalm, hseated, ?_, by rw [hspared.link, hqueue], by rw [hcut.rest], hlast⟩
  rw [hcut.lanes k fun hk => mem_atOnceLanes.mp hk hp, hphase, ← hp]

section
variable {u v : State} {k : LaneId} (h : LinkTurn u k v)
include h

/-- A lane that holds a transfer winds it down, except in START before the limit, where a free value decides (R48, R152;
log 8). -/
theorem LinkTurn.stepping (hs : (u.lane k).state = .stepping) (hp : (u.lane k).phase = .linking)
    (hl : u.link.phase ≠ .start ∨ u.config.stretch.toNat ≤ u.link.waited) :
    (safeLanes u).lane k =
        { u.lane k with state := .winding, stepTimer := none, cause := some (u.lane k).safeCause } ∧
      (safeLanes u).link = { u.link with queue := [], windDown := true } := by
  have hl' : v.link.phase ≠ .start ∨ v.linkWaitOver = true := by
    rw [linkWaitOver_eq_true, h.link, h.config]
    exact hl
  rw [← h.lane] at hs hp ⊢
  rw [h.last, safeLane_linking hs hp, windDown_marks v k _ hl', finishAct_nil]
  refine ⟨(wound_lane v k _ k).trans (if_pos rfl), ?_⟩
  show ({ v.link with windDown := true } : Link) = _
  rw [h.link]

/-- A WINDING lane goes on, for the safe order if it was for a step timeout (R48). -/
theorem LinkTurn.winding (hs : (u.lane k).state = .winding) :
    (safeLanes u).lane k = { u.lane k with
        cause := if (u.lane k).cause = some .stepTimeout then some (u.lane k).safeCause else (u.lane k).cause } ∧
      (safeLanes u).link = { u.link with queue := [] } := by
  rw [← h.lane] at hs ⊢
  rw [h.last, safeLane_winding hs, ← h.link]
  split
  · exact ⟨State.setLane_get_self _ _ _, rfl⟩
  · exact ⟨rfl, rfl⟩

/-- What a lane winds down for after the safe order ends its slot (R48). -/
theorem LinkTurn.cause (hp : (u.lane k).phase = .linking) : ((safeLanes u).lane k).cause ≠ some .stepTimeout := by
  have hcause := safeCause_ne_stepTimeout (v.lane k)
  have hord := (h.seated.seated k).ordered
  rw [← h.lane] at hp
  rw [h.last]
  cases hstate : (v.lane k).state with
  | idle => cases hp.symm.trans (hord.2.2.1 (.inl hstate))
  | claiming => cases hp.symm.trans (hord.2.2.1 (.inr (.inl hstate)))
  | gated => cases hp.symm.trans (hord.2.2.1 (.inr (.inr hstate)))
  | stepping =>
    obtain ⟨n, hn⟩ := hord.runs (by rw [hstate]; nofun)
    obtain ⟨i, hi⟩ := hord.2.1 (.inl hstate)
    rw [safeLane_linking hstate hp]
    generalize (v.lane k).safeCause = cause at hcause
    have hl := (wound_lane v k cause k).trans (if_pos rfl)
    have hl' : State.lane { wound v k cause with freeIndex := v.freeIndex + 1 } k =
      { v.lane k with state := .winding, stepTimer := none, cause := some cause } := hl
    have hcalm := (woundOn_cutOff v k cause (v.freeIndex + 1)).calm h.calm
    have hne : some cause ≠ some EndCause.stepTimeout := fun he => hcause (Option.some.inj he)
    rcases windDown_cases v k cause with hw | hw | hw
    · rwa [hw, finishAct_nil, hl]
    · rwa [hw, finishAct_nil, hl']
    · rw [hw, hcalm.endWindDown_eq (by rw [hl']; exact hn) (by rw [hl']; exact hi) hcause, stepEndedIn_lane]
      nofun
  | winding =>
    rw [safeLane_winding hstate]
    split
    · rw [State.setLane_get_self]
      exact fun he => hcause (Option.some.inj he)
    · assumption

end

/-! ### The tenth law -/

/-- Where lanes and units agree, a WINDING lane whose cause ends its slot winds its transfer down. -/
theorem State.lanesServed.winds {s : State} (h : s.lanesServed) {k : LaneId} (hs : (s.lane k).state = .winding)
    (hc : (s.lane k).cause ≠ some .stepTimeout) : s.winds k := by
  have hk := h.fits k
  obtain ⟨hp, cause, hcause⟩ := hk.ordered.2.2.2 hs
  obtain ⟨hg, hw⟩ := hk.winds.mp hs
  exact ⟨hs, hp, hg, hw, ⟨cause, hcause, fun he => hc (hcause.trans (congrArg some he))⟩,
    hk.ordered.runs (by rw [hs]; nofun), hk.ordered.2.1 (.inr hs)⟩

/-- Lanes and units that agree, with every lane IDLE or WINDING to the end of its slot and nothing held, are at rest. -/
theorem State.lanesServed.atRest {s : State} (h : s.lanesServed) (hs : ∀ k, (s.lane k).settled)
    (hc : ∀ k, (s.lane k).state = .winding → (s.lane k).cause ≠ some .stepTimeout) (hq : ∀ k, s.queue k = [])
    (hp : s.parked = []) (hu : s.unclaimed) : s.AtRest := by
  have hcases := fun k => (h.fits k).ordered.of_settled (hs k)
  have hphase (k : LaneId) : (s.lane k).phase = .none ∨ (s.lane k).phase = .linking := (hcases k).imp And.right And.right
  have hunserved {x : SharedUnit} (hx : x ≠ .link) : s.grantee x = none :=
    Option.eq_none_iff_forall_ne_some.mpr fun k hk => by
      have hhold := ((h.fits k).holds x).mpr hk
      rcases hphase k with hn | hl
      · exact x.hold_ne_none (hhold.symm.trans hn)
      · exact hx (SharedUnit.hold_inj.mp (hhold.symm.trans hl))
  refine ⟨hq, hp, hu, fun k => (hcases k).imp id fun hw => h.winds hw.1 (hc k hw.1), hunserved (x := .converter) nofun,
    hunserved (x := .monitor) nofun, List.eq_nil_iff_forall_not_mem.mpr fun k hk => ?_, fun k hk => ?_⟩
  · have hwait := ((h.fits k).queued .link).mpr hk
    rcases hphase k with hn | hl
    · cases hwait.symm.trans hn
    · cases hwait.symm.trans hl
  · have hhold := ((h.fits k).holds .link).mpr hk
    rcases hcases k with ⟨-, hn⟩ | ⟨hw, -⟩
    · cases hhold.symm.trans hn
    · exact h.winds hw (hc k hw)

end Sys2Proof.Machine

end

section
/-! MONITOR_EXPIRY (O53): the claim table, the lanes, the intake, the channels and the lines, in the model's order (R160, R161;
log 5). -/

namespace Sys2Proof.Machine

/-! ### The intake -/

/-- The slots the intake's part of the safe order ends (R161). -/
def State.unrun (s : State) : List SlotId := allLanes.flatMap s.queue ++ s.parked

theorem mem_unrun {s : State} {n : SlotId} : n ∈ s.unrun ↔ n ∈ s.parked ∨ ∃ k, n ∈ s.queue k := by
  unfold State.unrun
  simp [mem_allLanes, or_comm]

theorem safeIntake_mem (s : State) : (safeIntake s).mem = (s.unrun.foldl (endUnrun .safeAbort) s).mem := rfl

theorem safeIntake_isFinished (s : State) (n : SlotId) :
    (safeIntake s).isFinished n = (s.isFinished n || decide (n ∈ s.unrun)) :=
  (foldl_endUnrun .safeAbort s.unrun s).2.2 n

theorem safeIntake_writes (s : State) : SlotWrites (· ∈ s.unrun) s.mem (safeIntake s).mem :=
  (foldl_endUnrun .safeAbort s.unrun s).2.1

/-- Each of them ends unrun. -/
theorem safeIntake_safeEnded {s : State} (hw : Memory.wf s.mem) (hnodup : s.unrun.Nodup) {n : SlotId}
    (hn : n ∈ s.unrun) : SafeEnded s.tick n 0xFF#8 0 (s.stepCount n) (safeIntake s).mem := by
  rw [safeIntake_mem]
  obtain ⟨before, after, hsplit⟩ := List.append_of_mem hn
  rw [hsplit] at hnodup ⊢
  obtain ⟨hout, -⟩ := List.nodup_cons.mp (List.nodup_middle.mp hnodup)
  rw [List.foldl_append, List.foldl_cons]
  obtain ⟨hrest, hwrites, -⟩ := foldl_endUnrun .safeAbort before s
  have htick : (before.foldl (endUnrun .safeAbort) s).tick = s.tick := by rw [hrest]
  generalize before.foldl (endUnrun .safeAbort) s = v at hwrites htick
  have hend := (endUnrun_ended (hwrites.wf hw) n .safeAbort).safeEnded
  rw [hwrites.stepCount, htick] at hend
  refine hend.kept ((foldl_endUnrun .safeAbort after (endUnrun .safeAbort v n)).2.1.mono fun m hm hmn => ?_)
  exact hout (List.mem_append_right before (hmn ▸ hm))

/-- Two lanes run different slots, if both run one. -/
def State.RunApart (s : State) (j k : LaneId) : Prop :=
  ∀ n, (s.lane j).running = some n → ∀ m, (s.lane k).running = some m → n ≠ m

theorem State.runApart_symm (s : State) : Std.Symm s.RunApart := ⟨fun _ _ h n hn m hm he => h m hm n hn he.symm⟩

/-- Held slots that lie apart: no slot is queued or parked twice, and one that runs is neither, and runs on one lane. -/
theorem State.slotsApart.unrun {s : State} (h : s.slotsApart) :
    s.unrun.Nodup ∧ ∀ k n, (s.lane k).running = some n → n ∉ s.unrun ∧ ∀ j, j ≠ k → (s.lane j).running ≠ some n := by
  obtain ⟨hnodup, hrunning, hapart⟩ := List.nodup_append'.mp h.1
  refine ⟨hnodup, fun k n hk => ⟨fun hn => ?_, fun j hj hjn => ?_⟩⟩
  · exact hapart hn (List.mem_filterMap.mpr ⟨k, mem_allLanes k, hk⟩)
  · have hsymm := s.runApart_symm
    have hpair : allLanes.Pairwise s.RunApart := List.pairwise_filterMap.mp hrunning
    exact hpair.forall (mem_allLanes j) (mem_allLanes k) hj n hjn n hk rfl

/-! ### The whole expiry -/

/-- The part with SAFE entered and the claim table cleared: what the lanes take the safe order in. -/
@[irreducible] def State.declaimed (s : State) : State := (enterSafe s).clearClaims

theorem declaimed_eq (s : State) : s.declaimed = (enterSafe s).clearClaims := by unfold State.declaimed; rfl

theorem declaimed_claimsOnly (s : State) : ClaimsOnly (enterSafe s) s.declaimed := by
  rw [declaimed_eq]
  exact (clearClaims_spec (enterSafe s)).1

theorem declaimed_calm (s : State) : s.declaimed.Calm := by
  rw [declaimed_eq]
  exact enterSafe_clearClaims_calm s

theorem declaimed_allSeated {s : State} (h : s.lanesServed) : s.declaimed.AllSeated := by
  rw [declaimed_eq]
  exact clearClaims_allSeated h

/-- What clearing the claim table leaves as it was. -/
theorem declaimed_keeps (s : State) :
    s.declaimed.mem = s.mem ∧ s.declaimed.tick = s.tick ∧ s.declaimed.config = s.config ∧
    s.declaimed.queues = s.queues ∧ s.declaimed.parked = s.parked ∧ s.declaimed.finished = s.finished ∧
    s.declaimed.lines = s.lines ∧ s.declaimed.lanes = s.lanes ∧ s.declaimed.link = s.link := by
  have h := declaimed_claimsOnly s
  unfold ClaimsOnly at h
  rw [h]
  simp [enterSafe]

theorem declaimed_mem (s : State) : s.declaimed.mem = s.mem := (declaimed_keeps s).1

theorem declaimed_tick (s : State) : s.declaimed.tick = s.tick := (declaimed_keeps s).2.1

theorem declaimed_lane (s : State) (k : LaneId) : s.declaimed.lane k = s.lane k := by
  obtain ⟨-, -, -, -, -, -, -, hlanes, -⟩ := declaimed_keeps s
  unfold State.lane
  rw [hlanes]

theorem declaimed_stepCount (s : State) (n : SlotId) : s.declaimed.stepCount n = s.stepCount n := by
  unfold State.stepCount State.hdr
  rw [declaimed_mem]

theorem declaimed_chan (s : State) (c : ChanId) :
    s.declaimed.chan c = { s.chan c with pending := if s.ownerOf c = none then (s.chan c).pending else none } := by
  obtain ⟨-, -, -, -, hchan⟩ := clearClaims_spec (enterSafe s)
  rw [declaimed_eq]
  exact hchan c

/-- What the safe order changes after the lanes: the intake, the channels with their watches, and the lines. -/
structure AfterLanes (s t : State) : Prop where
  rest : t = { s with mem := t.mem, finished := t.finished, queues := t.queues, parked := [], channels := t.channels,
                      watches := t.watches, lines := t.lines }
  mem : t.mem = (safeIntake s).mem
  finished : t.finished = (safeIntake s).finished
  queue : ∀ k, t.queue k = []
  chan : ∀ c, t.chan c = s.config.safed c (s.chan c)
  line : ∀ l, t.line l = (s.line l).setTo (inLines s.config.safeLevel l) s.config.safeMode[l]

theorem afterLanes (s : State) : AfterLanes s (allLines.foldl safeLineOn (allChans.foldl safeOn (safeIntake s))) := by
  have hintake := safeIntake_eq s
  have hqueue : ∀ k, (safeIntake s).queue k = [] := vec4_get fun _ => []
  generalize hu : safeIntake s = u at hintake hqueue
  obtain ⟨hchans, hchan⟩ := foldl_safeOn u
  generalize allChans.foldl safeOn u = v at hchans hchan
  obtain ⟨hlines, hline⟩ := foldl_safeLineOn v
  generalize allLines.foldl safeLineOn v = t at hlines hline
  refine ⟨?_, ?_, ?_, fun k => ?_, fun c => ?_, fun l => ?_⟩
  · rw [hlines, hchans, hintake]
  · rw [hu, hlines, hchans]
  · rw [hu, hlines, hchans]
  · rw [hlines, hchans]
    exact hqueue k
  · have hc : t.chan c = v.chan c := by rw [hlines]; rfl
    rw [hc, hchan, hintake]
    rfl
  · have hl : v.line l = s.line l := by rw [hchans, hintake]; rfl
    rw [hline, hl, hchans, hintake]

theorem AfterLanes.lane {s t : State} (h : AfterLanes s t) (k : LaneId) : t.lane k = s.lane k := by
  rw [h.rest]
  rfl

theorem AfterLanes.link {s t : State} (h : AfterLanes s t) : t.link = s.link := by rw [h.rest]

theorem AfterLanes.calm {s t : State} (h : AfterLanes s t) (hc : s.Calm) : t.Calm := by
  rw [h.rest]
  exact hc

theorem AfterLanes.isFinished {s t : State} (h : AfterLanes s t) (n : SlotId) :
    t.isFinished n = (s.isFinished n || decide (n ∈ s.unrun)) := by
  rw [← safeIntake_isFinished]
  unfold State.isFinished
  rw [h.finished]

/-- The safe order on every lane leaves the part in SAFE with no claim, and changes lanes, slots and units alone (R49). -/
theorem safeLanes_declaimed_cutOffs (s : State) :
    CutOffs s.declaimed.safeLaneOrder s.declaimed (safeLanes s.declaimed) :=
  (declaimed_calm s).foldl_safeLane_cutOffs (nodup_safeLaneOrder s.declaimed)

theorem safeLanes_declaimed_calm (s : State) : (safeLanes s.declaimed).Calm := (declaimed_calm s).foldl_safeLane _

/-- What the claim table and the lanes leave as it was. -/
theorem safeLanes_declaimed_keeps (s : State) :
    (safeLanes s.declaimed).tick = s.tick ∧ (safeLanes s.declaimed).config = s.config ∧
      (safeLanes s.declaimed).unrun = s.unrun ∧ (safeLanes s.declaimed).lines = s.lines ∧
      (safeLanes s.declaimed).channels = s.declaimed.channels := by
  obtain ⟨-, htick, hconfig, hqueues, hparked, -, hlines, -⟩ := declaimed_keeps s
  obtain ⟨gtick, gconfig, gqueues, gparked, glines, gchannels⟩ := (safeLanes_declaimed_cutOffs s).keeps
  refine ⟨gtick.trans htick, gconfig.trans hconfig, ?_, glines.trans hlines, gchannels⟩
  unfold State.unrun State.queue
  rw [gqueues, hqueues, gparked, hparked]

theorem safeLanes_declaimed_finished {s : State} {n : SlotId} (hn : s.isFinished n = true) :
    (safeLanes s.declaimed).isFinished n = true := by
  obtain ⟨-, -, -, -, -, hfinished, -⟩ := declaimed_keeps s
  refine (safeLanes_declaimed_cutOffs s).finished n ?_
  unfold State.isFinished at *
  rw [hfinished]
  exact hn

/-- State t is what an expiry makes of s: the claims, the lanes, then the rest (R160; log 5). -/
def Expired (s t : State) : Prop := AfterLanes (safeLanes s.declaimed) t

theorem monitorExpiry_expired {s : State} (hdue : s.holdSafe.state = .watching ∧ s.holdSafe.expiryDue = true) :
    Expired s (monitorExpiry s) := by
  rw [monitorExpiry_due hdue, ← declaimed_eq]
  exact afterLanes _

section
variable {s t : State} (ht : Expired s t)
include ht

/-! ### The slots -/

theorem Expired.isFinished (n : SlotId) :
    t.isFinished n = ((safeLanes s.declaimed).isFinished n || decide (n ∈ s.unrun)) := by
  obtain ⟨-, -, hunrun, -, -⟩ := safeLanes_declaimed_keeps s
  rw [← hunrun]
  exact AfterLanes.isFinished ht n

theorem Expired.finishes {n : SlotId} (h : (safeLanes s.declaimed).isFinished n = true) : t.isFinished n = true := by
  rw [ht.isFinished, h, Bool.true_or]

/-- The intake's part leaves a slot that it does not end (R161). -/
theorem Expired.writesBut {n : SlotId} (hn : n ∉ s.unrun) :
    SlotWrites (· ≠ n) (safeLanes s.declaimed).mem t.mem := by
  obtain ⟨-, -, hunrun, -, -⟩ := safeLanes_declaimed_keeps s
  rw [ht.mem]
  exact (safeIntake_writes _).mono fun m hm hmn => hn (hunrun ▸ hmn ▸ hm)

/-- Every queued and parked slot ends unrun (R161). -/
theorem Expired.unrun {n : SlotId} (hn : n ∈ s.unrun) : t.isFinished n = true ∧
    (Memory.wf s.mem → s.slotsApart → SafeEnded s.tick n 0xFF#8 0 (s.stepCount n) t.mem) := by
  refine ⟨by rw [ht.isFinished, decide_eq_true hn, Bool.or_true], fun hw hapart => ?_⟩
  obtain ⟨htick, -, hunrun, -, -⟩ := safeLanes_declaimed_keeps s
  have hwrites : SlotWrites (fun _ => True) s.declaimed.mem (safeLanes s.declaimed).mem :=
    (safeLanes_declaimed_cutOffs s).writes _ fun _ _ _ _ => trivial
  have hend := safeIntake_safeEnded (n := n) (hwrites.wf ((declaimed_keeps s).1.symm ▸ hw)) (hunrun.symm ▸ hapart.unrun.1)
    (hunrun.symm ▸ hn)
  rw [htick, hwrites.stepCount, declaimed_stepCount] at hend
  rw [ht.mem]
  exact hend

/-- A CLAIMING or GATED lane ends its slot unrun (R49). -/
theorem Expired.waiting {k : LaneId} {n : SlotId} (hn : (s.lane k).running = some n)
    (hs : (s.lane k).state = .claiming ∨ (s.lane k).state = .gated) : t.isFinished n = true ∧
      (Memory.wf s.mem → s.slotsApart → SafeEnded s.tick n 0xFF#8 0 (s.stepCount n) t.mem) := by
  obtain ⟨v, hv⟩ := (declaimed_calm s).exists_safeTurn k
  rw [← declaimed_lane] at hn hs
  obtain ⟨hfinished, hend⟩ := hv.waiting hs hn
  refine ⟨ht.finishes hfinished, fun hw hapart => ?_⟩
  obtain ⟨hout, hothers⟩ := hapart.unrun.2 k n (declaimed_lane s k ▸ hn)
  have hended := hend (declaimed_mem s ▸ hw) fun j hj => declaimed_lane s j ▸ hothers j hj
  rw [declaimed_tick, declaimed_stepCount] at hended
  exact hended.kept (ht.writesBut hout)

/-- A STEPPING lane that holds no transfer ends its step and its slot (R49, R162). -/
theorem Expired.stepping {k : LaneId} {n : SlotId} {i : StepId} (hn : (s.lane k).running = some n)
    (hs : (s.lane k).state = .stepping) (hi : (s.lane k).step = some i) (hp : (s.lane k).phase ≠ .linking) :
    t.isFinished n = true ∧
      (Memory.wf s.mem → s.slotsApart →
        SafeEnded s.tick n (BitVec.ofNat 8 i.val) (i.val + 1) (s.stepCount n) t.mem ∧
        Memory.bytes t.mem (stepBase n i + 0x1C) 2 =
          (if (s.lane k).entered then [0x06#8, 0x00#8] else [0x05#8, 0x0F#8]) ∧
        ((s.lane k).entered = true →
          Memory.bytes t.mem (stepBase n i + 0x1E) 10 = List.replicate 10 0x00#8)) := by
  obtain ⟨v, hv⟩ := (declaimed_calm s).exists_safeTurn k
  have hentered : (v.lane k).entered = (s.lane k).entered := by rw [hv.entered, declaimed_lane]
  rw [← declaimed_lane] at hn hs hi hp
  obtain ⟨hfinished, hend⟩ := hv.stepping hs hp hn hi
  refine ⟨ht.finishes hfinished, fun hw hapart => ?_⟩
  obtain ⟨hout, hothers⟩ := hapart.unrun.2 k n (declaimed_lane s k ▸ hn)
  obtain ⟨hended, hresult⟩ := hend (declaimed_mem s ▸ hw) fun j hj => declaimed_lane s j ▸ hothers j hj
  rw [declaimed_tick, declaimed_stepCount] at hended
  have hwrites := ht.writesBut hout
  have hbounds := stepBase_bounds n i
  rw [← hentered]
  exact ⟨hended.kept hwrites, resultBy_safeCause_bytes ((hwrites.bytes (by omega) (by omega)).trans hresult)⟩

/-! ### Channels and lines -/

/-- Enabled channels take their safe target, and no claimed channel keeps a pending one (R85, R61). -/
theorem Expired.chan (c : ChanId) :
    t.chan c = s.config.safed c
      { s.chan c with pending := if s.ownerOf c = none then (s.chan c).pending else none } := by
  obtain ⟨-, hconfig, -, -, hchannels⟩ := safeLanes_declaimed_keeps s
  have hchan : (safeLanes s.declaimed).chan c = s.declaimed.chan c := by
    unfold State.chan
    rw [hchannels]
  rw [AfterLanes.chan ht, hconfig, hchan, declaimed_chan]

theorem Expired.line (l : LineId) :
    t.line l = (s.line l).setTo (inLines s.config.safeLevel l) s.config.safeMode[l] := by
  obtain ⟨-, hconfig, -, hlines, -⟩ := safeLanes_declaimed_keeps s
  have hline : (safeLanes s.declaimed).line l = s.line l := by
    unfold State.line
    rw [hlines]
  rw [AfterLanes.line ht, hconfig, hline]

/-! ### The lanes and the units -/

theorem Expired.unclaimed : t.unclaimed := by
  rw [ht.rest]
  exact (safeLanes_declaimed_calm s).2

/-- Every lane that runs a slot unless IDLE, and is at a step while STEPPING, ends IDLE or WINDING (R49). -/
theorem Expired.settled (h : s.runsAll) (k : LaneId) : (t.lane k).settled := by
  have hruns : s.declaimed.runsAll := fun j => by
    rw [declaimed_lane]
    exact h j
  rw [AfterLanes.lane ht]
  exact (declaimed_calm s).foldl_safeLane_settled hruns _ (.inl (mem_safeLaneOrder s.declaimed k))

end

section
variable {s t : State} (ht : Expired s t) (h : s.lanesServed)
include ht h

theorem Expired.linking_of_winding {k : LaneId} (hs : (t.lane k).state = .winding) :
    (s.lane k).phase = .linking := by
  obtain ⟨v, hv⟩ := (declaimed_calm s).exists_safeTurn k
  rw [AfterLanes.lane ht] at hs
  rw [← declaimed_lane]
  exact hv.linking_of_winding (declaimed_allSeated h) hs

/-- Where lanes and units agree, the expiry leaves the part at rest (R163). -/
theorem Expired.atRest (hserved : t.lanesServed) : t.AtRest := by
  have hseated : s.declaimed.AllSeated := declaimed_allSeated h
  have hruns : s.runsAll := fun j => by
    rw [← declaimed_lane]
    exact hseated.runsAll j
  refine hserved.atRest (ht.settled hruns) (fun k hs => ?_) ht.queue
    (by rw [ht.rest]) ht.unclaimed
  have hp := ht.linking_of_winding h hs
  rw [← declaimed_lane] at hp
  obtain ⟨v, hv⟩ := (declaimed_calm s).exists_linkTurn hseated hp
  rw [AfterLanes.lane ht]
  exact hv.cause hp

/-- The cause the safe order is to the lane that holds a transfer, and what it leaves of lane and link (R48, R49, R155). -/
theorem Expired.linking {k : LaneId} (hp : (s.lane k).phase = .linking) :
    ((s.lane k).state = .stepping → s.link.phase ≠ .start ∨ s.config.stretch.toNat ≤ s.link.waited →
      t.lane k = { s.lane k with state := .winding, stepTimer := none, cause := some (s.lane k).safeCause } ∧
      t.link = { s.link with queue := [], windDown := true }) ∧
    ((s.lane k).state = .winding →
      t.lane k = { s.lane k with
        cause := if (s.lane k).cause = some .stepTimeout then some (s.lane k).safeCause else (s.lane k).cause } ∧
      t.link = { s.link with queue := [] }) := by
  obtain ⟨-, -, hconfig, -, -, -, -, -, hlink⟩ := declaimed_keeps s
  rw [AfterLanes.lane ht, AfterLanes.link ht, ← declaimed_lane, ← hlink, ← hconfig]
  rw [← declaimed_lane] at hp
  obtain ⟨v, hv⟩ := (declaimed_calm s).exists_linkTurn (declaimed_allSeated h) hp
  exact ⟨fun hs hl => hv.stepping hs hp hl, hv.winding⟩

/-- The link serves no lane but the WINDING one that held it (R65, R155). -/
theorem Expired.grantee (hrest : t.AtRest) {k : LaneId} (hk : t.link.grantee = some k) :
    s.link.grantee = some k ∧ (t.lane k).state = .winding := by
  obtain ⟨hs, -⟩ := hrest.link k hk
  exact ⟨((h.fits k).holds .link).mp (ht.linking_of_winding h hs), hs⟩

end

/-- What an expiry leaves of the fields that no block's part reaches (R160). -/
theorem Expired.shape {s t : State} (ht : Expired s t) (he : EngineOnly (enterSafe s) t) :
    t = { s with mem := t.mem, queues := t.queues, parked := [], finished := t.finished, lanes := t.lanes,
                 chanOwner := t.chanOwner, lineOwner := t.lineOwner, waitList := [], channels := t.channels,
                 converter := t.converter, monitor := t.monitor, watches := t.watches, lines := t.lines,
                 link := t.link, freeIndex := t.freeIndex, holdSafe := ⟨.safe, s.holdSafe.count, false⟩ } := by
  have hparked : t.parked = [] := by rw [ht.rest]
  obtain ⟨-, -, hwaits⟩ := ht.unclaimed
  unfold EngineOnly at he
  rw [hparked, hwaits] at he
  exact he

end Sys2Proof.Machine

open Sys2Proof Sys2Proof.Machine

/-- Settles O53: each block's part from what the expiry leaves of it; the slots from what their lanes' turns, and then the
intake's part, write. -/
theorem monitorExpiryBringsSafety : Obligations.MonitorExpiryBringsSafety := by
  unfold Obligations.MonitorExpiryBringsSafety
  intro s hready
  have hexec : exec .monitorExpiry s = .next (monitorExpiry s) := exec_of_ready hready .monitorExpiry monitorExpiry rfl
  refine ⟨fun hnot => ?early, fun hwatching hexpiry => ⟨monitorExpiry s, hexec, ?_⟩⟩
  case early =>
    rw [hexec, monitorExpiry_not_due s]
    rintro ⟨hwatching, hexpiry⟩
    rcases hnot with hnot | hnot
    · exact hnot hwatching
    · cases hnot.symm.trans hexpiry
  have hdue := And.intro hwatching hexpiry
  have ht := monitorExpiry_expired hdue
  have hshape := ht.shape (monitorExpiry_engine hdue)
  have hserved := monitorExpiry_lanesServed s
  generalize monitorExpiry s = t at ht hshape hserved
  have hsafe : t.safe = true := by
    rw [hshape]
    rfl
  have hattn : t.attn = true := by
    unfold State.attn
    rw [hsafe, Bool.or_true, Bool.and_true, hshape]
    exact hready
  have hparts {n : SlotId} {detail : Byte} {first : Nat}
      (h : SafeEnded s.tick n detail first (s.stepCount n) t.mem) := And.intro (And.intro h.verdict h.endTick) h.skipped
  refine ⟨hshape, hsafe, hattn, ht.queue, ht.unclaimed, fun n hn => ht.finishes (safeLanes_declaimed_finished hn),
    ⟨fun n hn => ?unrun, fun k n hn => ⟨fun hs => ?waiting, fun i hs hi hp => ?stepping⟩⟩, fun c => ?chan, fun l => ?line,
    fun hruns hsteps => ht.settled fun k hk => ?runs, fun h => ?served⟩
  case unrun => exact (ht.unrun (mem_unrun.mpr hn)).imp_right fun hend hw hapart => hparts (hend hw hapart)
  case waiting => exact (ht.waiting hn hs).imp_right fun hend hw hapart => hparts (hend hw hapart)
  case stepping =>
    obtain ⟨hfinished, hend⟩ := ht.stepping hn hs hi hp
    refine ⟨hfinished, fun hw hapart => ?_⟩
    obtain ⟨hended, hresult⟩ := hend hw hapart
    obtain ⟨hverdict, hskipped⟩ := hparts hended
    exact ⟨hverdict, hskipped, hresult⟩
  case chan =>
    rw [ht.chan]
    rfl
  case line =>
    rw [ht.line]
    exact ⟨rfl, rfl, rfl⟩
  case runs => exact ⟨hruns k fun hidle => hk (.inl hidle), fun hs => hsteps k (.inl hs)⟩
  case served =>
    have hrest := ht.atRest h (hserved h)
    exact ⟨hrest.converter, hrest.monitor, hrest.linkQueue, fun k hk => ht.grantee h hrest hk,
      (tenthLaw_iff t).mpr fun _ => hrest, fun k hp => ht.linking h hp⟩

end
